-- ==== Sys2Proof/Word.lean ====
section
/-!
DEFINITION. Sys2Proof/Word.lean: the word types of the block (spec/00_scope.md R19, R20) and the six-byte station
address. Every value is an unsigned bit field; bit 0 is the least significant bit.
-/
namespace Sys2Proof

/-- A register-window register, a descriptor word or a host physical address: 32 bits (R19). -/
abbrev Word := BitVec 32

/-- A PHY register or an EEPROM word: 16 bits (R19). -/
abbrev Half := BitVec 16

/-- A byte of host memory, a frame byte, a station-address byte. -/
abbrev Byte := BitVec 8

/-- A station address or a frame's destination: six bytes, `b0` the first on the wire (R115). -/
structure StationAddr where
  b0 : Byte
  b1 : Byte
  b2 : Byte
  b3 : Byte
  b4 : Byte
  b5 : Byte
deriving DecidableEq, Repr

/-- The six bytes in wire order. -/
def StationAddr.bytes (a : StationAddr) : List Byte := [a.b0, a.b1, a.b2, a.b3, a.b4, a.b5]

end Sys2Proof
end

