-- ==== Sys2Proof/Config.lean ====
section
/-!
DEFINITION. Sys2Proof/Config.lean: what an implementation or a platform fixes (spec/00_scope.md R3, R12 to R18), as
plain data, REGMAP and the names of the registers, the maps of the PHY registers and of the EEPROM, the device's power-on
values with the parts of the state they are values of, the events of the environment, and the FREE VALUES: opaque constants with
no body, which nothing in Lean can evaluate, for every draw of the spec (R24) and every OPEN parameter.
-/
namespace Sys2Proof

/-- The fifteen registers of the window (spec/10_state.md R101), in the order of their offsets. -/
inductive Reg
  | txControl | txDescBase | rxControl | rxDescBase | intrStatus | intrMask | intrControl | romInterface
  | stationControl | gmiiControl | rgDelay | rxMacControl | rxMacAddr25 | rxHashTable0 | rxHashTable1
deriving DecidableEq, Repr

/-- The two rings, and the DMA engine that serves each. -/
inductive Ring
  | tx | rx
deriving DecidableEq, Repr

/-- The four words of a descriptor (R130). -/
inductive DescWord
  | psize | cmdsts | bufptr | flags
deriving DecidableEq, Repr

/-- The direction of a management transaction (R120). -/
inductive MiiOp
  | rd | wr
deriving DecidableEq, Repr

/-- The chip model tag (R3). -/
inductive ChipModel
  | fe | ge
deriving DecidableEq, Repr

/-- Where the factory station address comes from (R16). -/
inductive SaSource
  | eeprom | apc
deriving DecidableEq, Repr

/-- The two readings of STOP's second pulse of SOFT, where the spec's rules disagree (log entry 37, DESIGN CHOICE). -/
inductive StopReading
  /-- R803, R815, D48: a soft reset like any other, every register that R803 lists a draw. -/
  | redrawn
  /-- R1003: ResetSeq's postcondition holds after STOP, so the pulse leaves the CFG bits and sets no status bit. -/
  | kept
deriving DecidableEq, Repr

/-- What RXDMA does with a frame at a software-owned slot (R544). -/
inductive RxFullPolicy
  | drop | hold | either
deriving DecidableEq, Repr

namespace Machine

/-! ### The registers and the hidden state of the device (spec/10_state.md) -/

/-- The stored words of the register window (R101 to R116), in the reference layout whatever REGMAP is. ENB of the two control registers is the engines' `en`; REQ
and EE_REQ are the controllers' `busy`; the data fields are their `rdata`. -/
structure Regs where
  /-- TxControl's CFG bits; bits 0 and 4 are 0 (R102). -/
  txCfg          : Word
  txDescBase     : Word
  /-- RxControl's CFG bits; bits 0 and 4 are 0 (R104). -/
  rxCfg          : Word
  rxDescBase     : Word
  intrStatus     : Word
  intrMask       : Word
  /-- IntrControl; bit 15 is SOFT, 1 exactly in the SOFT phase (R108, R405). -/
  intrControl    : Word
  /-- ROMInterface bits [15:8] and [2:0] as last written; the others are 0 (R407). -/
  romStored      : Half
  stationControl : Word
  /-- GMIIControl bits [15:5] and [2:0] as last written; the others are 0 (R407). -/
  gmiiStored     : Half
  rgDelay        : Word
  /-- The word at 0x60 (R114). -/
  rxMac          : Word
  /-- The word at 0x64 (R115). -/
  rxMacAddr25    : Word
  hash0          : Word
  hash1          : Word
deriving DecidableEq, Repr

/-- The management controller (R120). -/
structure Miic where
  busy  : Bool
  op    : MiiOp
  phy   : BitVec 5
  reg   : BitVec 5
  wdata : Half
  rdata : Option Half
deriving DecidableEq, Repr

/-- The EEPROM controller (R121). -/
structure Eec where
  busy  : Bool
  word  : BitVec 6
  rdata : Option Half
deriving DecidableEq, Repr

/-- A DMA engine (R122, R123). -/
structure Engine where
  en   : Bool
  base : Word
  ptr  : Nat
  kick : Bool
  idle : Bool
deriving DecidableEq, Repr

/-! ### Their power-on values in the reference configuration (R1000) -/

/-- The window at power-on: IntrMask 0 and SOFT 0 are the spec's (R107, R108); every other word is a draw in the spec
and 0 here (log entry 6, DESIGN CHOICE). -/
def Regs.reset : Regs where
  txCfg          := 0
  txDescBase     := 0
  rxCfg          := 0
  rxDescBase     := 0
  intrStatus     := 0
  intrMask       := 0
  intrControl    := 0
  romStored      := 0
  stationControl := 0
  gmiiStored     := 0
  rgDelay        := 0
  rxMac          := 0
  rxMacAddr25    := 0
  hash0          := 0
  hash1          := 0

/-- MIIC at power-on: idle, no result (R120); the latched fields are log entry 7. -/
def Miic.reset : Miic where
  busy  := false
  op    := .rd
  phy   := 0
  reg   := 0
  wdata := 0
  rdata := none

/-- EEC at power-on: idle, no result (R121); the latched word is log entry 7. -/
def Eec.reset : Eec where
  busy  := false
  word  := 0
  rdata := none

/-- A DMA engine at power-on: off, no kick (R122); base, pointer and idle are log entry 7. -/
def Engine.reset : Engine where
  en   := false
  base := 0
  ptr  := 0
  kick := false
  idle := false

end Machine

namespace Config

/-- One management transaction, as the history that PHY_SCRIPT relates to answers records it (R462): a read with
the answer it got, or a write that reached a present PHY. -/
structure PhyTxn where
  op   : MiiOp
  phy  : BitVec 5
  reg  : BitVec 5
  data : Half
deriving DecidableEq, Repr

/-- A condition on the bus history, for a clause of a PHY_SCRIPT about register `reg` of `phy` (R462). -/
inductive PhyGuard
  /-- The register has been read exactly n times before. -/
  | readsBefore (n : Nat)
  /-- The register has been read n times or more before. -/
  | readsAtLeast (n : Nat)
  /-- The last write to a register of the same PHY had `value` in the bits of `mask`. -/
  | lastWrite (reg : BitVec 5) (mask value : Half)
  /-- The guard does not hold. -/
  | unless (g : PhyGuard)
deriving DecidableEq, Repr

/-- One clause of a PHY_SCRIPT: while every guard holds of the history, a read of `reg` of `phy` answers `value` in the
bits of `mask`, and anything in the others (R462). -/
structure PhyClause where
  phy    : BitVec 5
  reg    : BitVec 5
  guards : List PhyGuard
  mask   : Half
  value  : Half
deriving DecidableEq, Repr

/-- PHY_SCRIPT, the relation on (history, address, register, answer) that a present PHY's answers meet (R462; log
entry 12). -/
inductive PhyScript
  /-- Every answer is a free draw. -/
  | any
  /-- The relation that a list of clauses states. -/
  | clauses (l : List PhyClause)
  /-- The k-th relation of the opaque family `phyRelation`: any relation whatever. -/
  | relation (k : Nat)
deriving DecidableEq, Repr

/-- The clauses by which the n-th read of a register answers the n-th of some values, the last one for ever after. -/
def pinnedReads (phy reg : BitVec 5) : Nat → List Half → List PhyClause
  | _, [] => []
  | n, [v] => [⟨phy, reg, [.readsAtLeast n], 0xFFFF#16, v⟩]
  | n, v :: w :: vs => ⟨phy, reg, [.readsBefore n], 0xFFFF#16, v⟩ :: pinnedReads phy reg (n + 1) (w :: vs)

/-- A word whose bit positions REGMAP gives: a register of the window or a word of a descriptor. -/
inductive LaidOut
  | reg (r : Reg)
  | desc (w : DescWord)
deriving DecidableEq, Repr

/-- Two bit positions of a word that trade places, against the reference layout of spec/10_state.md. -/
structure BitExchange where
  word : LaidOut
  i    : Fin 32
  j    : Fin 32
deriving DecidableEq, Repr

/-- REGMAP (R7, R18, R101): the offset of each register; the byte offset in its word of each station-address byte, which
is byte lane `saLane` of the word on the bus (R203); the codes of EE_OP; and the bit positions of the registers and of the
descriptor words, written as exchanges of positions from the reference layout, the first one first; every layout is some
list of exchanges, the reference layout the empty one. IntrMask has IntrStatus's layout and RxControl has TxControl's
(R104, R107). -/
structure RegMap where
  txControl      : BitVec 12
  txDescBase     : BitVec 12
  rxControl      : BitVec 12
  rxDescBase     : BitVec 12
  intrStatus     : BitVec 12
  intrMask       : BitVec 12
  intrControl    : BitVec 12
  romInterface   : BitVec 12
  stationControl : BitVec 12
  gmiiControl    : BitVec 12
  rgDelay        : BitVec 12
  rxMacControl   : BitVec 12
  rxMacAddr25    : BitVec 12
  rxHashTable0   : BitVec 12
  rxHashTable1   : BitVec 12
  /-- Of the word that holds the receive filter (R114, R115). -/
  saLane0        : BitVec 2
  saLane1        : BitVec 2
  /-- Of the word of bytes 2 to 5 (R115). -/
  saLane2        : BitVec 2
  saLane3        : BitVec 2
  saLane4        : BitVec 2
  saLane5        : BitVec 2
  /-- EE_OP of a read (R109). -/
  eeOpRead       : BitVec 2
  /-- EE_OP of a write (R109). -/
  eeOpWrite      : BitVec 2
  exchanges      : List BitExchange
deriving DecidableEq, Repr

/-- The reference REGMAP: the offsets of R101, station-address byte i at 0x62 + i (R115), the codes of R109, the bit
positions of spec/10_state.md. -/
def referenceMap : RegMap where
  txControl      := 0x000#12
  txDescBase     := 0x004#12
  rxControl      := 0x010#12
  rxDescBase     := 0x014#12
  intrStatus     := 0x020#12
  intrMask       := 0x024#12
  intrControl    := 0x028#12
  romInterface   := 0x03C#12
  stationControl := 0x040#12
  gmiiControl    := 0x044#12
  rgDelay        := 0x058#12
  rxMacControl   := 0x060#12
  rxMacAddr25    := 0x064#12
  rxHashTable0   := 0x068#12
  rxHashTable1   := 0x06C#12
  saLane0        := 2
  saLane1        := 3
  saLane2        := 0
  saLane3        := 1
  saLane4        := 2
  saLane5        := 3
  eeOpRead       := 0b10#2
  eeOpWrite      := 0b01#2
  exchanges      := []

/-- The PHY registers the block uses and the positions of their bits (R7, R305). -/
structure PhyMap where
  /-- The control register. -/
  bmcr        : BitVec 5
  /-- The status register. -/
  bmsr        : BitVec 5
  phyid1      : BitVec 5
  phyid2      : BitVec 5
  /-- The advertised capability. -/
  anar        : BitVec 5
  /-- The partner's capability. -/
  anlpar      : BitVec 5
  /-- The partner's extended status. -/
  aner        : BitVec 5
  /-- The advertised 1000 Mb/s capability. -/
  gtcr        : BitVec 5
  /-- The partner's 1000 Mb/s capability. -/
  gtsr        : BitVec 5
  /-- BMCR. -/
  reset       : Fin 16
  anEnable    : Fin 16
  isolate     : Fin 16
  anRestart   : Fin 16
  /-- BMSR. -/
  link        : Fin 16
  anComplete  : Fin 16
  /-- BMSR's technology abilities, five bits: the lowest one. -/
  capTag      : Fin 16
  /-- ANAR and ANLPAR. -/
  half10      : Fin 16
  full10      : Fin 16
  half100     : Fin 16
  full100     : Fin 16
  /-- ANLPAR. -/
  nextPage    : Fin 16
  /-- ANER. -/
  lpAnAble    : Fin 16
  /-- GTCR. -/
  adv1000Half : Fin 16
  adv1000Full : Fin 16
  /-- GTSR. -/
  lp1000Half  : Fin 16
  lp1000Full  : Fin 16
deriving DecidableEq, Repr

/-- The registers and bits of R305. -/
def referencePhyMap : PhyMap where
  bmcr        := 0
  bmsr        := 1
  phyid1      := 2
  phyid2      := 3
  anar        := 4
  anlpar      := 5
  aner        := 6
  gtcr        := 9
  gtsr        := 10
  reset       := 15
  anEnable    := 12
  isolate     := 10
  anRestart   := 9
  link        := 2
  anComplete  := 5
  capTag      := 11
  half10      := 5
  full10      := 6
  half100     := 7
  full100     := 8
  nextPage    := 15
  lpAnAble    := 0
  adv1000Half := 8
  adv1000Full := 9
  lp1000Half  := 10
  lp1000Full  := 11

/-- The map of the EEPROM: its words, the RGMII bit of the board word, and the lowest bit of each of the two bytes that a
station-address word holds (R7, R472). -/
structure EepromMap where
  signature : BitVec 6
  board     : BitVec 6
  sa01      : BitVec 6
  sa23      : BitVec 6
  sa45      : BitVec 6
  rgmii     : Fin 16
  evenByte  : Fin 16
  oddByte   : Fin 16
deriving DecidableEq, Repr

/-- The EEPROM map of R472. -/
def referenceEepromMap : EepromMap where
  signature := 0
  board     := 2
  sa01      := 3
  sa23      := 4
  sa45      := 5
  rgmii     := 7
  evenByte  := 0
  oddByte   := 8

/-- The values of the fields that HOST writes to StationControl and RGDelay (R111, R113; spec/93 Part 2): SPEED for each
speed, IFMODE below and at 1000 Mb/s, the bits of IFMODE that RGMII sets, and the pulse of RGDelay. -/
structure FieldCodes where
  speed10      : BitVec 2
  speed100     : BitVec 2
  speed1000    : BitVec 2
  ifMode       : BitVec 4
  ifModeGig    : BitVec 4
  ifModeRgmii  : BitVec 4
  delayPulse   : Word
  delayDefault : Word
deriving DecidableEq, Repr

/-- The values of R111 and R113. -/
def referenceCodes : FieldCodes where
  speed10      := 0b01#2
  speed100     := 0b10#2
  speed1000    := 0b11#2
  ifMode       := 0x4#4
  ifModeGig    := 0x7#4
  ifModeRgmii  := 0x3#4
  delayPulse   := 0x00000441#32
  delayDefault := 0x00000440#32

/-- The power-on values of the device and of the interrupt controller (R7, R1000, R120 to R125). Where the spec draws a
value, any value is one of these. -/
structure PowerOn where
  regs     : Machine.Regs
  miic     : Machine.Miic
  eec      : Machine.Eec
  tx       : Machine.Engine
  rx       : Machine.Engine
  removed  : Bool
  irqArmed : Bool
deriving DecidableEq, Repr

/-- The power-on values of State.reset: the spec's where it gives one, else zeros (log entries 6, 7). -/
def referencePowerOn : PowerOn where
  regs     := Machine.Regs.reset
  miic     := Machine.Miic.reset
  eec      := Machine.Eec.reset
  tx       := Machine.Engine.reset
  rx       := Machine.Engine.reset
  removed  := false
  irqArmed := true

/-- The parameter RX_BAD (R512): the free predicate of which nothing is known, or a concrete one that reports a bad
frame exactly when some bit of `mask` differs from `good`. -/
inductive RxBad
  | unknown
  | errorBits (mask good : BitVec 31)
deriving DecidableEq, Repr

/-- A frame that WIRE delivers: its bytes, and whether it has a receive error (R540). -/
structure Frame where
  bytes : List Byte
  bad   : Bool
deriving DecidableEq, Repr

/-- A frame given to WIRE: its bytes and the command bits [29:16] of its descriptor (R524). -/
structure SentFrame where
  bytes : List Byte
  cmd   : BitVec 14
deriving DecidableEq, Repr

/-- The agents whose enabled steps are fair (R457, R521, R541, R707), and HOST. -/
inductive FairAgent
  | host | miic | eec | txdma | rxdma | delivery
deriving DecidableEq, Repr

/-- One turn of one agent (R10): what a schedule is a list of. -/
inductive Turn
  | host
  | miic
  | eec
  | txdma
  | rxdma
  /-- WIRE appends a frame (R540). -/
  | frame (f : Frame)
  /-- WIRE takes a link-change event (R701). -/
  | link
  /-- The device is removed (R124). -/
  | remove
  /-- The IRQ agent sets status bits (R702). -/
  | irqBits (bits : Word)
  /-- The host's interrupt controller delivers the line (R707). -/
  | deliver
  /-- The host runs IRQ spuriously (R707). -/
  | spurious
  /-- A fair agent's turn: its step if that step is fairly enabled, else nothing. -/
  | fair (a : FairAgent)
deriving DecidableEq, Repr

/-- The parameters and platform inputs of a run (R3, R12 to R18), fixed for the run. -/
structure Params where
  /-- REGMAP (R101). -/
  regMap        : RegMap
  /-- The PHY registers (R305). -/
  phyMap        : PhyMap
  /-- The EEPROM map (R472). -/
  eepromMap     : EepromMap
  /-- The values of StationControl's and RGDelay's fields (R111, R113). -/
  codes         : FieldCodes
  /-- The power-on values (R1000). -/
  powerOn       : PowerOn
  chipModel     : ChipModel
  ringLen       : Nat
  bufSize       : Nat
  ethMinLen     : Nat
  /-- REG_BASE (R16). The spec states no width for it, and R19's 32 bits are those of the physical addresses programmed
  into the block; 32 bits here (log entry 40, DESIGN CHOICE). No rule computes with it: it is only kept as a handle. -/
  regBase       : Word
  irqLine       : Nat
  devicePresent : Bool
  mapOk         : Bool
  allocOk       : Bool
  txRingPa      : Word
  rxRingPa      : Word
  txPoolPa      : Word
  rxPoolPa      : Word
  envSa         : Option StationAddr
  saSource      : SaSource
  /-- EEPROM_IMAGE: words 0 to 63 (R16). -/
  eeprom        : Vector Half 64
  /-- phyPresent: bit a for address a (R126). -/
  phyPresent    : BitVec 32
  /-- PHY_SCRIPT (R462). -/
  phyScript     : PhyScript
  linkPollMax   : Nat
  anegPollMax   : Nat
  /-- LINK_STABLE as its truth table: bit 2·prev + now (R612). -/
  linkStable    : BitVec 4
  rxBad         : RxBad
  rxErrAdvance  : Bool
  rxFullPolicy  : RxFullPolicy
  hostAutoRearm : Bool
  miiFair       : Bool
  /-- What STOP's second pulse leaves (R803, R815, R1003; log entry 37). -/
  stopReading   : StopReading
  txCfg         : Word
  rxCfg         : Word
deriving DecidableEq, Repr

/-- The value of LINK_STABLE's default, (prev XOR now) = 0 (R612). -/
def linkStableDefault : BitVec 4 := 0b1001#4

/-- The EEPROM of spec/95_test_vectors.md: a signature and the address 00:11:22:33:44:55 (log entry 9). -/
def referenceEeprom : Vector Half 64 :=
  ((((Vector.replicate 64 (0#16)).set 0 0x0190#16).set 3 0x1100#16).set 4 0x3322#16).set 5 0x5544#16

/-- The parameters of State.reset: the reference values where 00_scope.md gives them (R12, R13, R14, R110 and the
defaults of R18); the others are the model's choice, most of them those of spec/95 (log entry 9, DESIGN CHOICE). -/
def reference : Params where
  regMap        := referenceMap
  phyMap        := referencePhyMap
  eepromMap     := referenceEepromMap
  codes         := referenceCodes
  powerOn       := referencePowerOn
  chipModel     := .fe
  ringLen       := 32
  bufSize       := 2048
  ethMinLen     := 60
  regBase       := 0xFEBF0000#32
  irqLine       := 11
  devicePresent := true
  mapOk         := true
  allocOk       := true
  txRingPa      := 0x00010000#32
  rxRingPa      := 0x00010200#32
  txPoolPa      := 0x00120000#32
  rxPoolPa      := 0x00100000#32
  envSa         := none
  saSource      := .eeprom
  eeprom        := referenceEeprom
  phyPresent    := 0x00000002#32
  phyScript     := .any
  linkPollMax   := 10
  anegPollMax   := 10
  linkStable    := linkStableDefault
  rxBad         := .unknown
  rxErrAdvance  := false
  rxFullPolicy  := .either
  hostAutoRearm := false
  miiFair       := true
  stopReading   := .redrawn
  txCfg         := 0x00001A00#32
  rxCfg         := 0x00001A0C#32

/-- FREE VALUE: the n-th draw (R24), where no pinned draw stands first (log entry 14). -/
opaque freeWord : Nat → Word

/-- FREE VALUE: the byte of host memory at an address that nothing has written (R1000; log entry 8). -/
opaque powerOnByte : Nat → Byte

/-- FREE VALUE: a PHY's answer, from the bus history, the address and the register (R460, R462; log entry 12). -/
opaque phyAnswer : List PhyTxn → BitVec 5 → BitVec 5 → Half

/-- FREE VALUE: the relations that PHY_SCRIPT can name by number; nothing is known of them (R462; log entry 12). -/
opaque phyRelation : Nat → List PhyTxn → BitVec 5 → BitVec 5 → Half → Bool

/-- FREE VALUE: the bytes sent for a TX descriptor that HOST never writes (R524; log entry 24). -/
opaque freeFrame : Nat → List Byte

/-- FREE VALUE: the OPEN parameter HASH_FN (R546; log entry 11). -/
opaque hashFn : StationAddr → BitVec 6

/-- FREE VALUE: the OPEN predicate RX_BAD, before `rxGoodWord` and `rxBadDelta` make it take both values (R512; log
entry 10). -/
opaque rxBadRaw : BitVec 31 → Bool

/-- FREE VALUE: a status word the free RX_BAD calls good (R512; log entry 10). -/
opaque rxGoodWord : BitVec 31

/-- FREE VALUE: the difference to a status word the free RX_BAD calls bad (R512; log entry 10). -/
opaque rxBadDelta : BitVec 31

/-- FREE VALUE: the n-th batch of turns of the free schedule (R10, R911; log entry 1). -/
opaque freeTurns : Nat → List Turn

end Config
end Sys2Proof
end

