-- ==== Sys2Proof/Syntax.lean ====
section
/-!
DEFINITION. Sys2Proof/Syntax.lean: the operations of the block, one constructor per row of spec/opcode_table.json, in
the table's order (spec/30_encoding.md R300 to R306, R312 to R316). A register access, a command word written to one
register, a CMDSTS word a DMA engine fetches, or a HOST entry point with its operands.
-/
namespace Sys2Proof

/-- One operation (R300 to R306). -/
inductive Instr
  /-- RD32.TxControl: RegRead32 at 0x00 (R400). -/
  | rd32TxControl
  /-- RD32.TxDescBase: RegRead32 at 0x04 (R400). -/
  | rd32TxDescBase
  /-- RD32.RxControl: RegRead32 at 0x10 (R400). -/
  | rd32RxControl
  /-- RD32.RxDescBase: RegRead32 at 0x14 (R400). -/
  | rd32RxDescBase
  /-- RD32.IntrStatus: RegRead32 at 0x20 (R400). -/
  | rd32IntrStatus
  /-- RD32.IntrMask: RegRead32 at 0x24 (R400). -/
  | rd32IntrMask
  /-- RD32.IntrControl: RegRead32 at 0x28 (R400). -/
  | rd32IntrControl
  /-- RD32.ROMInterface: RegRead32 at 0x3C (R400). -/
  | rd32ROMInterface
  /-- RD32.StationControl: RegRead32 at 0x40 (R400). -/
  | rd32StationControl
  /-- RD32.GMIIControl: RegRead32 at 0x44 (R400). -/
  | rd32GMIIControl
  /-- RD32.RGDelay: RegRead32 at 0x58 (R400). -/
  | rd32RGDelay
  /-- RD32.RxMacControl: RegRead32 at 0x60 (R400). -/
  | rd32RxMacControl
  /-- RD32.RxMacAddr25: RegRead32 at 0x64 (R400). -/
  | rd32RxMacAddr25
  /-- RD32.RxHashTable0: RegRead32 at 0x68 (R400). -/
  | rd32RxHashTable0
  /-- RD32.RxHashTable1: RegRead32 at 0x6C (R400). -/
  | rd32RxHashTable1
  /-- WR32.TxControl: RegWrite32 at 0x00 (R401). -/
  | wr32TxControl (v : Word)
  /-- WR32.TxDescBase: RegWrite32 at 0x04 (R401). -/
  | wr32TxDescBase (v : Word)
  /-- WR32.RxControl: RegWrite32 at 0x10 (R401). -/
  | wr32RxControl (v : Word)
  /-- WR32.RxDescBase: RegWrite32 at 0x14 (R401). -/
  | wr32RxDescBase (v : Word)
  /-- WR32.IntrStatus: RegWrite32 at 0x20 (R401). -/
  | wr32IntrStatus (v : Word)
  /-- WR32.IntrMask: RegWrite32 at 0x24 (R401). -/
  | wr32IntrMask (v : Word)
  /-- WR32.IntrControl: RegWrite32 at 0x28 (R401). -/
  | wr32IntrControl (v : Word)
  /-- WR32.ROMInterface: RegWrite32 at 0x3C (R401). -/
  | wr32ROMInterface (v : Word)
  /-- WR32.StationControl: RegWrite32 at 0x40 (R401). -/
  | wr32StationControl (v : Word)
  /-- WR32.GMIIControl: RegWrite32 at 0x44 (R401). -/
  | wr32GMIIControl (v : Word)
  /-- WR32.RGDelay: RegWrite32 at 0x58 (R401). -/
  | wr32RGDelay (v : Word)
  /-- WR32.RxMacControl: RegWrite32 at 0x60 (R401). -/
  | wr32RxMacControl (v : Word)
  /-- WR32.RxMacAddr25: RegWrite32 at 0x64 (R401). -/
  | wr32RxMacAddr25 (v : Word)
  /-- WR32.RxHashTable0: RegWrite32 at 0x68 (R401). -/
  | wr32RxHashTable0 (v : Word)
  /-- WR32.RxHashTable1: RegWrite32 at 0x6C (R401). -/
  | wr32RxHashTable1 (v : Word)
  /-- WR8.SA01: RegWrite8 at 0x62 + lane (R402). -/
  | wr8Sa01 (lane : BitVec 1) (b : Byte)
  /-- WR8.SA25: RegWrite8 at 0x64 + lane (R402). -/
  | wr8Sa25 (lane : BitVec 2) (b : Byte)
  /-- MII.READ: GMIIControl word with REQ = 1, OP_WR = 0 (R313, R451, R452). -/
  | miiRead (data : Half) (regad : BitVec 5) (phyad : BitVec 5)
  /-- MII.WRITE: GMIIControl word with REQ = 1, OP_WR = 1 (R313, R451, R453). -/
  | miiWrite (data : Half) (regad : BitVec 5) (phyad : BitVec 5)
  /-- MII.IDLE: GMIIControl word with REQ = 0 and no line bit (R313, R454). -/
  | miiIdle (data : Half) (regad : BitVec 5) (phyad : BitVec 5) (opWr : BitVec 1)
  /-- MII.BITBANG: GMIIControl word with REQ = 0 and a line bit (R313, R455). -/
  | miiBitbang (data : Half) (regad : BitVec 5) (phyad : BitVec 5) (opWr : BitVec 1) (lines : BitVec 4)
  /-- MII.RSVD: GMIIControl word with REQ = 1 and a line bit (R313, R455). -/
  | miiRsvd (data : Half) (regad : BitVec 5) (phyad : BitVec 5) (opWr : BitVec 1) (lines : BitVec 4)
  /-- EE.READ: ROMInterface word with EE_REQ = 1, EE_OP = 0b10 (R314, R469). -/
  | eeRead (data : Half) (word : BitVec 6)
  /-- EE.WRITE: ROMInterface word with EE_REQ = 1, EE_OP = 0b01 (R314, R471). -/
  | eeWrite (data : Half) (word : BitVec 6)
  /-- EE.RSVD0: ROMInterface word with EE_REQ = 1, EE_OP = 0b00 (R314, R471). -/
  | eeRsvd0 (data : Half) (word : BitVec 6)
  /-- EE.RSVD3: ROMInterface word with EE_REQ = 1, EE_OP = 0b11 (R314, R471). -/
  | eeRsvd3 (data : Half) (word : BitVec 6)
  /-- EE.RSVDLINES: ROMInterface word with EE_REQ = 1 and some bit of [6:0] set (R314, R471). -/
  | eeRsvdLines (data : Half) (word : BitVec 6) (op : BitVec 2) (low : BitVec 7)
  /-- EE.IDLE: ROMInterface word with EE_REQ = 0 (R314, R471). -/
  | eeIdle (data : Half) (word : BitVec 6) (op : BitVec 2) (low : BitVec 7)
  /-- TXCTL.KICK: TxControl word with ENB = 1, POLL = 1 (R315, R521). -/
  | txctlKick (cfgHi : BitVec 27) (cfgLo : BitVec 3)
  /-- TXCTL.ENABLE: TxControl word with ENB = 1, POLL = 0 (R315, R520). -/
  | txctlEnable (cfgHi : BitVec 27) (cfgLo : BitVec 3)
  /-- TXCTL.DISABLE: TxControl word with ENB = 0 (R315, R523). -/
  | txctlDisable (cfgHi : BitVec 27) (poll : BitVec 1) (cfgLo : BitVec 3)
  /-- RXCTL.KICK: RxControl word with ENB = 1, POLL = 1 (R315, R521). -/
  | rxctlKick (cfgHi : BitVec 27) (cfgLo : BitVec 3)
  /-- RXCTL.ENABLE: RxControl word with ENB = 1, POLL = 0 (R315, R520). -/
  | rxctlEnable (cfgHi : BitVec 27) (cfgLo : BitVec 3)
  /-- RXCTL.DISABLE: RxControl word with ENB = 0 (R315, R523). -/
  | rxctlDisable (cfgHi : BitVec 27) (poll : BitVec 1) (cfgLo : BitVec 3)
  /-- IC.SOFT: IntrControl word with SOFT = 1 (R315, R803). -/
  | icSoft (hi : Half) (lo : BitVec 15)
  /-- IC.RELEASE: IntrControl word with SOFT = 0 (R315, R804). -/
  | icRelease (hi : Half) (lo : BitVec 15)
  /-- IS.ACK: IntrStatus word: the bits to clear (R315, R705). -/
  | isAck (clear : Word)
  /-- TXD.HWOWN: CMDSTS word with OWN = 1, fetched by TXDMA (R316, R524). -/
  | txdHwown (intr : BitVec 1) (rsvd : BitVec 6) (cmd : BitVec 8) (status : Half)
  /-- TXD.SWOWN: CMDSTS word with OWN = 0, fetched by TXDMA (R316, R526). -/
  | txdSwown (intr : BitVec 1) (rsvd : BitVec 6) (cmd : BitVec 8) (status : Half)
  /-- RXD.HWOWN: CMDSTS word with OWN = 1, fetched by RXDMA (R316, R541). -/
  | rxdHwown (intr : BitVec 1) (rsvd : BitVec 6) (cmd : BitVec 8) (status : Half)
  /-- RXD.SWOWN: CMDSTS word with OWN = 0, fetched by RXDMA (R316, R543). -/
  | rxdSwown (intr : BitVec 1) (rsvd : BitVec 6) (cmd : BitVec 8) (status : Half)
  /-- ENTRY.INIT: INIT() (R809). -/
  | entryInit
  /-- ENTRY.SEND: SEND(p) (R506). -/
  | entrySend (payload : List Byte)
  /-- ENTRY.RECV: RECV(maxLen) (R530). -/
  | entryRecv (maxLen : Nat)
  /-- ENTRY.SET_FILTER: SET_FILTER(flags) (R810). -/
  | entrySetFilter (promisc : Bool) (multi : Bool) (broad : Bool)
  /-- ENTRY.SET_SA: SET_SA(addr) (R812). -/
  | entrySetSa (addr : StationAddr)
  /-- ENTRY.GET_LINK: GET_LINK() (R625). -/
  | entryGetLink
  /-- ENTRY.STOP: STOP() (R815). -/
  | entryStop
  /-- ENTRY.IRQ: IRQ() (R710). -/
  | entryIrq
  /-- ENTRY.TICK: TICK() (R720). -/
  | entryTick
deriving DecidableEq, Repr

end Sys2Proof
end

