-- ==== Sys2Proof/Machine/State.lean ====
section
/-!
DEFINITION. Sys2Proof/Machine/State.lean: everything the spec gives the block, as plain data (spec/10_state.md,
spec/70_reset_and_hazards.md R1000): the register window, the hidden device state, host memory, the Device Context,
HOST's position of control, the environment's queues, and the parameters of the run; with the reasons a step can stop.
-/
namespace Sys2Proof.Machine

/-! ### Names -/

/-- The link FSM's states (R144). -/
inductive Fsm
  | scanning | phySelected | resetting | awaitingLink | awaitingAutoneg | negotiated | noTransceiver | linkDownTimeout
deriving DecidableEq, Repr

/-- The negotiated speed (R141). -/
inductive Speed
  | s10 | s100 | s1000
deriving DecidableEq, Repr

/-- The duplex flag (R141). -/
inductive Duplex
  | half | full
deriving DecidableEq, Repr

/-- The events the interrupt handler emits (R706, R713). -/
inductive HostEvent
  | sendAvailable | recvAvailable | linkChange
deriving DecidableEq, Repr

/-- What a HOST entry point returns (R809, R506, R530, R625, R905). -/
inductive HostReturn
  | done
  | ok
  | okAddress (a : StationAddr)
  | errorNoDevice
  | errorNoTransceiver
  | busy
  | received (k : Nat)
  | empty
  | up (speed : Speed) (duplex : Duplex)
  | down
deriving DecidableEq, Repr

/-- The refusals X1 to X13 (R904). A refusal is a MARK on the state: the refused operation has no effect, the mark
stays, the run may go on and is never final (R901, R911; log entry 5). -/
inductive Mark
  /-- X1, R403. -/
  | reservedOffset
  /-- X2, R402. -/
  | misalignedRegAccess
  /-- X3, R405. -/
  | accessDuringSoftReset
  /-- X4, R456. -/
  | miiBusy
  /-- X5, R455. -/
  | miiBitBang
  /-- X6, R468. -/
  | eeBusy
  /-- X7, R471. -/
  | eeWriteUnsupported
  /-- X8, R471. -/
  | reservedEncoding
  /-- X9, R307, R308. -/
  | fieldRange
  /-- X10, R209. -/
  | misalignedRingBase
  /-- X11, R209. -/
  | misalignedBuffer
  /-- X12, R317. -/
  | reservedDescriptorBit
  /-- X13, R506. -/
  | emptyPayload
deriving DecidableEq, Repr

/-- The fields of the Device Context that can be unset (R140). -/
inductive CtxField
  | regHandle | irqHandle | txCursor | rxCursor | stationAddress | speed | duplex | current | linkAtReset
deriving DecidableEq, Repr

/-- Who wrote to a slot it does not own (R903). -/
inductive Writer
  | host | txdma | rxdma
deriving DecidableEq, Repr

/-- The faults F1 to F8 with what R903 says is recorded. A fault ends the run (R900). -/
inductive Fault
  /-- F1, raised by INIT when MAP_OK is false (R806). Safe: the spec's own fault. -/
  | mapFailed
  /-- F2, raised by RingInit when ALLOC_OK is false (R504). Safe: the spec's own fault. -/
  | dmaAllocFailed
  /-- F3, raised by ResolveSA on the APC path with no override (R807). Safe: the spec's own fault. -/
  | unsupportedApc
  /-- F4, raised by SEND when L > BUF_SIZE (R506). Safe: the spec's own fault. -/
  | tooLarge (len : Nat)
  /-- F5, raised by a write to a word other than CMDSTS, or to a buffer, of a slot the writer does not own (R222,
  R501). Safe: the spec's own fault. -/
  | ownershipRace (ring : Ring) (slot : Nat) (writer : Writer)
  /-- F6, raised by a DMA engine that completes the last slot without RING_END (R522). Safe: the spec's own fault. -/
  | ringOverrun (ring : Ring)
  /-- F7, raised by a DMA access outside the allocated regions (R202). Safe: the spec's own fault. -/
  | dmaOutOfRegion (address : Nat)
  /-- F8, raised by a HOST read of an unset Device Context field (R140). Safe: the spec's own fault. -/
  | unsetContextField (field : CtxField)
deriving DecidableEq, Repr

/-- Why a step has no meaning. -/
inductive Refusal
  /-- An arm of exec that has no meaning yet. Safe: the model stops. -/
  | notModelled (mnemonic : String)
  /-- Raised by the fetch of HOST's next operation when the program's bytes are no operation that HOST can make: they
  end early, name no format, or hold a DMA engine's CMDSTS word (log entry 17). Safe: the model stops. -/
  | undecodable
deriving DecidableEq, Repr

/-! ### HOST's position of control (R151) -/

/-- Who reads the capability registers: the FSM's Negotiated state, with linkUp (R614), or GET_LINK (R625). -/
inductive ResolveFor
  | negotiated (linkUp : Bool)
  | getLink
deriving DecidableEq, Repr

/-- A point of a HOST sequence between two accesses, with the locals it needs. Each names the place in the pseudocode
that follows the access just made. -/
inductive HostPoint
  /-- R807: after ResetSeq. -/
  | resolveSa
  /-- R807: sig has been read. -/
  | saSignature
  /-- R807: word 2 has been read. -/
  | saBoard
  /-- R807: word 3 + k has been read; `acc` holds the bytes so far. -/
  | saWord (k : Nat) (acc : List Byte)
  /-- R504: before the allocation test. -/
  | ringInit
  /-- R504: before slot i of both rings. -/
  | initSlot (i : Nat)
  /-- R504: txCursor := 0; rxCursor := 0. -/
  | zeroCursors
  /-- R809: stationAddress goes to ProgramSA. -/
  | programStationAddress
  /-- R812: the word at 0x60 has been read the first time. -/
  | saDisable (a : StationAddr)
  /-- R812: the word at 0x60 has been read the second time. -/
  | saEnable (a : StationAddr)
  /-- R812: stationAddress := addr. -/
  | saRecord (a : StationAddr)
  /-- R601: the start of the FSM. -/
  | fsmStart
  /-- R602: st of address a has been read. -/
  | scanStatus (a : Nat)
  /-- R602: id1 has been read. -/
  | scanId1 (a : Nat) (st : Half)
  /-- R602: id2 has been read. -/
  | scanId2 (a : Nat) (st id1 : Half)
  /-- R604: st of phys[i] has been read. -/
  | selectStatus (i : Nat) (pref : Option Nat)
  /-- R606: BMCR has been read. -/
  | isolateWrite (a : BitVec 5)
  /-- R607: BMCR has been read. -/
  | unisolateWrite (a : BitVec 5)
  /-- R604: the latched read before the reset. -/
  | latchLink (a : BitVec 5)
  /-- R608: the reset has been written. -/
  | afterReset (a : BitVec 5)
  /-- R610: iteration i has read BMSR. -/
  | linkPoll (a : BitVec 5) (i : Nat) (prev : Bool)
  /-- R614: iteration i has read BMSR. -/
  | anegPoll (a : BitVec 5) (i : Nat)
  /-- R618: ANLPAR has been read. -/
  | capLpa (a : BitVec 5) (use : ResolveFor)
  /-- R618: ANAR has been read. -/
  | capAdv (a : BitVec 5) (use : ResolveFor) (lpa : Half)
  /-- R618: ANER has been read. -/
  | capAner (a : BitVec 5) (use : ResolveFor) (lpa adv : Half)
  /-- R618: GTCR has been read. -/
  | capGtcr (a : BitVec 5) (use : ResolveFor) (lpa adv aner : Half)
  /-- R618: GTSR has been read. -/
  | capGtsr (use : ResolveFor) (lpa adv aner gtcr : Half)
  /-- R621: StationControl has been read. -/
  | stationWrite (speed : Speed) (duplex : Duplex)
  /-- R616: StationControl has been written. -/
  | negotiated (linkUp : Bool)
  /-- R809: enabled := true; return Ok(stationAddress). -/
  | initDone
  /-- R506: CMDSTS of slot c has been read. -/
  | sendOwn (payload : List Byte) (c : Nat)
  /-- R506: CMDSTS of slot c is written, with cflags. -/
  | sendRelease (c : Nat)
  /-- R506, R530: the cursor moves past slot c. -/
  | advanceCursor (ring : Ring) (c : Nat)
  /-- R530: CMDSTS of slot c has been read. -/
  | recvOwn (c maxLen : Nat)
  /-- R530: PSIZE of slot c has been read. -/
  | recvLength (c maxLen : Nat)
  /-- R810: the word at 0x60 has been read. -/
  | filterWrite (f : Word)
  /-- R625: the latched BMSR has been read. -/
  | linkStatus (a : BitVec 5)
  /-- R710: IntrStatus has been read. -/
  | irqDecode
  /-- R710: emit e. -/
  | emit (e : HostEvent)
  /-- R710: irqArmed := true. -/
  | rearm
  /-- R815: release, and the clears of the context. -/
  | stopDone
  /-- `return r` (R24). -/
  | finish (r : HostReturn)
deriving DecidableEq, Repr

/-- One micro-operation of a HOST sequence: one access to the window or to host memory, or one point between two. -/
inductive HostOp
  /-- `RegRead32`: the value goes to HOST's local t. -/
  | rd32 (r : Reg)
  /-- `RegWrite32`. -/
  | wr32 (r : Reg) (v : Word)
  /-- `RegWrite8` of b at the offset of station-address byte i, 0x62 + i in the reference REGMAP (R402). -/
  | wr8 (i : Nat) (b : Byte)
  /-- The write of IntrControl with SOFT = 1 in STOP, in the reading of R1003 (R815; log entry 37). -/
  | stopPulse
  /-- The GMIIControl write of a management primitive: MiiCmd (R307, R463, R464). -/
  | miiCmd (op : MiiOp) (a r : Nat) (d : Half)
  /-- The ROMInterface write of EeRead: EeCmd (R308, R470). -/
  | eeCmd (w : Nat)
  /-- One iteration of a management completion poll (R463). -/
  | pollMii
  /-- One iteration of an EEPROM completion poll (R470). -/
  | pollEe
  /-- `MemRead` of a descriptor word: the value goes to HOST's local t. -/
  | memRead (ring : Ring) (i : Nat) (w : DescWord)
  /-- `MemWrite` of a descriptor word. -/
  | memWrite (ring : Ring) (i : Nat) (w : DescWord) (v : Word)
  /-- A copy of bytes into the buffer of a slot, from its byte `off` on. -/
  | bufWrite (ring : Ring) (i off : Nat) (bytes : List Byte)
  /-- A copy of the first k bytes of an RX buffer to the caller. -/
  | bufRead (i k : Nat)
  /-- The zeroing of both rings (R504). -/
  | zeroRings
  /-- A point between two accesses. -/
  | point (p : HostPoint)
deriving DecidableEq, Repr

/-! ### The parts of the state -/

/-- A PHY record (R143). -/
structure PhyRecord where
  addr   : BitVec 5
  id1    : Half
  id2    : Half
  status : Half
  capTag : BitVec 5
deriving DecidableEq, Repr

/-- The Device Context (R140 to R144). The chip model is State.cfg's. -/
structure Context where
  /-- The handle is REG_BASE, whose width the spec leaves open (log entry 40, DESIGN CHOICE). -/
  regHandle      : Option Word
  irqHandle      : Option Nat
  rgmii          : Bool
  speed          : Option Speed
  duplex         : Option Duplex
  autonegDone    : Bool
  /-- The rings and pools are allocated (R142, R504, R815). -/
  allocated      : Bool
  txCursor       : Option Nat
  rxCursor       : Option Nat
  phys           : List PhyRecord
  cur            : Option Nat
  enabled        : Bool
  stationAddress : Option StationAddr
  rxErrors       : Word
  fsm            : Fsm
  linkAtReset    : Option Bool
deriving DecidableEq, Repr

/-- Host memory: the bytes written so far, addresses strictly rising (log entry 8). -/
abbrev Memory := List Host.Cell

/-- The whole machine. -/
structure State where
  cfg          : Config.Params
  regs         : Regs
  miic         : Miic
  eec          : Eec
  tx           : Engine
  rx           : Engine
  /-- Arriving frames, the head first (R540). -/
  wireIn       : List Config.Frame
  /-- Frames given to WIRE, the oldest first (R524). -/
  wireOut      : List Config.SentFrame
  removed      : Bool
  irqArmed     : Bool
  /-- A delivered interrupt whose handler has not started (R707, R912). -/
  irqPending   : Bool
  /-- The management transactions so far, the oldest first (R462). -/
  phyLog       : List Config.PhyTxn
  mem          : Memory
  ctx          : Context
  statRxErrors : Word
  /-- What is left of the HOST entry point in progress; empty between entry points. -/
  ops          : List HostOp
  /-- HOST's local t: the word it read last, in the reference layout. -/
  hostT        : Word
  /-- HOST's local v[31:16]: the data of its last completed poll. -/
  hostD        : Half
  /-- The caller's destination buffer of the last RECV (R530). -/
  dst          : List Byte
  /-- What the last HOST entry point returned; none while one runs. -/
  ret          : Option HostReturn
  /-- The events emitted so far, the oldest first (R713). -/
  events       : List HostEvent
  /-- The refusal marks, the oldest first (R901). -/
  marks        : List Mark
  /-- The operations HOST is still to make, encoded (R915; log entry 2). -/
  prog         : List Byte
  /-- The model's own: the turns to come (log entry 1). -/
  sched        : List Config.Turn
  /-- The model's own: how many batches of the free schedule were taken (log entry 1). -/
  rounds       : Nat
  /-- The model's own: how many free values were drawn (log entry 14). -/
  draws        : Nat
  /-- The model's own: draws whose value is given, the next first (log entry 14). -/
  pins         : List Word
deriving DecidableEq, Repr

/-- What one step answers. -/
abbrev Result := Host.Outcome State Fault Refusal

/-! ### Reset: the power-on state (R1000, R1001) -/

/-- The Device Context at creation (R140). -/
def Context.reset : Context where
  regHandle      := none
  irqHandle      := none
  rgmii          := false
  speed          := none
  duplex         := none
  autonegDone    := false
  allocated      := false
  txCursor       := none
  rxCursor       := none
  phys           := []
  cur            := none
  enabled        := false
  stationAddress := none
  rxErrors       := 0
  fsm            := .scanning
  linkAtReset    := none

/-- The power-on state for any parameters, with the power-on values they name, the Device Context just created and no
program loaded (R7, R1000, R1004). -/
def powerOn (cfg : Config.Params) : State where
  cfg          := cfg
  regs         := cfg.powerOn.regs
  miic         := cfg.powerOn.miic
  eec          := cfg.powerOn.eec
  tx           := cfg.powerOn.tx
  rx           := cfg.powerOn.rx
  wireIn       := []
  wireOut      := []
  removed      := cfg.powerOn.removed
  irqArmed     := cfg.powerOn.irqArmed
  irqPending   := false
  phyLog       := []
  mem          := []
  ctx          := Context.reset
  statRxErrors := 0
  ops          := []
  hostT        := 0
  hostD        := 0
  dst          := []
  ret          := none
  events       := []
  marks        := []
  prog         := []
  sched        := []
  rounds       := 0
  draws        := 0
  pins         := []

/-- The machine right after power-on, with the reference parameters (log entries 6, 7, 9). -/
def State.reset : State := powerOn Config.reference

end Sys2Proof.Machine
end

