-- ==== Sys2Proof/Machine/Flags.lean ====
section
/-!
DEFINITION. Sys2Proof/Machine/Flags.lean: every status bit and predicate on a status word the spec gives: IntrStatus and
its decode (spec/44_interrupt_decoder.md), the interrupt line, the SOFT phase, the ownership and interrupt-request bits
of CMDSTS, RX_BAD, RING_END, LINK_STABLE, and when a DMA engine's step is fair.
-/
namespace Sys2Proof.Machine

/-! ### IntrStatus (R106, R700 to R706) -/

/-- TX_DONE [2]. -/
def txDoneBit : Word := 0x00000004#32
/-- TX_IDLE [3]. -/
def txIdleBit : Word := 0x00000008#32
/-- RX_DONE [6]. -/
def rxDoneBit : Word := 0x00000040#32
/-- RX_IDLE [7]. -/
def rxIdleBit : Word := 0x00000080#32
/-- LINK [16]. -/
def linkBit : Word := 0x00010000#32

/-- RECOGNIZED, the five events of the source (R703). -/
def recognized : Word := 0x000100CC#32

/-- The defined bits of IntrStatus: [7:0], [19:16], [29], [30]; the others read 0 (R106). -/
def definedStatus : Word := 0x600F00FF#32

/-- The bits only the IRQ agent sets: [0], [1], [4], [5], [17], [18], [19], [29], [30] (R702). -/
def irqAgentBits : Word := 0x600E0033#32

/-- A completed descriptor's status bit (R700). -/
def doneBit : Ring → Word
  | .tx => txDoneBit
  | .rx => rxDoneBit

/-- The status bit of an engine that goes idle (R700). -/
def idleBit : Ring → Word
  | .tx => txIdleBit
  | .rx => rxIdleBit

/-- `Decode(s)`, in dispatch order: at most one event of each pair of bits (R706, R713). -/
def decodeEvents (s : Word) : List HostEvent :=
  if s = 0xFFFFFFFF#32 then []
  else
    (if s &&& 0x0000000C#32 ≠ 0 then [.sendAvailable] else []) ++
    (if s &&& 0x000000C0#32 ≠ 0 then [.recvAvailable] else []) ++
    (if s &&& 0x00010000#32 ≠ 0 then [.linkChange] else [])

/-- The interrupt line, a level (R125, R704). -/
def irqLine (s : State) : Bool := decide (s.regs.intrStatus &&& s.regs.intrMask ≠ 0) && !s.removed

/-- The SOFT phase: IntrControl.SOFT reads 1 (R108, R405). -/
def softPhase (s : State) : Bool := s.regs.intrControl.getLsbD 15

/-! ### Descriptor words (R131, R132) -/

/-- CMDSTS.OWN [31]: 1 is hardware-owned (R131). -/
def ownBit (cmdsts : Word) : Bool := cmdsts.getLsbD 31

/-- CMDSTS.INTR [30] (R131). -/
def intrBit (cmdsts : Word) : Bool := cmdsts.getLsbD 30

/-- FLAGS.RING_END [31] (R132). -/
def ringEnd (flags : Word) : Bool := flags.getLsbD 31

/-- FLAGS.BUFLEN [15:0] (R132). -/
def bufLen (flags : Word) : Nat := (flags.extractLsb' 0 16).toNat

/-- PSIZE's byte count [15:0] (R133). -/
def byteCount (psize : Word) : Nat := (psize.extractLsb' 0 16).toNat

/-! ### RX_BAD (R512; log entry 10) -/

/-- The word that the predicate is sure to call `bad`. -/
def rxBadWitness (p : Config.RxBad) (bad : Bool) : BitVec 31 :=
  match p with
  | .unknown =>
    let delta := if Config.rxBadDelta = 0 then 1#31 else Config.rxBadDelta
    if bad then Config.rxGoodWord ^^^ delta else Config.rxGoodWord
  | .errorBits mask good => if bad then good ^^^ mask else good

/-- RX_BAD on the bits [30:0] of a status word: it cannot depend on bit 31 (R512). -/
def rxBadBits (p : Config.RxBad) (b : BitVec 31) : Bool :=
  match p with
  | .unknown =>
    if b = rxBadWitness p false then false
    else if b = rxBadWitness p true then true
    else Config.rxBadRaw b
  | .errorBits mask good => decide ((b ^^^ good) &&& mask ≠ 0)

/-- RX_BAD(s) (R512). -/
def rxBad (p : Config.RxBad) (cmdsts : Word) : Bool := rxBadBits p (cmdsts.extractLsb' 0 31)

/-- The CMDSTS word of an RX write-back: a draw with OWN = 0 and RX_BAD = bad (R542). -/
def rxWriteBackWord (p : Config.RxBad) (bad : Bool) (d : Word) : Word :=
  let b := d.extractLsb' 0 31
  0#1 ++ (if rxBadBits p b = bad then b else rxBadWitness p bad)

/-! ### What a fault state records (R900, R903) -/

/-- The spec's code of a fault: n for Fn (R903). -/
def faultCode : Fault → Nat
  | .mapFailed => 1
  | .dmaAllocFailed => 2
  | .unsupportedApc => 3
  | .tooLarge _ => 4
  | .ownershipRace _ _ _ => 5
  | .ringOverrun _ => 6
  | .dmaOutOfRegion _ => 7
  | .unsetContextField _ => 8

/-- The number of the rule that raised a fault (R900, R903). An ownership race is raised by R222, which R501 cites. -/
def faultRule : Fault → Nat
  | .mapFailed => 806
  | .dmaAllocFailed => 504
  | .unsupportedApc => 807
  | .tooLarge _ => 506
  | .ownershipRace _ _ _ => 222
  | .ringOverrun _ => 522
  | .dmaOutOfRegion _ => 202
  | .unsetContextField _ => 140

/-! ### LINK_STABLE and fairness -/

/-- LINK_STABLE(prev, now), from its truth table (R612). -/
def linkStable (table : BitVec 4) (prev now : Bool) : Bool := table.getLsbD (2 * prev.toNat + now.toNat)

/-- When an engine's visit is fair and not merely possible: it runs, or it is idle and kicked (R524, R541). -/
def visitFair (e : Engine) : Bool := e.en && (!e.idle || e.kick)

end Sys2Proof.Machine
end

