-- ==== Sys2Proof/WellFormed.lean ====
section
/-!
DEFINITION. Sys2Proof/WellFormed.lean: which terms of Instr stand for an operation that can be encoded. Every field but
five has the width of its bits, so only the patterns the spec tells apart by "nonzero" and the two operands of the
entry points that are not bit fields need a check.
-/
namespace Sys2Proof

/-- The five checks: a line bit is set in MII.BITBANG and MII.RSVD (R313), a bit of [6:0] is set in EE.RSVDLINES
(R314), and SEND's length and RECV's maxLen fit the model's 32-bit operand (log entry 21). -/
def Instr.WellFormed : Instr → Bool
  | .miiBitbang _ _ _ _ lines => decide (lines ≠ 0)
  | .miiRsvd _ _ _ _ lines => decide (lines ≠ 0)
  | .eeRsvdLines _ _ _ low => decide (low ≠ 0)
  | .entrySend payload => decide (payload.length < 2 ^ 32)
  | .entryRecv maxLen => decide (maxLen < 2 ^ 32)
  | _ => true

end Sys2Proof
end

