-- ==== Sys2Proof/Decode.lean ====
section
/-!
DEFINITION. Sys2Proof/Decode.lean: from bytes to operations and back (spec/30_encoding.md R300 to R318).
An operation is laid out as ONE format byte, which names what carries the word (the register it is written to, the
engine that fetches it; log entry 3), and then the format's word in little-endian order: a 16-bit ACC selector and its
data, a 32-bit command word, a 32-bit CMDSTS word, or an ENTRY code and its operands. The decoder is total and rejects
by name.
-/
namespace Sys2Proof

/-- What carries a word: the formats of R300 to R306, with CTL and DESC told apart by their register and their ring. -/
inductive Format
  | acc | miicmd | eecmd | txctl | rxctl | ic | is | txd | rxd | entry
deriving DecidableEq, Repr

/-- The format byte, the model's own (log entry 3). -/
def Format.tag : Format → Byte
  | .acc => 0x00#8 | .miicmd => 0x01#8 | .eecmd => 0x02#8 | .txctl => 0x03#8 | .rxctl => 0x04#8
  | .ic => 0x05#8 | .is => 0x06#8 | .txd => 0x07#8 | .rxd => 0x08#8 | .entry => 0x09#8

/-- The format a format byte names. -/
def Format.ofTag (t : Byte) : Option Format :=
  if t = 0x00#8 then some .acc else if t = 0x01#8 then some .miicmd else if t = 0x02#8 then some .eecmd
  else if t = 0x03#8 then some .txctl else if t = 0x04#8 then some .rxctl else if t = 0x05#8 then some .ic
  else if t = 0x06#8 then some .is else if t = 0x07#8 then some .txd else if t = 0x08#8 then some .rxd
  else if t = 0x09#8 then some .entry else none

/-- Why bytes are no operation. -/
inductive Reject
  /-- A 32-bit access at an offset outside R101, aligned or not (R317, R403; log entry 41). -/
  | reservedOffset
  /-- An 8-bit access outside the station-address bytes, or any width but the two of R300 (R208, R317). -/
  | misalignedRegAccess
  /-- A reserved ENTRY code, or a reserved operand bit of an entry point (R317; log entry 16). -/
  | reservedEncoding
  /-- The bytes end inside an operation, or the first byte names no format (log entry 17). -/
  | noOperation
deriving DecidableEq, Repr

/-- What the decoder finds: an operation and the bytes after it, or a reason and the bytes after what it read. -/
inductive Decoded
  | ok (i : Instr) (rest : List Byte)
  | reject (why : Reject) (rest : List Byte)
deriving DecidableEq, Repr

/-- A 32-bit word from its bytes, the lowest address first (R203, R204). -/
def wordOfBytes (b0 b1 b2 b3 : Byte) : Word := b3 ++ b2 ++ b1 ++ b0

/-- Byte lane k of a word: bits [8k+7 : 8k] (R203). -/
def byteOfWord (v : Word) (k : Nat) : Byte := v.extractLsb' (8 * k) 8

/-- The four bytes of a word, the lowest address first (R203, R204). -/
def wordBytes (v : Word) : List Byte := [byteOfWord v 0, byteOfWord v 1, byteOfWord v 2, byteOfWord v 3]

/-- The two bytes of a 16-bit word, the lowest address first. -/
def halfBytes (v : Half) : List Byte := [v.extractLsb' 0 8, v.extractLsb' 8 8]

/-! ### REGMAP -/

/-- The registers, in the order of R101. -/
def allRegs : List Reg :=
  [.txControl, .txDescBase, .rxControl, .rxDescBase, .intrStatus, .intrMask, .intrControl, .romInterface,
   .stationControl, .gmiiControl, .rgDelay, .rxMacControl, .rxMacAddr25, .rxHashTable0, .rxHashTable1]

/-- The byte offset of a register (R101). -/
def Config.RegMap.offset (m : Config.RegMap) : Reg → BitVec 12
  | .txControl => m.txControl
  | .txDescBase => m.txDescBase
  | .rxControl => m.rxControl
  | .rxDescBase => m.rxDescBase
  | .intrStatus => m.intrStatus
  | .intrMask => m.intrMask
  | .intrControl => m.intrControl
  | .romInterface => m.romInterface
  | .stationControl => m.stationControl
  | .gmiiControl => m.gmiiControl
  | .rgDelay => m.rgDelay
  | .rxMacControl => m.rxMacControl
  | .rxMacAddr25 => m.rxMacAddr25
  | .rxHashTable0 => m.rxHashTable0
  | .rxHashTable1 => m.rxHashTable1

/-- The register at an offset; every other offset is reserved (R101). -/
def Config.RegMap.regAt (m : Config.RegMap) (off : BitVec 12) : Option Reg :=
  allRegs.find? (fun r => decide (m.offset r = off))

/-- The byte lane on the bus, and so the byte offset in its word, of station-address byte i (R203, R115). -/
def Config.RegMap.saLane (m : Config.RegMap) : Nat → BitVec 2
  | 0 => m.saLane0
  | 1 => m.saLane1
  | 2 => m.saLane2
  | 3 => m.saLane3
  | 4 => m.saLane4
  | _ => m.saLane5

/-- The offset of station-address byte `lane`, of the two beside the receive filter (R114, R115). -/
def Config.RegMap.sa01 (m : Config.RegMap) (lane : BitVec 1) : BitVec 12 :=
  m.rxMacControl.extractLsb' 2 10 ++ m.saLane lane.toNat

/-- The offset of station-address byte 2 + `lane` (R115). -/
def Config.RegMap.sa25 (m : Config.RegMap) (lane : BitVec 2) : BitVec 12 :=
  m.rxMacAddr25.extractLsb' 2 10 ++ m.saLane (2 + lane.toNat)

/-- Which of the first two station-address bytes is written at an offset. -/
def Config.RegMap.sa01At (m : Config.RegMap) (off : BitVec 12) : Option (BitVec 1) :=
  [0#1, 1#1].find? (fun lane => decide (m.sa01 lane = off))

/-- Which of the last four station-address bytes is written at an offset, counted from byte 2. -/
def Config.RegMap.sa25At (m : Config.RegMap) (off : BitVec 12) : Option (BitVec 2) :=
  [0#2, 1#2, 2#2, 3#2].find? (fun lane => decide (m.sa25 lane = off))

/-- Two bits of a word trade places. -/
def swapBits (i j : Nat) (v : Word) : Word :=
  if v.getLsbD i = v.getLsbD j then v else v ^^^ (BitVec.twoPow 32 i ||| BitVec.twoPow 32 j)

/-- The word whose layout a word has (R104, R107). -/
def layoutOf : Config.LaidOut → Config.LaidOut
  | .reg .intrMask => .reg .intrStatus
  | .reg .rxControl => .reg .txControl
  | w => w

/-- One exchange, on the words it is about. -/
def exchange (w : Config.LaidOut) (e : Config.BitExchange) (v : Word) : Word :=
  if e.word = layoutOf w then swapBits e.i e.j v else v

/-- Two codes of a field trade places. -/
def swapCode (a b x : BitVec 2) : BitVec 2 := if x = a then b else if x = b then a else x

/-- The code that `swapCode 0b10 eeOpRead` gives the write, 0b01. -/
def Config.RegMap.eeOpMoved (m : Config.RegMap) : BitVec 2 := swapCode 0b10#2 m.eeOpRead 0b01#2

/-- A code of EE_OP in the reference layout, as REGMAP has it: the read's 0b10 becomes `eeOpRead` and the write's 0b01
becomes `eeOpWrite`; the two reserved codes are the two that are left (R109). -/
def Config.RegMap.eeOpToBus (m : Config.RegMap) (op : BitVec 2) : BitVec 2 :=
  swapCode m.eeOpMoved m.eeOpWrite (swapCode 0b10#2 m.eeOpRead op)

/-- A code of EE_OP as REGMAP has it, in the reference layout (R109). -/
def Config.RegMap.eeOpOfBus (m : Config.RegMap) (op : BitVec 2) : BitVec 2 :=
  swapCode 0b10#2 m.eeOpRead (swapCode m.eeOpMoved m.eeOpWrite op)

/-- A word with its field EE_OP recoded, if it is ROMInterface's (R109). -/
def recodeEeOp (f : BitVec 2 → BitVec 2) (w : Config.LaidOut) (v : Word) : Word :=
  if w = .reg .romInterface then v.extractLsb' 10 22 ++ f (v.extractLsb' 8 2) ++ v.extractLsb' 0 8 else v

/-- A word of the reference layout, as it stands in the register or in memory. -/
def Config.RegMap.toBus (m : Config.RegMap) (w : Config.LaidOut) (v : Word) : Word :=
  m.exchanges.foldl (fun x e => exchange w e x) (recodeEeOp m.eeOpToBus w v)

/-- A word as it stands in the register or in memory, in the reference layout. -/
def Config.RegMap.ofBus (m : Config.RegMap) (w : Config.LaidOut) (v : Word) : Word :=
  recodeEeOp m.eeOpOfBus w (m.exchanges.foldr (fun e x => exchange w e x) v)

/-- A word with one byte lane replaced (R402). -/
def setLane (w : Word) (k : Nat) (b : Byte) : Word :=
  (w &&& ~~~(0x000000FF#32 <<< (8 * k))) ||| (b.zeroExtend 32 <<< (8 * k))

/-- A word of the reference layout after a byte write of lane k of the word as it stands on the bus: that lane is `b`
there, and the other three keep their values (R203, R207, R402). -/
def Config.RegMap.writeLane (m : Config.RegMap) (w : Config.LaidOut) (k : Nat) (b : Byte) (v : Word) : Word :=
  m.ofBus w (setLane (m.toBus w v) k b)

/-- Byte lane j of a word of the reference layout is byte lane k of the word on the bus, its bits in their order. -/
def Config.RegMap.laneAt (m : Config.RegMap) (w : Config.LaidOut) (j k : Nat) : Bool :=
  (List.range 8).all (fun i => decide (m.toBus w (BitVec.twoPow 32 (8 * j + i)) = BitVec.twoPow 32 (8 * k + i)))

/-- The station-address bytes stand, as bytes, where `saLane` says (R114, R115): "byte i of the station address is the
register byte at offset 0x62 + i". -/
def Config.RegMap.saOk (m : Config.RegMap) : Bool :=
  (List.range 2).all (fun i => m.laneAt (.reg .rxMacControl) (2 + i) (m.saLane i).toNat) &&
    (List.range 4).all (fun i => m.laneAt (.reg .rxMacAddr25) i (m.saLane (2 + i)).toNat)

/-- A REGMAP of the spec: the offsets are 4-aligned, distinct and in the window of 0x80 bytes (R100, R101), the
station-address bytes are bytes of their words, no two of them one (R114, R115), and EE_OP tells a read from a write
(R109). -/
def Config.RegMap.ok (m : Config.RegMap) : Bool :=
  allRegs.all (fun r => decide (m.offset r < 0x080#12) && decide ((m.offset r).extractLsb' 0 2 = 0)) &&
    allRegs.all (fun r => allRegs.all (fun q => decide (r = q) || decide (m.offset r ≠ m.offset q))) &&
    decide (m.saLane0 ≠ m.saLane1) && decide [m.saLane2, m.saLane3, m.saLane4, m.saLane5].Nodup &&
    decide (m.eeOpRead ≠ m.eeOpWrite) && m.saOk

/-! ### Decoding -/

/-- The RD32 row of a register (R312). -/
def rd32Of : Reg → Instr
  | .txControl => .rd32TxControl
  | .txDescBase => .rd32TxDescBase
  | .rxControl => .rd32RxControl
  | .rxDescBase => .rd32RxDescBase
  | .intrStatus => .rd32IntrStatus
  | .intrMask => .rd32IntrMask
  | .intrControl => .rd32IntrControl
  | .romInterface => .rd32ROMInterface
  | .stationControl => .rd32StationControl
  | .gmiiControl => .rd32GMIIControl
  | .rgDelay => .rd32RGDelay
  | .rxMacControl => .rd32RxMacControl
  | .rxMacAddr25 => .rd32RxMacAddr25
  | .rxHashTable0 => .rd32RxHashTable0
  | .rxHashTable1 => .rd32RxHashTable1

/-- The WR32 row of a register (R312). -/
def wr32Of (v : Word) : Reg → Instr
  | .txControl => .wr32TxControl v
  | .txDescBase => .wr32TxDescBase v
  | .rxControl => .wr32RxControl v
  | .rxDescBase => .wr32RxDescBase v
  | .intrStatus => .wr32IntrStatus v
  | .intrMask => .wr32IntrMask v
  | .intrControl => .wr32IntrControl v
  | .romInterface => .wr32ROMInterface v
  | .stationControl => .wr32StationControl v
  | .gmiiControl => .wr32GMIIControl v
  | .rgDelay => .wr32RGDelay v
  | .rxMacControl => .wr32RxMacControl v
  | .rxMacAddr25 => .wr32RxMacAddr25 v
  | .rxHashTable0 => .wr32RxHashTable0 v
  | .rxHashTable1 => .wr32RxHashTable1 v

/-- A GMIIControl command word, first match in the order of R313. -/
def decodeMii (v : Word) : Instr :=
  let data := v.extractLsb' 16 16
  let regad := v.extractLsb' 11 5
  let phyad := v.extractLsb' 6 5
  let opWr := v.extractLsb' 5 1
  let lines := v.extractLsb' 0 4
  if lines = 0 then
    if v.getLsbD 4 then
      if v.getLsbD 5 then .miiWrite data regad phyad else .miiRead data regad phyad
    else .miiIdle data regad phyad opWr
  else if v.getLsbD 4 then .miiRsvd data regad phyad opWr lines
  else .miiBitbang data regad phyad opWr lines

/-- A ROMInterface command word, in the order of R314; its EE_OP is the reference layout's, whatever the codes of REGMAP. -/
def decodeEe (v : Word) : Instr :=
  let data := v.extractLsb' 16 16
  let word := v.extractLsb' 10 6
  let op := v.extractLsb' 8 2
  let low := v.extractLsb' 0 7
  if v.getLsbD 7 then
    if low = 0 then
      if op = 0b10#2 then .eeRead data word
      else if op = 0b01#2 then .eeWrite data word
      else if op = 0b00#2 then .eeRsvd0 data word
      else .eeRsvd3 data word
    else .eeRsvdLines data word op low
  else .eeIdle data word op low

/-- A TxControl word (R315). -/
def decodeTxctl (v : Word) : Instr :=
  let hi := v.extractLsb' 5 27
  let lo := v.extractLsb' 1 3
  if v.getLsbD 0 then
    if v.getLsbD 4 then .txctlKick hi lo else .txctlEnable hi lo
  else .txctlDisable hi (v.extractLsb' 4 1) lo

/-- An RxControl word (R315). -/
def decodeRxctl (v : Word) : Instr :=
  let hi := v.extractLsb' 5 27
  let lo := v.extractLsb' 1 3
  if v.getLsbD 0 then
    if v.getLsbD 4 then .rxctlKick hi lo else .rxctlEnable hi lo
  else .rxctlDisable hi (v.extractLsb' 4 1) lo

/-- An IntrControl word (R315). -/
def decodeIc (v : Word) : Instr :=
  if v.getLsbD 15 then .icSoft (v.extractLsb' 16 16) (v.extractLsb' 0 15)
  else .icRelease (v.extractLsb' 16 16) (v.extractLsb' 0 15)

/-- A CMDSTS word as the engine of a ring reads it: its OWN bit decides (R316). -/
def decodeDesc (r : Ring) (v : Word) : Instr :=
  let intr := v.extractLsb' 30 1
  let rsvd := v.extractLsb' 24 6
  let cmd := v.extractLsb' 16 8
  let status := v.extractLsb' 0 16
  match r, v.getLsbD 31 with
  | .tx, true => .txdHwown intr rsvd cmd status
  | .tx, false => .txdSwown intr rsvd cmd status
  | .rx, true => .rxdHwown intr rsvd cmd status
  | .rx, false => .rxdSwown intr rsvd cmd status

/-- A register access: selector, then the data of a write (R300, R312, R317). A write whose SZ is reserved has no data,
and the next byte begins the next operation (log entry 16, DESIGN CHOICE). A 32-bit access at an offset that is no multiple
of 4 is ReservedOffset, as R403 and its pseudocode have it, where R208 says MisalignedRegAccess; spec/90_conflicts.md does
not settle the two (log entry 41, DEDUCED). -/
def decodeAcc (m : Config.RegMap) (sel : Half) (rest : List Byte) : Decoded :=
  let w := sel.getLsbD 15
  let sz := sel.extractLsb' 12 3
  let off := sel.extractLsb' 0 12
  if sz = 0b010#3 then
    if w then
      match rest with
      | b0 :: b1 :: b2 :: b3 :: rest' =>
        match m.regAt off with
        | some r => .ok (wr32Of (m.ofBus (.reg r) (wordOfBytes b0 b1 b2 b3)) r) rest'
        | none => .reject .reservedOffset rest'
      | _ => .reject .noOperation []
    else
      match m.regAt off with
      | some r => .ok (rd32Of r) rest
      | none => .reject .reservedOffset rest
  else if sz = 0b000#3 ∧ w then
    match rest with
    | b :: rest' =>
      match m.sa01At off, m.sa25At off with
      | some lane, _ => .ok (.wr8Sa01 lane b) rest'
      | none, some lane => .ok (.wr8Sa25 lane b) rest'
      | none, none => .reject .misalignedRegAccess rest'
    | [] => .reject .noOperation []
  else .reject .misalignedRegAccess rest

/-- An entry point: its 4-bit code, then its operands (R306; log entry 21). -/
def decodeEntry (code : Byte) (rest : List Byte) : Decoded :=
  if code = 0x01#8 then .ok .entryInit rest
  else if code = 0x02#8 then
    match rest with
    | b0 :: b1 :: b2 :: b3 :: rest' =>
      let n := (wordOfBytes b0 b1 b2 b3).toNat
      if rest'.length < n then .reject .noOperation []
      else .ok (.entrySend (rest'.take n)) (rest'.drop n)
    | _ => .reject .noOperation []
  else if code = 0x03#8 then
    match rest with
    | b0 :: b1 :: b2 :: b3 :: rest' => .ok (.entryRecv (wordOfBytes b0 b1 b2 b3).toNat) rest'
    | _ => .reject .noOperation []
  else if code = 0x04#8 then
    match rest with
    | f :: rest' =>
      if f.extractLsb' 3 5 = 0 then .ok (.entrySetFilter (f.getLsbD 0) (f.getLsbD 1) (f.getLsbD 2)) rest'
      else .reject .reservedEncoding rest'
    | [] => .reject .noOperation []
  else if code = 0x05#8 then
    match rest with
    | b0 :: b1 :: b2 :: b3 :: b4 :: b5 :: rest' => .ok (.entrySetSa ⟨b0, b1, b2, b3, b4, b5⟩) rest'
    | _ => .reject .noOperation []
  else if code = 0x06#8 then .ok .entryGetLink rest
  else if code = 0x07#8 then .ok .entryStop rest
  else if code = 0x08#8 then .ok .entryIrq rest
  else if code = 0x09#8 then .ok .entryTick rest
  else .reject .reservedEncoding rest

/-- The word that a format's 32 bits are. -/
def Format.carrier : Format → Config.LaidOut
  | .eecmd => .reg .romInterface
  | .txctl => .reg .txControl
  | .rxctl => .reg .rxControl
  | .ic => .reg .intrControl
  | .is => .reg .intrStatus
  | .txd | .rxd => .desc .cmdsts
  | .acc | .miicmd | .entry => .reg .gmiiControl

/-- The word of a command-word or descriptor format, in the reference layout. -/
def decodeWord (f : Format) (v : Word) : Instr :=
  match f with
  | .eecmd => decodeEe v
  | .txctl => decodeTxctl v
  | .rxctl => decodeRxctl v
  | .ic => decodeIc v
  | .is => .isAck v
  | .txd => decodeDesc .tx v
  | .rxd => decodeDesc .rx v
  | .acc | .miicmd | .entry => decodeMii v

/-- The operation at the head of a list of bytes under a REGMAP, total on any bytes. -/
def decode (m : Config.RegMap) (bytes : List Byte) : Decoded :=
  match bytes with
  | [] => .reject .noOperation []
  | t :: rest =>
    match Format.ofTag t with
    | none => .reject .noOperation []
    | some .acc =>
      match rest with
      | b0 :: b1 :: rest' => decodeAcc m (b1 ++ b0) rest'
      | _ => .reject .noOperation []
    | some .entry =>
      match rest with
      | code :: rest' => decodeEntry code rest'
      | [] => .reject .noOperation []
    | some f =>
      match rest with
      | b0 :: b1 :: b2 :: b3 :: rest' => .ok (decodeWord f (m.ofBus f.carrier (wordOfBytes b0 b1 b2 b3))) rest'
      | _ => .reject .noOperation []

/-! ### Encoding -/

/-- The selector of a register access: W, SZ, OFF (R300). -/
def accSelector (w : BitVec 1) (sz : BitVec 3) (off : BitVec 12) : Half := w ++ sz ++ off

/-- An ACC operation: format byte, selector, data. -/
def encodeAcc (sel : Half) (data : List Byte) : List Byte := Format.acc.tag :: (halfBytes sel ++ data)

/-- A 32-bit read of a register (R400). -/
def encodeRead (m : Config.RegMap) (r : Reg) : List Byte := encodeAcc (accSelector 0#1 0b010#3 (m.offset r)) []

/-- A 32-bit write of a register (R401). -/
def encodeWrite (m : Config.RegMap) (r : Reg) (v : Word) : List Byte :=
  encodeAcc (accSelector 1#1 0b010#3 (m.offset r)) (wordBytes (m.toBus (.reg r) v))

/-- A command word or a CMDSTS word: format byte, word. -/
def encodeWord (m : Config.RegMap) (f : Format) (v : Word) : List Byte := f.tag :: wordBytes (m.toBus f.carrier v)

/-- A GMIIControl word from its fields (R301). -/
def miiWord (data : Half) (regad phyad : BitVec 5) (opWr req : BitVec 1) (lines : BitVec 4) : Word :=
  data ++ regad ++ phyad ++ opWr ++ req ++ lines

/-- A ROMInterface word from its fields (R302). -/
def eeWord (data : Half) (word : BitVec 6) (op : BitVec 2) (req : BitVec 1) (low : BitVec 7) : Word :=
  data ++ word ++ op ++ req ++ low

/-- A TxControl or RxControl word from its fields (R303). -/
def ctlWord (hi : BitVec 27) (poll : BitVec 1) (lo : BitVec 3) (enb : BitVec 1) : Word := hi ++ poll ++ lo ++ enb

/-- An IntrControl word from its fields (R303). -/
def icWord (hi : Half) (soft : BitVec 1) (lo : BitVec 15) : Word := hi ++ soft ++ lo

/-- A CMDSTS word from its fields (R304). -/
def cmdstsWord (own intr : BitVec 1) (rsvd : BitVec 6) (cmd : BitVec 8) (status : Half) : Word :=
  own ++ intr ++ rsvd ++ cmd ++ status

/-- The flags operand of SET_FILTER (log entry 21). -/
def filterByte (promisc multi broad : Bool) : Byte :=
  0#5 ++ BitVec.ofBool broad ++ BitVec.ofBool multi ++ BitVec.ofBool promisc

/-- An entry point: format byte, code, operands. -/
def encodeEntry (code : Byte) (operands : List Byte) : List Byte := Format.entry.tag :: code :: operands

/-- The bytes of an operation under a REGMAP, from the encoding tables of R300 to R306, R312 to R316. -/
def encode (m : Config.RegMap) : Instr → List Byte
  | .rd32TxControl => encodeRead m .txControl
  | .rd32TxDescBase => encodeRead m .txDescBase
  | .rd32RxControl => encodeRead m .rxControl
  | .rd32RxDescBase => encodeRead m .rxDescBase
  | .rd32IntrStatus => encodeRead m .intrStatus
  | .rd32IntrMask => encodeRead m .intrMask
  | .rd32IntrControl => encodeRead m .intrControl
  | .rd32ROMInterface => encodeRead m .romInterface
  | .rd32StationControl => encodeRead m .stationControl
  | .rd32GMIIControl => encodeRead m .gmiiControl
  | .rd32RGDelay => encodeRead m .rgDelay
  | .rd32RxMacControl => encodeRead m .rxMacControl
  | .rd32RxMacAddr25 => encodeRead m .rxMacAddr25
  | .rd32RxHashTable0 => encodeRead m .rxHashTable0
  | .rd32RxHashTable1 => encodeRead m .rxHashTable1
  | .wr32TxControl v => encodeWrite m .txControl v
  | .wr32TxDescBase v => encodeWrite m .txDescBase v
  | .wr32RxControl v => encodeWrite m .rxControl v
  | .wr32RxDescBase v => encodeWrite m .rxDescBase v
  | .wr32IntrStatus v => encodeWrite m .intrStatus v
  | .wr32IntrMask v => encodeWrite m .intrMask v
  | .wr32IntrControl v => encodeWrite m .intrControl v
  | .wr32ROMInterface v => encodeWrite m .romInterface v
  | .wr32StationControl v => encodeWrite m .stationControl v
  | .wr32GMIIControl v => encodeWrite m .gmiiControl v
  | .wr32RGDelay v => encodeWrite m .rgDelay v
  | .wr32RxMacControl v => encodeWrite m .rxMacControl v
  | .wr32RxMacAddr25 v => encodeWrite m .rxMacAddr25 v
  | .wr32RxHashTable0 v => encodeWrite m .rxHashTable0 v
  | .wr32RxHashTable1 v => encodeWrite m .rxHashTable1 v
  | .wr8Sa01 lane b => encodeAcc (accSelector 1#1 0b000#3 (m.sa01 lane)) [b]
  | .wr8Sa25 lane b => encodeAcc (accSelector 1#1 0b000#3 (m.sa25 lane)) [b]
  | .miiRead data regad phyad => encodeWord m .miicmd (miiWord data regad phyad 0#1 1#1 0#4)
  | .miiWrite data regad phyad => encodeWord m .miicmd (miiWord data regad phyad 1#1 1#1 0#4)
  | .miiIdle data regad phyad opWr => encodeWord m .miicmd (miiWord data regad phyad opWr 0#1 0#4)
  | .miiBitbang data regad phyad opWr lines => encodeWord m .miicmd (miiWord data regad phyad opWr 0#1 lines)
  | .miiRsvd data regad phyad opWr lines => encodeWord m .miicmd (miiWord data regad phyad opWr 1#1 lines)
  | .eeRead data word => encodeWord m .eecmd (eeWord data word 0b10#2 1#1 0#7)
  | .eeWrite data word => encodeWord m .eecmd (eeWord data word 0b01#2 1#1 0#7)
  | .eeRsvd0 data word => encodeWord m .eecmd (eeWord data word 0b00#2 1#1 0#7)
  | .eeRsvd3 data word => encodeWord m .eecmd (eeWord data word 0b11#2 1#1 0#7)
  | .eeRsvdLines data word op low => encodeWord m .eecmd (eeWord data word op 1#1 low)
  | .eeIdle data word op low => encodeWord m .eecmd (eeWord data word op 0#1 low)
  | .txctlKick hi lo => encodeWord m .txctl (ctlWord hi 1#1 lo 1#1)
  | .txctlEnable hi lo => encodeWord m .txctl (ctlWord hi 0#1 lo 1#1)
  | .txctlDisable hi poll lo => encodeWord m .txctl (ctlWord hi poll lo 0#1)
  | .rxctlKick hi lo => encodeWord m .rxctl (ctlWord hi 1#1 lo 1#1)
  | .rxctlEnable hi lo => encodeWord m .rxctl (ctlWord hi 0#1 lo 1#1)
  | .rxctlDisable hi poll lo => encodeWord m .rxctl (ctlWord hi poll lo 0#1)
  | .icSoft hi lo => encodeWord m .ic (icWord hi 1#1 lo)
  | .icRelease hi lo => encodeWord m .ic (icWord hi 0#1 lo)
  | .isAck clear => encodeWord m .is clear
  | .txdHwown intr rsvd cmd status => encodeWord m .txd (cmdstsWord 1#1 intr rsvd cmd status)
  | .txdSwown intr rsvd cmd status => encodeWord m .txd (cmdstsWord 0#1 intr rsvd cmd status)
  | .rxdHwown intr rsvd cmd status => encodeWord m .rxd (cmdstsWord 1#1 intr rsvd cmd status)
  | .rxdSwown intr rsvd cmd status => encodeWord m .rxd (cmdstsWord 0#1 intr rsvd cmd status)
  | .entryInit => encodeEntry 0x01#8 []
  | .entrySend payload => encodeEntry 0x02#8 (wordBytes (BitVec.ofNat 32 payload.length) ++ payload)
  | .entryRecv maxLen => encodeEntry 0x03#8 (wordBytes (BitVec.ofNat 32 maxLen))
  | .entrySetFilter promisc multi broad => encodeEntry 0x04#8 [filterByte promisc multi broad]
  | .entrySetSa addr => encodeEntry 0x05#8 addr.bytes
  | .entryGetLink => encodeEntry 0x06#8 []
  | .entryStop => encodeEntry 0x07#8 []
  | .entryIrq => encodeEntry 0x08#8 []
  | .entryTick => encodeEntry 0x09#8 []

/-! ### The opcode table's numbering -/

/-- The formats in which a bare word of the table is looked up: the table gives a row no format byte, so words of
different formats coincide, and the model picks the format of the narrowest pattern that the word meets (log entry 4). -/
def tableFormat (nbits w : Nat) : Format :=
  let v := BitVec.ofNat 32 w
  if nbits ≤ 8 ∧ 1 ≤ w ∧ w ≤ 9 then .entry
  else if nbits ≤ 16 ∧ 8 < nbits ∧ ((v.extractLsb' 12 3 = 0b010#3) ∨ (v.extractLsb' 3 13 = 0b1000000001100#13)) then .acc
  else if v.extractLsb' 0 5 = 0b10000#5 then .miicmd
  else if v.extractLsb' 0 8 = 0x80#8 then .eecmd
  else if v.getLsbD 0 then .txctl
  else if v.getLsbD 31 then .txd
  else if v.getLsbD 15 then .ic
  else if nbits ≤ 8 then .miicmd
  else if nbits ≤ 16 then .ic
  else .is

/-- The bytes of a table word: the picked format byte, the word in little-endian order with every bit above nbits 0,
and operand bytes of zero. -/
def tableBytes (nbits w : Nat) : List Byte :=
  let v := BitVec.ofNat 32 (w % 2 ^ nbits)
  match tableFormat nbits w with
  | .acc => encodeAcc (v.extractLsb' 0 16) (wordBytes 0#32)
  | .entry => encodeEntry (v.extractLsb' 0 8) (wordBytes 0#32 ++ [0#8, 0#8])
  | f => f.tag :: wordBytes v

/-- The operation the decoder reads from a table word, which the table writes for the reference REGMAP. -/
def decodeTableWord (nbits w : Nat) : Option Instr :=
  match decode Config.referenceMap (tableBytes nbits w) with
  | .ok i _ => some i
  | .reject _ _ => none

end Sys2Proof
end

