-- ==== Sys2Proof/Machine/Operands.lean ====
section
/-!
DEFINITION. Sys2Proof/Machine/Operands.lean: operand assembly (spec/30_encoding.md R307 to R311, spec/42 R507, spec/43
R617): command words, descriptor words and addresses, the capability resolution, the StationControl value, the filter
bits, the station address in the window.
-/
namespace Sys2Proof.Machine

/-! ### Command words -/

/-- `MiiCmd(RD, a, r)` and `MiiCmd(WR, a, r, d)` (R307). -/
def miiCmdWord (op : MiiOp) (a r : BitVec 5) (d : Half) : Word :=
  match op with
  | .rd => miiWord 0 r a 0#1 1#1 0#4
  | .wr => miiWord d r a 1#1 1#1 0#4

/-- `EeCmd(RD, w)` in the reference layout (R308). -/
def eeCmdWord (w : BitVec 6) : Word := eeWord 0 w 0b10#2 1#1 0#7

/-! ### Descriptors (R130, R142, R309) -/

/-- The place of a word in a descriptor (R130). -/
def wordIndex : DescWord → Nat
  | .psize => 0
  | .cmdsts => 1
  | .bufptr => 2
  | .flags => 3

/-- The address of a word of descriptor i of the ring at `base` (R130, R204). The spec does not say what base + 16·i is
past 2^32; it is taken mod 2^32 here, as R309 says of a buffer's address (log entry 38, DESIGN CHOICE). -/
def descAddr (base : Word) (i : Nat) (w : DescWord) : Word := base + BitVec.ofNat 32 (16 * i + 4 * wordIndex w)

/-- The physical base of a ring (R142). -/
def ringPa (cfg : Config.Params) : Ring → Word
  | .tx => cfg.txRingPa
  | .rx => cfg.rxRingPa

/-- The physical base of a buffer pool (R142). -/
def poolPa (cfg : Config.Params) : Ring → Word
  | .tx => cfg.txPoolPa
  | .rx => cfg.rxPoolPa

/-- `buf(ring, i)`, computed mod 2^32 (R142, R309). -/
def bufAddr (cfg : Config.Params) (ring : Ring) (i : Nat) : Word := poolPa cfg ring + BitVec.ofNat 32 (i * cfg.bufSize)

/-- RING_END on the last slot only (R309). -/
def endFlag (cfg : Config.Params) (i : Nat) : Word := if i + 1 = cfg.ringLen then 0x80000000#32 else 0#32

/-- The FLAGS word of a slot with a buffer length (R309). -/
def flagsWord (cfg : Config.Params) (i len : Nat) : Word := endFlag cfg i ||| (BitVec.ofNat 16 len).zeroExtend 32

/-- `cflags(duplex, speed)` (R507). -/
def cflags (duplex : Duplex) (speed : Speed) : Word :=
  match duplex, speed with
  | .full, _ => 0x00230000#32
  | .half, .s1000 => 0x00FF0000#32
  | .half, _ => 0x003F0000#32

/-- A release to the engine: OWN | INTR and the command bits (R502). -/
def releaseWord (flags : Word) : Word := 0xC0000000#32 ||| flags

/-! ### Speed and duplex (R310, R311, R617) -/

/-- The 10/100 part of Resolve: 100 full, 100 half, 10 full, 10 half, and 10 half for an empty intersection (R617). -/
def resolve100 (m : Config.PhyMap) (c : Half) : Speed × Duplex :=
  if c.getLsbD m.full100 then (.s100, .full)
  else if c.getLsbD m.half100 then (.s100, .half)
  else if c.getLsbD m.full10 then (.s10, .full)
  else if c.getLsbD m.half10 then (.s10, .half)
  else (.s10, .half)

/-- Whether Resolve looks at the 1000 Mb/s registers: a gigabit chip, a partner with next pages and extended status
(R617). -/
def gigGate (m : Config.PhyMap) (chip : ChipModel) (lpa aner : Half) : Bool :=
  decide (chip = .ge) && lpa.getLsbD m.nextPage && aner.getLsbD m.lpAnAble

/-- The full-duplex bit of the gigabit intersection (R310). -/
def gigFull (m : Config.PhyMap) (gtcr gtsr : Half) : Bool := gtcr.getLsbD m.adv1000Full && gtsr.getLsbD m.lp1000Full

/-- The half-duplex bit of the gigabit intersection (R310). -/
def gigHalf (m : Config.PhyMap) (gtcr gtsr : Half) : Bool := gtcr.getLsbD m.adv1000Half && gtsr.getLsbD m.lp1000Half

/-- `Resolve(lpa, adv, aner, gtcr, gtsr)` (R617). -/
def resolve (m : Config.PhyMap) (chip : ChipModel) (lpa adv aner gtcr gtsr : Half) : Speed × Duplex :=
  if gigGate m chip lpa aner && gigFull m gtcr gtsr then (.s1000, .full)
  else if gigGate m chip lpa aner && gigHalf m gtcr gtsr then (.s1000, .half)
  else resolve100 m (lpa &&& adv)

/-- SPEED(speed) (R111). -/
def speedCode (c : Config.FieldCodes) : Speed → BitVec 2
  | .s10 => c.speed10
  | .s100 => c.speed100
  | .s1000 => c.speed1000

/-- IFMODE(speed, rgmii) (R111, R311). -/
def ifModeCode (c : Config.FieldCodes) (speed : Speed) (rgmii : Bool) : BitVec 4 :=
  (match speed with
    | .s1000 => c.ifModeGig
    | _ => c.ifMode) ||| (if rgmii then c.ifModeRgmii else 0#4)

/-- SC_MASK (R111). -/
def scMask : Word := 0x0F001C00#32

/-- `SC(speed, duplex, rgmii, old)`: IFMODE at [27:24], SPEED at [11:10], FDX at [12], the rest kept (R311). -/
def stationWord (c : Config.FieldCodes) (speed : Speed) (duplex : Duplex) (rgmii : Bool) (old : Word) : Word :=
  (old &&& ~~~scMask) ||| ((ifModeCode c speed rgmii).zeroExtend 32 <<< 24) ||| ((speedCode c speed).zeroExtend 32 <<< 10)
    ||| (if duplex = .full then 0x00001000#32 else 0#32)

/-! ### Receive filter and station address (R114, R115, R810) -/

/-- RXF_MASK, the four accept bits (R114). -/
def rxfMask : Word := 0x00000F00#32

/-- The filter bits of SET_FILTER's flags: own address always; PROMISC sets all four (R810). -/
def filterBits (promisc multi broad : Bool) : Word :=
  0x00000200#32 ||| (if broad then 0x00000800#32 else 0#32) ||| (if multi then 0x00000400#32 else 0#32)
    ||| (if promisc then 0x00000F00#32 else 0#32)

/-- The station address the window holds, from its words in the reference layout (R114, R115). -/
def stationAddrOf (r : Regs) : StationAddr :=
  ⟨byteOfWord r.rxMac 2, byteOfWord r.rxMac 3, byteOfWord r.rxMacAddr25 0, byteOfWord r.rxMacAddr25 1,
    byteOfWord r.rxMacAddr25 2, byteOfWord r.rxMacAddr25 3⟩

/-- A frame's destination, when it has six bytes (R545). -/
def destOf : List Byte → Option StationAddr
  | b0 :: b1 :: b2 :: b3 :: b4 :: b5 :: _ => some ⟨b0, b1, b2, b3, b4, b5⟩
  | _ => none

/-- FF:FF:FF:FF:FF:FF. -/
def broadcastAddr : StationAddr := ⟨0xFF, 0xFF, 0xFF, 0xFF, 0xFF, 0xFF⟩

/-! ### PHY registers and the EEPROM (R305, R472) -/

/-- A word with one bit set. -/
def bit16 (k : Fin 16) : Half := 1#16 <<< k.val

/-- BMSR.LINK. -/
def linkOf (m : Config.PhyMap) (st : Half) : Bool := st.getLsbD m.link

/-- BMSR.ANCOMPLETE. -/
def anComplete (m : Config.PhyMap) (st : Half) : Bool := st.getLsbD m.anComplete

/-- The capTag of a BMSR word (R143). -/
def capTagOf (m : Config.PhyMap) (st : Half) : BitVec 5 := st.extractLsb' m.capTag 5

/-- BMCR_RESET_AN: RESET, ANENABLE, ANRESTART. -/
def bmcrResetAn (m : Config.PhyMap) : Half := bit16 m.reset ||| bit16 m.anEnable ||| bit16 m.anRestart

/-- BMCR_AN_ISO: ANENABLE, ISOLATE. -/
def bmcrAnIso (m : Config.PhyMap) : Half := bit16 m.anEnable ||| bit16 m.isolate

/-- BMCR_ISOLATE. -/
def bmcrIsolate (m : Config.PhyMap) : Half := bit16 m.isolate

/-- The EEPROM word that holds station-address bytes 2k and 2k + 1 (R472). -/
def saWordAt (m : Config.EepromMap) : Nat → BitVec 6
  | 0 => m.sa01
  | 1 => m.sa23
  | _ => m.sa45

/-- The two station-address bytes of an EEPROM word, the even one first (R472). -/
def saBytes (m : Config.EepromMap) (w : Half) : List Byte := [w.extractLsb' m.evenByte 8, w.extractLsb' m.oddByte 8]

end Sys2Proof.Machine
end

