-- ==== Sys2Proof/Machine/Ops.lean ====
section
/-!
DEFINITION. Sys2Proof/Machine/Ops.lean: the named operations that every meaning is written with: refusal marks, free
values, host memory, ownership and region checks, the register window (spec/40_register_interface.md), the management
and EEPROM controllers (spec/41), the engines' control and pointers (spec/42 R520 to R523), the soft reset (spec/45
R803), and interrupt entry and return (spec/60 R912, R913).
-/
namespace Sys2Proof.Machine

/-! ### Marks and free values -/

/-- `refuse(name)`: the mark is set and nothing else happens (R901). -/
def refuse (m : Mark) (s : State) : State := { s with marks := s.marks ++ [m] }

/-- The k-th draw from here: a pinned one if there is one, else a free value (R24; log entry 14). -/
def drawAt (s : State) (k : Nat) : Word :=
  match s.pins[k]? with
  | some v => v
  | none => Config.freeWord (s.draws + k)

/-- The state after n draws. -/
def drawn (n : Nat) (s : State) : State := { s with draws := s.draws + n, pins := s.pins.drop n }

/-- IntrStatus bits set by a device agent (R700 to R702). -/
def setStatus (bits : Word) (s : State) : State := { s with regs.intrStatus := s.regs.intrStatus ||| bits }

/-! ### Host memory (R202, R204; log entry 8) -/

/-- The cell at an address, if something wrote it. -/
def memGet? : Memory → Nat → Option Byte
  | [], _ => none
  | (b, v) :: m, a => if a = b then some v else memGet? m a

/-- What an address that nothing has written reads as: a free value, the same at every read (R1000). -/
def unlisted (a : Nat) : Byte := Config.powerOnByte a

/-- The byte at an address. -/
def memRead (m : Memory) (a : Word) : Byte := (memGet? m a.toNat).getD (unlisted a.toNat)

/-- A cell put in its place in the rising order. -/
def memInsert : Memory → Nat → Byte → Memory
  | [], a, v => [(a, v)]
  | (b, w) :: m, a, v =>
    if a < b then (a, v) :: (b, w) :: m
    else if a = b then (a, v) :: m
    else (b, w) :: memInsert m a v

/-- The memory after one byte's write. -/
def memWrite (m : Memory) (a : Word) (v : Byte) : Memory := memInsert m a.toNat v

/-- `MemRead(pa, n)` (R202). The spec does not say what pa + j is past 2^32: the address is taken mod 2^32 here, so the
byte after the last address is that at 0 (log entry 44, DESIGN CHOICE). -/
def memReadBytes (m : Memory) (a : Word) : Nat → List Byte
  | 0 => []
  | n + 1 => memRead m a :: memReadBytes m (a + 1) n

/-- `MemWrite(pa, n, v)`, the bytes written one after the other from an address on (R202), mod 2^32 as in `memReadBytes`
(log entry 44, DESIGN CHOICE). -/
def memWriteBytes (m : Memory) (a : Word) : List Byte → Memory
  | [] => m
  | b :: bs => memWriteBytes (memWrite m a b) (a + 1) bs

/-- `MemRead(pa, 4)`, little-endian (R204), mod 2^32 as in `memReadBytes` (log entry 44, DESIGN CHOICE). -/
def memReadWord (m : Memory) (a : Word) : Word :=
  wordOfBytes (memRead m a) (memRead m (a + 1)) (memRead m (a + 2)) (memRead m (a + 3))

/-- `MemWrite(pa, 4, v)`, little-endian (R204). -/
def memWriteWord (m : Memory) (a : Word) (v : Word) : Memory := memWriteBytes m a (wordBytes v)

/-- The canonical form: addresses strictly rising and inside 2^32. -/
def memWf : Memory → Bool
  | [] => true
  | [(a, _)] => decide (a < 2 ^ 32)
  | (a, _) :: (b, v) :: m => decide (a < b) && memWf ((b, v) :: m)

/-- The word w of descriptor i of the ring at `base`, in the reference layout (R130, R204). -/
def descGet (m : Config.RegMap) (mem : Memory) (base : Word) (i : Nat) (w : DescWord) : Word :=
  m.ofBus (.desc w) (memReadWord mem (descAddr base i w))

/-- The memory after one write of the word w of descriptor i of the ring at `base` (R130, R204, R215). -/
def descPut (m : Config.RegMap) (mem : Memory) (base : Word) (i : Nat) (w : DescWord) (v : Word) : Memory :=
  memWriteWord mem (descAddr base i w) (m.toBus (.desc w) v)

/-- Where word w of slot i of a ring, `D(ring, i).w`, stands as HOST addresses it (R130). -/
def slotAddr (s : State) (ring : Ring) (i : Nat) (w : DescWord) : Word := descAddr (ringPa s.cfg ring) i w

/-- `D(ring, i).w`. -/
def slotWord (s : State) (ring : Ring) (i : Nat) (w : DescWord) : Word :=
  descGet s.cfg.regMap s.mem (ringPa s.cfg ring) i w

/-- Word w of the descriptor an engine's pointer names (R524, R541). -/
def visitWord (s : State) (e : Engine) (w : DescWord) : Word := descGet s.cfg.regMap s.mem e.base e.ptr w

/-- The slot's owner: true is the DMA engine (R500). -/
def slotOwned (s : State) (ring : Ring) (i : Nat) : Bool := ownBit (slotWord s ring i .cmdsts)

/-! ### Regions and races -/

/-- Two address ranges share a byte. Their bytes are counted as numbers from their first one, with none taken mod 2^32 (log
entry 44, DESIGN CHOICE). -/
def overlaps (a n b m : Nat) : Bool := decide (a < b + m) && decide (b < a + n) && decide (0 < n) && decide (0 < m)

/-- An address inside the four allocated regions (R142, R202). None is past 2^32, wherever a region ends (log entry 32). -/
def inRegions (s : State) (a : Nat) : Bool :=
  let c := s.cfg
  decide (a < 2 ^ 32) && s.ctx.allocated &&
    ((decide (c.txRingPa.toNat ≤ a) && decide (a < c.txRingPa.toNat + 16 * c.ringLen)) ||
     (decide (c.rxRingPa.toNat ≤ a) && decide (a < c.rxRingPa.toNat + 16 * c.ringLen)) ||
     (decide (c.txPoolPa.toNat ≤ a) && decide (a < c.txPoolPa.toNat + c.bufSize * c.ringLen)) ||
     (decide (c.rxPoolPa.toNat ≤ a) && decide (a < c.rxPoolPa.toNat + c.bufSize * c.ringLen)))

/-- The first address of a DMA access that lies outside the regions (R202). -/
def dmaFault? (s : State) (a : Word) (n : Nat) : Option Nat :=
  ((List.range n).find? (fun j => !inRegions s (a.toNat + j))).map (fun j => a.toNat + j)

/-- Whether a range of bytes touches what only the owner of slot i of a ring may write: PSIZE, BUFPTR, FLAGS, or the
buffer of BUF_SIZE bytes (R142, R222, R501). A range that passes 2^32 is counted on past it, though its bytes are stored
mod 2^32 (log entry 44, DESIGN CHOICE). -/
def touchesSlot (s : State) (a : Word) (n : Nat) (ring : Ring) (i : Nat) : Bool :=
  let d := (descAddr (ringPa s.cfg ring) i .psize).toNat
  overlaps a.toNat n d 4 || overlaps a.toNat n (d + 8) 8 || overlaps a.toNat n (bufAddr s.cfg ring i).toNat s.cfg.bufSize

/-- Whether a writer owns a slot: HOST a software-owned one, an engine a hardware-owned one of its own ring (R500; that a
slot of the other ring is not an engine's is log entry 23). -/
def mayWrite (s : State) (w : Writer) (ring : Ring) (i : Nat) : Bool :=
  match w with
  | .host => !slotOwned s ring i
  | .txdma => decide (ring = .tx) && slotOwned s ring i
  | .rxdma => decide (ring = .rx) && slotOwned s ring i

/-- The slot whose race a write of n bytes is (R222, R501): the first slot that it touches and its writer does not own.
The spec does not say which of several is recorded: the lowest TX slot here, and if there is none the lowest RX slot
(log entry 23, DESIGN CHOICE). -/
def race? (s : State) (w : Writer) (a : Word) (n : Nat) : Option (Ring × Nat) :=
  let bad (ring : Ring) := (List.range s.cfg.ringLen).find? (fun i => touchesSlot s a n ring i && !mayWrite s w ring i)
  match bad .tx with
  | some i => some (.tx, i)
  | none => (bad .rx).map (fun i => (.rx, i))

/-! ### The engines' control registers (R520, R521, R523) -/

/-- The bits of a control register that are stored: all but ENB and POLL (R102). -/
def cfgMask : Word := 0xFFFFFFEE#32

/-- `TxCtlWrite(v)` and `RxCtlWrite(v)` on the engine: ENB's rise reloads base and pointer, POLL kicks, ENB = 0 stops
(R520, R521, R523). -/
def engineControl (e : Engine) (base v : Word) : Engine :=
  if v.getLsbD 0 then
    let e1 := if e.en then e else { en := true, base := base, ptr := 0, kick := false, idle := false }
    if v.getLsbD 4 then { e1 with kick := true } else e1
  else { e with en := false, kick := false }

/-- The effect of a TxControl or RxControl write. -/
def ctlWrite (ring : Ring) (v : Word) (s : State) : State :=
  match ring with
  | .tx => { s with regs.txCfg := v &&& cfgMask, tx := engineControl s.tx s.regs.txDescBase v }
  | .rx => { s with regs.rxCfg := v &&& cfgMask, rx := engineControl s.rx s.regs.rxDescBase v }

/-- Pointer advance past a completed descriptor with FLAGS `fl` (R522): none is the RingOverrun. -/
def nextPtr? (s : State) (p : Nat) (fl : Word) : Option Nat :=
  if ringEnd fl then some 0 else if p + 1 = s.cfg.ringLen then none else some (p + 1)

/-! ### The management and EEPROM controllers (spec/41) -/

/-- `MiiWrite(v)` (R451). -/
def miiWrite (v : Word) (s : State) : State :=
  if s.miic.busy then refuse .miiBusy s
  else if v.extractLsb' 0 4 ≠ 0 then refuse .miiBitBang s
  else
    let stored : Half := v.extractLsb' 5 11 ++ 0#5
    if v.getLsbD 4 then
      { s with
        regs.gmiiStored := stored
        miic := { busy := true, op := if v.getLsbD 5 then .wr else .rd, phy := v.extractLsb' 6 5, reg := v.extractLsb' 11 5,
                  wdata := v.extractLsb' 16 16, rdata := none } }
    else { s with regs.gmiiStored := stored }

/-- `EeWrite(v)` (R468, R471). A refused write stores nothing (R901; log entry 15). EE_OP's codes are the reference ones: v
is in the reference layout, to which `ofBus` brings the codes that REGMAP gives. -/
def eeWrite (v : Word) (s : State) : State :=
  let stored : Half := v.extractLsb' 8 8 ++ 0#5 ++ v.extractLsb' 0 3
  if s.eec.busy then refuse .eeBusy s
  else if !v.getLsbD 7 then { s with regs.romStored := stored }
  else if v.extractLsb' 0 7 ≠ 0 then refuse .reservedEncoding s
  else if v.extractLsb' 8 2 = 0b10#2 then
    { s with regs.romStored := stored, eec := { busy := true, word := v.extractLsb' 10 6, rdata := none } }
  else if v.extractLsb' 8 2 = 0b01#2 then refuse .eeWriteUnsupported s
  else refuse .reservedEncoding s

/-- How many reads of a PHY register the history holds. -/
def phyReads (log : List Config.PhyTxn) (a r : BitVec 5) : Nat :=
  (log.filter (fun t => decide (t.op = .rd) && decide (t.phy = a) && decide (t.reg = r))).length

/-- Whether a guard of a clause about register r of PHY a holds of the history (R462). -/
def guardHolds (log : List Config.PhyTxn) (a r : BitVec 5) : Config.PhyGuard → Bool
  | .readsBefore n => decide (phyReads log a r = n)
  | .readsAtLeast n => decide (n ≤ phyReads log a r)
  | .lastWrite q mask value =>
    match log.reverse.find? (fun t => decide (t.op = .wr) && decide (t.phy = a) && decide (t.reg = q)) with
    | some t => decide (t.data &&& mask = value &&& mask)
    | none => false
  | .unless g => !guardHolds log a r g

/-- Whether a clause says something of the next read of register r of PHY a (R462). -/
def clauseApplies (log : List Config.PhyTxn) (a r : BitVec 5) (c : Config.PhyClause) : Bool :=
  decide (c.phy = a) && decide (c.reg = r) && c.guards.all (guardHolds log a r)

/-- An answer with the bits that a clause states; the others are those of `d` (R462). -/
def clauseAnswer (c : Config.PhyClause) (d : Half) : Half :=
  if c.mask = 0xFFFF#16 then c.value else (d &&& ~~~c.mask) ||| (c.value &&& c.mask)

/-- The first value at or after d, counting round, that a predicate admits, in a number of tries. -/
def nextAdmitted (admits : Half → Bool) : Nat → Half → Option Half
  | 0, _ => none
  | n + 1, d => if admits d then some d else nextAdmitted admits n (d + 1)

/-- An answer that PHY_SCRIPT admits, made from the free answer d, which is itself the answer where the script says
nothing. Where two clauses contradict each other the earlier one holds, and where a relation admits no answer it is d
(R462; log entry 12). -/
def scriptAnswer (script : Config.PhyScript) (log : List Config.PhyTxn) (a r : BitVec 5) (d : Half) : Half :=
  match script with
  | .any => d
  | .clauses l => (l.filter (clauseApplies log a r)).foldr clauseAnswer d
  | .relation k => (nextAdmitted (Config.phyRelation k log a r) (2 ^ 16) d).getD d

/-- Whether a PHY is present at an address (R126). -/
def phyPresent (s : State) (a : BitVec 5) : Bool := s.cfg.phyPresent.getLsbD a.toNat

/-- `PhyRead(a, r)`: a present PHY gives an answer that PHY_SCRIPT admits, an absent address 0x0000 or 0xFFFF (R460,
R462). -/
def phyRead (s : State) (a r : BitVec 5) : Half :=
  let d := Config.phyAnswer s.phyLog a r
  if phyPresent s a then scriptAnswer s.cfg.phyScript s.phyLog a r d else if d.getLsbD 0 then 0xFFFF#16 else 0x0000#16

/-- `PhyWrite(a, r, d)`: a write to an absent address has no effect (R461). -/
def phyWrite (a r : BitVec 5) (d : Half) (s : State) : State :=
  if phyPresent s a then { s with phyLog := s.phyLog ++ [⟨.wr, a, r, d⟩] } else s

/-- MIIC's completion step (R452, R453). -/
def miiComplete (s : State) : State :=
  if s.miic.busy then
    match s.miic.op with
    | .rd =>
      let d := phyRead s s.miic.phy s.miic.reg
      { s with
        phyLog := s.phyLog ++ [⟨.rd, s.miic.phy, s.miic.reg, d⟩]
        miic := { s.miic with rdata := some d, busy := false } }
    | .wr =>
      let s' := phyWrite s.miic.phy s.miic.reg s.miic.wdata s
      { s' with miic := { s'.miic with rdata := none, busy := false } }
  else s

/-- EEPROM_IMAGE[w] (R16). -/
def eepromWord (cfg : Config.Params) (w : BitVec 6) : Half := cfg.eeprom.toList.getD w.toNat 0

/-- EEC's completion step (R469). -/
def eeComplete (s : State) : State :=
  if s.eec.busy then { s with eec := { s.eec with rdata := some (eepromWord s.cfg s.eec.word), busy := false } } else s

/-! ### The soft reset (R803) -/

/-- `SoftReset()` with the IntrControl value just written. The draws are taken in the order of R803's list (log
entries 14, 25); the ring bases keep [3:0] = 0 (R211) and IntrStatus its reserved bits 0 (R106). A PHY write in progress
reaches the PHY or not, by a draw. -/
def softReset (v : Word) (s : State) : State :=
  let s1 := if s.miic.busy ∧ s.miic.op = .wr ∧ (drawAt s 11).getLsbD 0 then phyWrite s.miic.phy s.miic.reg s.miic.wdata s
            else s
  drawn 12
    { s1 with
      tx := { s.tx with en := false, kick := false }
      rx := { s.rx with en := false, kick := false }
      miic := { s.miic with busy := false, rdata := none }
      eec := { s.eec with busy := false, rdata := none }
      regs := { s.regs with
        intrControl := v
        intrMask := 0
        txDescBase := drawAt s 0 &&& 0xFFFFFFF0#32
        rxDescBase := drawAt s 1 &&& 0xFFFFFFF0#32
        intrStatus := drawAt s 2 &&& definedStatus
        stationControl := drawAt s 3
        rgDelay := drawAt s 4
        rxMac := drawAt s 5
        rxMacAddr25 := drawAt s 6
        hash0 := drawAt s 7
        hash1 := drawAt s 8
        txCfg := drawAt s 9 &&& cfgMask
        rxCfg := drawAt s 10 &&& cfgMask } }

/-! ### The register window (spec/40) -/

/-- Registers a read of which has bits that are a draw (R407). -/
def readDraws : Reg → Bool
  | .txControl | .rxControl | .gmiiControl | .romInterface => true
  | _ => false

/-- GMIIControl's DATA as read: the last read's answer when idle, else a draw (R407, R458). -/
def miiData (s : State) (d : Word) : Half :=
  if s.miic.busy then d.extractLsb' 16 16 else s.miic.rdata.getD (d.extractLsb' 16 16)

/-- ROMInterface's EE_DATA as read (R407). -/
def eeData (s : State) (d : Word) : Half :=
  if s.eec.busy then d.extractLsb' 16 16 else s.eec.rdata.getD (d.extractLsb' 16 16)

/-- GMIIControl as read, from its parts (R407). -/
def gmiiValue (s : State) (d : Word) : Word :=
  miiData s d ++ s.regs.gmiiStored.extractLsb' 5 11 ++ BitVec.ofBool s.miic.busy ++ d.extractLsb' 3 1
    ++ s.regs.gmiiStored.extractLsb' 0 3

/-- ROMInterface as read, from its parts (R407). -/
def romValue (s : State) (d : Word) : Word :=
  eeData s d ++ s.regs.romStored.extractLsb' 8 8 ++ BitVec.ofBool s.eec.busy ++ d.extractLsb' 3 4
    ++ s.regs.romStored.extractLsb' 0 3

/-- TxControl or RxControl as read: CFG, ENB, and a draw in bit 4 (R102, R407). -/
def ctlValue (cfg : Word) (en : Bool) (d : Word) : Word :=
  cfg.extractLsb' 5 27 ++ d.extractLsb' 4 1 ++ cfg.extractLsb' 1 3 ++ BitVec.ofBool en

/-- `ReadValue(off)`, with `d` the draw for the bits that are one (R407). -/
def readValue (r : Reg) (s : State) (d : Word) : Word :=
  match r with
  | .txControl => ctlValue s.regs.txCfg s.tx.en d
  | .txDescBase => s.regs.txDescBase
  | .rxControl => ctlValue s.regs.rxCfg s.rx.en d
  | .rxDescBase => s.regs.rxDescBase
  | .intrStatus => s.regs.intrStatus
  | .intrMask => s.regs.intrMask
  | .intrControl => s.regs.intrControl
  | .romInterface => romValue s d
  | .stationControl => s.regs.stationControl
  | .gmiiControl => gmiiValue s d
  | .rgDelay => s.regs.rgDelay
  | .rxMacControl => s.regs.rxMac
  | .rxMacAddr25 => s.regs.rxMacAddr25
  | .rxHashTable0 => s.regs.hash0
  | .rxHashTable1 => s.regs.hash1

/-- `RegRead32(off)`: SOFT phase, then removal (R400, R404, R405, R908). The value goes to HOST's local t. -/
def regRead32 (r : Reg) (s : State) : State :=
  if softPhase s then refuse .accessDuringSoftReset s
  else if s.removed then { s with hostT := 0xFFFFFFFF#32 }
  else if readDraws r then drawn 1 { s with hostT := readValue r s (drawAt s 0) }
  else { s with hostT := readValue r s 0 }

/-- `WriteEffect(off, v)` (R406). -/
def writeEffect (r : Reg) (v : Word) (s : State) : State :=
  match r with
  | .txControl => ctlWrite .tx v s
  | .txDescBase => if v.extractLsb' 0 4 ≠ 0 then refuse .misalignedRingBase s else { s with regs.txDescBase := v }
  | .rxControl => ctlWrite .rx v s
  | .rxDescBase => if v.extractLsb' 0 4 ≠ 0 then refuse .misalignedRingBase s else { s with regs.rxDescBase := v }
  | .intrStatus => { s with regs.intrStatus := s.regs.intrStatus &&& ~~~v }
  | .intrMask => { s with regs.intrMask := v }
  | .intrControl => if v.getLsbD 15 then softReset v s else { s with regs.intrControl := v }
  | .romInterface => eeWrite v s
  | .stationControl => { s with regs.stationControl := v }
  | .gmiiControl => miiWrite v s
  | .rgDelay => { s with regs.rgDelay := v }
  | .rxMacControl => { s with regs.rxMac := v }
  | .rxMacAddr25 => { s with regs.rxMacAddr25 := v }
  | .rxHashTable0 => { s with regs.hash0 := v }
  | .rxHashTable1 => { s with regs.hash1 := v }

/-- The write that ends the SOFT phase: IntrControl with SOFT = 0 (R405, R804). -/
def isRelease (r : Reg) (v : Word) : Bool := decide (r = .intrControl) && !v.getLsbD 15

/-- A write of a removed device: no effect (R404), but that the release, as an access, still ends the SOFT phase (R405). A
write of IntrControl with SOFT = 1 does not begin that phase: R404 is followed there, although R405 counts the phase from
the access. Both readings are log entry 35, DEDUCED. The stored word can no longer be read. -/
def removedWrite (r : Reg) (v : Word) (s : State) : State :=
  if softPhase s && isRelease r v then { s with regs.intrControl := s.regs.intrControl &&& 0xFFFF7FFF#32 } else s

/-- `RegWrite32(off, v)`: SOFT phase, then removal, then the effect (R401, R404, R405, R908). In the SOFT phase only the
release is admitted (R405, R904, R1015; log entry 26). -/
def regWrite32 (r : Reg) (v : Word) (s : State) : State :=
  if softPhase s && !isRelease r v then refuse .accessDuringSoftReset s
  else if s.removed then removedWrite r v s
  else writeEffect r v s

/-- `RegWrite8` at the offset of station-address byte i, 0x62 + i in the reference REGMAP: byte lane `saLane i` of its word,
as the word stands on the bus, is replaced (R203, R207, R402). -/
def regWrite8 (i : Nat) (b : Byte) (s : State) : State :=
  let m := s.cfg.regMap
  if softPhase s then refuse .accessDuringSoftReset s
  else if 6 ≤ i then refuse .misalignedRegAccess s
  else if s.removed then s
  else if i < 2 then { s with regs.rxMac := m.writeLane (.reg .rxMacControl) (m.saLane i).toNat b s.regs.rxMac }
  else { s with regs.rxMacAddr25 := m.writeLane (.reg .rxMacAddr25) (m.saLane i).toNat b s.regs.rxMacAddr25 }

/-- STOP's second write of IntrControl with SOFT = 1 in the reading of R1003: a soft reset that leaves the CFG bits that
ResetSeq wrote and no status bit that was not set before it. Each of the values it leaves is one that R803's draws can take
(log entry 37, DESIGN CHOICE). -/
def stopPulse (s : State) : State :=
  let t := regWrite32 .intrControl 0x00008000#32 s
  { t with
    regs := { t.regs with
      txCfg := s.regs.txCfg, rxCfg := s.regs.rxCfg, intrStatus := t.regs.intrStatus &&& s.regs.intrStatus } }

/-- An access whose selector names no access of the window: the SOFT phase is tested first (R317, R403, R908). -/
def rejectAccess (m : Mark) (s : State) : State :=
  if softPhase s then refuse .accessDuringSoftReset s else refuse m s

/-! ### Interrupt entry and return (R707, R912, R913) -/

/-- Interrupt entry: the controller disarms the line and HOST will run IRQ at its next point between entry points.
Nothing is saved and no mode changes (R912). -/
def takeInterrupt (s : State) : State := { s with irqArmed := false, irqPending := true }

/-- The end of the handler's acting path: the line is armed again (R710, R913). -/
def rearmInterrupt (s : State) : State := { s with irqArmed := true }

/-- Delivery is enabled when the line is asserted and armed (R707). -/
def deliverable (s : State) : Bool := irqLine s && s.irqArmed

/-! ### HOST sequences -/

/-- More micro-operations before the rest of the sequence. -/
def pushOps (l : List HostOp) (s : State) : State := { s with ops := l ++ s.ops }

/-- `return r`: the entry point is over (R24). -/
def finish (r : HostReturn) (s : State) : State := { s with ops := [], ret := some r }

end Sys2Proof.Machine
end

