-- ==== Sys2Proof/Machine/Control.lean ====
section
/-!
DEFINITION. Sys2Proof/Machine/Control.lean: the meanings of the words HOST writes to TxControl, RxControl, IntrControl
and IntrStatus (spec/30 R315; spec/42 R520, R521, R523; spec/45 R803, R804; spec/44 R705). Each is the RegWrite32 that
carries the word.
-/
namespace Sys2Proof.Machine

/-- TXCTL.KICK: ENB and POLL: the TX engine is enabled if it was not, and kicked (R520, R521). -/
def execTxctlKick (hi : BitVec 27) (lo : BitVec 3) (s : State) : Result :=
  .next (regWrite32 .txControl (ctlWord hi 1#1 lo 1#1) s)

/-- TXCTL.ENABLE: ENB without POLL (R520). -/
def execTxctlEnable (hi : BitVec 27) (lo : BitVec 3) (s : State) : Result :=
  .next (regWrite32 .txControl (ctlWord hi 0#1 lo 1#1) s)

/-- TXCTL.DISABLE: ENB = 0; bit 4 is ignored (R315, R523). -/
def execTxctlDisable (hi : BitVec 27) (poll : BitVec 1) (lo : BitVec 3) (s : State) : Result :=
  .next (regWrite32 .txControl (ctlWord hi poll lo 0#1) s)

/-- RXCTL.KICK: ENB and POLL: the RX engine is enabled if it was not, and kicked (R520, R521). -/
def execRxctlKick (hi : BitVec 27) (lo : BitVec 3) (s : State) : Result :=
  .next (regWrite32 .rxControl (ctlWord hi 1#1 lo 1#1) s)

/-- RXCTL.ENABLE: ENB without POLL (R520). -/
def execRxctlEnable (hi : BitVec 27) (lo : BitVec 3) (s : State) : Result :=
  .next (regWrite32 .rxControl (ctlWord hi 0#1 lo 1#1) s)

/-- RXCTL.DISABLE: ENB = 0; bit 4 is ignored (R315, R523). -/
def execRxctlDisable (hi : BitVec 27) (poll : BitVec 1) (lo : BitVec 3) (s : State) : Result :=
  .next (regWrite32 .rxControl (ctlWord hi poll lo 0#1) s)

/-- IC.SOFT: the soft reset; the SOFT phase begins (R803). -/
def execIcSoft (hi : Half) (lo : BitVec 15) (s : State) : Result :=
  .next (regWrite32 .intrControl (icWord hi 1#1 lo) s)

/-- IC.RELEASE: the SOFT phase ends (R804). -/
def execIcRelease (hi : Half) (lo : BitVec 15) (s : State) : Result :=
  .next (regWrite32 .intrControl (icWord hi 0#1 lo) s)

/-- IS.ACK: write-one-to-clear (R705). -/
def execIsAck (clear : Word) (s : State) : Result := .next (regWrite32 .intrStatus clear s)

end Sys2Proof.Machine
end

