-- ==== Sys2Proof/Machine/Descriptors.lean ====
section
/-!
DEFINITION. Sys2Proof/Machine/Descriptors.lean: the meanings of the CMDSTS words the DMA engines fetch (spec/42 R524 to
R526, R541 to R545; spec/30 R316). Each is one visit of the engine at the descriptor its pointer names, with the word it
read there; an engine whose visit is not enabled takes no step.
-/
namespace Sys2Proof.Machine

/-- The address of the engine's descriptor, `d` of R524 and R541. -/
def visitAddr (e : Engine) : Word := descAddr e.base e.ptr .psize

/-- A TX visit of a software-owned slot (R526): the kick is used up; the first one sets TX_IDLE. -/
def txIdleVisit (s : State) : State :=
  let s1 := { s with tx := { s.tx with kick := false, idle := true } }
  if s.tx.idle then s1 else setStatus txIdleBit s1

/-- The end of a TX visit of a hardware-owned slot, once the frame is known: WIRE.transmit, the write-back of CMDSTS with
OWN = 0, the status bit, the pointer (R522, R524, R525). `n` draws were taken before. -/
def txFinish (cmdsts flags : Word) (frame : List Byte) (n : Nat) (s : State) : Result :=
  let s1 := drawn (n + 1)
    { s with
      wireOut := s.wireOut ++ [⟨frame, cmdsts.extractLsb' 16 14⟩]
      mem := descPut s.cfg.regMap s.mem s.tx.base s.tx.ptr .cmdsts (drawAt s n &&& 0x7FFFFFFF#32)
      tx := { s.tx with kick := false, idle := false } }
  let s2 := if intrBit cmdsts then setStatus txDoneBit s1 else s1
  match nextPtr? s s.tx.ptr flags with
  | none => .fault (.ringOverrun .tx)
  | some p => .next { s2 with tx := { s2.tx with ptr := p } }

/-- The write-back of a TX visit is a race when it touches a slot that is not the engine's, as it can when the ring base
is not the ring's (R222, R501; log entry 23). -/
def txComplete (cmdsts flags : Word) (frame : List Byte) (n : Nat) (s : State) : Result :=
  match race? s .txdma (descAddr s.tx.base s.tx.ptr .cmdsts) 4 with
  | some (r, j) => .fault (.ownershipRace r j .txdma)
  | none => txFinish cmdsts flags frame n s

/-- A TX visit of a hardware-owned slot (R524). A byte count of 0 or above BUFLEN, which HOST never writes, sends a free
frame (log entry 24). -/
def txOwnedVisit (cmdsts : Word) (s : State) : Result :=
  match dmaFault? s (visitAddr s.tx) 16 with
  | some a => .fault (.dmaOutOfRegion a)
  | none =>
    let len := byteCount (visitWord s s.tx .psize)
    let bp := visitWord s s.tx .bufptr
    let fl := visitWord s s.tx .flags
    if len = 0 ∨ bufLen fl < len then txComplete cmdsts fl (Config.freeFrame s.draws) 1 s
    else
      match dmaFault? s bp len with
      | some a => .fault (.dmaOutOfRegion a)
      | none => txComplete cmdsts fl (memReadBytes s.mem bp len) 0 s

/-- TXD.HWOWN: the TX engine transmits the slot (R316, R524, R525). -/
def execTxdHwown (intr : BitVec 1) (rsvd : BitVec 6) (cmd : BitVec 8) (status : Half) (s : State) : Result :=
  if s.tx.en then txOwnedVisit (cmdstsWord 1#1 intr rsvd cmd status) s else .next s

/-- TXD.SWOWN: the TX engine goes idle at the slot (R316, R526); the word's other bits are not looked at. -/
def execTxdSwown (_intr : BitVec 1) (_rsvd : BitVec 6) (_cmd : BitVec 8) (_status : Half) (s : State) : Result :=
  if s.tx.en then .next (txIdleVisit s) else .next s

/-! ### The receive engine -/

/-- How many draws Accept takes: one for a frame shorter than an address (R545). -/
def acceptDraws (b : List Byte) : Nat :=
  match destOf b with
  | none => 1
  | some _ => 0

/-- Bit k of the multicast hash filter (R116, R545). -/
def hashBit (s : State) (k : BitVec 6) : Bool := (s.regs.hash1 ++ s.regs.hash0).getLsbD k.toNat

/-- `Accept(b)` (R545). -/
def accept (s : State) (b : List Byte) : Bool :=
  match destOf b with
  | none => (drawAt s 0).getLsbD 0
  | some d =>
    if s.regs.rxMac.getLsbD 8 && !d.b0.getLsbD 0 then true
    else if d = broadcastAddr then s.regs.rxMac.getLsbD 11
    else if d.b0.getLsbD 0 then s.regs.rxMac.getLsbD 10 && hashBit s (Config.hashFn d)
    else s.regs.rxMac.getLsbD 9 && decide (d = stationAddrOf s.regs)

/-- The head frame is refused by the filter: it is dropped; the visit used up the kick (R541). -/
def rxUnaccepted (b : List Byte) (s : State) : State :=
  drawn (acceptDraws b) { s with wireIn := s.wireIn.tail, rx := { s.rx with kick := false } }

/-- Whether a frame at a software-owned slot is dropped: RX_FULL_POLICY, with `n` draws taken before (R544). -/
def rxFullDrops (n : Nat) (s : State) : Bool :=
  match s.cfg.rxFullPolicy with
  | .drop => true
  | .hold => false
  | .either => (drawAt s n).getLsbD 0

/-- How many draws RX_FULL_POLICY takes (R544). -/
def rxFullDraws (s : State) : Nat :=
  match s.cfg.rxFullPolicy with
  | .either => 1
  | _ => 0

/-- An RX visit of a software-owned slot: the first one sets RX_IDLE (R543, R544). -/
def rxFullVisit (b : List Byte) (s : State) : State :=
  let n := acceptDraws b
  let s1 := drawn (n + rxFullDraws s)
    { s with
      wireIn := if rxFullDrops n s then s.wireIn.tail else s.wireIn
      rx := { s.rx with kick := false, idle := true } }
  if s.rx.idle then s1 else setStatus rxIdleBit s1

/-- The write-back of PSIZE: a good frame's count in [15:0], the rest a draw (R542). -/
def rxPsizeWord (bad : Bool) (n : Nat) (d : Word) : Word :=
  if bad then d else d.extractLsb' 16 16 ++ BitVec.ofNat 16 n

/-- The write-back of an RX visit: buffer, PSIZE, CMDSTS, in this order (R221, R542). -/
def rxWriteBack (bp : Word) (cap n : Nat) (f : Config.Frame) (s : State) : Memory :=
  let bad := f.bad || decide (cap < f.bytes.length)
  let put := fun m w v => descPut s.cfg.regMap m s.rx.base s.rx.ptr w v
  let m1 := memWriteBytes s.mem bp (f.bytes.take cap)
  let m2 := put m1 .psize (rxPsizeWord bad f.bytes.length (drawAt s n))
  put m2 .cmdsts (rxWriteBackWord s.cfg.rxBad bad (drawAt s (n + 1)))

/-- The end of an RX visit of a hardware-owned slot: write-back, status bit, pointer (R522, R541, R542). -/
def rxComplete (cmdsts bp flags : Word) (f : Config.Frame) (s : State) : Result :=
  let n := acceptDraws f.bytes
  let s1 := drawn (n + 2)
    { s with
      mem := rxWriteBack bp (bufLen flags) n f s
      wireIn := s.wireIn.tail
      rx := { s.rx with kick := false, idle := false } }
  let s2 := if intrBit cmdsts then setStatus rxDoneBit s1 else s1
  match nextPtr? s s.rx.ptr flags with
  | none => .fault (.ringOverrun .rx)
  | some p => .next { s2 with rx := { s2.rx with ptr := p } }

/-- The race of an RX visit, if it is one: of its buffer bytes, then of its write of PSIZE and CMDSTS, with the owners
before the visit (R222, R501; log entry 23). -/
def rxRace? (bp : Word) (k : Nat) (s : State) : Option (Ring × Nat) :=
  match race? s .rxdma bp k with
  | some x => some x
  | none => race? s .rxdma (visitAddr s.rx) 8

/-- An RX visit of a hardware-owned slot with an accepted frame (R541, R542): the accesses must lie in the allocated
regions (R202), and the bytes written in no slot that is not the engine's (R222). The spec gives no order of the two
faults: DmaOutOfRegion comes first here (log entry 36, DESIGN CHOICE). -/
def rxOwnedVisit (cmdsts : Word) (f : Config.Frame) (s : State) : Result :=
  match dmaFault? s (visitAddr s.rx) 16 with
  | some a => .fault (.dmaOutOfRegion a)
  | none =>
    let bp := visitWord s s.rx .bufptr
    let fl := visitWord s s.rx .flags
    let k := min f.bytes.length (bufLen fl)
    match dmaFault? s bp k with
    | some a => .fault (.dmaOutOfRegion a)
    | none =>
      match rxRace? bp k s with
      | some (r, j) => .fault (.ownershipRace r j .rxdma)
      | none => rxComplete cmdsts bp fl f s

/-- RXD.HWOWN: the RX engine fills the slot with the head frame, if the filter accepts it (R316, R541, R542). -/
def execRxdHwown (intr : BitVec 1) (rsvd : BitVec 6) (cmd : BitVec 8) (status : Half) (s : State) : Result :=
  match s.rx.en, s.wireIn with
  | true, f :: _ =>
    if accept s f.bytes then rxOwnedVisit (cmdstsWord 1#1 intr rsvd cmd status) f s
    else .next (rxUnaccepted f.bytes s)
  | _, _ => .next s

/-- RXD.SWOWN: the RX engine goes idle at the slot; the word's other bits are not looked at (R316, R541, R543, R544). -/
def execRxdSwown (_intr : BitVec 1) (_rsvd : BitVec 6) (_cmd : BitVec 8) (_status : Half) (s : State) : Result :=
  match s.rx.en, s.wireIn with
  | true, f :: _ => if accept s f.bytes then .next (rxFullVisit f.bytes s) else .next (rxUnaccepted f.bytes s)
  | _, _ => .next s

end Sys2Proof.Machine
end

