-- ==== Sys2Proof/Machine/HostSequence.lean ====
section
/-!
DEFINITION. Sys2Proof/Machine/HostSequence.lean: the sequences HOST runs, one access a step (spec/00_scope.md R11): the
management and EEPROM primitives (spec/41), ring initialisation, produce and consume (spec/42), the link FSM (spec/43),
the interrupt handler (spec/44), and reset, initialisation, filter, station address and stop (spec/45).
`runOp` makes one access or passes one point of a sequence; the entry points in Machine/Entry.lean start them.
-/
namespace Sys2Proof.Machine

/-- A read of a Device Context field: an unset one faults (R140). -/
def withField {α : Type} (o : Option α) (f : CtxField) (k : α → Result) : Result :=
  match o with
  | some a => k a
  | none => .fault (.unsetContextField f)

/-- A register access of an entry point, which goes through the register-window handle (R140). The spec gives no order of
an unset handle and what the access itself tests: the SOFT phase, the fields' ranges, the removal, a busy controller. The
handle comes first here (log entry 36, DESIGN CHOICE). -/
def withHandle (s : State) (k : Result) : Result := withField s.ctx.regHandle .regHandle (fun _ => k)

/-! ### Sequences of accesses -/

/-- `MdioRead(a, r)` (R463). -/
def mdioReadOps (a r : Nat) : List HostOp := [.miiCmd .rd a r 0, .pollMii]

/-- `MdioWrite(a, r, d)` (R464). -/
def mdioWriteOps (a r : Nat) (d : Half) : List HostOp := [.miiCmd .wr a r d, .pollMii]

/-- `MdioReadLatched(a, r)` (R465). -/
def mdioLatchedOps (a r : Nat) : List HostOp := mdioReadOps a r ++ mdioReadOps a r

/-- `MdioRead(a, BMSR)` (R463). -/
def bmsrReadOps (m : Config.PhyMap) (a : Nat) : List HostOp := mdioReadOps a m.bmsr.toNat

/-- `MdioReadLatched(a, BMSR)` (R465). -/
def bmsrLatchedOps (m : Config.PhyMap) (a : Nat) : List HostOp := mdioLatchedOps a m.bmsr.toNat

/-- `EeRead(w)` (R470). -/
def eeReadOps (w : Nat) : List HostOp := [.eeCmd w, .pollEe]

/-- `ResetSeq()` (R800). -/
def resetSeqOps (cfg : Config.Params) : List HostOp :=
  [.wr32 .intrMask 0x00000000#32,
   .wr32 .intrStatus 0xFFFFFFFF#32,
   .wr32 .intrControl 0x00008000#32,
   .wr32 .intrControl 0x00000000#32,
   .wr32 .txControl cfg.txCfg,
   .wr32 .rxControl cfg.rxCfg,
   .wr32 .intrMask 0x00000000#32,
   .wr32 .intrStatus 0xFFFFFFFF#32,
   .wr32 .gmiiControl 0x00000000#32]

/-- `SetHashAll()` (R811). -/
def setHashAllOps : List HostOp := [.wr32 .rxHashTable0 0xFFFFFFFF#32, .wr32 .rxHashTable1 0xFFFFFFFF#32]

/-- `ProgramSA(addr)` (R812). -/
def programSaOps (a : StationAddr) : List HostOp := [.rd32 .rxMacControl, .point (.saDisable a)]

/-- `EnableInterrupts()` (R813). -/
def enableInterruptsOps : List HostOp := [.wr32 .intrStatus 0xFFFFFFFF#32, .wr32 .intrMask recognized]

/-- `EnableEngines()` (R814). -/
def enableEnginesOps (cfg : Config.Params) : List HostOp :=
  [.wr32 .txControl (cfg.txCfg ||| 0x00000001#32), .wr32 .rxControl (cfg.rxCfg ||| 0x00000011#32)]

/-- The kick of a ring: `txkick` or `rxkick` (R320, R521). -/
def kickOp (cfg : Config.Params) : Ring → HostOp
  | .tx => .wr32 .txControl (cfg.txCfg ||| 0x00000011#32)
  | .rx => .wr32 .rxControl (cfg.rxCfg ||| 0x00000011#32)

/-- Slot i of both rings at initialisation (R504). -/
def slotInitOps (cfg : Config.Params) (i : Nat) : List HostOp :=
  [.memWrite .rx i .psize 0, .memWrite .rx i .bufptr (bufAddr cfg .rx i), .memWrite .rx i .flags (flagsWord cfg i cfg.bufSize),
   .memWrite .rx i .cmdsts (releaseWord 0),
   .memWrite .tx i .psize 0, .memWrite .tx i .bufptr (bufAddr cfg .tx i), .memWrite .tx i .flags (endFlag cfg i),
   .memWrite .tx i .cmdsts 0]

/-- `Recycle(c)` (R532). -/
def recycleOps (cfg : Config.Params) (c : Nat) : List HostOp :=
  [.memWrite .rx c .psize 0, .memWrite .rx c .flags (flagsWord cfg c cfg.bufSize), .memWrite .rx c .bufptr (bufAddr cfg .rx c),
   .memWrite .rx c .cmdsts (releaseWord 0)]

/-- `ReadAndResolve(a)` (R618). -/
def readAndResolveOps (m : Config.PhyMap) (a : BitVec 5) (use : ResolveFor) : List HostOp :=
  mdioReadOps a.toNat m.anlpar.toNat ++ [.point (.capLpa a use)]

/-- `Isolate(a)` (R606). -/
def isolateOps (m : Config.PhyMap) (a : BitVec 5) : List HostOp :=
  mdioReadOps a.toNat m.bmcr.toNat ++ [.point (.isolateWrite a)]

/-- `Unisolate(a)` (R607). -/
def unisolateOps (m : Config.PhyMap) (a : BitVec 5) : List HostOp :=
  mdioReadOps a.toNat m.bmcr.toNat ++ [.point (.unisolateWrite a)]

/-- `RgmiiPulse()` (R623). -/
def rgmiiPulseOps (c : Config.FieldCodes) : List HostOp := [.wr32 .rgDelay c.delayPulse, .wr32 .rgDelay c.delayDefault]

/-- The body of INIT after its platform checks (R809). -/
def initOps (cfg : Config.Params) : List HostOp :=
  resetSeqOps cfg ++ [.point .resolveSa, .point .ringInit, .point .programStationAddress, .point .fsmStart]
    ++ enableInterruptsOps ++ enableEnginesOps cfg ++ [.point .initDone]

/-- The pulse of SOFT in STOP: RegWrite32(IntrControl, 0x00008000) (R815), with all the draws of R803, or in the reading of
R1003 with ResetSeq's postcondition kept. The rules disagree and spec/90_conflicts.md does not settle them, so the reading is
a parameter, and State.reset's is R803's (log entry 37, DESIGN CHOICE). -/
def stopPulseOp (cfg : Config.Params) : HostOp :=
  match cfg.stopReading with
  | .redrawn => .wr32 .intrControl 0x00008000#32
  | .kept => .stopPulse

/-- The body of STOP (R815). -/
def stopOps (cfg : Config.Params) : List HostOp :=
  resetSeqOps cfg ++ [.wr32 .intrMask 0x00000000#32, stopPulseOp cfg, .wr32 .intrControl 0x00000000#32, .point .stopDone]

/-- The acting path of the handler, with the observed status and its events (R710). It restores the mask whenever it runs:
a run after STOP or after a failed INIT makes IntrMask 0x000100CC, where R714 says that it is 0 after STOP; the pseudocode
of R710 is followed (log entry 39, DEDUCED). -/
def handlerOps (status : Word) (evs : List HostEvent) : List HostOp :=
  [.wr32 .intrStatus status, .wr32 .intrMask 0x00000000#32] ++ evs.map (fun e => .point (.emit e))
    ++ [.wr32 .intrMask recognized, .point .rearm, .point (.finish .done)]

/-! ### Points of the sequences -/

/-- The end of ResolveSA: the override, else the EEPROM's address, else the APC fault (R807). -/
def saChoose (fromEeprom : Option StationAddr) (s : State) : Result :=
  match s.cfg.envSa with
  | some m => .next { s with ctx.stationAddress := some m }
  | none =>
    match fromEeprom with
    | some a => .next { s with ctx.stationAddress := some a }
    | none => .fault .unsupportedApc

/-- The choice of the current PHY and the isolation of the others (R604). -/
def choosePhy (pref : Option Nat) (s : State) : Result :=
  let cur := pref.getD 0
  match s.ctx.phys[cur]? with
  | none => .fault (.unsetContextField .current)
  | some c =>
    let m := s.cfg.phyMap
    let others := (s.ctx.phys.zipIdx.filter (fun p => decide (p.2 ≠ cur))).map (fun p => p.1.addr)
    .next (pushOps (others.flatMap (isolateOps m) ++ unisolateOps m c.addr ++ bmsrLatchedOps m c.addr.toNat
        ++ [.point (.latchLink c.addr)])
      { s with ctx.cur := some cur })

/-- The selection loop at phys[i] (R604). -/
def selectFrom (i : Nat) (pref : Option Nat) (s : State) : Result :=
  match s.ctx.phys[i]? with
  | some p => .next (pushOps (bmsrLatchedOps s.cfg.phyMap p.addr.toNat ++ [.point (.selectStatus i pref)]) s)
  | none => choosePhy pref s

/-- The scanning loop at address a, and its end: NoTransceiver is INIT's error return (R602, R603, R809). -/
def scanFrom (a : Nat) (s : State) : Result :=
  if a < 32 then .next (pushOps (bmsrLatchedOps s.cfg.phyMap a ++ [.point (.scanStatus a)]) s)
  else if s.ctx.phys = [] then .next (finish .errorNoTransceiver { s with ctx.fsm := .noTransceiver })
  else selectFrom 0 none { s with ctx.fsm := .phySelected }

/-- Iteration i of the link poll, or its timeout, which leaves speed and duplex as they were (R610, R615; log entry
43). -/
def linkPollFrom (a : BitVec 5) (i : Nat) (prev : Bool) (s : State) : Result :=
  if i ≤ s.cfg.linkPollMax then .next (pushOps (bmsrReadOps s.cfg.phyMap a.toNat ++ [.point (.linkPoll a i prev)]) s)
  else .next { s with ctx.fsm := .linkDownTimeout }

/-- Iteration i of the autonegotiation poll, or its timeout, which leaves speed and duplex as they were (R614, R615; log
entry 43). -/
def anegPollFrom (a : BitVec 5) (i : Nat) (s : State) : Result :=
  if i ≤ s.cfg.anegPollMax then .next (pushOps (bmsrReadOps s.cfg.phyMap a.toNat ++ [.point (.anegPoll a i)]) s)
  else .next { s with ctx.fsm := .linkDownTimeout }

/-- The use of a resolved speed and duplex (R616, R620, R625). -/
def resolved (use : ResolveFor) (r : Speed × Duplex) (s : State) : Result :=
  match use with
  | .negotiated linkUp =>
    .next (pushOps [.rd32 .stationControl, .point (.stationWrite r.1 r.2), .point (.negotiated linkUp)]
      { s with ctx.speed := some r.1, ctx.duplex := some r.2 })
  | .getLink => .next (finish (.up r.1 r.2) s)

/-- The slot at the RX cursor holds a good frame or a bad one (R530, R531). -/
def recvFrame (c maxLen : Nat) (s : State) : Result :=
  if rxBad s.cfg.rxBad s.hostT then
    .next (pushOps (recycleOps s.cfg c
        ++ (if s.cfg.rxErrAdvance then [.point (.advanceCursor .rx c), kickOp s.cfg .rx] else [])
        ++ [.point (.finish .empty)])
      { s with ctx.rxErrors := s.ctx.rxErrors + 1 })
  else .next (pushOps [.memRead .rx c .psize, .point (.recvLength c maxLen)] s)

/-- The buffer and the descriptor of a send, before its release (R506, R508). -/
def sendOps (cfg : Config.Params) (payload : List Byte) (c : Nat) : List HostOp :=
  let n := max payload.length cfg.ethMinLen
  [.bufWrite .tx c 0 payload]
    ++ (if payload.length < n then [.bufWrite .tx c payload.length (List.replicate (n - payload.length) 0)] else [])
    ++ [.memWrite .tx c .psize (BitVec.ofNat 32 n), .memWrite .tx c .flags (flagsWord cfg c n), .point (.sendRelease c)]

/-- The release of a TX slot, the cursor and the kick (R506, R507). -/
def releaseOps (cfg : Config.Params) (c : Nat) (duplex : Duplex) (speed : Speed) : List HostOp :=
  [.memWrite .tx c .cmdsts (releaseWord (cflags duplex speed)), .point (.advanceCursor .tx c), kickOp cfg .tx,
   .point (.finish .ok)]

/-- One point of a sequence. The start of the FSM clears what R601 names and no more: speed and duplex keep what an earlier
run of it set, so a timeout after INIT, STOP, INIT leaves the earlier values, where R615 says that they stay unset (log entry
43, DEDUCED). -/
def runPoint (p : HostPoint) (s : State) : Result :=
  match p with
  | .resolveSa =>
    let s1 := { s with ctx.rgmii := false }
    match s.cfg.saSource with
    | .eeprom => .next (pushOps (eeReadOps s.cfg.eepromMap.signature.toNat ++ [.point .saSignature]) s1)
    | .apc => saChoose none s1
  | .saSignature =>
    if s.hostD = 0x0000#16 ∨ s.hostD = 0xFFFF#16 then saChoose none s
    else .next (pushOps (eeReadOps s.cfg.eepromMap.board.toNat ++ [.point .saBoard]) s)
  | .saBoard =>
    let s1 := { s with ctx.rgmii := s.hostD.getLsbD s.cfg.eepromMap.rgmii }
    match s.cfg.envSa with
    | none => .next (pushOps (eeReadOps (saWordAt s.cfg.eepromMap 0).toNat ++ [.point (.saWord 0 [])]) s1)
    | some _ => saChoose none s1
  | .saWord k acc =>
    let acc' := acc ++ saBytes s.cfg.eepromMap s.hostD
    if k < 2 then
      .next (pushOps (eeReadOps (saWordAt s.cfg.eepromMap (k + 1)).toNat ++ [.point (.saWord (k + 1) acc')]) s)
    else saChoose (destOf acc') s
  | .ringInit =>
    if s.cfg.allocOk then .next (pushOps [.zeroRings, .point (.initSlot 0)] { s with ctx.allocated := true })
    else .fault .dmaAllocFailed
  | .initSlot i =>
    if i < s.cfg.ringLen then .next (pushOps (slotInitOps s.cfg i ++ [.point (.initSlot (i + 1))]) s)
    else .next (pushOps [.point .zeroCursors, .wr32 .txDescBase s.cfg.txRingPa, .wr32 .rxDescBase s.cfg.rxRingPa] s)
  | .zeroCursors => .next { s with ctx.txCursor := some 0, ctx.rxCursor := some 0 }
  | .programStationAddress =>
    withField s.ctx.stationAddress .stationAddress (fun a => .next (pushOps (programSaOps a) s))
  | .saDisable a =>
    .next (pushOps ([.wr32 .rxMacControl (s.hostT &&& ~~~rxfMask), .wr8 0 a.b0, .wr8 1 a.b1, .wr8 2 a.b2, .wr8 3 a.b3,
      .wr8 4 a.b4, .wr8 5 a.b5, .rd32 .rxMacControl, .point (.saEnable a)]) s)
  | .saEnable a =>
    .next (pushOps ([.wr32 .rxMacControl ((s.hostT &&& ~~~rxfMask) ||| 0x00000A00#32)] ++ setHashAllOps
      ++ [.point (.saRecord a)]) s)
  | .saRecord a => .next { s with ctx.stationAddress := some a }
  | .fsmStart =>
    scanFrom 0 { s with ctx.fsm := .scanning, ctx.autonegDone := false, ctx.phys := [], ctx.cur := none }
  | .scanStatus a =>
    if s.hostD = 0x0000#16 ∨ s.hostD = 0xFFFF#16 then scanFrom (a + 1) s
    else .next (pushOps (mdioReadOps a s.cfg.phyMap.phyid1.toNat ++ [.point (.scanId1 a s.hostD)]) s)
  | .scanId1 a st => .next (pushOps (mdioReadOps a s.cfg.phyMap.phyid2.toNat ++ [.point (.scanId2 a st s.hostD)]) s)
  | .scanId2 a st id1 =>
    scanFrom (a + 1)
      { s with ctx.phys := s.ctx.phys ++
        [{ addr := BitVec.ofNat 5 a, id1 := id1, id2 := s.hostD, status := st, capTag := capTagOf s.cfg.phyMap st }] }
  | .selectStatus i pref =>
    let pref' := if linkOf s.cfg.phyMap s.hostD && pref.isNone then some i else pref
    selectFrom (i + 1) pref' { s with ctx.phys := s.ctx.phys.modify i (fun r => { r with status := s.hostD }) }
  | .isolateWrite a =>
    .next (pushOps (mdioWriteOps a.toNat s.cfg.phyMap.bmcr.toNat (s.hostD ||| bmcrAnIso s.cfg.phyMap)) s)
  | .unisolateWrite a =>
    .next (pushOps (mdioWriteOps a.toNat s.cfg.phyMap.bmcr.toNat (s.hostD &&& ~~~bmcrIsolate s.cfg.phyMap)) s)
  | .latchLink a =>
    .next (pushOps (mdioWriteOps a.toNat s.cfg.phyMap.bmcr.toNat (bmcrResetAn s.cfg.phyMap) ++ [.point (.afterReset a)])
      { s with ctx.linkAtReset := some (linkOf s.cfg.phyMap s.hostD), ctx.fsm := .resetting })
  | .afterReset a =>
    withField s.ctx.linkAtReset .linkAtReset (fun up =>
      if up then linkPollFrom a 1 up { s with ctx.fsm := .awaitingLink }
      else anegPollFrom a 1 { s with ctx.fsm := .awaitingAutoneg })
  | .linkPoll a i prev =>
    let now := linkOf s.cfg.phyMap s.hostD
    if linkStable s.cfg.linkStable prev now then anegPollFrom a 1 { s with ctx.fsm := .awaitingAutoneg }
    else linkPollFrom a (i + 1) now s
  | .anegPoll a i =>
    if anComplete s.cfg.phyMap s.hostD then
      .next (pushOps (readAndResolveOps s.cfg.phyMap a (.negotiated (linkOf s.cfg.phyMap s.hostD)))
        { s with ctx.fsm := .negotiated })
    else anegPollFrom a (i + 1) s
  | .capLpa a use => .next (pushOps (mdioReadOps a.toNat s.cfg.phyMap.anar.toNat ++ [.point (.capAdv a use s.hostD)]) s)
  | .capAdv a use lpa =>
    .next (pushOps (mdioReadOps a.toNat s.cfg.phyMap.aner.toNat ++ [.point (.capAner a use lpa s.hostD)]) s)
  | .capAner a use lpa adv =>
    match s.cfg.chipModel with
    | .ge => .next (pushOps (mdioReadOps a.toNat s.cfg.phyMap.gtcr.toNat ++ [.point (.capGtcr a use lpa adv s.hostD)]) s)
    | .fe => resolved use (resolve s.cfg.phyMap .fe lpa adv s.hostD 0 0) s
  | .capGtcr a use lpa adv an =>
    .next (pushOps (mdioReadOps a.toNat s.cfg.phyMap.gtsr.toNat ++ [.point (.capGtsr use lpa adv an s.hostD)]) s)
  | .capGtsr use lpa adv an gtcr => resolved use (resolve s.cfg.phyMap s.cfg.chipModel lpa adv an gtcr s.hostD) s
  | .stationWrite speed duplex =>
    .next (pushOps [.wr32 .stationControl (stationWord s.cfg.codes speed duplex s.ctx.rgmii s.hostT)] s)
  | .negotiated linkUp =>
    .next (pushOps (if linkUp && s.ctx.rgmii then rgmiiPulseOps s.cfg.codes else [])
      { s with ctx.autonegDone := true })
  | .initDone =>
    withField s.ctx.stationAddress .stationAddress (fun a =>
      .next (finish (.okAddress a) { s with ctx.enabled := true }))
  | .sendOwn payload c =>
    if ownBit s.hostT then .next (finish .busy s) else .next (pushOps (sendOps s.cfg payload c) s)
  | .sendRelease c =>
    withField s.ctx.duplex .duplex (fun d => withField s.ctx.speed .speed (fun v =>
      .next (pushOps (releaseOps s.cfg c d v) s)))
  | .advanceCursor ring c =>
    let next := some ((c + 1) % s.cfg.ringLen)
    match ring with
    | .tx => .next { s with ctx.txCursor := next }
    | .rx => .next { s with ctx.rxCursor := next }
  | .recvOwn c maxLen => if ownBit s.hostT then .next (finish .empty s) else recvFrame c maxLen s
  | .recvLength c maxLen =>
    let k := min (byteCount s.hostT) maxLen
    .next (pushOps ([.bufRead c k] ++ recycleOps s.cfg c
      ++ [.point (.advanceCursor .rx c), kickOp s.cfg .rx, .point (.finish (.received k))]) s)
  | .filterWrite f =>
    .next (pushOps ([.wr32 .rxMacControl ((s.hostT &&& ~~~rxfMask) ||| f)] ++ setHashAllOps ++ [.point (.finish .done)]) s)
  | .linkStatus a =>
    if linkOf s.cfg.phyMap s.hostD then .next (pushOps (readAndResolveOps s.cfg.phyMap a .getLink) s)
    else .next (finish .down s)
  | .irqDecode =>
    match decodeEvents s.hostT with
    | [] => .next (finish .done { s with irqArmed := s.irqArmed || s.cfg.hostAutoRearm })
    | evs => .next (pushOps (handlerOps s.hostT evs) s)
  | .emit e => .next { s with events := s.events ++ [e] }
  | .rearm => .next (rearmInterrupt s)
  | .stopDone =>
    .next (finish .done
      { s with
        ctx.allocated := false, ctx.txCursor := none, ctx.rxCursor := none, ctx.autonegDone := false,
        ctx.enabled := false })
  | .finish r => .next (finish r s)

/-! ### One micro-operation -/

/-- One iteration of a management completion poll: a fresh read, and again while REQ reads 1; a removed device reads
REQ = 1 for ever (R404, R463, R466). A refused read ends the poll with no data (log entry 18). -/
def pollMii (s : State) : State :=
  let s1 := regRead32 .gmiiControl s
  if softPhase s then s1
  else if s.removed || s.miic.busy then pushOps [.pollMii] s1
  else { s1 with hostD := miiData s (drawAt s 0) }

/-- One iteration of an EEPROM completion poll (R404, R466, R470). -/
def pollEe (s : State) : State :=
  let s1 := regRead32 .romInterface s
  if softPhase s then s1
  else if s.removed || s.eec.busy then pushOps [.pollEe] s1
  else { s1 with hostD := eeData s (drawAt s 0) }

/-- The refusal of a HOST write of a descriptor word, if there is one (R209, R317). -/
def descRefusal? (w : DescWord) (v : Word) : Option Mark :=
  match w with
  | .psize => none
  | .cmdsts => if v.extractLsb' 24 6 ≠ 0 then some .reservedDescriptorBit else none
  | .bufptr => if v.extractLsb' 0 4 ≠ 0 then some .misalignedBuffer else none
  | .flags => if v.extractLsb' 16 15 ≠ 0 then some .reservedDescriptorBit else none

/-- HOST's write of a descriptor word: refused (R209, R317), a race (R222, R501), or stored. The spec gives no order of
a refusal and a race of one write: the refusal comes first here (log entry 36, DESIGN CHOICE). A word outside the allocated
regions is plain memory (R202; log entry 45, DESIGN CHOICE). -/
def hostDescWrite (ring : Ring) (i : Nat) (w : DescWord) (v : Word) (s : State) : Result :=
  match descRefusal? w v with
  | some m => .next (refuse m s)
  | none =>
    match race? s .host (slotAddr s ring i w) 4 with
    | some (r, j) => .fault (.ownershipRace r j .host)
    | none => .next { s with mem := descPut s.cfg.regMap s.mem (ringPa s.cfg ring) i w v }

/-- HOST's read of a descriptor word; a word other than CMDSTS of a hardware-owned slot reads as a draw (R222). The slot is
the one HOST names: bytes that another slot also holds, as they can when regions overlap, do not make a read a draw (log
entry 23, DESIGN CHOICE). A word outside the allocated regions is plain memory (R202; log entry 45, DESIGN CHOICE). -/
def hostDescRead (ring : Ring) (i : Nat) (w : DescWord) (s : State) : State :=
  if w ≠ .cmdsts ∧ slotOwned s ring i then drawn 1 { s with hostT := drawAt s 0 }
  else { s with hostT := slotWord s ring i w }

/-- HOST's copy into a buffer, or a race with the engine that owns a slot it touches (R222, R501). A copy that runs past
2^32 goes on at address 0, where the race check does not follow it (log entry 44, DESIGN CHOICE). Bytes
outside the allocated regions are plain memory (R202; log entry 45, DESIGN CHOICE). -/
def hostBufWrite (ring : Ring) (i off : Nat) (bytes : List Byte) (s : State) : Result :=
  let a := bufAddr s.cfg ring i + BitVec.ofNat 32 off
  match race? s .host a bytes.length with
  | some (r, j) => .fault (.ownershipRace r j .host)
  | none => .next { s with mem := memWriteBytes s.mem a bytes }

/-- HOST's copy of a received frame to the caller; the buffer of a hardware-owned slot reads as draws (R222, R530), the slot
being the one HOST names (log entry 23, DESIGN CHOICE). A copy that runs past 2^32 goes on at address 0 (log entry 44,
DESIGN CHOICE). The spec calls an address outside the allocated regions out of the model, for HOST (R202): a copy of a byte
count beyond the pool answers plain memory there, with no mark and no fault (log entry 45, DESIGN CHOICE). -/
def hostBufRead (i k : Nat) (s : State) : State :=
  if slotOwned s .rx i then
    drawn k { s with dst := (List.range k).map (fun j => (drawAt s j).extractLsb' 0 8) }
  else { s with dst := memReadBytes s.mem (bufAddr s.cfg .rx i) k }

/-- The zeroing of both rings, before any slot has an owner (R504). A ring that runs past 2^32 goes on at address 0 (log
entry 44, DESIGN CHOICE). -/
def zeroRings (s : State) : State :=
  let zeros := List.replicate (16 * s.cfg.ringLen) (0 : Byte)
  { s with mem := memWriteBytes (memWriteBytes s.mem s.cfg.txRingPa zeros) s.cfg.rxRingPa zeros }

/-- One micro-operation of the sequence in progress, already taken off the queue. -/
def runOp (op : HostOp) (s : State) : Result :=
  match op with
  | .rd32 r => withHandle s (.next (regRead32 r s))
  | .wr32 r v => withHandle s (.next (regWrite32 r v s))
  | .wr8 i b => withHandle s (.next (regWrite8 i b s))
  | .stopPulse => withHandle s (.next (stopPulse s))
  | .miiCmd o a r d =>
    withHandle s
      (if 31 < a ∨ 31 < r then .next (refuse .fieldRange s)
       else .next (regWrite32 .gmiiControl (miiCmdWord o (BitVec.ofNat 5 a) (BitVec.ofNat 5 r) d) s))
  | .eeCmd w =>
    withHandle s
      (if 63 < w then .next (refuse .fieldRange s)
       else .next (regWrite32 .romInterface (eeCmdWord (BitVec.ofNat 6 w)) s))
  | .pollMii => withHandle s (.next (pollMii s))
  | .pollEe => withHandle s (.next (pollEe s))
  | .memRead ring i w => .next (hostDescRead ring i w s)
  | .memWrite ring i w v => hostDescWrite ring i w v s
  | .bufWrite ring i off bytes => hostBufWrite ring i off bytes s
  | .bufRead i k => .next (hostBufRead i k s)
  | .zeroRings => .next (zeroRings s)
  | .point p => runPoint p s

end Sys2Proof.Machine
end

