-- ==== Sys2Proof/Machine/Entry.lean ====
section
/-!
DEFINITION. Sys2Proof/Machine/Entry.lean: the meanings of the HOST entry points (spec/30 R306): the tests an entry point
makes before its first access, and the sequence it then starts, which HOST runs one access a step (spec/00_scope.md R11,
Machine/HostSequence.lean). A call while an entry point is in progress has no move (spec/60 R916; log entry 19).
-/
namespace Sys2Proof.Machine

/-- Only between two entry points is there a move for a call (R11, R916). -/
def whenIdle (s : State) (k : Result) : Result :=
  match s.ops with
  | [] => k
  | _ :: _ => .next s

/-- The entry point's sequence begins; nothing is returned yet. -/
def startOps (l : List HostOp) (s : State) : Result := .next { s with ops := l, ret := none }

/-- INIT(): the guard, the platform checks, then the body (R805, R806, R809). -/
def execEntryInit (s : State) : Result :=
  whenIdle s
    (if s.ctx.enabled then withField s.ctx.stationAddress .stationAddress (fun a => .next (finish (.okAddress a) s))
     else if !s.cfg.devicePresent then .next (finish .errorNoDevice s)
     else if !s.cfg.mapOk then .fault .mapFailed
     else startOps (initOps s.cfg)
       { s with ctx.regHandle := some s.cfg.regBase, ctx.irqHandle := some s.cfg.irqLine })

/-- SEND(p): the tests in the order of R908, then the read of CMDSTS at the cursor (R506). -/
def execEntrySend (payload : List Byte) (s : State) : Result :=
  whenIdle s
    (if payload = [] then .next (refuse .emptyPayload s)
     else if !s.ctx.autonegDone then .next (finish .busy s)
     else if s.cfg.bufSize < payload.length then .fault (.tooLarge payload.length)
     else withField s.ctx.txCursor .txCursor (fun c =>
       startOps [.memRead .tx c .cmdsts, .point (.sendOwn payload c)] s))

/-- RECV(maxLen): the read of CMDSTS at the cursor (R530). -/
def execEntryRecv (maxLen : Nat) (s : State) : Result :=
  whenIdle s
    (withField s.ctx.rxCursor .rxCursor (fun c =>
      startOps [.memRead .rx c .cmdsts, .point (.recvOwn c maxLen)] s))

/-- SET_FILTER(flags) (R810). -/
def execEntrySetFilter (promisc multi broad : Bool) (s : State) : Result :=
  whenIdle s
    (withHandle s (startOps [.rd32 .rxMacControl, .point (.filterWrite (filterBits promisc multi broad))] s))

/-- SET_SA(addr) (R812). -/
def execEntrySetSa (addr : StationAddr) (s : State) : Result :=
  whenIdle s (withHandle s (startOps (programSaOps addr ++ [.point (.finish .done)]) s))

/-- The management address of the current PHY (R143). -/
def currentPhy? (c : Context) : Option (BitVec 5) :=
  match c.cur with
  | none => none
  | some i => (c.phys[i]?).map (fun p => p.addr)

/-- GET_LINK(): the latched BMSR of the current PHY (R625). -/
def execEntryGetLink (s : State) : Result :=
  whenIdle s
    (withField (currentPhy? s.ctx) .current (fun a =>
      withHandle s (startOps (bmsrLatchedOps s.cfg.phyMap a.toNat ++ [.point (.linkStatus a)]) s)))

/-- STOP() (R815). -/
def execEntryStop (s : State) : Result := whenIdle s (withHandle s (startOps (stopOps s.cfg) s))

/-- IRQ(): the line is disarmed, by the delivery or by a spurious run, and the handler reads IntrStatus (R707, R710). -/
def execEntryIrq (s : State) : Result :=
  whenIdle s
    (withHandle s (startOps [.rd32 .intrStatus, .point .irqDecode] { takeInterrupt s with irqPending := false }))

/-- TICK(): the exposed counter is refreshed (R720). -/
def execEntryTick (s : State) : Result :=
  whenIdle s (.next (finish .done { s with statRxErrors := s.ctx.rxErrors }))

end Sys2Proof.Machine
end

