-- ==== Sys2Proof/Machine/Management.lean ====
section
/-!
DEFINITION. Sys2Proof/Machine/Management.lean: the meanings of the command words HOST writes to GMIIControl and
ROMInterface (spec/41 R451 to R456, R468, R471; spec/30 R313, R314). Each is the RegWrite32 that carries the word; the
controller completes the transaction in a step of its own (R452, R453, R469: `miiComplete`, `eeComplete`).
-/
namespace Sys2Proof.Machine

/-- MII.READ: a management read starts (R451, R452). -/
def execMiiRead (data : Half) (regad phyad : BitVec 5) (s : State) : Result :=
  .next (regWrite32 .gmiiControl (miiWord data regad phyad 0#1 1#1 0#4) s)

/-- MII.WRITE: a management write starts (R451, R453). -/
def execMiiWrite (data : Half) (regad phyad : BitVec 5) (s : State) : Result :=
  .next (regWrite32 .gmiiControl (miiWord data regad phyad 1#1 1#1 0#4) s)

/-- MII.IDLE: the stored bits change, nothing starts (R454). -/
def execMiiIdle (data : Half) (regad phyad : BitVec 5) (opWr : BitVec 1) (s : State) : Result :=
  .next (regWrite32 .gmiiControl (miiWord data regad phyad opWr 0#1 0#4) s)

/-- MII.BITBANG: direct line control, refused: the mark MiiBitBang (R455). -/
def execMiiBitbang (data : Half) (regad phyad : BitVec 5) (opWr : BitVec 1) (lines : BitVec 4) (s : State) : Result :=
  .next (regWrite32 .gmiiControl (miiWord data regad phyad opWr 0#1 lines) s)

/-- MII.RSVD: REQ with a line bit, refused: the mark MiiBitBang (R455). -/
def execMiiRsvd (data : Half) (regad phyad : BitVec 5) (opWr : BitVec 1) (lines : BitVec 4) (s : State) : Result :=
  .next (regWrite32 .gmiiControl (miiWord data regad phyad opWr 1#1 lines) s)

/-- EE.READ: an EEPROM read starts (R468, R469). -/
def execEeRead (data : Half) (word : BitVec 6) (s : State) : Result :=
  .next (regWrite32 .romInterface (eeWord data word 0b10#2 1#1 0#7) s)

/-- EE.WRITE: refused: the mark EeWriteUnsupported (R471). -/
def execEeWrite (data : Half) (word : BitVec 6) (s : State) : Result :=
  .next (regWrite32 .romInterface (eeWord data word 0b01#2 1#1 0#7) s)

/-- EE.RSVD0: refused: the mark ReservedEncoding (R471). -/
def execEeRsvd0 (data : Half) (word : BitVec 6) (s : State) : Result :=
  .next (regWrite32 .romInterface (eeWord data word 0b00#2 1#1 0#7) s)

/-- EE.RSVD3: refused: the mark ReservedEncoding (R471). -/
def execEeRsvd3 (data : Half) (word : BitVec 6) (s : State) : Result :=
  .next (regWrite32 .romInterface (eeWord data word 0b11#2 1#1 0#7) s)

/-- EE.RSVDLINES: refused: the mark ReservedEncoding (R471). -/
def execEeRsvdLines (data : Half) (word : BitVec 6) (op : BitVec 2) (low : BitVec 7) (s : State) : Result :=
  .next (regWrite32 .romInterface (eeWord data word op 1#1 low) s)

/-- EE.IDLE: the stored bits change, nothing starts (R471). -/
def execEeIdle (data : Half) (word : BitVec 6) (op : BitVec 2) (low : BitVec 7) (s : State) : Result :=
  .next (regWrite32 .romInterface (eeWord data word op 0#1 low) s)

end Sys2Proof.Machine
end

