-- ==== Sys2Proof/Machine/RegisterInterface.lean ====
section
/-!
DEFINITION. Sys2Proof/Machine/RegisterInterface.lean: the meanings of the register-access rows (spec/40): RD32.*,
WR32.*, WR8.*. Each is one access of the window by HOST; a read's value goes to HOST's local `hostT`.
-/
namespace Sys2Proof.Machine

/-- RD32.TxControl: RegRead32(0x00) (R400, R407). -/
def execRd32TxControl (s : State) : Result := .next (regRead32 .txControl s)

/-- RD32.TxDescBase: RegRead32(0x04) (R400, R407). -/
def execRd32TxDescBase (s : State) : Result := .next (regRead32 .txDescBase s)

/-- RD32.RxControl: RegRead32(0x10) (R400, R407). -/
def execRd32RxControl (s : State) : Result := .next (regRead32 .rxControl s)

/-- RD32.RxDescBase: RegRead32(0x14) (R400, R407). -/
def execRd32RxDescBase (s : State) : Result := .next (regRead32 .rxDescBase s)

/-- RD32.IntrStatus: RegRead32(0x20) (R400, R407). -/
def execRd32IntrStatus (s : State) : Result := .next (regRead32 .intrStatus s)

/-- RD32.IntrMask: RegRead32(0x24) (R400, R407). -/
def execRd32IntrMask (s : State) : Result := .next (regRead32 .intrMask s)

/-- RD32.IntrControl: RegRead32(0x28) (R400, R407). -/
def execRd32IntrControl (s : State) : Result := .next (regRead32 .intrControl s)

/-- RD32.ROMInterface: RegRead32(0x3C) (R400, R407). -/
def execRd32ROMInterface (s : State) : Result := .next (regRead32 .romInterface s)

/-- RD32.StationControl: RegRead32(0x40) (R400, R407). -/
def execRd32StationControl (s : State) : Result := .next (regRead32 .stationControl s)

/-- RD32.GMIIControl: RegRead32(0x44) (R400, R407). -/
def execRd32GMIIControl (s : State) : Result := .next (regRead32 .gmiiControl s)

/-- RD32.RGDelay: RegRead32(0x58) (R400, R407). -/
def execRd32RGDelay (s : State) : Result := .next (regRead32 .rgDelay s)

/-- RD32.RxMacControl: RegRead32(0x60) (R400, R407). -/
def execRd32RxMacControl (s : State) : Result := .next (regRead32 .rxMacControl s)

/-- RD32.RxMacAddr25: RegRead32(0x64) (R400, R407). -/
def execRd32RxMacAddr25 (s : State) : Result := .next (regRead32 .rxMacAddr25 s)

/-- RD32.RxHashTable0: RegRead32(0x68) (R400, R407). -/
def execRd32RxHashTable0 (s : State) : Result := .next (regRead32 .rxHashTable0 s)

/-- RD32.RxHashTable1: RegRead32(0x6C) (R400, R407). -/
def execRd32RxHashTable1 (s : State) : Result := .next (regRead32 .rxHashTable1 s)

/-- WR32.TxControl: RegWrite32(0x00, v) (R401, R406). -/
def execWr32TxControl (v : Word) (s : State) : Result := .next (regWrite32 .txControl v s)

/-- WR32.TxDescBase: RegWrite32(0x04, v) (R401, R406). -/
def execWr32TxDescBase (v : Word) (s : State) : Result := .next (regWrite32 .txDescBase v s)

/-- WR32.RxControl: RegWrite32(0x10, v) (R401, R406). -/
def execWr32RxControl (v : Word) (s : State) : Result := .next (regWrite32 .rxControl v s)

/-- WR32.RxDescBase: RegWrite32(0x14, v) (R401, R406). -/
def execWr32RxDescBase (v : Word) (s : State) : Result := .next (regWrite32 .rxDescBase v s)

/-- WR32.IntrStatus: RegWrite32(0x20, v) (R401, R406). -/
def execWr32IntrStatus (v : Word) (s : State) : Result := .next (regWrite32 .intrStatus v s)

/-- WR32.IntrMask: RegWrite32(0x24, v) (R401, R406). -/
def execWr32IntrMask (v : Word) (s : State) : Result := .next (regWrite32 .intrMask v s)

/-- WR32.IntrControl: RegWrite32(0x28, v) (R401, R406). -/
def execWr32IntrControl (v : Word) (s : State) : Result := .next (regWrite32 .intrControl v s)

/-- WR32.ROMInterface: RegWrite32(0x3C, v) (R401, R406). -/
def execWr32ROMInterface (v : Word) (s : State) : Result := .next (regWrite32 .romInterface v s)

/-- WR32.StationControl: RegWrite32(0x40, v) (R401, R406). -/
def execWr32StationControl (v : Word) (s : State) : Result := .next (regWrite32 .stationControl v s)

/-- WR32.GMIIControl: RegWrite32(0x44, v) (R401, R406). -/
def execWr32GMIIControl (v : Word) (s : State) : Result := .next (regWrite32 .gmiiControl v s)

/-- WR32.RGDelay: RegWrite32(0x58, v) (R401, R406). -/
def execWr32RGDelay (v : Word) (s : State) : Result := .next (regWrite32 .rgDelay v s)

/-- WR32.RxMacControl: RegWrite32(0x60, v) (R401, R406). -/
def execWr32RxMacControl (v : Word) (s : State) : Result := .next (regWrite32 .rxMacControl v s)

/-- WR32.RxMacAddr25: RegWrite32(0x64, v) (R401, R406). -/
def execWr32RxMacAddr25 (v : Word) (s : State) : Result := .next (regWrite32 .rxMacAddr25 v s)

/-- WR32.RxHashTable0: RegWrite32(0x68, v) (R401, R406). -/
def execWr32RxHashTable0 (v : Word) (s : State) : Result := .next (regWrite32 .rxHashTable0 v s)

/-- WR32.RxHashTable1: RegWrite32(0x6C, v) (R401, R406). -/
def execWr32RxHashTable1 (v : Word) (s : State) : Result := .next (regWrite32 .rxHashTable1 v s)

/-- WR8.SA01: RegWrite8(0x62 + lane, b), station-address byte `lane` (R402). -/
def execWr8Sa01 (lane : BitVec 1) (b : Byte) (s : State) : Result := .next (regWrite8 lane.toNat b s)

/-- WR8.SA25: RegWrite8(0x64 + lane, b), station-address byte 2 + lane (R402). -/
def execWr8Sa25 (lane : BitVec 2) (b : Byte) (s : State) : Result := .next (regWrite8 (2 + lane.toNat) b s)

end Sys2Proof.Machine
end

