-- ==== Sys2Proof/Machine/Dispatch.lean ====
section
/-!
DEFINITION. Sys2Proof/Machine/Dispatch.lean: one arm per row of spec/opcode_table.json, in the table's order; each calls
its own meaning.
-/
namespace Sys2Proof.Machine

def exec (i : Instr) (s : State) : Host.Outcome State Fault Refusal :=
  match i with
  -- RD32
  | .rd32TxControl => Sys2Proof.Machine.execRd32TxControl s
  | .rd32TxDescBase => Sys2Proof.Machine.execRd32TxDescBase s
  | .rd32RxControl => Sys2Proof.Machine.execRd32RxControl s
  | .rd32RxDescBase => Sys2Proof.Machine.execRd32RxDescBase s
  | .rd32IntrStatus => Sys2Proof.Machine.execRd32IntrStatus s
  | .rd32IntrMask => Sys2Proof.Machine.execRd32IntrMask s
  | .rd32IntrControl => Sys2Proof.Machine.execRd32IntrControl s
  | .rd32ROMInterface => Sys2Proof.Machine.execRd32ROMInterface s
  | .rd32StationControl => Sys2Proof.Machine.execRd32StationControl s
  | .rd32GMIIControl => Sys2Proof.Machine.execRd32GMIIControl s
  | .rd32RGDelay => Sys2Proof.Machine.execRd32RGDelay s
  | .rd32RxMacControl => Sys2Proof.Machine.execRd32RxMacControl s
  | .rd32RxMacAddr25 => Sys2Proof.Machine.execRd32RxMacAddr25 s
  | .rd32RxHashTable0 => Sys2Proof.Machine.execRd32RxHashTable0 s
  | .rd32RxHashTable1 => Sys2Proof.Machine.execRd32RxHashTable1 s
  -- WR32
  | .wr32TxControl v => Sys2Proof.Machine.execWr32TxControl v s
  | .wr32TxDescBase v => Sys2Proof.Machine.execWr32TxDescBase v s
  | .wr32RxControl v => Sys2Proof.Machine.execWr32RxControl v s
  | .wr32RxDescBase v => Sys2Proof.Machine.execWr32RxDescBase v s
  | .wr32IntrStatus v => Sys2Proof.Machine.execWr32IntrStatus v s
  | .wr32IntrMask v => Sys2Proof.Machine.execWr32IntrMask v s
  | .wr32IntrControl v => Sys2Proof.Machine.execWr32IntrControl v s
  | .wr32ROMInterface v => Sys2Proof.Machine.execWr32ROMInterface v s
  | .wr32StationControl v => Sys2Proof.Machine.execWr32StationControl v s
  | .wr32GMIIControl v => Sys2Proof.Machine.execWr32GMIIControl v s
  | .wr32RGDelay v => Sys2Proof.Machine.execWr32RGDelay v s
  | .wr32RxMacControl v => Sys2Proof.Machine.execWr32RxMacControl v s
  | .wr32RxMacAddr25 v => Sys2Proof.Machine.execWr32RxMacAddr25 v s
  | .wr32RxHashTable0 v => Sys2Proof.Machine.execWr32RxHashTable0 v s
  | .wr32RxHashTable1 v => Sys2Proof.Machine.execWr32RxHashTable1 v s
  -- WR8
  | .wr8Sa01 lane b => Sys2Proof.Machine.execWr8Sa01 lane b s
  | .wr8Sa25 lane b => Sys2Proof.Machine.execWr8Sa25 lane b s
  -- MII
  | .miiRead data regad phyad => Sys2Proof.Machine.execMiiRead data regad phyad s
  | .miiWrite data regad phyad => Sys2Proof.Machine.execMiiWrite data regad phyad s
  | .miiIdle data regad phyad opWr => Sys2Proof.Machine.execMiiIdle data regad phyad opWr s
  | .miiBitbang data regad phyad opWr lines => Sys2Proof.Machine.execMiiBitbang data regad phyad opWr lines s
  | .miiRsvd data regad phyad opWr lines => Sys2Proof.Machine.execMiiRsvd data regad phyad opWr lines s
  -- EE
  | .eeRead data word => Sys2Proof.Machine.execEeRead data word s
  | .eeWrite data word => Sys2Proof.Machine.execEeWrite data word s
  | .eeRsvd0 data word => Sys2Proof.Machine.execEeRsvd0 data word s
  | .eeRsvd3 data word => Sys2Proof.Machine.execEeRsvd3 data word s
  | .eeRsvdLines data word op low => Sys2Proof.Machine.execEeRsvdLines data word op low s
  | .eeIdle data word op low => Sys2Proof.Machine.execEeIdle data word op low s
  -- TXCTL
  | .txctlKick cfgHi cfgLo => Sys2Proof.Machine.execTxctlKick cfgHi cfgLo s
  | .txctlEnable cfgHi cfgLo => Sys2Proof.Machine.execTxctlEnable cfgHi cfgLo s
  | .txctlDisable cfgHi poll cfgLo => Sys2Proof.Machine.execTxctlDisable cfgHi poll cfgLo s
  -- RXCTL
  | .rxctlKick cfgHi cfgLo => Sys2Proof.Machine.execRxctlKick cfgHi cfgLo s
  | .rxctlEnable cfgHi cfgLo => Sys2Proof.Machine.execRxctlEnable cfgHi cfgLo s
  | .rxctlDisable cfgHi poll cfgLo => Sys2Proof.Machine.execRxctlDisable cfgHi poll cfgLo s
  -- IC
  | .icSoft hi lo => Sys2Proof.Machine.execIcSoft hi lo s
  | .icRelease hi lo => Sys2Proof.Machine.execIcRelease hi lo s
  -- IS
  | .isAck clear => Sys2Proof.Machine.execIsAck clear s
  -- TXD
  | .txdHwown intr rsvd cmd status => Sys2Proof.Machine.execTxdHwown intr rsvd cmd status s
  | .txdSwown intr rsvd cmd status => Sys2Proof.Machine.execTxdSwown intr rsvd cmd status s
  -- RXD
  | .rxdHwown intr rsvd cmd status => Sys2Proof.Machine.execRxdHwown intr rsvd cmd status s
  | .rxdSwown intr rsvd cmd status => Sys2Proof.Machine.execRxdSwown intr rsvd cmd status s
  -- ENTRY
  | .entryInit => Sys2Proof.Machine.execEntryInit s
  | .entrySend payload => Sys2Proof.Machine.execEntrySend payload s
  | .entryRecv maxLen => Sys2Proof.Machine.execEntryRecv maxLen s
  | .entrySetFilter promisc multi broad => Sys2Proof.Machine.execEntrySetFilter promisc multi broad s
  | .entrySetSa addr => Sys2Proof.Machine.execEntrySetSa addr s
  | .entryGetLink => Sys2Proof.Machine.execEntryGetLink s
  | .entryStop => Sys2Proof.Machine.execEntryStop s
  | .entryIrq => Sys2Proof.Machine.execEntryIrq s
  | .entryTick => Sys2Proof.Machine.execEntryTick s

end Sys2Proof.Machine
end

