-- ==== Sys2Proof/Machine/Agents.lean ====
section
/-!
DEFINITION. Sys2Proof/Machine/Agents.lean: the turns of the agents (spec/00_scope.md R10): HOST's next micro-operation,
pending interrupt or next operation of its program; the DMA engines' fetch and visit; the controllers' completions; the
environment's events; and the schedule that says who moves (log entry 1).
-/
namespace Sys2Proof.Machine

/-! ### HOST -/

/-- Whether an operation is HOST's to make; a CMDSTS word is fetched by an engine instead. -/
def hostMakes : Instr → Bool
  | .txdHwown _ _ _ _ | .txdSwown _ _ _ _ | .rxdHwown _ _ _ _ | .rxdSwown _ _ _ _ => false
  | _ => true

/-- The mark of a rejected operation, if the spec gives it one (R317; log entry 16). -/
def rejectMark? : Reject → Option Mark
  | .reservedOffset => some .reservedOffset
  | .misalignedRegAccess => some .misalignedRegAccess
  | .reservedEncoding => some .reservedEncoding
  | .noOperation => none

/-- HOST's next operation: fetched from the head of the program, decoded, moved past, and executed; one that is no
operation is refused as R317 says and passed over. -/
def fetchHost (s : State) : Result :=
  match decode s.cfg.regMap s.prog with
  | .ok i rest => if hostMakes i then exec i { s with prog := rest } else .refused .undecodable
  | .reject why rest =>
    match rejectMark? why with
    | some .reservedEncoding => .next (refuse .reservedEncoding { s with prog := rest })
    | some m => .next (rejectAccess m { s with prog := rest })
    | none => .refused .undecodable

/-- HOST's turn (R11, R707, R912): the entry point in progress first; between entry points a delivered interrupt, then the
program; HOST with nothing to do waits. -/
def hostTurn (s : State) : Result :=
  match s.ops with
  | op :: rest => runOp op { s with ops := rest }
  | [] =>
    if s.irqPending then exec .entryIrq s
    else
      match s.prog with
      | [] => .next s
      | _ :: _ => fetchHost s

/-! ### The DMA engines -/

/-- TXDMA's turn: the fetch of CMDSTS at its pointer, and the visit (R524). -/
def txTurn (s : State) : Result :=
  if s.tx.en then
    match dmaFault? s (descAddr s.tx.base s.tx.ptr .cmdsts) 4 with
    | some x => .fault (.dmaOutOfRegion x)
    | none => exec (decodeDesc .tx (visitWord s s.tx .cmdsts)) s
  else .next s

/-- RXDMA's turn: a frame the filter refuses is dropped before any fetch; else the fetch and the visit (R541). -/
def rxTurn (s : State) : Result :=
  match s.rx.en, s.wireIn with
  | true, f :: _ =>
    if accept s f.bytes then
      match dmaFault? s (descAddr s.rx.base s.rx.ptr .cmdsts) 4 with
      | some x => .fault (.dmaOutOfRegion x)
      | none => exec (decodeDesc .rx (visitWord s s.rx .cmdsts)) s
    else .next (rxUnaccepted f.bytes s)
  | _, _ => .next s

/-! ### The environment -/

/-- WIRE appends a frame of 1 to 65535 bytes; with the RX engine off it is discarded at once (R540). -/
def frameArrives (f : Config.Frame) (s : State) : State :=
  if f.bytes ≠ [] ∧ f.bytes.length ≤ 65535 ∧ s.rx.en then { s with wireIn := s.wireIn ++ [f] } else s

/-- The controller delivers the line, if it is asserted and armed (R707). -/
def deliverTurn (s : State) : State := if deliverable s then takeInterrupt s else s

/-- A spurious run of IRQ: only between two entry points (R707). -/
def spuriousTurn (s : State) : State :=
  match s.ops with
  | [] => takeInterrupt s
  | _ :: _ => s

/-- A fair agent's turn: its step if it is fairly enabled (R457, R521, R541, R707). -/
def fairTurn (a : Config.FairAgent) (s : State) : Result :=
  match a with
  | .host => hostTurn s
  | .miic => .next (miiComplete s)
  | .eec => .next (eeComplete s)
  | .txdma => if visitFair s.tx then txTurn s else .next s
  | .rxdma => if visitFair s.rx then rxTurn s else .next s
  | .delivery => .next (deliverTurn s)

/-- One turn of one agent. A turn whose step is not enabled changes nothing. -/
def takeTurn (t : Config.Turn) (s : State) : Result :=
  match t with
  | .host => hostTurn s
  | .miic => .next (miiComplete s)
  | .eec => .next (eeComplete s)
  | .txdma => txTurn s
  | .rxdma => rxTurn s
  | .frame f => .next (frameArrives f s)
  | .link => .next (setStatus linkBit s)
  | .remove => .next { s with removed := true }
  | .irqBits bits => .next (setStatus (bits &&& irqAgentBits) s)
  | .deliver => .next (deliverTurn s)
  | .spurious => .next (spuriousTurn s)
  | .fair a => fairTurn a s

/-! ### The schedule (log entry 1) -/

/-- The agent whose fair turn closes batch n of the free schedule: each in rotation; without MII_FAIR the controllers'
places fall to HOST (R457). -/
def rotation (cfg : Config.Params) (n : Nat) : Config.FairAgent :=
  match n % 6 with
  | 0 => .host
  | 1 => if cfg.miiFair then .miic else .host
  | 2 => if cfg.miiFair then .eec else .host
  | 3 => .txdma
  | 4 => .rxdma
  | _ => .delivery

/-- The next turn and the state that remembers the later ones. -/
def nextTurn (s : State) : Config.Turn × State :=
  match s.sched with
  | t :: ts => (t, { s with sched := ts })
  | [] =>
    match Config.freeTurns s.rounds with
    | [] => (.fair (rotation s.cfg s.rounds), { s with rounds := s.rounds + 1 })
    | t :: ts => (t, { s with sched := ts ++ [.fair (rotation s.cfg s.rounds)], rounds := s.rounds + 1 })

/-- One step of the machine: the next turn of the schedule. -/
def runStep (s : State) : Result := takeTurn (nextTurn s).1 (nextTurn s).2

/-! ### The placing of one operation (log entries 2, 4) -/

/-- An operation of HOST's, at the head of its program, with HOST between entry points and its turn next. -/
def placeHost (bytes : List Byte) (s : State) : State :=
  { s with prog := bytes ++ s.prog, ops := [], irqPending := false, sched := .host :: s.sched }

/-- A descriptor {0, cmdsts, 0, 0} at slot 0 of the allocated TX ring, with the TX engine on at slot 0 and its turn
next. -/
def placeTxDescriptor (cmdsts : Word) (s : State) : State :=
  let a := s.cfg.txRingPa
  { s with
    ctx.allocated := true
    tx := { en := true, base := a, ptr := 0, kick := false, idle := false }
    mem := memWriteBytes s.mem a (wordBytes 0 ++ wordBytes cmdsts ++ wordBytes 0 ++ wordBytes 0)
    sched := .txdma :: s.sched }

/-- A table word placed where the next step fetches it. -/
def placeTableWord (nbits w : Nat) (s : State) : State :=
  match tableFormat nbits w with
  | .txd => placeTxDescriptor (BitVec.ofNat 32 (w % 2 ^ nbits)) s
  | _ => placeHost (tableBytes nbits w) s

end Sys2Proof.Machine
end

