-- ==== Sys2Proof/Machine/Step.lean ====
section
/-!
DEFINITION. Sys2Proof/Machine/Step.lean: the one step of the machine, and the placing of a table word where the next
step fetches it. Both only call Machine/Agents.lean.
-/
namespace Sys2Proof.Machine

/-- One step: the next turn of the schedule (R10, R11). -/
def step : State → Host.Outcome State Fault Refusal := Sys2Proof.Machine.runStep

/-- The state with a table word's operation as the one the very next step runs (log entries 2, 4). -/
def State.withFetchWord (s : State) (nbits w : Nat) : State := Sys2Proof.Machine.placeTableWord nbits w s

end Sys2Proof.Machine
end

