-- ==== Sys2Proof/Safety.lean ====
section
/-!
DEFINITION. Sys2Proof/Safety.lean: the terms that claims about the block are stated in: runs of given turns, which rows
touch the window, the launch premise CleanLaunch (spec/70 R1004), the end of a run (spec/60 R915), and the invariant
that every step keeps.
-/
namespace Sys2Proof.Machine

/-! ### Runs -/

/-- The state after the given turns, one step each; a fault or a refusal ends the run (R10, R900). -/
def runTurns : List Config.Turn → State → Result
  | [], s => .next s
  | t :: ts, s =>
    match takeTurn t s with
    | .next s' => runTurns ts s'
    | .fault f => .fault f
    | .refused r => .refused r

/-- n turns of HOST with no other agent between them. -/
def hostTurns (n : Nat) (s : State) : Result := runTurns (List.replicate n .host) s

/-! ### Rows -/

/-- An access takes its plain effect: not in the SOFT phase, the device present (R404, R405). -/
def windowOpen (s : State) : Bool := !softPhase s && !s.removed

/-- The rows that are one access of the register window (R300 to R303). -/
def accessesWindow : Instr → Bool
  | .txdHwown _ _ _ _ | .txdSwown _ _ _ _ | .rxdHwown _ _ _ _ | .rxdSwown _ _ _ _ => false
  | .entryInit | .entrySend _ | .entryRecv _ | .entrySetFilter _ _ _ | .entrySetSa _ | .entryGetLink | .entryStop
  | .entryIrq | .entryTick => false
  | _ => true

/-- The rows that read the window (R400). -/
def readsWindow : Instr → Bool
  | .rd32TxControl | .rd32TxDescBase | .rd32RxControl | .rd32RxDescBase | .rd32IntrStatus | .rd32IntrMask
  | .rd32IntrControl | .rd32ROMInterface | .rd32StationControl | .rd32GMIIControl | .rd32RGDelay | .rd32RxMacControl
  | .rd32RxMacAddr25 | .rd32RxHashTable0 | .rd32RxHashTable1 => true
  | _ => false

/-- The rows that write IntrControl (R108). -/
def writesIntrControl : Instr → Bool
  | .wr32IntrControl _ | .icSoft _ _ | .icRelease _ _ => true
  | _ => false

/-- The rows that are the release, the one access the SOFT phase admits (R405, R804). -/
def isReleaseRow : Instr → Bool
  | .wr32IntrControl v => !v.getLsbD 15
  | .icRelease _ _ => true
  | _ => false

/-- The rows that are HOST entry points, the only calls of a run (R915, R916, R1004 item 7). -/
def isEntryPoint : Instr → Bool
  | .entryInit | .entrySend _ | .entryRecv _ | .entrySetFilter _ _ _ | .entrySetSa _ | .entryGetLink | .entryStop
  | .entryIrq | .entryTick => true
  | _ => false

/-! ### The launch premise (R1004) -/

/-- Two regions that lie below 2^32 and share no byte. -/
def apart (a n b m : Nat) : Bool := decide (a + n ≤ b) || decide (b + m ≤ a)

/-- The four regions are 16-byte aligned, pairwise disjoint and below 2^32 (R209, R1004 item 5). -/
def regionsOk (c : Config.Params) : Bool :=
  let ring := 16 * c.ringLen
  let pool := c.bufSize * c.ringLen
  let t := c.txRingPa.toNat
  let r := c.rxRingPa.toNat
  let p := c.txPoolPa.toNat
  let q := c.rxPoolPa.toNat
  decide (t % 16 = 0) && decide (r % 16 = 0) && decide (p % 16 = 0) && decide (q % 16 = 0) &&
    decide (t + ring ≤ 2 ^ 32) && decide (r + ring ≤ 2 ^ 32) && decide (p + pool ≤ 2 ^ 32) && decide (q + pool ≤ 2 ^ 32) &&
    apart t ring r ring && apart t ring p pool && apart t ring q pool && apart r ring p pool && apart r ring q pool &&
    apart p pool q pool

/-- RX_BAD takes both values (R512). -/
def rxBadOk : Config.RxBad → Bool
  | .unknown => true
  | .errorBits mask _ => decide (mask ≠ 0)

/-- The parameters are in their stated ranges (R12, R13, R17, R101, R110, R512, R1004 items 3 to 5). -/
def paramsOk (c : Config.Params) : Bool :=
  decide (1 ≤ c.ringLen) && decide (c.ringLen ≤ 4096) && decide (c.bufSize % 16 = 0) && decide (c.ethMinLen ≤ c.bufSize) &&
    decide (c.bufSize ≤ 0xFFFF) && decide (1 ≤ c.linkPollMax) && decide (1 ≤ c.anegPollMax) && rxBadOk c.rxBad &&
    decide (c.txCfg &&& ~~~cfgMask = 0) && decide (c.rxCfg &&& ~~~cfgMask = 0) && (!c.allocOk || regionsOk c) && c.regMap.ok

/-- A call with its operands in their stated ranges: an entry point that can be written down, and a payload that is not
empty (R506, R1004 items 6 and 7). -/
def callOk (i : Instr) : Bool := isEntryPoint i && i.WellFormed && decide (i ≠ .entrySend [])

/-- HOST's program is a finite list of entry-point calls and nothing else (R915, R916, R1004 item 7; log entry 2). -/
def OnlyCalls (s : State) : Prop :=
  ∃ calls : List Instr, (∀ i ∈ calls, callOk i = true) ∧ s.prog = calls.flatMap (encode s.cfg.regMap)

/-- CleanLaunch: the power-on state of the run's parameters, which name any value where the spec draws one, with the Device
Context just created, parameters in their ranges, and a program of entry-point calls (R1000, R1004). The draws of
TxDescBase and RxDescBase may be any words, as R1000 says; R211's bits [3:0] = 0 are not asked of them (log entry 42,
DEDUCED). -/
structure CleanLaunch (s : State) : Prop where
  params    : paramsOk s.cfg = true
  device    : s.regs = s.cfg.powerOn.regs ∧ s.miic = s.cfg.powerOn.miic ∧ s.eec = s.cfg.powerOn.eec ∧
    s.tx = s.cfg.powerOn.tx ∧ s.rx = s.cfg.powerOn.rx
  context   : s.ctx = Context.reset
  mask      : s.regs.intrMask = 0
  status    : s.regs.intrStatus &&& ~~~definedStatus = 0
  notSoft   : softPhase s = false
  txOff     : s.tx.en = false ∧ s.tx.kick = false
  rxOff     : s.rx.en = false ∧ s.rx.kick = false
  miicIdle  : s.miic.busy = false ∧ s.miic.rdata = none
  eecIdle   : s.eec.busy = false ∧ s.eec.rdata = none
  present   : s.removed = false
  armed     : s.irqArmed = true ∧ s.irqPending = false
  noFrames  : s.wireIn = []
  noMarks   : s.marks = []
  noCall    : s.ops = []
  noErrors  : s.statRxErrors = 0
  calls     : OnlyCalls s

/-! ### The end of a run (R915) -/

/-- A final state: HOST has returned from its last call, nothing is refused, the controllers are idle, and neither a DMA
engine nor the delivery has a fair step. A fault is no state at all (R900). R915 does not speak of an interrupt that is
delivered and whose handler has not started: it bars a final state here, as a run of IRQ still to come (log entry 19,
DESIGN CHOICE). -/
def Final (s : State) : Bool :=
  s.prog.isEmpty && s.ops.isEmpty && !s.irqPending && s.marks.isEmpty && !s.miic.busy && !s.eec.busy &&
    !visitFair s.tx && !(visitFair s.rx && !s.wireIn.isEmpty) && !deliverable s

/-! ### The invariant that every step keeps -/

/-- A frame WIRE may deliver: 1 to 65535 bytes (R540). -/
def frameOk (f : Config.Frame) : Bool := !f.bytes.isEmpty && decide (f.bytes.length ≤ 65535)

/-- What holds in every state of a run whatever the agents do, each field with its rule. -/
structure Inv (s : State) : Prop where
  /-- Host memory is in its canonical form (log entry 8). -/
  memory        : memWf s.mem = true
  /-- The reserved bits of IntrStatus read 0 (R106). -/
  statusBits    : s.regs.intrStatus &&& ~~~definedStatus = 0
  /-- The stored words hold no ENB and no POLL bit (R102). -/
  txCfgBits     : s.regs.txCfg &&& ~~~cfgMask = 0
  /-- The stored words hold no ENB and no POLL bit (R104). -/
  rxCfgBits     : s.regs.rxCfg &&& ~~~cfgMask = 0
  /-- Bits [3:0] of the ring-base registers are 0 (R211). -/
  txDescAligned : s.regs.txDescBase.extractLsb' 0 4 = 0
  /-- Bits [3:0] of the ring-base registers are 0 (R211). -/
  rxDescAligned : s.regs.rxDescBase.extractLsb' 0 4 = 0
  /-- The latched bases are aligned (R210). -/
  txBaseAligned : s.tx.base.extractLsb' 0 4 = 0
  /-- The latched bases are aligned (R210). -/
  rxBaseAligned : s.rx.base.extractLsb' 0 4 = 0
  /-- In the SOFT phase the engines are off, the controllers idle and interrupts masked (R405, R803). -/
  softQuiet     : softPhase s = true →
    s.tx.en = false ∧ s.rx.en = false ∧ s.miic.busy = false ∧ s.eec.busy = false ∧ s.regs.intrMask = 0
  /-- A transaction in progress has no result yet (R451). -/
  miiPending    : s.miic.busy = true → s.miic.rdata = none
  /-- A read in progress has no result yet (R468). -/
  eePending     : s.eec.busy = true → s.eec.rdata = none
  /-- Only an enabled engine is kicked (R520, R523). -/
  txKicked      : s.tx.kick = true → s.tx.en = true
  /-- Only an enabled engine is kicked (R520, R523). -/
  rxKicked      : s.rx.kick = true → s.rx.en = true
  /-- The rings have a slot (R12). -/
  ringLen       : 0 < s.cfg.ringLen
  /-- The engines' pointers name a slot (R122). -/
  txPtr         : s.tx.ptr < s.cfg.ringLen
  /-- The engines' pointers name a slot (R123). -/
  rxPtr         : s.rx.ptr < s.cfg.ringLen
  /-- The cursors name a slot (R140). -/
  txCursor      : ∀ c, s.ctx.txCursor = some c → c < s.cfg.ringLen
  /-- The cursors name a slot (R140). -/
  rxCursor      : ∀ c, s.ctx.rxCursor = some c → c < s.cfg.ringLen
  /-- The current PHY is one of the list (R143). -/
  current       : ∀ i, s.ctx.cur = some i → i < s.ctx.phys.length
  /-- An enabled context has a station address (R805, R809). -/
  enabled       : s.ctx.enabled = true → s.ctx.stationAddress ≠ none
  /-- The frames that wait are frames WIRE may deliver (R540). -/
  frames        : ∀ f ∈ s.wireIn, frameOk f = true

end Sys2Proof.Machine
end

