-- ==== Sys2Proof/Certificates/Slice0/Obligations.lean ====
section
/-!
DEFINITION. Sys2Proof/Certificates/Slice0/Obligations.lean: the statements about the block, from the numbered rules of
spec/. A next state is written as the state before with the fields that change, so that everything not named is
unchanged: the frame stands in the equation. `draws` and `pins` are the model's own count of free values (log entry 14).
The PHY registers, the EEPROM's words and the field codes are those of State.cfg's maps, whatever they are (R7);
SpecWordsDecode states the reference ones. Words of registers and of descriptors are in the reference layout, to which the
decoder brings those of REGMAP (log entry 34).
-/
open Sys2Proof Sys2Proof.Machine

/-! ### Encoding (spec/30) -/

/-- R300 to R306, R312 to R316, R101: under every REGMAP the decoder reads back every operand of every well-formed
operation. The format byte and the layout of an entry point's operands are the model's own (log entries 3, 21). -/
def Obligations.DecodeOfEncode : Prop :=
  ∀ (m : Config.RegMap) (i : Instr) (rest : List Byte), m.ok = true → i.WellFormed = true →
    decode m (encode m i ++ rest) = .ok i rest

/-- R313, R314, R318: no two byte strings are the same operation: what the decoder accepts is the encoding of what it
answers, and is well formed, whatever the REGMAP. The format byte, the operand bytes of the entry points and their bound
of 2^32 are the model's own, and the statement rests on them (log entries 3, 21). -/
def Obligations.EncodeOfDecode : Prop :=
  ∀ (m : Config.RegMap) (bytes rest : List Byte) (i : Instr), decode m bytes = .ok i rest →
    i.WellFormed = true ∧ encode m i ++ rest = bytes

/-- Words written out from R300 to R306 for the reference REGMAP decode to the rows they stand for (sanity); the format
byte before each and the operands of SET_FILTER are the model's own (log entries 3, 21). The reference maps hold the PHY
registers and bits of R305, the EEPROM words and bits of R472, the codes of R111 and R113, and the byte positions and codes
of R114, R115 and R109. -/
def Obligations.SpecWordsDecode : Prop :=
  decode Config.referenceMap [0x00, 0x24, 0x20] = .ok .rd32IntrMask [] ∧
  decode Config.referenceMap [0x00, 0x24, 0xA0, 0xCC, 0x00, 0x01, 0x00] = .ok (.wr32IntrMask 0x000100CC) [] ∧
  decode Config.referenceMap [0x00, 0x63, 0x80, 0x11] = .ok (.wr8Sa01 1 0x11) [] ∧
  decode Config.referenceMap [0x01, 0x50, 0x08, 0x00, 0x00] = .ok (.miiRead 0 1 1) [] ∧
  decode Config.referenceMap [0x01, 0x70, 0x00, 0x00, 0x92] = .ok (.miiWrite 0x9200 0 1) [] ∧
  decode Config.referenceMap [0x02, 0x80, 0x0E, 0x00, 0x00] = .ok (.eeRead 0 3) [] ∧
  decode Config.referenceMap [0x03, 0x11, 0x1A, 0x00, 0x00] = .ok (.txctlKick 0xD0 0) [] ∧
  decode Config.referenceMap [0x05, 0x00, 0x80, 0x00, 0x00] = .ok (.icSoft 0 0) [] ∧
  decode Config.referenceMap [0x07, 0x00, 0x00, 0x23, 0xC0] = .ok (.txdHwown 1 0 0x23 0) [] ∧
  decode Config.referenceMap [0x09, 0x04, 0x01] = .ok (.entrySetFilter true false false) [] ∧
  (let m := Config.referencePhyMap;
    [m.bmcr, m.bmsr, m.phyid1, m.phyid2, m.anar, m.anlpar, m.aner, m.gtcr, m.gtsr] = [0, 1, 2, 3, 4, 5, 6, 9, 10] ∧
    [m.link, m.anComplete, m.capTag, m.half10, m.full10, m.half100, m.full100] = [2, 5, 11, 5, 6, 7, 8] ∧
    [m.nextPage, m.lpAnAble, m.adv1000Half, m.adv1000Full, m.lp1000Half, m.lp1000Full] = [15, 0, 8, 9, 10, 11] ∧
    [bmcrResetAn m, bmcrAnIso m, bmcrIsolate m] = [0x9200, 0x1400, 0x0400]) ∧
  (let m := Config.referenceEepromMap;
    [m.signature, m.board, m.sa01, m.sa23, m.sa45] = [0, 2, 3, 4, 5] ∧ [m.rgmii, m.evenByte, m.oddByte] = [7, 0, 8]) ∧
  (let m := Config.referenceCodes;
    [m.speed10, m.speed100, m.speed1000] = [1, 2, 3] ∧ [m.ifMode, m.ifModeGig, m.ifModeRgmii] = [4, 7, 3] ∧
    [m.delayPulse, m.delayDefault] = [0x00000441, 0x00000440]) ∧
  (let m := Config.referenceMap;
    [m.sa01 0, m.sa01 1, m.sa25 0, m.sa25 1, m.sa25 2, m.sa25 3] = [0x062, 0x063, 0x064, 0x065, 0x066, 0x067] ∧
    [m.eeOpRead, m.eeOpWrite] = [0b10, 0b01])

/-- R317 (selectors and ENTRY codes), R402, R403, R908: an access the window does not have is refused by name and passed
over; in the SOFT phase that is tested first. Which name a reserved selector or code gets, and that no data follows a
write selector whose SZ is reserved, is log entry 16; that a 32-bit access at a misaligned offset is ReservedOffset, as R403
says, where R208 says MisalignedRegAccess, is log entry 41. -/
def Obligations.ReservedSelectorsRefused : Prop :=
  ∀ (s : State) (rest : List Byte), s.ops = [] → s.irqPending = false →
    (∀ off, (∀ r, s.cfg.regMap.offset r ≠ off) →
      (s.prog = encodeAcc (accSelector 0#1 0b010#3 off) [] ++ rest →
        hostTurn s = .next (refuse (if softPhase s then .accessDuringSoftReset else .reservedOffset) { s with prog := rest })) ∧
      (∀ v, s.prog = encodeAcc (accSelector 1#1 0b010#3 off) (wordBytes v) ++ rest →
        hostTurn s = .next (refuse (if softPhase s then .accessDuringSoftReset else .reservedOffset) { s with prog := rest }))) ∧
    (∀ w sz off, sz ≠ 0b010#3 → (sz ≠ 0b000#3 ∨ w = 0#1) → s.prog = encodeAcc (accSelector w sz off) [] ++ rest →
      hostTurn s =
        .next (refuse (if softPhase s then .accessDuringSoftReset else .misalignedRegAccess) { s with prog := rest })) ∧
    (∀ off b, (∀ lane, s.cfg.regMap.sa01 lane ≠ off) → (∀ lane, s.cfg.regMap.sa25 lane ≠ off) →
      s.prog = encodeAcc (accSelector 1#1 0b000#3 off) [b] ++ rest →
      hostTurn s =
        .next (refuse (if softPhase s then .accessDuringSoftReset else .misalignedRegAccess) { s with prog := rest })) ∧
    (∀ code : Byte, (code = 0 ∨ 9 < code.toNat) → s.prog = encodeEntry code [] ++ rest →
      hostTurn s = .next (refuse .reservedEncoding { s with prog := rest }))

/-! ### The step -/

/-- R11, R220, R524, R541: a step is the next turn of the schedule (log entry 1). HOST's turn between two entry points runs
the operation its program begins with, moved past (log entry 2); a DMA engine's turn reads CMDSTS at its pointer and runs
the row that word is. -/
def Obligations.StepRunsDecodedOperation : Prop :=
  ∀ (s : State) (later : List Config.Turn),
    (∀ i rest, s.sched = .host :: later → s.ops = [] → s.irqPending = false → decode s.cfg.regMap s.prog = .ok i rest →
      hostMakes i = true → step s = exec i { s with prog := rest, sched := later }) ∧
    (s.sched = .txdma :: later → s.tx.en = true → dmaFault? s (descAddr s.tx.base s.tx.ptr .cmdsts) 4 = none →
      step s = exec (decodeDesc .tx (visitWord s s.tx .cmdsts)) { s with sched := later }) ∧
    (∀ f fs, s.sched = .rxdma :: later → s.rx.en = true → s.wireIn = f :: fs → accept s f.bytes = true →
      dmaFault? s (descAddr s.rx.base s.rx.ptr .cmdsts) 4 = none →
      step s = exec (decodeDesc .rx (visitWord s s.rx .cmdsts)) { s with sched := later })

/-- The invariant of Safety.lean holds after every step from every state that meets it. -/
def Obligations.EveryStepKeepsInv : Prop :=
  ∀ s s' : State, Inv s → step s = .next s' → Inv s'

/-- The power-on state meets the invariant. Its clauses on the ring bases, the latched bases, the engines' pointers and
the CFG bits hold there by values the spec draws or leaves open and the model sets to 0 (log entries 6, 7, 9). -/
def Obligations.ResetMeetsInv : Prop := Inv State.reset

/-! ### The register window (spec/40) -/

/-- R400, R102, R104, R407: a read of a plainly stored register answers the stored word, a read of TxControl or RxControl
answers ENB and the stored CFG bits with bit 4 free; nothing else changes. -/
def Obligations.RegistersReadBack : Prop :=
  ∀ s : State, windowOpen s = true →
    exec .rd32TxDescBase s = .next { s with hostT := s.regs.txDescBase } ∧
    exec .rd32RxDescBase s = .next { s with hostT := s.regs.rxDescBase } ∧
    exec .rd32IntrStatus s = .next { s with hostT := s.regs.intrStatus } ∧
    exec .rd32IntrMask s = .next { s with hostT := s.regs.intrMask } ∧
    exec .rd32IntrControl s = .next { s with hostT := s.regs.intrControl } ∧
    exec .rd32StationControl s = .next { s with hostT := s.regs.stationControl } ∧
    exec .rd32RGDelay s = .next { s with hostT := s.regs.rgDelay } ∧
    exec .rd32RxMacControl s = .next { s with hostT := s.regs.rxMac } ∧
    exec .rd32RxMacAddr25 s = .next { s with hostT := s.regs.rxMacAddr25 } ∧
    exec .rd32RxHashTable0 s = .next { s with hostT := s.regs.hash0 } ∧
    exec .rd32RxHashTable1 s = .next { s with hostT := s.regs.hash1 } ∧
    (∃ v : Word, exec .rd32TxControl s = .next { s with hostT := v, draws := s.draws + 1, pins := s.pins.drop 1 } ∧
      v.getLsbD 0 = s.tx.en ∧ ∀ k, k < 32 → k ≠ 0 → k ≠ 4 → v.getLsbD k = s.regs.txCfg.getLsbD k) ∧
    (∃ v : Word, exec .rd32RxControl s = .next { s with hostT := v, draws := s.draws + 1, pins := s.pins.drop 1 } ∧
      v.getLsbD 0 = s.rx.en ∧ ∀ k, k < 32 → k ≠ 0 → k ≠ 4 → v.getLsbD k = s.regs.rxCfg.getLsbD k)

/-- R407, R456, R458: a read of GMIIControl or ROMInterface answers the busy bit, the stored bits, and the data of the
last read when no transaction is in progress; the other bits are free and nothing else changes. -/
def Obligations.CommandRegistersReadBack : Prop :=
  ∀ s : State, windowOpen s = true →
    (∃ v : Word, exec .rd32GMIIControl s = .next { s with hostT := v, draws := s.draws + 1, pins := s.pins.drop 1 } ∧
      v.getLsbD 4 = s.miic.busy ∧ v.extractLsb' 5 11 = s.regs.gmiiStored.extractLsb' 5 11 ∧
      v.extractLsb' 0 3 = s.regs.gmiiStored.extractLsb' 0 3 ∧
      (s.miic.busy = false → ∀ d, s.miic.rdata = some d → v.extractLsb' 16 16 = d)) ∧
    (∃ v : Word, exec .rd32ROMInterface s = .next { s with hostT := v, draws := s.draws + 1, pins := s.pins.drop 1 } ∧
      v.getLsbD 7 = s.eec.busy ∧ v.extractLsb' 8 8 = s.regs.romStored.extractLsb' 8 8 ∧
      v.extractLsb' 0 3 = s.regs.romStored.extractLsb' 0 3 ∧
      (s.eec.busy = false → ∀ d, s.eec.rdata = some d → v.extractLsb' 16 16 = d))

/-- R401, R406, R209: a write of a plainly stored register stores all 32 bits and changes nothing else; a ring base must
have bits [3:0] = 0, and is refused otherwise. -/
def Obligations.RegistersTakeWrites : Prop :=
  ∀ (s : State) (v : Word), windowOpen s = true →
    exec (.wr32IntrMask v) s = .next { s with regs.intrMask := v } ∧
    exec (.wr32StationControl v) s = .next { s with regs.stationControl := v } ∧
    exec (.wr32RGDelay v) s = .next { s with regs.rgDelay := v } ∧
    exec (.wr32RxMacControl v) s = .next { s with regs.rxMac := v } ∧
    exec (.wr32RxMacAddr25 v) s = .next { s with regs.rxMacAddr25 := v } ∧
    exec (.wr32RxHashTable0 v) s = .next { s with regs.hash0 := v } ∧
    exec (.wr32RxHashTable1 v) s = .next { s with regs.hash1 := v } ∧
    (v.toNat % 16 = 0 → exec (.wr32TxDescBase v) s = .next { s with regs.txDescBase := v } ∧
      exec (.wr32RxDescBase v) s = .next { s with regs.rxDescBase := v }) ∧
    (v.toNat % 16 ≠ 0 → exec (.wr32TxDescBase v) s = .next (refuse .misalignedRingBase s) ∧
      exec (.wr32RxDescBase v) s = .next (refuse .misalignedRingBase s))

/-- R402, R203, R207, R114, R115: a write of station-address byte i replaces one byte lane of its word, the lane
`saLane i` of the word as it stands on the bus, and keeps the other three, whatever REGMAP is. In a REGMAP of the spec that
lane is the station-address byte itself: byte lane 2 + i of RxMacControl or i - 2 of RxMacAddr25 in the reference layout. -/
def Obligations.StationAddressByteWrites : Prop :=
  ∀ (s : State) (m : Config.RegMap) (b : Byte), s.cfg.regMap = m → windowOpen s = true →
    (∀ lane, ∃ w : Word, exec (.wr8Sa01 lane b) s = .next { s with regs.rxMac := w } ∧
      (∀ k, k < 4 → byteOfWord (m.toBus (.reg .rxMacControl) w) k =
        if k = (m.saLane lane.toNat).toNat then b else byteOfWord (m.toBus (.reg .rxMacControl) s.regs.rxMac) k) ∧
      (m.ok = true → ∀ k, k < 4 → byteOfWord w k = if k = 2 + lane.toNat then b else byteOfWord s.regs.rxMac k)) ∧
    (∀ lane, ∃ w : Word, exec (.wr8Sa25 lane b) s = .next { s with regs.rxMacAddr25 := w } ∧
      (∀ k, k < 4 → byteOfWord (m.toBus (.reg .rxMacAddr25) w) k =
        if k = (m.saLane (2 + lane.toNat)).toNat then b
        else byteOfWord (m.toBus (.reg .rxMacAddr25) s.regs.rxMacAddr25) k) ∧
      (m.ok = true → ∀ k, k < 4 → byteOfWord w k = if k = lane.toNat then b else byteOfWord s.regs.rxMacAddr25 k))

/-- R405, R904, R1015, R108: in the SOFT phase every access but the release, the write of IntrControl with SOFT = 0, is
refused and has no effect; and no row but a write of IntrControl changes IntrControl, so none but it begins or ends the
SOFT phase. That an IntrControl write with SOFT = 1 is refused too is the reading of log entry 26. -/
def Obligations.SoftPhaseRefusesAccesses : Prop :=
  ∀ (i : Instr) (s t : State),
    (softPhase s = true → accessesWindow i = true → isReleaseRow i = false →
      exec i s = .next (refuse .accessDuringSoftReset s)) ∧
    (writesIntrControl i = false → exec i s = .next t →
      t.regs.intrControl = s.regs.intrControl ∧ softPhase t = softPhase s)

/-- R404: with the device removed every read answers all-ones, every write has no effect, and a completion poll repeats
for ever. That a write of IntrControl with SOFT = 1 does not begin the SOFT phase there is log entry 35. -/
def Obligations.RemovedDeviceAccesses : Prop :=
  ∀ s : State, softPhase s = false → s.removed = true →
    (∀ i, readsWindow i = true → exec i s = .next { s with hostT := 0xFFFFFFFF }) ∧
    (∀ i, accessesWindow i = true → readsWindow i = false → exec i s = .next s) ∧
    (s.ctx.regHandle ≠ none → ∀ rest, s.ops = .pollMii :: rest ∨ s.ops = .pollEe :: rest →
      ∃ t, hostTurn s = .next t ∧ t.ops = s.ops ∧ t.removed = true)

/-! ### The management controller (spec/41) -/

/-- R451, R313: a command with REQ = 1 and no line bit starts the transaction its fields name, whether it is written as
a command row or through the plain row of GMIIControl. -/
def Obligations.ManagementCommandStarts : Prop :=
  ∀ (s : State) (data : Half) (regad phyad : BitVec 5), windowOpen s = true → s.miic.busy = false →
    (∃ t : State, exec (.miiRead data regad phyad) s = .next t ∧
      exec (.wr32GMIIControl (data ++ regad ++ phyad ++ 0b010000#6)) s = .next t ∧
      t = { s with
        regs.gmiiStored := regad ++ phyad ++ 0b000000#6
        miic := { busy := true, op := .rd, phy := phyad, reg := regad, wdata := data, rdata := none } }) ∧
    (∃ t : State, exec (.miiWrite data regad phyad) s = .next t ∧
      exec (.wr32GMIIControl (data ++ regad ++ phyad ++ 0b110000#6)) s = .next t ∧
      t = { s with
        regs.gmiiStored := regad ++ phyad ++ 0b100000#6
        miic := { busy := true, op := .wr, phy := phyad, reg := regad, wdata := data, rdata := none } })

/-- R454, R455: a GMIIControl write with REQ = 0 and no line bit only updates the stored bits [15:5]; one with a line bit
set is refused, whatever REQ is. -/
def Obligations.IdleAndBitBangWrites : Prop :=
  ∀ (s : State) (data : Half) (regad phyad : BitVec 5) (opWr : BitVec 1), windowOpen s = true → s.miic.busy = false →
    (∃ t : State, exec (.miiIdle data regad phyad opWr) s = .next t ∧
      exec (.wr32GMIIControl (data ++ regad ++ phyad ++ opWr ++ 0#5)) s = .next t ∧
      t = { s with regs.gmiiStored := regad ++ phyad ++ opWr ++ 0#5 }) ∧
    (∀ lines : BitVec 4, lines ≠ 0 →
      exec (.miiBitbang data regad phyad opWr lines) s = .next (refuse .miiBitBang s) ∧
      exec (.miiRsvd data regad phyad opWr lines) s = .next (refuse .miiBitBang s) ∧
      ∀ req : BitVec 1, exec (.wr32GMIIControl (data ++ regad ++ phyad ++ opWr ++ req ++ lines)) s = .next (refuse .miiBitBang s))

/-- R456: while a transaction is in progress every GMIIControl write is refused, and a read is admitted and shows
REQ = 1. -/
def Obligations.BusyManagementRefusesWrites : Prop :=
  ∀ s : State, windowOpen s = true → s.miic.busy = true →
    (∀ v, exec (.wr32GMIIControl v) s = .next (refuse .miiBusy s)) ∧
    (∀ data regad phyad, exec (.miiRead data regad phyad) s = .next (refuse .miiBusy s) ∧
      exec (.miiWrite data regad phyad) s = .next (refuse .miiBusy s)) ∧
    (∀ data regad phyad opWr, exec (.miiIdle data regad phyad opWr) s = .next (refuse .miiBusy s)) ∧
    (∀ data regad phyad opWr lines, exec (.miiBitbang data regad phyad opWr lines) s = .next (refuse .miiBusy s) ∧
      exec (.miiRsvd data regad phyad opWr lines) s = .next (refuse .miiBusy s)) ∧
    (∃ t, exec .rd32GMIIControl s = .next t ∧ t.hostT.getLsbD 4 = true ∧ t.marks = s.marks)

/-- R452, R453, R460, R461, R462: a completion step ends the transaction. A read's answer is kept: 0x0000 or 0xFFFF from
an absent address, and from a present PHY one that PHY_SCRIPT admits: every clause that applies holds in the bits that no
earlier applicable clause fixes, and a relation admits the answer unless it admits none. A write reaches a present PHY and
no other. The clauses and their order, and what a relation that admits no answer gives, are log entry 12. -/
def Obligations.ManagementCompletion : Prop :=
  ∀ s : State, s.miic.busy = true →
    (s.miic.op = .rd → ∃ d : Half,
      takeTurn .miic s = .next
        { s with
          phyLog := s.phyLog ++ [⟨.rd, s.miic.phy, s.miic.reg, d⟩]
          miic := { s.miic with busy := false, rdata := some d } } ∧
      (s.cfg.phyPresent.getLsbD s.miic.phy.toNat = false → d = 0x0000 ∨ d = 0xFFFF) ∧
      (s.cfg.phyPresent.getLsbD s.miic.phy.toNat = true →
        (∀ before c after, s.cfg.phyScript = .clauses (before ++ c :: after) →
          clauseApplies s.phyLog s.miic.phy s.miic.reg c = true →
          ∀ k, k < 16 → c.mask.getLsbD k = true →
            (∀ b ∈ before, clauseApplies s.phyLog s.miic.phy s.miic.reg b = true → b.mask.getLsbD k = false) →
            d.getLsbD k = c.value.getLsbD k) ∧
        (∀ k, s.cfg.phyScript = .relation k →
          Config.phyRelation k s.phyLog s.miic.phy s.miic.reg d = true ∨
          ∀ v, Config.phyRelation k s.phyLog s.miic.phy s.miic.reg v = false))) ∧
    (s.miic.op = .wr →
      takeTurn .miic s = .next
        { s with
          phyLog := if s.cfg.phyPresent.getLsbD s.miic.phy.toNat = true then
              s.phyLog ++ [⟨.wr, s.miic.phy, s.miic.reg, s.miic.wdata⟩] else s.phyLog
          miic := { s.miic with busy := false, rdata := none } })

/-! ### The EEPROM controller (spec/41) -/

/-- R468, R469, R470: EE.READ, or its word through the plain row of ROMInterface, starts a read; its completion answers
the EEPROM's word, and EeRead(w) returns it. -/
def Obligations.EepromReadReturnsWord : Prop :=
  ∀ s : State, windowOpen s = true → s.eec.busy = false →
    (∀ (data : Half) (word : BitVec 6), ∃ t : State, exec (.eeRead data word) s = .next t ∧
      exec (.wr32ROMInterface (data ++ word ++ 0b1010000000#10)) s = .next t ∧
      t = { s with
        regs.romStored := word ++ 0b1000000000#10, eec := { busy := true, word := word, rdata := none } }) ∧
    (∀ w rest, w < 64 → s.ctx.regHandle ≠ none → s.ops = eeReadOps w ++ rest →
      ∃ t, runTurns [.host, .eec, .host] s = .next t ∧ t.ops = rest ∧ s.cfg.eeprom[w]? = some t.hostD ∧
        t.eec.busy = false ∧ t.mem = s.mem ∧ t.ctx = s.ctx ∧ t.marks = s.marks)

/-- R471, R468: the other ROMInterface writes: EE_REQ = 0 starts nothing, a write transaction, a reserved EE_OP or a line
bit is refused; while a read is in progress every write is refused. That a refused write stores nothing is log entry 15. -/
def Obligations.OtherRomInterfaceWrites : Prop :=
  ∀ (s : State) (data : Half) (word : BitVec 6) (op : BitVec 2) (low : BitVec 7), windowOpen s = true →
    (s.eec.busy = false →
      (∃ t : State, exec (.eeIdle data word op low) s = .next t ∧
        exec (.wr32ROMInterface (data ++ word ++ op ++ 0#1 ++ low)) s = .next t ∧
        t = { s with regs.romStored := word ++ op ++ 0#5 ++ low.extractLsb' 0 3 }) ∧
      (exec (.eeWrite data word) s = .next (refuse .eeWriteUnsupported s) ∧
        exec (.wr32ROMInterface (data ++ word ++ 0b0110000000#10)) s = .next (refuse .eeWriteUnsupported s)) ∧
      (exec (.eeRsvd0 data word) s = .next (refuse .reservedEncoding s) ∧
        exec (.wr32ROMInterface (data ++ word ++ 0b0010000000#10)) s = .next (refuse .reservedEncoding s)) ∧
      (exec (.eeRsvd3 data word) s = .next (refuse .reservedEncoding s) ∧
        exec (.wr32ROMInterface (data ++ word ++ 0b1110000000#10)) s = .next (refuse .reservedEncoding s)) ∧
      (low ≠ 0 → exec (.eeRsvdLines data word op low) s = .next (refuse .reservedEncoding s) ∧
        exec (.wr32ROMInterface (data ++ word ++ op ++ 1#1 ++ low)) s = .next (refuse .reservedEncoding s))) ∧
    (s.eec.busy = true →
      (∀ v, exec (.wr32ROMInterface v) s = .next (refuse .eeBusy s)) ∧
      exec (.eeRead data word) s = .next (refuse .eeBusy s) ∧ exec (.eeWrite data word) s = .next (refuse .eeBusy s) ∧
      exec (.eeRsvd0 data word) s = .next (refuse .eeBusy s) ∧ exec (.eeRsvd3 data word) s = .next (refuse .eeBusy s) ∧
      exec (.eeRsvdLines data word op low) s = .next (refuse .eeBusy s) ∧
      exec (.eeIdle data word op low) s = .next (refuse .eeBusy s))

/-! ### Engine and interrupt control (spec/42, 44, 45) -/

/-- R520, R521, R315: with ENB = 1 an engine that was off starts at descriptor 0 of the latched base, one that was on
goes on, and POLL = 1 kicks it; the command rows and the plain rows of the control registers agree. -/
def Obligations.EngineEnableAndKick : Prop :=
  ∀ (s : State) (hi : BitVec 27) (lo : BitVec 3), windowOpen s = true →
    (∃ t : State, exec (.txctlEnable hi lo) s = .next t ∧ exec (.wr32TxControl (hi ++ 0#1 ++ lo ++ 1#1)) s = .next t ∧
      t = { s with
        regs.txCfg := hi ++ 0#1 ++ lo ++ 0#1
        tx := if s.tx.en = true then s.tx
              else { en := true, base := s.regs.txDescBase, ptr := 0, kick := false, idle := false } }) ∧
    (∃ t : State, exec (.txctlKick hi lo) s = .next t ∧ exec (.wr32TxControl (hi ++ 1#1 ++ lo ++ 1#1)) s = .next t ∧
      t = { s with
        regs.txCfg := hi ++ 0#1 ++ lo ++ 0#1
        tx := if s.tx.en = true then { s.tx with kick := true }
              else { en := true, base := s.regs.txDescBase, ptr := 0, kick := true, idle := false } }) ∧
    (∃ t : State, exec (.rxctlEnable hi lo) s = .next t ∧ exec (.wr32RxControl (hi ++ 0#1 ++ lo ++ 1#1)) s = .next t ∧
      t = { s with
        regs.rxCfg := hi ++ 0#1 ++ lo ++ 0#1
        rx := if s.rx.en = true then s.rx
              else { en := true, base := s.regs.rxDescBase, ptr := 0, kick := false, idle := false } }) ∧
    (∃ t : State, exec (.rxctlKick hi lo) s = .next t ∧ exec (.wr32RxControl (hi ++ 1#1 ++ lo ++ 1#1)) s = .next t ∧
      t = { s with
        regs.rxCfg := hi ++ 0#1 ++ lo ++ 0#1
        rx := if s.rx.en = true then { s.rx with kick := true }
              else { en := true, base := s.regs.rxDescBase, ptr := 0, kick := true, idle := false } })

/-- R523: a write with ENB = 0 turns the engine off and drops its kick, bit 4 ignored; an engine that is off takes no
step, and no descriptor changes. -/
def Obligations.DisabledEngineIsStill : Prop :=
  ∀ s : State,
    (∀ (hi : BitVec 27) (poll : BitVec 1) (lo : BitVec 3), windowOpen s = true →
      (∃ t : State, exec (.txctlDisable hi poll lo) s = .next t ∧
        exec (.wr32TxControl (hi ++ poll ++ lo ++ 0#1)) s = .next t ∧
        t = { s with regs.txCfg := hi ++ 0#1 ++ lo ++ 0#1, tx := { s.tx with en := false, kick := false } }) ∧
      (∃ t : State, exec (.rxctlDisable hi poll lo) s = .next t ∧
        exec (.wr32RxControl (hi ++ poll ++ lo ++ 0#1)) s = .next t ∧
        t = { s with regs.rxCfg := hi ++ 0#1 ++ lo ++ 0#1, rx := { s.rx with en := false, kick := false } })) ∧
    (s.tx.en = false → takeTurn .txdma s = .next s ∧ takeTurn (.fair .txdma) s = .next s) ∧
    (s.rx.en = false → takeTurn .rxdma s = .next s ∧ takeTurn (.fair .rxdma) s = .next s)

/-- R803, R804, R1003 (its first bullet): the soft reset turns the engines off, idles the controllers and masks every
interrupt; memory, the Device Context, the frames and the interrupt controller are untouched, and a PHY write in
progress lands or not (log entry 25). A write of IntrControl with SOFT = 0, in the SOFT phase or out of it, ends that
phase and has no other effect. On a removed device the release still ends the phase, the model's own reading (log
entry 35). -/
def Obligations.SoftResetAndRelease : Prop :=
  ∀ (s : State) (hi : Half) (lo : BitVec 15),
    (windowOpen s = true →
      ∃ t : State, exec (.icSoft hi lo) s = .next t ∧ exec (.wr32IntrControl (hi ++ 1#1 ++ lo)) s = .next t ∧
        softPhase t = true ∧
        t = { s with
          regs := t.regs
          tx := { s.tx with en := false, kick := false }
          rx := { s.rx with en := false, kick := false }
          miic := { s.miic with busy := false, rdata := none }
          eec := { s.eec with busy := false, rdata := none }
          phyLog := t.phyLog, draws := t.draws, pins := t.pins } ∧
        t.regs.intrControl = hi ++ 1#1 ++ lo ∧ t.regs.intrMask = 0 ∧ t.regs.romStored = s.regs.romStored ∧
        t.regs.gmiiStored = s.regs.gmiiStored ∧
        (t.phyLog = s.phyLog ∨ (s.miic.busy = true ∧ s.miic.op = .wr ∧
          t.phyLog = s.phyLog ++ [⟨.wr, s.miic.phy, s.miic.reg, s.miic.wdata⟩]))) ∧
    (s.removed = false →
      ∃ t : State, exec (.icRelease hi lo) s = .next t ∧ exec (.wr32IntrControl (hi ++ 0#1 ++ lo)) s = .next t ∧
        t = { s with regs.intrControl := hi ++ 0#1 ++ lo } ∧ softPhase t = false) ∧
    (s.removed = true → softPhase s = true →
      ∃ t : State, exec (.icRelease hi lo) s = .next t ∧ exec (.wr32IntrControl (hi ++ 0#1 ++ lo)) s = .next t ∧
        t = { s with regs.intrControl := t.regs.intrControl } ∧ softPhase t = false)

/-- R705: a write of IntrStatus clears the bits written as 1; a read changes no status bit; a device set that comes before
the write, after a read or not, is cleared if its bit is 1 in the written word and kept otherwise; one that comes after the
write is kept. -/
def Obligations.AcknowledgeClearsWrittenBits : Prop :=
  ∀ (s : State) (v bits : Word), windowOpen s = true →
    exec (.wr32IntrStatus v) s = .next { s with regs.intrStatus := s.regs.intrStatus &&& ~~~v } ∧
    exec (.isAck v) s = .next { s with regs.intrStatus := s.regs.intrStatus &&& ~~~v } ∧
    exec (.isAck v) (setStatus bits s) =
      .next { s with regs.intrStatus := (s.regs.intrStatus ||| bits) &&& ~~~v } ∧
    (∃ u, exec (.isAck v) s = .next u ∧ ∀ k, k < 32 → (setStatus bits u).regs.intrStatus.getLsbD k =
      (bits.getLsbD k || (s.regs.intrStatus.getLsbD k && !v.getLsbD k))) ∧
    (∃ t, exec .rd32IntrStatus s = .next t ∧ t.regs = s.regs ∧
      exec (.isAck t.hostT) (setStatus bits t) =
        .next { t with regs.intrStatus := (s.regs.intrStatus ||| bits) &&& ~~~s.regs.intrStatus } ∧
      ∀ k, k < 32 → ((s.regs.intrStatus ||| bits) &&& ~~~s.regs.intrStatus).getLsbD k =
        (bits.getLsbD k && !s.regs.intrStatus.getLsbD k))

/-- R704, R707, R912: the line is asserted exactly when a bit is 1 in both IntrStatus and IntrMask and the device is
present; delivery happens only when it is asserted and armed, and disarms it; HOST goes on with the entry point in
progress, and between two entry points a delivered interrupt runs IRQ before the program (log entry 19). A spurious run
disarms the line too, and happens only between two entry points. -/
def Obligations.InterruptDelivery : Prop :=
  ∀ s : State,
    (irqLine s = true ↔ (∃ k, k < 32 ∧ s.regs.intrStatus.getLsbD k = true ∧ s.regs.intrMask.getLsbD k = true) ∧
      s.removed = false) ∧
    takeTurn .deliver s =
      .next (if irqLine s = true ∧ s.irqArmed = true then { s with irqArmed := false, irqPending := true } else s) ∧
    takeTurn .spurious s = .next (if s.ops = [] then { s with irqArmed := false, irqPending := true } else s) ∧
    (∀ op rest, s.ops = op :: rest → hostTurn s = runOp op { s with ops := rest }) ∧
    (s.ops = [] → s.irqPending = true → hostTurn s = exec .entryIrq s)

/-- R706, R713: the decode answers each event exactly when one of its two bits is set, at most once and in dispatch
order; all-ones answers none. -/
def Obligations.DecodeOfStatus : Prop :=
  ∀ s : Word,
    (HostEvent.sendAvailable ∈ decodeEvents s ↔ s ≠ 0xFFFFFFFF ∧ (s.getLsbD 2 = true ∨ s.getLsbD 3 = true)) ∧
    (HostEvent.recvAvailable ∈ decodeEvents s ↔ s ≠ 0xFFFFFFFF ∧ (s.getLsbD 6 = true ∨ s.getLsbD 7 = true)) ∧
    (HostEvent.linkChange ∈ decodeEvents s ↔ s ≠ 0xFFFFFFFF ∧ s.getLsbD 16 = true) ∧
    List.Sublist (decodeEvents s) [.sendAvailable, .recvAvailable, .linkChange] ∧
    (s &&& 0x000100CC = 0 → decodeEvents s = [])

/-! ### The DMA engines (spec/42) -/

/-- R524, R525, R522: TXDMA at a hardware-owned slot with a frame of 1 to BUFLEN bytes in the allocated regions sends the
frame with its command bits, writes CMDSTS with OWN = 0 and no other byte, sets TX_DONE if INTR was 1, and moves its
pointer. The race check that must pass is that of log entry 23, and a descriptor's address is mod 2^32 (log entry 38). -/
def Obligations.TransmitVisit : Prop :=
  ∀ (s : State) (intr : BitVec 1) (rsvd : BitVec 6) (cmd : BitVec 8) (status : Half) (len : Nat) (bp fl : Word),
    s.tx.en = true → dmaFault? s (descAddr s.tx.base s.tx.ptr .psize) 16 = none →
    byteCount (visitWord s s.tx .psize) = len → visitWord s s.tx .bufptr = bp → visitWord s s.tx .flags = fl →
    0 < len → len ≤ (fl.extractLsb' 0 16).toNat → dmaFault? s bp len = none →
    race? s .txdma (descAddr s.tx.base s.tx.ptr .cmdsts) 4 = none →
    (fl.getLsbD 31 = true ∨ s.tx.ptr + 1 ≠ s.cfg.ringLen) →
    ∃ (t : State) (w : Word), exec (.txdHwown intr rsvd cmd status) s = .next t ∧
      t = { s with
        wireOut := s.wireOut ++ [⟨memReadBytes s.mem bp len, rsvd ++ cmd⟩]
        mem := descPut s.cfg.regMap s.mem s.tx.base s.tx.ptr .cmdsts w
        tx := { s.tx with
          kick := false, idle := false, ptr := if fl.getLsbD 31 = true then 0 else s.tx.ptr + 1 }
        regs.intrStatus := s.regs.intrStatus ||| (if intr = 1#1 then 0x00000004 else 0)
        draws := s.draws + 1
        pins := s.pins.drop 1 } ∧
      visitWord t s.tx .cmdsts = w ∧ w.getLsbD 31 = false ∧
      ∀ a : Word, (∀ k, k < 4 → a ≠ descAddr s.tx.base s.tx.ptr .cmdsts + BitVec.ofNat 32 k) →
        memRead t.mem a = memRead s.mem a

/-- R524, R522, R202, R222: the other visits of a hardware-owned TX slot. A byte count of 0 or above BUFLEN also
completes, and only the frame's bytes are free (log entry 24). A slot that would complete without RING_END at the last
place of the ring is the fault RingOverrun, well-formed frame or not; a descriptor or a frame outside the allocated
regions is the fault DmaOutOfRegion with an address outside (the first one: log entry 32); a write-back into a slot that is
not the engine's is the fault OwnershipRace with such a slot (which one: log entry 23). That DmaOutOfRegion comes before
OwnershipRace, and that a descriptor's address is mod 2^32, is the model's choice (log entries 36, 38). -/
def Obligations.TransmitVisitOtherCases : Prop :=
  ∀ (s : State) (intr : BitVec 1) (rsvd : BitVec 6) (cmd : BitVec 8) (status : Half) (len : Nat) (bp fl : Word),
    s.tx.en = true → byteCount (visitWord s s.tx .psize) = len → visitWord s s.tx .bufptr = bp →
    visitWord s s.tx .flags = fl →
    (∀ a, dmaFault? s (descAddr s.tx.base s.tx.ptr .psize) 16 = some a →
      exec (.txdHwown intr rsvd cmd status) s = .fault (.dmaOutOfRegion a) ∧ inRegions s a = false) ∧
    (dmaFault? s (descAddr s.tx.base s.tx.ptr .psize) 16 = none →
      (len = 0 ∨ (fl.extractLsb' 0 16).toNat < len →
        race? s .txdma (descAddr s.tx.base s.tx.ptr .cmdsts) 4 = none →
        (fl.getLsbD 31 = true ∨ s.tx.ptr + 1 ≠ s.cfg.ringLen) →
        ∃ (t : State) (frame : List Byte) (w : Word), exec (.txdHwown intr rsvd cmd status) s = .next t ∧
          t = { s with
            wireOut := s.wireOut ++ [⟨frame, rsvd ++ cmd⟩]
            mem := descPut s.cfg.regMap s.mem s.tx.base s.tx.ptr .cmdsts w
            tx := { s.tx with
              kick := false, idle := false, ptr := if fl.getLsbD 31 = true then 0 else s.tx.ptr + 1 }
            regs.intrStatus := s.regs.intrStatus ||| (if intr = 1#1 then 0x00000004 else 0)
            draws := t.draws, pins := t.pins } ∧
          w.getLsbD 31 = false) ∧
      (∀ a, 0 < len → len ≤ (fl.extractLsb' 0 16).toNat → dmaFault? s bp len = some a →
        exec (.txdHwown intr rsvd cmd status) s = .fault (.dmaOutOfRegion a) ∧ inRegions s a = false) ∧
      (len = 0 ∨ (fl.extractLsb' 0 16).toNat < len ∨ dmaFault? s bp len = none →
        (race? s .txdma (descAddr s.tx.base s.tx.ptr .cmdsts) 4 = none → fl.getLsbD 31 = false →
          s.tx.ptr + 1 = s.cfg.ringLen → exec (.txdHwown intr rsvd cmd status) s = .fault (.ringOverrun .tx)) ∧
        (∀ r j, race? s .txdma (descAddr s.tx.base s.tx.ptr .cmdsts) 4 = some (r, j) →
          exec (.txdHwown intr rsvd cmd status) s = .fault (.ownershipRace r j .txdma) ∧
          j < s.cfg.ringLen ∧ mayWrite s .txdma r j = false ∧
          touchesSlot s (descAddr s.tx.base s.tx.ptr .cmdsts) 4 r j = true)))

/-- R526: TXDMA at a software-owned slot goes idle; TX_IDLE is set the first time only, and the engine stays at the
slot. -/
def Obligations.TransmitIdleVisit : Prop :=
  ∀ (s : State) (intr : BitVec 1) (rsvd : BitVec 6) (cmd : BitVec 8) (status : Half), s.tx.en = true →
    exec (.txdSwown intr rsvd cmd status) s = .next
      { s with
        tx := { s.tx with kick := false, idle := true }
        regs.intrStatus := s.regs.intrStatus ||| (if s.tx.idle = true then 0 else 0x00000008) }

/-- R541, R542, R221, R512: RXDMA at a hardware-owned slot writes the accepted head frame, cut to BUFLEN bytes, into the
buffer, the byte count of a good frame into PSIZE, and a CMDSTS word with OWN = 0 that RX_BAD calls bad exactly when the
frame was bad or too long; it writes no other byte, sets RX_DONE if INTR was 1, pops the frame, moves its pointer, and
changes nothing else. The region and race checks that must pass are those of log entries 23, 32 and 36, and a descriptor's
address is mod 2^32 (log entry 38). -/
def Obligations.ReceiveVisit : Prop :=
  ∀ (s : State) (intr : BitVec 1) (rsvd : BitVec 6) (cmd : BitVec 8) (status : Half) (f : Config.Frame)
    (fs : List Config.Frame) (bp fl : Word) (cap : Nat) (bad : Bool),
    s.rx.en = true → s.wireIn = f :: fs → accept s f.bytes = true → f.bytes.length ≤ 65535 →
    dmaFault? s (descAddr s.rx.base s.rx.ptr .psize) 16 = none →
    visitWord s s.rx .bufptr = bp → visitWord s s.rx .flags = fl → (fl.extractLsb' 0 16).toNat = cap →
    (f.bad || decide (cap < f.bytes.length)) = bad →
    dmaFault? s bp (min f.bytes.length cap) = none → rxRace? bp (min f.bytes.length cap) s = none →
    (fl.getLsbD 31 = true ∨ s.rx.ptr + 1 ≠ s.cfg.ringLen) → rxBadOk s.cfg.rxBad = true →
    ∃ t : State, exec (.rxdHwown intr rsvd cmd status) s = .next t ∧
      t = { s with
        mem := t.mem, wireIn := fs
        rx := { s.rx with
          kick := false, idle := false, ptr := if fl.getLsbD 31 = true then 0 else s.rx.ptr + 1 }
        regs.intrStatus := s.regs.intrStatus ||| (if intr = 1#1 then 0x00000040 else 0)
        draws := t.draws, pins := t.pins } ∧
      (visitWord t s.rx .cmdsts).getLsbD 31 = false ∧
      rxBad s.cfg.rxBad (visitWord t s.rx .cmdsts) = bad ∧
      (bad = false → byteCount (visitWord t s.rx .psize) = f.bytes.length) ∧
      (∀ j, j < min f.bytes.length cap →
        (∀ k, k < 8 → bp + BitVec.ofNat 32 j ≠ descAddr s.rx.base s.rx.ptr .psize + BitVec.ofNat 32 k) →
        f.bytes[j]? = some (memRead t.mem (bp + BitVec.ofNat 32 j))) ∧
      (∀ a : Word, (∀ j, j < min f.bytes.length cap → a ≠ bp + BitVec.ofNat 32 j) →
        (∀ k, k < 8 → a ≠ descAddr s.rx.base s.rx.ptr .psize + BitVec.ofNat 32 k) → memRead t.mem a = memRead s.mem a)

/-- R541, R522, R202, R222: the faults of a visit of a hardware-owned RX slot with an accepted frame. A descriptor or a
buffer outside the allocated regions is DmaOutOfRegion with an address outside; a write into a slot that is not the
engine's is OwnershipRace with such a slot; completing the last slot without RING_END is RingOverrun. That they come in
this order, which address and which slot is named, and that a descriptor's address is mod 2^32, is the model's choice (log
entries 23, 32, 36, 38). -/
def Obligations.ReceiveVisitFaults : Prop :=
  ∀ (s : State) (intr : BitVec 1) (rsvd : BitVec 6) (cmd : BitVec 8) (status : Half) (f : Config.Frame)
    (fs : List Config.Frame) (bp fl : Word) (k : Nat),
    s.rx.en = true → s.wireIn = f :: fs → accept s f.bytes = true → visitWord s s.rx .bufptr = bp →
    visitWord s s.rx .flags = fl → min f.bytes.length (fl.extractLsb' 0 16).toNat = k →
    (∀ a, dmaFault? s (descAddr s.rx.base s.rx.ptr .psize) 16 = some a →
      exec (.rxdHwown intr rsvd cmd status) s = .fault (.dmaOutOfRegion a) ∧ inRegions s a = false) ∧
    (dmaFault? s (descAddr s.rx.base s.rx.ptr .psize) 16 = none →
      (∀ a, dmaFault? s bp k = some a →
        exec (.rxdHwown intr rsvd cmd status) s = .fault (.dmaOutOfRegion a) ∧ inRegions s a = false) ∧
      (dmaFault? s bp k = none →
        (∀ r j, rxRace? bp k s = some (r, j) →
          exec (.rxdHwown intr rsvd cmd status) s = .fault (.ownershipRace r j .rxdma) ∧
          j < s.cfg.ringLen ∧ mayWrite s .rxdma r j = false ∧
          (touchesSlot s bp k r j = true ∨ touchesSlot s (descAddr s.rx.base s.rx.ptr .psize) 8 r j = true)) ∧
        (rxRace? bp k s = none → fl.getLsbD 31 = false → s.rx.ptr + 1 = s.cfg.ringLen →
          exec (.rxdHwown intr rsvd cmd status) s = .fault (.ringOverrun .rx))))

/-- R541, R543, R544: RXDMA at a software-owned slot goes idle, sets RX_IDLE the first time, and drops or holds the frame
as RX_FULL_POLICY says; a frame the filter refuses is dropped at either kind of slot, and nothing else happens. -/
def Obligations.ReceiveFullAndRefusedVisits : Prop :=
  ∀ (s : State) (intr : BitVec 1) (rsvd : BitVec 6) (cmd : BitVec 8) (status : Half) (f : Config.Frame)
    (fs : List Config.Frame), s.rx.en = true → s.wireIn = f :: fs →
    (accept s f.bytes = true → ∃ t : State, exec (.rxdSwown intr rsvd cmd status) s = .next t ∧
      t = { s with
        wireIn := t.wireIn, rx := { s.rx with kick := false, idle := true }
        regs.intrStatus := s.regs.intrStatus ||| (if s.rx.idle = true then 0 else 0x00000080)
        draws := t.draws, pins := t.pins } ∧
      (s.cfg.rxFullPolicy = .drop → t.wireIn = fs) ∧ (s.cfg.rxFullPolicy = .hold → t.wireIn = f :: fs) ∧
      (s.cfg.rxFullPolicy = .either → t.wireIn = fs ∨ t.wireIn = f :: fs)) ∧
    (accept s f.bytes = false → ∃ t : State, exec (.rxdSwown intr rsvd cmd status) s = .next t ∧
      exec (.rxdHwown intr rsvd cmd status) s = .next t ∧
      t = { s with wireIn := fs, rx := { s.rx with kick := false }, draws := t.draws, pins := t.pins })

/-- R540, R545, R546, R116: a frame of 1 to 65535 bytes that arrives waits at the end of the queue, and is discarded at
once when the RX engine is off; the acceptance filter on a frame of six bytes or more, with the hash tables at accept-all,
does not depend on HASH_FN; with any tables a multicast destination is accepted exactly when MCAST is 1 and the bit that
HASH_FN picks of the two tables is 1, HASH_FN being a free value (log entry 11). -/
def Obligations.FrameArrivalAndFilter : Prop :=
  ∀ s : State,
    (∀ f : Config.Frame, f.bytes ≠ [] → f.bytes.length ≤ 65535 →
      takeTurn (.frame f) s = .next (if s.rx.en = true then { s with wireIn := s.wireIn ++ [f] } else s)) ∧
    (∀ (b0 b1 b2 b3 b4 b5 : Byte) (rest : List Byte), s.regs.hash0 = 0xFFFFFFFF → s.regs.hash1 = 0xFFFFFFFF →
      (accept s (b0 :: b1 :: b2 :: b3 :: b4 :: b5 :: rest) = true ↔
        (s.regs.rxMac.getLsbD 8 = true ∧ b0.getLsbD 0 = false) ∨
        (s.regs.rxMac.getLsbD 11 = true ∧ [b0, b1, b2, b3, b4, b5] = List.replicate 6 0xFF) ∨
        (s.regs.rxMac.getLsbD 10 = true ∧ b0.getLsbD 0 = true ∧ [b0, b1, b2, b3, b4, b5] ≠ List.replicate 6 0xFF) ∨
        (s.regs.rxMac.getLsbD 9 = true ∧ b0.getLsbD 0 = false ∧
          s.regs.rxMac.extractLsb' 16 16 = b1 ++ b0 ∧ s.regs.rxMacAddr25 = b5 ++ b4 ++ b3 ++ b2))) ∧
    (∀ (d : StationAddr) (rest : List Byte), d.b0.getLsbD 0 = true → d.bytes ≠ List.replicate 6 0xFF →
      (accept s (d.bytes ++ rest) = true ↔
        s.regs.rxMac.getLsbD 10 = true ∧ (s.regs.hash1 ++ s.regs.hash0).getLsbD (Config.hashFn d).toNat = true))

/-- R10, R141, R218: no agent but HOST and the interrupt delivery touches what HOST holds: its context, its position, its
locals, what it was handed and the marks; none writes a register but IntrStatus, and none clears a bit there. R701, R702,
R124: a link-change event sets bit 16, the IRQ agent sets those it asks for of its nine bits, never a recognized or a
reserved one, and a removal sets removed; none of the three changes anything else. -/
def Obligations.DeviceAgentsLeaveHostAlone : Prop :=
  (∀ (turn : Config.Turn) (s t : State), turn ≠ .host → turn ≠ .fair .host → takeTurn turn s = .next t →
    t.ctx = s.ctx ∧ t.ops = s.ops ∧ t.prog = s.prog ∧ t.ret = s.ret ∧ t.hostT = s.hostT ∧ t.hostD = s.hostD ∧
    t.dst = s.dst ∧ t.events = s.events ∧ t.marks = s.marks ∧ t.statRxErrors = s.statRxErrors ∧
    t.regs = { s.regs with intrStatus := t.regs.intrStatus } ∧
    (∀ k, k < 32 → s.regs.intrStatus.getLsbD k = true → t.regs.intrStatus.getLsbD k = true)) ∧
  (∀ s : State, ∃ w : Word, takeTurn .link s = .next { s with regs.intrStatus := w } ∧
    ∀ k, k < 32 → w.getLsbD k = (s.regs.intrStatus.getLsbD k || decide (k = 16))) ∧
  (∀ (s : State) (bits : Word), ∃ w : Word, takeTurn (.irqBits bits) s = .next { s with regs.intrStatus := w } ∧
    ∀ k, k < 32 → w.getLsbD k =
      (s.regs.intrStatus.getLsbD k || (bits.getLsbD k && decide (k ∈ [0, 1, 4, 5, 17, 18, 19, 29, 30])))) ∧
  (∀ s : State, takeTurn .remove s = .next { s with removed := true })

/-! ### HOST memory and the rings (spec/20, 42) -/

/-- R202, R204, R209, R222, R317, R501: HOST's write of a descriptor word is refused on a reserved or misaligned bit, a
race when it touches a slot that HOST does not own, and otherwise stored: the word reads back and no other byte changes.
With the regions apart the race is exactly a word other than CMDSTS of a hardware-owned slot. That the refusal comes
before the race, which slot is named, and what is done with an address past 2^32 or outside the allocated regions, is the
model's choice (log entries 23, 36, 38, 44, 45). -/
def Obligations.DescriptorWordWrites : Prop :=
  ∀ (s : State) (ring : Ring) (i : Nat) (w : DescWord) (v : Word),
    ((w = .cmdsts ∧ v.extractLsb' 24 6 ≠ 0) ∨ (w = .flags ∧ v.extractLsb' 16 15 ≠ 0) →
      runOp (.memWrite ring i w v) s = .next (refuse .reservedDescriptorBit s)) ∧
    (w = .bufptr → v.extractLsb' 0 4 ≠ 0 → runOp (.memWrite ring i w v) s = .next (refuse .misalignedBuffer s)) ∧
    (descRefusal? w v = none →
      (∀ r j, race? s .host (slotAddr s ring i w) 4 = some (r, j) →
        runOp (.memWrite ring i w v) s = .fault (.ownershipRace r j .host) ∧
        j < s.cfg.ringLen ∧ slotOwned s r j = true ∧ touchesSlot s (slotAddr s ring i w) 4 r j = true) ∧
      (regionsOk s.cfg = true → i < s.cfg.ringLen → w ≠ .cmdsts → slotOwned s ring i = true →
        runOp (.memWrite ring i w v) s = .fault (.ownershipRace ring i .host)) ∧
      (race? s .host (slotAddr s ring i w) 4 = none ∨
          (regionsOk s.cfg = true ∧ i < s.cfg.ringLen ∧ (w = .cmdsts ∨ slotOwned s ring i = false)) →
        ∃ t, runOp (.memWrite ring i w v) s = .next t ∧ t = { s with mem := t.mem } ∧ slotWord t ring i w = v ∧
          (memWf s.mem = true → memWf t.mem = true) ∧
          ∀ a : Word, (∀ k, k < 4 → a ≠ slotAddr s ring i w + BitVec.ofNat 32 k) → memRead t.mem a = memRead s.mem a))

/-- R504, R309: RingInit. A failed allocation is the fault DmaAllocFailed; else both rings are zeroed, as one step and no
race whatever the slots and the engines were before (log entry 33), and memory outside the two rings is unchanged; that a
ring which runs past 2^32 goes on at address 0, and that allocation is one flag, is the model's choice (log entries 22, 38,
44). The initialisation of slot i, from a state in which HOST owns both slots, leaves the RX slot hardware-owned with its
buffer and length preset and the TX slot software-owned and empty, RING_END on the last one, and memory outside the two
descriptors unchanged, with the rings allocated or not (log entry 45). After the last slot the cursors are 0 and the ring bases stand in the window. -/
def Obligations.RingInitialisation : Prop :=
  ∀ (s : State) (i : Nat) (rest : List HostOp), paramsOk s.cfg = true →
    (s.ops = .point .ringInit :: rest →
      (s.cfg.allocOk = false → hostTurn s = .fault .dmaAllocFailed) ∧
      (s.cfg.allocOk = true → ∃ t : State, hostTurns 2 s = .next t ∧
        t = { s with ctx.allocated := true, ops := .point (.initSlot 0) :: rest, mem := t.mem } ∧
        (∀ ring j w, j < s.cfg.ringLen → slotWord t ring j w = 0) ∧
        ∀ a : Word, (∀ ring k, k < 16 * s.cfg.ringLen → a ≠ ringPa s.cfg ring + BitVec.ofNat 32 k) →
          memRead t.mem a = memRead s.mem a)) ∧
    (regionsOk s.cfg = true → i < s.cfg.ringLen → s.ops = .point (.initSlot i) :: rest → slotOwned s .rx i = false →
      slotOwned s .tx i = false →
      ∃ t : State, hostTurns 9 s = .next t ∧ t = { s with mem := t.mem, ops := .point (.initSlot (i + 1)) :: rest } ∧
        slotWord t .rx i .psize = 0 ∧ slotWord t .rx i .cmdsts = 0xC0000000 ∧
        slotWord t .rx i .bufptr = s.cfg.rxPoolPa + BitVec.ofNat 32 (i * s.cfg.bufSize) ∧
        slotWord t .rx i .flags =
          BitVec.ofNat 32 s.cfg.bufSize ||| (if i + 1 = s.cfg.ringLen then 0x80000000 else 0) ∧
        slotWord t .tx i .psize = 0 ∧ slotWord t .tx i .cmdsts = 0 ∧
        slotWord t .tx i .bufptr = s.cfg.txPoolPa + BitVec.ofNat 32 (i * s.cfg.bufSize) ∧
        slotWord t .tx i .flags = (if i + 1 = s.cfg.ringLen then 0x80000000 else 0) ∧
        ∀ a : Word, (∀ ring k, k < 16 → a ≠ slotAddr s ring i .psize + BitVec.ofNat 32 k) →
          memRead t.mem a = memRead s.mem a) ∧
    (regionsOk s.cfg = true → windowOpen s = true → s.ctx.regHandle ≠ none → i = s.cfg.ringLen →
      s.ops = .point (.initSlot i) :: rest →
      hostTurns 4 s = .next
        { s with
          ctx.txCursor := some 0, ctx.rxCursor := some 0
          regs.txDescBase := s.cfg.txRingPa, regs.rxDescBase := s.cfg.rxRingPa, ops := rest })

/-! ### HOST entry points (spec/42, 43, 44, 45) -/

/-- R805, R806, R809: with enabled = true INIT returns the station address and makes no access. Otherwise a missing device
is an error return, a mapping failure a fault, and else the handles are set and INIT's body begins. What HOST is then to do
is written out, in the order of R809: the writes of ResetSeq (R800), ResolveSA, RingInit, ProgramSA, the FSM, the writes of
EnableInterrupts (R813) and of EnableEngines (R814), and enabled := true with the return; a point, a place of the model's
own, stands where a sequence branches (log entry 30, DESIGN CHOICE). -/
def Obligations.InitGuardAndPlatformChecks : Prop :=
  ∀ s : State, s.ops = [] →
    (∀ a, s.ctx.enabled = true → s.ctx.stationAddress = some a →
      exec .entryInit s = .next { s with ret := some (.okAddress a) }) ∧
    (s.ctx.enabled = false → s.cfg.devicePresent = false →
      exec .entryInit s = .next { s with ret := some .errorNoDevice }) ∧
    (s.ctx.enabled = false → s.cfg.devicePresent = true → s.cfg.mapOk = false → exec .entryInit s = .fault .mapFailed) ∧
    (s.ctx.enabled = false → s.cfg.devicePresent = true → s.cfg.mapOk = true →
      ∃ t : State, exec .entryInit s = .next t ∧
        t = { s with
          ctx.regHandle := some s.cfg.regBase, ctx.irqHandle := some s.cfg.irqLine, ops := t.ops, ret := none } ∧
        t.ops = [.wr32 .intrMask 0, .wr32 .intrStatus 0xFFFFFFFF, .wr32 .intrControl 0x8000, .wr32 .intrControl 0,
          .wr32 .txControl s.cfg.txCfg, .wr32 .rxControl s.cfg.rxCfg, .wr32 .intrMask 0, .wr32 .intrStatus 0xFFFFFFFF,
          .wr32 .gmiiControl 0, .point .resolveSa, .point .ringInit, .point .programStationAddress, .point .fsmStart,
          .wr32 .intrStatus 0xFFFFFFFF, .wr32 .intrMask 0x000100CC, .wr32 .txControl (s.cfg.txCfg ||| 0x00000001),
          .wr32 .rxControl (s.cfg.rxCfg ||| 0x00000011), .point .initDone])

/-- R800, R1003 (its second bullet): after ResetSeq the engines are off, the controllers idle, every interrupt masked and
acknowledged and the management register idle; memory and the Device Context are untouched. -/
def Obligations.ResetSequence : Prop :=
  ∀ (s : State) (rest : List HostOp), windowOpen s = true → s.ctx.regHandle ≠ none → paramsOk s.cfg = true →
    s.ops = resetSeqOps s.cfg ++ rest →
    ∃ t : State, hostTurns 9 s = .next t ∧ t.ops = rest ∧ windowOpen t = true ∧ t.regs.intrMask = 0 ∧
      t.regs.intrStatus = 0 ∧ t.regs.intrControl = 0 ∧ t.regs.txCfg = s.cfg.txCfg ∧ t.regs.rxCfg = s.cfg.rxCfg ∧
      t.regs.gmiiStored = 0 ∧ t.tx.en = false ∧ t.tx.kick = false ∧ t.rx.en = false ∧ t.rx.kick = false ∧
      t.miic.busy = false ∧ t.miic.rdata = none ∧ t.eec.busy = false ∧ t.eec.rdata = none ∧
      t.mem = s.mem ∧ t.ctx = s.ctx ∧ t.irqArmed = s.irqArmed ∧ t.wireIn = s.wireIn ∧ t.marks = s.marks

/-- R807, R472, R470: ResolveSA, each EEPROM read completed between its command and its poll. With a valid signature the
RGMII flag is the board word's, and the address the override or else the three address words; with an invalid one, or on
the APC path, the flag is false and the address is the override, and without one that is the fault UnsupportedApc. -/
def Obligations.StationAddressResolved : Prop :=
  ∀ (s : State) (rest : List HostOp) (m : Config.EepromMap), s.cfg.eepromMap = m → s.ops = .point .resolveSa :: rest →
    s.ctx.regHandle ≠ none → windowOpen s = true → s.eec.busy = false →
    (s.cfg.saSource = .eeprom → eepromWord s.cfg m.signature ≠ 0x0000 → eepromWord s.cfg m.signature ≠ 0xFFFF →
      (s.cfg.envSa = none → ∃ t : State,
        runTurns ([.host] ++ (List.replicate 5 [.host, .eec, .host, .host]).flatten) s = .next t ∧ t.ops = rest ∧
        t.ctx = { s.ctx with
          rgmii := (eepromWord s.cfg m.board).getLsbD m.rgmii
          stationAddress := some
            ⟨(eepromWord s.cfg m.sa01).extractLsb' m.evenByte 8, (eepromWord s.cfg m.sa01).extractLsb' m.oddByte 8,
             (eepromWord s.cfg m.sa23).extractLsb' m.evenByte 8, (eepromWord s.cfg m.sa23).extractLsb' m.oddByte 8,
             (eepromWord s.cfg m.sa45).extractLsb' m.evenByte 8, (eepromWord s.cfg m.sa45).extractLsb' m.oddByte 8⟩ } ∧
        t.mem = s.mem ∧ t.marks = s.marks) ∧
      (∀ x, s.cfg.envSa = some x → ∃ t : State,
        runTurns ([.host] ++ (List.replicate 2 [.host, .eec, .host, .host]).flatten) s = .next t ∧ t.ops = rest ∧
        t.ctx = { s.ctx with rgmii := (eepromWord s.cfg m.board).getLsbD m.rgmii, stationAddress := some x } ∧
        t.mem = s.mem ∧ t.marks = s.marks)) ∧
    (s.cfg.saSource = .eeprom → (eepromWord s.cfg m.signature = 0x0000 ∨ eepromWord s.cfg m.signature = 0xFFFF) →
      (s.cfg.envSa = none → runTurns [.host, .host, .eec, .host, .host] s = .fault .unsupportedApc) ∧
      (∀ x, s.cfg.envSa = some x → ∃ t : State, runTurns [.host, .host, .eec, .host, .host] s = .next t ∧
        t.ops = rest ∧ t.ctx = { s.ctx with rgmii := false, stationAddress := some x } ∧
        t.mem = s.mem ∧ t.marks = s.marks)) ∧
    (s.cfg.saSource = .apc →
      (∀ x, s.cfg.envSa = some x →
        hostTurn s = .next { s with ctx.rgmii := false, ctx.stationAddress := some x, ops := rest }) ∧
      (s.cfg.envSa = none → hostTurn s = .fault .unsupportedApc))

/-- R813, R814, R809: INIT's last accesses acknowledge everything, unmask the recognized events and start both engines
at their rings, the receive engine kicked; INIT returns the station address with enabled = true. -/
def Obligations.InitEnablesAndReturns : Prop :=
  ∀ (s : State) (a : StationAddr), s.ops = enableInterruptsOps ++ enableEnginesOps s.cfg ++ [.point .initDone] →
    s.ctx.regHandle ≠ none → windowOpen s = true → paramsOk s.cfg = true → s.tx.en = false → s.rx.en = false →
    s.ctx.stationAddress = some a →
    hostTurns 5 s = .next
      { s with
        regs.intrStatus := 0, regs.intrMask := 0x000100CC, regs.txCfg := s.cfg.txCfg, regs.rxCfg := s.cfg.rxCfg
        tx := { en := true, base := s.regs.txDescBase, ptr := 0, kick := false, idle := false }
        rx := { en := true, base := s.regs.rxDescBase, ptr := 0, kick := true, idle := false }
        ctx.enabled := true, ops := [], ret := some (.okAddress a) }

/-- R506, R908: SEND's tests in their order: an empty payload is refused, before negotiation it is Busy even for an
over-long payload, an over-long payload is the fault TooLarge, and else SEND reads CMDSTS at the cursor; with that slot
hardware-owned it returns Busy and writes nothing. That the rings need not be allocated is log entry 45. -/
def Obligations.SendTests : Prop :=
  ∀ (s : State) (p : List Byte), s.ops = [] →
    (p = [] → exec (.entrySend p) s = .next (refuse .emptyPayload s)) ∧
    (p ≠ [] → s.ctx.autonegDone = false → exec (.entrySend p) s = .next { s with ret := some .busy }) ∧
    (p ≠ [] → s.ctx.autonegDone = true → s.cfg.bufSize < p.length →
      exec (.entrySend p) s = .fault (.tooLarge p.length)) ∧
    (p ≠ [] → s.ctx.autonegDone = true → p.length ≤ s.cfg.bufSize → ∀ c, s.ctx.txCursor = some c →
      ∃ t : State, exec (.entrySend p) s = .next t ∧
        t = { s with ops := [.memRead .tx c .cmdsts, .point (.sendOwn p c)], ret := none } ∧
        (slotOwned s .tx c = true →
          hostTurns 2 t = .next { s with hostT := slotWord s .tx c .cmdsts, ret := some .busy }))

/-- R506, R507, R508, R502, R520, R521: SEND of 1 to BUF_SIZE bytes to a software-owned slot returns Ok: the buffer holds
the payload and zeros up to the Ethernet minimum, the descriptor is released with its command bits and keeps its BUFPTR,
the cursor has moved, and the engine is on and kicked, started at descriptor 0 of the latched base if it was off. No byte
outside the slot's descriptor and the bytes of the frame changes, no mark is set (R901) and nothing else changes. That the
rings and pools need not be allocated is log entry 45. -/
def Obligations.SendQueuesFrame : Prop :=
  ∀ (s : State) (p : List Byte) (c : Nat) (d : Duplex) (v : Speed), s.ops = [] → p ≠ [] → s.ctx.autonegDone = true →
    p.length ≤ s.cfg.bufSize → paramsOk s.cfg = true → regionsOk s.cfg = true → windowOpen s = true →
    s.ctx.regHandle ≠ none → s.ctx.txCursor = some c → c < s.cfg.ringLen → s.ctx.duplex = some d → s.ctx.speed = some v →
    slotOwned s .tx c = false →
    ∃ (t u : State) (n : Nat), exec (.entrySend p) s = .next t ∧ hostTurns n t = .next u ∧
      u = { s with
        mem := u.mem, regs.txCfg := s.cfg.txCfg, hostT := slotWord s .tx c .cmdsts
        tx := if s.tx.en = true then { s.tx with kick := true }
              else { en := true, base := s.regs.txDescBase, ptr := 0, kick := true, idle := false }
        ctx.txCursor := some ((c + 1) % s.cfg.ringLen), ret := some .ok } ∧
      u.marks = s.marks ∧
      slotWord u .tx c .psize = BitVec.ofNat 32 (max p.length s.cfg.ethMinLen) ∧
      slotWord u .tx c .flags = BitVec.ofNat 32 (max p.length s.cfg.ethMinLen) |||
        (if c + 1 = s.cfg.ringLen then 0x80000000 else 0) ∧
      slotWord u .tx c .cmdsts = (match d, v with
        | .full, _ => 0xC0230000#32
        | .half, .s1000 => 0xC0FF0000#32
        | .half, _ => 0xC03F0000#32) ∧
      memReadBytes u.mem (bufAddr s.cfg .tx c) (max p.length s.cfg.ethMinLen) =
        p ++ List.replicate (max p.length s.cfg.ethMinLen - p.length) 0 ∧
      slotWord u .tx c .bufptr = slotWord s .tx c .bufptr ∧
      ∀ a : Word, (∀ k, k < 16 → a ≠ slotAddr s .tx c .psize + BitVec.ofNat 32 k) →
        (∀ k, k < max p.length s.cfg.ethMinLen → a ≠ bufAddr s.cfg .tx c + BitVec.ofNat 32 k) →
        memRead u.mem a = memRead s.mem a

/-- R530: RECV reads CMDSTS at its cursor; with the slot hardware-owned it returns Empty and writes nothing; with the
cursor unset it faults. That the rings need not be allocated is log entry 45. -/
def Obligations.ReceiveEmpty : Prop :=
  ∀ (s : State) (maxLen : Nat), s.ops = [] →
    (s.ctx.rxCursor = none → exec (.entryRecv maxLen) s = .fault (.unsetContextField .rxCursor)) ∧
    (∀ c, s.ctx.rxCursor = some c → ∃ t : State, exec (.entryRecv maxLen) s = .next t ∧
      t = { s with ops := [.memRead .rx c .cmdsts, .point (.recvOwn c maxLen)], ret := none } ∧
      (slotOwned s .rx c = true →
        hostTurns 2 t = .next { s with hostT := slotWord s .rx c .cmdsts, ret := some .empty }))

/-- R530, R532, R520, R521: RECV of a good frame copies min(n, maxLen) bytes of the slot's buffer, gives the slot back to
the engine with its buffer and length preset, moves the cursor and kicks the engine, started at descriptor 0 of the
latched base if it was off. No byte outside the slot's descriptor changes, no mark is set (R901) and nothing else changes.
That a byte count beyond the buffer takes the bytes after it, out of the allocated regions or past 2^32, where they are
those from address 0 on, and that the rings and pools need not be allocated, is the model's choice (log entries 44, 45). -/
def Obligations.ReceiveDeliversFrame : Prop :=
  ∀ (s : State) (maxLen c k : Nat), s.ops = [] → paramsOk s.cfg = true → regionsOk s.cfg = true → windowOpen s = true →
    s.ctx.regHandle ≠ none → s.ctx.rxCursor = some c → c < s.cfg.ringLen → slotOwned s .rx c = false →
    rxBad s.cfg.rxBad (slotWord s .rx c .cmdsts) = false → min (byteCount (slotWord s .rx c .psize)) maxLen = k →
    ∃ t u : State, exec (.entryRecv maxLen) s = .next t ∧ hostTurns 12 t = .next u ∧
      u = { s with
        mem := u.mem, regs.rxCfg := s.cfg.rxCfg, hostT := slotWord s .rx c .psize
        rx := if s.rx.en = true then { s.rx with kick := true }
              else { en := true, base := s.regs.rxDescBase, ptr := 0, kick := true, idle := false }
        dst := memReadBytes s.mem (bufAddr s.cfg .rx c) k
        ctx.rxCursor := some ((c + 1) % s.cfg.ringLen), ret := some (.received k) } ∧
      u.marks = s.marks ∧
      slotWord u .rx c .psize = 0 ∧ slotWord u .rx c .cmdsts = 0xC0000000 ∧
      slotWord u .rx c .bufptr = s.cfg.rxPoolPa + BitVec.ofNat 32 (c * s.cfg.bufSize) ∧
      slotWord u .rx c .flags = BitVec.ofNat 32 s.cfg.bufSize ||| (if c + 1 = s.cfg.ringLen then 0x80000000 else 0) ∧
      ∀ a : Word, (∀ j, j < 16 → a ≠ slotAddr s .rx c .psize + BitVec.ofNat 32 j) → memRead u.mem a = memRead s.mem a

/-- R531, R532, R533, R906, R520, R521: RECV at a bad frame counts it, gives the slot back with its buffer and length
preset, delivers no byte and returns Empty; the cursor moves and the engine is kicked, and started if it was off, only
with RX_ERR_ADVANCE. No byte outside the slot's descriptor changes, no mark is set (R901) and nothing else changes. That
the ring need not be allocated is log entry 45. -/
def Obligations.ReceiveCountsBadFrame : Prop :=
  ∀ (s : State) (maxLen c : Nat), s.ops = [] → paramsOk s.cfg = true → regionsOk s.cfg = true → windowOpen s = true →
    s.ctx.regHandle ≠ none → s.ctx.rxCursor = some c → c < s.cfg.ringLen → slotOwned s .rx c = false →
    rxBad s.cfg.rxBad (slotWord s .rx c .cmdsts) = true →
    ∃ (t u : State) (n : Nat), exec (.entryRecv maxLen) s = .next t ∧ hostTurns n t = .next u ∧
      u = { s with
        mem := u.mem, hostT := slotWord s .rx c .cmdsts
        regs.rxCfg := if s.cfg.rxErrAdvance = true then s.cfg.rxCfg else s.regs.rxCfg
        rx := if s.cfg.rxErrAdvance = false then s.rx
              else if s.rx.en = true then { s.rx with kick := true }
              else { en := true, base := s.regs.rxDescBase, ptr := 0, kick := true, idle := false }
        ctx.rxErrors := s.ctx.rxErrors + 1
        ctx.rxCursor := some (if s.cfg.rxErrAdvance = true then (c + 1) % s.cfg.ringLen else c)
        ret := some .empty } ∧
      u.marks = s.marks ∧
      slotWord u .rx c .psize = 0 ∧ slotWord u .rx c .cmdsts = 0xC0000000 ∧
      slotWord u .rx c .bufptr = s.cfg.rxPoolPa + BitVec.ofNat 32 (c * s.cfg.bufSize) ∧
      slotWord u .rx c .flags = BitVec.ofNat 32 s.cfg.bufSize ||| (if c + 1 = s.cfg.ringLen then 0x80000000 else 0) ∧
      ∀ a : Word, (∀ j, j < 16 → a ≠ slotAddr s .rx c .psize + BitVec.ofNat 32 j) → memRead u.mem a = memRead s.mem a

/-- R810, R811: SET_FILTER replaces the four accept bits, keeps the rest of the word at 0x60 and opens both hash tables;
before INIT it faults, in the SOFT phase too (log entry 36). -/
def Obligations.SetFilterResult : Prop :=
  ∀ (s : State) (promisc multi broad : Bool), s.ops = [] →
    (s.ctx.regHandle = none → exec (.entrySetFilter promisc multi broad) s = .fault (.unsetContextField .regHandle)) ∧
    (s.ctx.regHandle ≠ none → windowOpen s = true → ∃ t u : State,
      exec (.entrySetFilter promisc multi broad) s = .next t ∧ hostTurns 6 t = .next u ∧
      u = { s with
        regs.rxMac := u.regs.rxMac, regs.hash0 := 0xFFFFFFFF, regs.hash1 := 0xFFFFFFFF, hostT := s.regs.rxMac
        ret := some .done } ∧
      (∀ k, k < 32 → (k < 8 ∨ 11 < k) → u.regs.rxMac.getLsbD k = s.regs.rxMac.getLsbD k) ∧
      u.regs.rxMac.getLsbD 8 = promisc ∧ u.regs.rxMac.getLsbD 9 = true ∧
      u.regs.rxMac.getLsbD 10 = (promisc || multi) ∧ u.regs.rxMac.getLsbD 11 = (promisc || broad))

/-- R812, R809: SET_SA writes the six bytes, leaves own-address and broadcast filtering on and the other filter bits as
they were, opens both hash tables and records the address; before INIT it faults, in the SOFT phase too (log entry 36).
INIT's ProgramSA is the same sequence for the address that ResolveSA left, with the same result, and goes on with INIT; with
no address it is a fault. The result is that of a REGMAP of the spec, in which the six offsets are those of the six bytes. -/
def Obligations.SetStationAddressResult : Prop :=
  ∀ (s : State) (a : StationAddr), s.ops = [] →
    (s.ctx.stationAddress = none →
      runOp (.point .programStationAddress) s = .fault (.unsetContextField .stationAddress)) ∧
    (s.ctx.stationAddress = some a →
      runOp (.point .programStationAddress) s =
        .next { s with ops := [.rd32 .rxMacControl, .point (.saDisable a)] ++ s.ops }) ∧
    (s.ctx.regHandle = none → exec (.entrySetSa a) s = .fault (.unsetContextField .regHandle)) ∧
    (s.ctx.regHandle ≠ none → windowOpen s = true → s.cfg.regMap.ok = true → ∃ t u : State,
      exec (.entrySetSa a) s = .next t ∧ hostTurns 16 t = .next u ∧ u.ops = [] ∧ u.ret = some .done ∧
      u.regs = { s.regs with
        rxMac := a.b1 ++ a.b0 ++ ((s.regs.rxMac.extractLsb' 0 16 &&& 0xF0FF) ||| 0x0A00)
        rxMacAddr25 := a.b5 ++ a.b4 ++ a.b3 ++ a.b2
        hash0 := 0xFFFFFFFF
        hash1 := 0xFFFFFFFF } ∧
      u.ctx = { s.ctx with stationAddress := some a } ∧ u.mem = s.mem ∧ u.marks = s.marks ∧ u.tx = s.tx ∧ u.rx = s.rx ∧
      u.miic = s.miic ∧ u.eec = s.eec ∧
      (s.ctx.stationAddress = some a → ∀ rest,
        hostTurns 16 { s with ops := .point .programStationAddress :: rest } = .next { u with ops := rest, ret := s.ret }))

/-- R625, R465: GET_LINK faults before a PHY is chosen; else it reads BMSR twice, and the second answer decides: with the
link bit 0 it returns Down, with the link bit 1 it goes on to ReadAndResolve. The Device Context and memory stay as they
were. -/
def Obligations.GetLinkStatus : Prop :=
  ∀ (s : State) (m : Config.PhyMap), s.ops = [] → s.cfg.phyMap = m →
    (s.ctx.cur = none → exec .entryGetLink s = .fault (.unsetContextField .current)) ∧
    (∀ i r, s.ctx.cur = some i → s.ctx.phys[i]? = some r → s.ctx.regHandle ≠ none → windowOpen s = true →
      s.miic.busy = false →
      ∃ (t u : State) (d1 d2 : Half), exec .entryGetLink s = .next t ∧
        runTurns [.host, .miic, .host, .host, .miic, .host] t = .next u ∧ windowOpen u = true ∧ u.miic.busy = false ∧
        u.phyLog = s.phyLog ++ [⟨.rd, r.addr, m.bmsr, d1⟩, ⟨.rd, r.addr, m.bmsr, d2⟩] ∧ u.ctx = s.ctx ∧ u.mem = s.mem ∧
        (d2.getLsbD m.link = false → takeTurn .host u = .next { u with ops := [], ret := some .down }) ∧
        (d2.getLsbD m.link = true → takeTurn .host u = .next { u with ops := readAndResolveOps m r.addr .getLink }))

/-- R618, R616, R625: ReadAndResolve reads ANLPAR, ANAR and ANER, and on a gigabit chip GTCR and GTSR, in this order, each
read completed between its command and its poll, and Resolve of the answers is GET_LINK's Up, the Device Context as it
was, or the link state of the Negotiated state, which goes on to StationControl. -/
def Obligations.CapabilityReadsResolve : Prop :=
  ∀ (s : State) (a : BitVec 5) (use : ResolveFor) (rest : List HostOp) (m : Config.PhyMap),
    s.cfg.phyMap = m → s.ops = readAndResolveOps m a use ++ rest → s.ctx.regHandle ≠ none → windowOpen s = true →
    s.miic.busy = false →
    ∃ (u : State) (lpa adv aner gtcr gtsr : Half),
      runTurns (List.replicate (if s.cfg.chipModel = .ge then 5 else 3) [.host, .miic, .host, .host]).flatten s = .next u ∧
      (s.cfg.chipModel = .fe → gtcr = 0 ∧ gtsr = 0) ∧
      u.phyLog = s.phyLog ++ [⟨.rd, a, m.anlpar, lpa⟩, ⟨.rd, a, m.anar, adv⟩, ⟨.rd, a, m.aner, aner⟩]
        ++ (if s.cfg.chipModel = .ge then [⟨.rd, a, m.gtcr, gtcr⟩, ⟨.rd, a, m.gtsr, gtsr⟩] else []) ∧
      u.mem = s.mem ∧ u.marks = s.marks ∧ u.tx = s.tx ∧ u.rx = s.rx ∧
      u.regs = { s.regs with gmiiStored := u.regs.gmiiStored } ∧
      (use = .getLink → u.ops = [] ∧ u.ctx = s.ctx ∧
        u.ret = some (.up (resolve m s.cfg.chipModel lpa adv aner gtcr gtsr).1
          (resolve m s.cfg.chipModel lpa adv aner gtcr gtsr).2)) ∧
      (∀ up, use = .negotiated up →
        u.ctx = { s.ctx with
          speed := some (resolve m s.cfg.chipModel lpa adv aner gtcr gtsr).1
          duplex := some (resolve m s.cfg.chipModel lpa adv aner gtcr gtsr).2 } ∧
        u.ops = [.rd32 .stationControl,
          .point (.stationWrite (resolve m s.cfg.chipModel lpa adv aner gtcr gtsr).1
            (resolve m s.cfg.chipModel lpa adv aner gtcr gtsr).2),
          .point (.negotiated up)] ++ rest)

/-- R815, R803: STOP resets the block, releases the rings, unsets the cursors and disables the context, keeping the rest of
it; the release, the controllers, IntrMask, IntrControl and GMIIControl are then as ResetSeq leaves them, where HOST alone
took turns. On the CFG bits and IntrStatus after STOP's own pulse of SOFT the rules disagree, and the reading is the
parameter `stopReading` (log entry 37, DESIGN CHOICE): by R803 and R815 they are the pulse's draws, in the order of log
entry 25, and by R1003's third bullet they are as ResetSeq left them, TX_CFG, RX_CFG and 0. In that reading the pulse leaves
a status bit 1 only if it was set before, in every state. That the released rings and pools keep their bytes, and that their
allocation is one flag, is the model's choice (log entry 22, DEDUCED). Before INIT STOP faults, in the SOFT phase too (log entry 36). -/
def Obligations.StopResult : Prop :=
  ∀ s : State,
    (s.ops = [] → s.ctx.regHandle = none → exec .entryStop s = .fault (.unsetContextField .regHandle)) ∧
    (s.ctx.regHandle ≠ none → windowOpen s = true →
      s.ops = [.stopPulse, .wr32 .intrControl 0, .point .stopDone] → ∃ u : State, hostTurns 3 s = .next u ∧ u.ops = [] ∧
        u.regs.txCfg = s.regs.txCfg ∧ u.regs.rxCfg = s.regs.rxCfg ∧ u.regs.gmiiStored = s.regs.gmiiStored ∧
        ∀ k, k < 32 → u.regs.intrStatus.getLsbD k = true → s.regs.intrStatus.getLsbD k = true) ∧
    (s.ops = [] → s.ctx.regHandle ≠ none → windowOpen s = true → paramsOk s.cfg = true → ∃ t u : State,
      exec .entryStop s = .next t ∧
      t = { s with
        ops := [.wr32 .intrMask 0, .wr32 .intrStatus 0xFFFFFFFF, .wr32 .intrControl 0x8000, .wr32 .intrControl 0,
          .wr32 .txControl s.cfg.txCfg, .wr32 .rxControl s.cfg.rxCfg, .wr32 .intrMask 0, .wr32 .intrStatus 0xFFFFFFFF,
          .wr32 .gmiiControl 0, .wr32 .intrMask 0, stopPulseOp s.cfg, .wr32 .intrControl 0, .point .stopDone]
        ret := none } ∧
      (s.cfg.stopReading = .redrawn → stopPulseOp s.cfg = .wr32 .intrControl 0x8000) ∧
      hostTurns 13 t = .next u ∧ u.ops = [] ∧ u.ret = some .done ∧
      u.tx.en = false ∧ u.tx.kick = false ∧ u.rx.en = false ∧ u.rx.kick = false ∧
      u.miic.busy = false ∧ u.miic.rdata = none ∧ u.eec.busy = false ∧ u.eec.rdata = none ∧ u.regs.intrMask = 0 ∧
      u.regs.intrControl = 0 ∧ u.regs.gmiiStored = 0 ∧ softPhase u = false ∧ u.mem = s.mem ∧ u.marks = s.marks ∧
      u.ctx = { s.ctx with
        allocated := false, txCursor := none, rxCursor := none, autonegDone := false, enabled := false } ∧
      (s.cfg.stopReading = .redrawn → u.regs.txCfg = drawAt s 21 &&& cfgMask ∧ u.regs.rxCfg = drawAt s 22 &&& cfgMask ∧
        u.regs.intrStatus = drawAt s 14 &&& definedStatus) ∧
      (s.cfg.stopReading = .kept → u.regs.txCfg = s.cfg.txCfg ∧ u.regs.rxCfg = s.cfg.rxCfg ∧ u.regs.intrStatus = 0))

/-- R710 to R713, R1016, R1017: IRQ disarms the line and reads IntrStatus. If the word it read has a recognized bit and is
not all-ones, what HOST then does is written out: it acknowledges exactly that word, writes 0 to IntrMask, emits the decoded
events in order, writes RECOGNIZED to IntrMask, whatever it was before (log entry 39), re-arms and returns. At whatever
state the acknowledge comes, a status bit that is not in the word read survives it, and at every emit IntrMask is 0 and the
line low; at whatever state the end comes, the mask is restored and the line armed. With HOST alone taking turns these make
the end state given. On a word with no recognized bit, or on a removed device, it writes nothing and re-arms only with
HOST_AUTO_REARM. -/
def Obligations.InterruptHandler : Prop :=
  ∀ s : State,
    (s.ops = [] → s.ctx.regHandle ≠ none → softPhase s = false → ∃ t : State, exec .entryIrq s = .next t ∧
      t = { s with
        irqArmed := false, irqPending := false, ops := [.rd32 .intrStatus, .point .irqDecode], ret := none } ∧
      (s.removed = false → hostTurn t = .next { t with hostT := s.regs.intrStatus, ops := [.point .irqDecode] }) ∧
      (s.removed = false → decodeEvents s.regs.intrStatus ≠ [] →
        hostTurns (7 + (decodeEvents s.regs.intrStatus).length) t = .next
          { s with
            regs.intrStatus := 0, regs.intrMask := 0x000100CC, hostT := s.regs.intrStatus
            events := s.events ++ decodeEvents s.regs.intrStatus, irqArmed := true, irqPending := false
            ret := some .done }) ∧
      (s.removed = true ∨ decodeEvents s.regs.intrStatus = [] → ∃ u : State, hostTurns 2 t = .next u ∧
        u = { s with hostT := u.hostT, irqArmed := s.cfg.hostAutoRearm, irqPending := false, ret := some .done })) ∧
    (s.ops = [.point .irqDecode] → decodeEvents s.hostT ≠ [] → hostTurn s = .next
      { s with
        ops := [.wr32 .intrStatus s.hostT, .wr32 .intrMask 0] ++ (decodeEvents s.hostT).map (fun e => .point (.emit e))
          ++ [.wr32 .intrMask 0x000100CC, .point .rearm, .point (.finish .done)] }) ∧
    (∀ (v : Word) (evs : List HostEvent) (rest : List HostOp) (k : Nat),
      s.ops = [.wr32 .intrStatus v, .wr32 .intrMask 0] ++ evs.map (fun e => .point (.emit e)) ++ rest →
      s.ctx.regHandle ≠ none → windowOpen s = true → k ≤ evs.length → ∃ u : State, hostTurns (2 + k) s = .next u ∧
        u = { s with
          regs.intrStatus := s.regs.intrStatus &&& ~~~v, regs.intrMask := 0, events := s.events ++ evs.take k
          ops := (evs.drop k).map (fun e => .point (.emit e)) ++ rest } ∧
        irqLine u = false) ∧
    (s.ops = [.wr32 .intrMask 0x000100CC, .point .rearm, .point (.finish .done)] → s.ctx.regHandle ≠ none →
      windowOpen s = true → hostTurns 3 s = .next
        { s with regs.intrMask := 0x000100CC, irqArmed := true, ops := [], ret := some .done })

/-! ### The link FSM (spec/43) -/

/-- R617, R627: Resolve, case by case. The gate by ANLPAR's next-page bit and ANER, the fall-back of an empty intersection
and the order of the 10/100 results are what R617 lists under "The following are the spec's own choices". -/
def Obligations.ResolvePriority : Prop :=
  ∀ (m : Config.PhyMap) (lpa adv aner gtcr gtsr : Half),
    (lpa.getLsbD m.nextPage = true → aner.getLsbD m.lpAnAble = true → gtcr.getLsbD m.adv1000Full = true →
      gtsr.getLsbD m.lp1000Full = true → resolve m .ge lpa adv aner gtcr gtsr = (.s1000, .full)) ∧
    (lpa.getLsbD m.nextPage = true → aner.getLsbD m.lpAnAble = true →
      (gtcr.getLsbD m.adv1000Full && gtsr.getLsbD m.lp1000Full) = false → gtcr.getLsbD m.adv1000Half = true →
      gtsr.getLsbD m.lp1000Half = true → resolve m .ge lpa adv aner gtcr gtsr = (.s1000, .half)) ∧
    (∀ chip, (chip = .fe ∨ lpa.getLsbD m.nextPage = false ∨ aner.getLsbD m.lpAnAble = false ∨
        ((gtcr.getLsbD m.adv1000Full && gtsr.getLsbD m.lp1000Full) = false ∧
          (gtcr.getLsbD m.adv1000Half && gtsr.getLsbD m.lp1000Half) = false)) →
      resolve m chip lpa adv aner gtcr gtsr =
        if (lpa.getLsbD m.full100 && adv.getLsbD m.full100) = true then (.s100, .full)
        else if (lpa.getLsbD m.half100 && adv.getLsbD m.half100) = true then (.s100, .half)
        else if (lpa.getLsbD m.full10 && adv.getLsbD m.full10) = true then (.s10, .full)
        else (.s10, .half))

/-- R311, R621, R111: HOST's reprogramming of StationControl writes SPEED, FDX and IFMODE for the link and keeps every
other bit. -/
def Obligations.StationControlReprogrammed : Prop :=
  ∀ (s : State) (speed : Speed) (duplex : Duplex) (rest : List HostOp), windowOpen s = true → s.ctx.regHandle ≠ none →
    s.ops = [.rd32 .stationControl, .point (.stationWrite speed duplex)] ++ rest →
    ∃ t : State, hostTurns 3 s = .next t ∧
      t = { s with regs.stationControl := t.regs.stationControl, hostT := s.regs.stationControl, ops := rest } ∧
      t.regs.stationControl &&& 0xF0FFE3FF = s.regs.stationControl &&& 0xF0FFE3FF ∧
      t.regs.stationControl.extractLsb' 10 2 = (match speed with
        | .s10 => s.cfg.codes.speed10
        | .s100 => s.cfg.codes.speed100
        | .s1000 => s.cfg.codes.speed1000) ∧
      t.regs.stationControl.getLsbD 12 = decide (duplex = .full) ∧
      t.regs.stationControl.extractLsb' 24 4 =
        ((match speed with
            | .s1000 => s.cfg.codes.ifModeGig
            | _ => s.cfg.codes.ifMode) ||| (if s.ctx.rgmii = true then s.cfg.codes.ifModeRgmii else 0))

/-- R601, R602, R603: the FSM starts in Scanning with autonegDone false, no PHY record and no current PHY, whatever was
there, and reads the latched BMSR of address 0; that it leaves speed and duplex as they were is log entry 43. At each address
the latched BMSR decides: all-zeros and all-ones are skipped, anything else is read on and becomes a PHY record; after
address 31 an empty list ends INIT with Error(NoTransceiver), enabled as it was, and a list with a record goes on to
PhySelected, with the link test of its first PHY. -/
def Obligations.ScanningFindsPhys : Prop :=
  ∀ (s : State) (a : Nat) (st id1 : Half) (m : Config.PhyMap), s.cfg.phyMap = m →
    runOp (.point .fsmStart) s = .next
      { s with
        ctx.fsm := .scanning, ctx.autonegDone := false, ctx.phys := [], ctx.cur := none
        ops := mdioReadOps 0 m.bmsr.toNat ++ mdioReadOps 0 m.bmsr.toNat ++ [.point (.scanStatus 0)] ++ s.ops } ∧
    (s.hostD = 0x0000 ∨ s.hostD = 0xFFFF →
      (a < 31 → runOp (.point (.scanStatus a)) s = .next
        { s with
          ops := mdioReadOps (a + 1) m.bmsr.toNat ++ mdioReadOps (a + 1) m.bmsr.toNat
            ++ [.point (.scanStatus (a + 1))] ++ s.ops }) ∧
      (s.ctx.phys = [] → runOp (.point (.scanStatus 31)) s = .next
        { s with ctx.fsm := .noTransceiver, ops := [], ret := some .errorNoTransceiver }) ∧
      (∀ r rs, s.ctx.phys = r :: rs → runOp (.point (.scanStatus 31)) s = .next
        { s with
          ctx.fsm := .phySelected
          ops := mdioReadOps r.addr.toNat m.bmsr.toNat ++ mdioReadOps r.addr.toNat m.bmsr.toNat
            ++ [.point (.selectStatus 0 none)] ++ s.ops })) ∧
    (s.hostD ≠ 0x0000 → s.hostD ≠ 0xFFFF →
      runOp (.point (.scanStatus a)) s = .next
        { s with ops := mdioReadOps a m.phyid1.toNat ++ [.point (.scanId1 a s.hostD)] ++ s.ops }) ∧
    runOp (.point (.scanId1 a st)) s = .next
      { s with ops := mdioReadOps a m.phyid2.toNat ++ [.point (.scanId2 a st s.hostD)] ++ s.ops } ∧
    (a < 31 → runOp (.point (.scanId2 a st id1)) s = .next
      { s with
        ctx.phys := s.ctx.phys ++ [⟨BitVec.ofNat 5 a, id1, s.hostD, st, st.extractLsb' m.capTag 5⟩]
        ops := mdioReadOps (a + 1) m.bmsr.toNat ++ mdioReadOps (a + 1) m.bmsr.toNat
          ++ [.point (.scanStatus (a + 1))] ++ s.ops }) ∧
    (∃ t : State, runOp (.point (.scanId2 31 st id1)) s = .next t ∧
      t = { s with ctx.phys := t.ctx.phys, ctx.fsm := .phySelected, ops := t.ops } ∧
      t.ctx.phys = s.ctx.phys ++ [⟨31#5, id1, s.hostD, st, st.extractLsb' m.capTag 5⟩] ∧
      ∀ r rs, t.ctx.phys = r :: rs →
        t.ops = mdioReadOps r.addr.toNat m.bmsr.toNat ++ mdioReadOps r.addr.toNat m.bmsr.toNat
          ++ [.point (.selectStatus 0 none)] ++ s.ops)

/-- R604, R606, R607: the link test of each PHY stores its status and keeps the first PHY with a link; after the last
one that PHY, or the first of the list, is current, every other one is isolated in list order, then the current one
unisolated and its latched status read. Isolate and Unisolate are a read of BMCR and a write of it, with ANENABLE and
ISOLATE set and with ISOLATE cleared. -/
def Obligations.PhySelection : Prop :=
  ∀ (s : State) (i : Nat) (pref : Option Nat) (m : Config.PhyMap), s.cfg.phyMap = m →
    (∀ r, s.ctx.phys[i + 1]? = some r →
      runOp (.point (.selectStatus i pref)) s = .next
        { s with
          ctx.phys := s.ctx.phys.modify i (fun p => { p with status := s.hostD })
          ops := mdioReadOps r.addr.toNat m.bmsr.toNat ++ mdioReadOps r.addr.toNat m.bmsr.toNat
            ++ [.point (.selectStatus (i + 1) (match pref with
                | some p => some p
                | none => if s.hostD.getLsbD m.link = true then some i else none))] ++ s.ops }) ∧
    (i + 1 = s.ctx.phys.length → (∀ p, pref = some p → p < i) →
      ∀ (cur : Nat) (c : PhyRecord), s.ctx.phys[cur]? = some c →
        cur = (match pref with
          | some p => p
          | none => if s.hostD.getLsbD m.link = true then i else 0) →
        runOp (.point (.selectStatus i pref)) s = .next
          { s with
            ctx.phys := s.ctx.phys.modify i (fun p => { p with status := s.hostD })
            ctx.cur := some cur
            ops := ((s.ctx.phys.eraseIdx cur).map (fun p => isolateOps m p.addr)).flatten
                ++ unisolateOps m c.addr ++ mdioReadOps c.addr.toNat m.bmsr.toNat
                ++ mdioReadOps c.addr.toNat m.bmsr.toNat ++ [.point (.latchLink c.addr)] ++ s.ops }) ∧
    (∀ (a : BitVec 5) (rest : List HostOp), s.ctx.regHandle ≠ none → windowOpen s = true → s.miic.busy = false →
      (s.ops = isolateOps m a ++ rest → ∃ (u : State) (v : Half),
        runTurns [.host, .miic, .host, .host, .host, .miic, .host] s = .next u ∧ u.ops = rest ∧
        u.phyLog = s.phyLog ++ [⟨.rd, a, m.bmcr, v⟩]
          ++ (if s.cfg.phyPresent.getLsbD a.toNat = true then
              [⟨.wr, a, m.bmcr, v ||| (bit16 m.anEnable ||| bit16 m.isolate)⟩] else []) ∧
        u.miic.busy = false ∧ u.ctx = s.ctx ∧ u.mem = s.mem ∧ u.marks = s.marks) ∧
      (s.ops = unisolateOps m a ++ rest → ∃ (u : State) (v : Half),
        runTurns [.host, .miic, .host, .host, .host, .miic, .host] s = .next u ∧ u.ops = rest ∧
        u.phyLog = s.phyLog ++ [⟨.rd, a, m.bmcr, v⟩]
          ++ (if s.cfg.phyPresent.getLsbD a.toNat = true then
              [⟨.wr, a, m.bmcr, v &&& ~~~bit16 m.isolate⟩] else []) ∧
        u.miic.busy = false ∧ u.ctx = s.ctx ∧ u.mem = s.mem ∧ u.marks = s.marks))

/-- R616, R623: Negotiated sets autonegDone, and pulses RGDelay, the two values with no access between them,
exactly when the link is up on an RGMII board. -/
def Obligations.NegotiationCompletes : Prop :=
  ∀ (s : State) (up : Bool) (rest : List HostOp), windowOpen s = true → s.ctx.regHandle ≠ none →
    s.ops = .point (.negotiated up) :: rest →
    ((up && s.ctx.rgmii) = false → hostTurn s = .next { s with ctx.autonegDone := true, ops := rest }) ∧
    ((up && s.ctx.rgmii) = true →
      hostTurns 2 s = .next
        { s with
          ctx.autonegDone := true, regs.rgDelay := s.cfg.codes.delayPulse
          ops := .wr32 .rgDelay s.cfg.codes.delayDefault :: rest } ∧
      hostTurns 3 s = .next
        { s with ctx.autonegDone := true, regs.rgDelay := s.cfg.codes.delayDefault, ops := rest })

/-- R608, R610, R614, R615: the reset of the chosen PHY, after the link bit is kept, is one write of RESET, ANENABLE
and ANRESTART to BMCR, and the kept bit chooses the poll. The polls of the FSM: each ends in the next state of R600 or, its
bound exceeded, in LinkDownTimeout, which leaves autonegDone as it was; that it leaves speed and duplex as they were too is
log entry 43. -/
def Obligations.LinkPollsAreBounded : Prop :=
  ∀ (s : State) (a : BitVec 5) (i : Nat) (prev : Bool) (m : Config.PhyMap), s.cfg.phyMap = m →
    runOp (.point (.latchLink a)) s = .next
      { s with
        ctx.linkAtReset := some (s.hostD.getLsbD m.link), ctx.fsm := .resetting
        ops := [.miiCmd .wr a.toNat m.bmcr.toNat (bit16 m.reset ||| bit16 m.anEnable ||| bit16 m.anRestart),
          .pollMii, .point (.afterReset a)] ++ s.ops } ∧
    (s.ctx.linkAtReset = some true → 1 ≤ s.cfg.linkPollMax →
      runOp (.point (.afterReset a)) s = .next
        { s with
          ctx.fsm := .awaitingLink
          ops := mdioReadOps a.toNat m.bmsr.toNat ++ [.point (.linkPoll a 1 true)] ++ s.ops }) ∧
    (s.ctx.linkAtReset = some false → 1 ≤ s.cfg.anegPollMax →
      runOp (.point (.afterReset a)) s = .next
        { s with
          ctx.fsm := .awaitingAutoneg
          ops := mdioReadOps a.toNat m.bmsr.toNat ++ [.point (.anegPoll a 1)] ++ s.ops }) ∧
    (linkStable s.cfg.linkStable prev (s.hostD.getLsbD m.link) = false → s.cfg.linkPollMax ≤ i →
      runOp (.point (.linkPoll a i prev)) s = .next { s with ctx.fsm := .linkDownTimeout }) ∧
    (linkStable s.cfg.linkStable prev (s.hostD.getLsbD m.link) = false → i < s.cfg.linkPollMax →
      runOp (.point (.linkPoll a i prev)) s = .next
        { s with
          ops := mdioReadOps a.toNat m.bmsr.toNat
            ++ [.point (.linkPoll a (i + 1) (s.hostD.getLsbD m.link))] ++ s.ops }) ∧
    (linkStable s.cfg.linkStable prev (s.hostD.getLsbD m.link) = true → 1 ≤ s.cfg.anegPollMax →
      runOp (.point (.linkPoll a i prev)) s = .next
        { s with
          ctx.fsm := .awaitingAutoneg
          ops := mdioReadOps a.toNat m.bmsr.toNat ++ [.point (.anegPoll a 1)] ++ s.ops }) ∧
    (s.hostD.getLsbD m.anComplete = false → s.cfg.anegPollMax ≤ i →
      runOp (.point (.anegPoll a i)) s = .next { s with ctx.fsm := .linkDownTimeout }) ∧
    (s.hostD.getLsbD m.anComplete = false → i < s.cfg.anegPollMax →
      runOp (.point (.anegPoll a i)) s = .next
        { s with ops := mdioReadOps a.toNat m.bmsr.toNat ++ [.point (.anegPoll a (i + 1))] ++ s.ops }) ∧
    (s.hostD.getLsbD m.anComplete = true →
      runOp (.point (.anegPoll a i)) s = .next
        { s with
          ctx.fsm := .negotiated
          ops := mdioReadOps a.toNat m.anlpar.toNat
            ++ [.point (.capLpa a (.negotiated (s.hostD.getLsbD m.link)))] ++ s.ops })

/-- R141, R620: only the FSM's resolution of the capabilities sets speed or duplex. -/
def Obligations.OnlyTheFsmSetsSpeedAndDuplex : Prop :=
  (∀ (i : Instr) (s t : State), exec i s = .next t → t.ctx.speed = s.ctx.speed ∧ t.ctx.duplex = s.ctx.duplex) ∧
  (∀ (op : HostOp) (s t : State), runOp op s = .next t →
    (t.ctx.speed = s.ctx.speed ∧ t.ctx.duplex = s.ctx.duplex) ∨
    (∃ a up lpa adv, op = .point (.capAner a (.negotiated up) lpa adv)) ∨
    (∃ up lpa adv aner gtcr, op = .point (.capGtsr (.negotiated up) lpa adv aner gtcr)))

/-! ### Reset and the whole run (spec/60, 70) -/

/-- R1000, R1002, R140, R145: the values the spec gives for power-on; a value the spec draws is not stated. Whatever the
parameters, the device's words at power-on are those they name, the Device Context that of its creation. -/
def Obligations.PowerOnValues : Prop :=
  State.reset.regs.intrMask = 0 ∧ softPhase State.reset = false ∧ irqLine State.reset = false ∧
  State.reset.miic.busy = false ∧ State.reset.miic.rdata = none ∧ State.reset.eec.busy = false ∧
  State.reset.eec.rdata = none ∧ State.reset.tx.en = false ∧ State.reset.tx.kick = false ∧
  State.reset.rx.en = false ∧ State.reset.rx.kick = false ∧ State.reset.removed = false ∧
  State.reset.irqArmed = true ∧ State.reset.wireIn = [] ∧ State.reset.statRxErrors = 0 ∧
  State.reset.ctx.enabled = false ∧ State.reset.ctx.autonegDone = false ∧ State.reset.ctx.rxErrors = 0 ∧
  State.reset.ctx.fsm = .scanning ∧ State.reset.ctx.phys = [] ∧ State.reset.ctx.cur = none ∧
  State.reset.ctx.regHandle = none ∧ State.reset.ctx.txCursor = none ∧ State.reset.ctx.rxCursor = none ∧
  State.reset.ctx.stationAddress = none ∧ State.reset.marks = [] ∧
  State.reset.ctx.rgmii = false ∧ State.reset.ctx.speed = none ∧ State.reset.ctx.duplex = none ∧
  State.reset.ctx.irqHandle = none ∧ State.reset.ctx.linkAtReset = none ∧
  ∀ c : Config.Params, (powerOn c).cfg = c ∧ (powerOn c).regs = c.powerOn.regs ∧ (powerOn c).miic = c.powerOn.miic ∧
    (powerOn c).eec = c.powerOn.eec ∧ (powerOn c).tx = c.powerOn.tx ∧ (powerOn c).rx = c.powerOn.rx ∧
    (powerOn c).ctx = State.reset.ctx

/-- R1001, R720: TICK copies the error counter and makes no access, in every state of HOST between two entry points.
Before INIT has passed its platform checks the entry points that touch a register or an unset field fault, in the SOFT phase
too (log entry 36), SEND is Busy, and TICK succeeds. -/
def Obligations.TickAndCallsBeforeInit : Prop :=
  ∀ s : State, s.ops = [] →
    exec .entryTick s = .next { s with statRxErrors := s.ctx.rxErrors, ret := some .done } ∧
    (s.ctx = Context.reset →
      (∀ p m b, exec (.entrySetFilter p m b) s = .fault (.unsetContextField .regHandle)) ∧
      (∀ a, exec (.entrySetSa a) s = .fault (.unsetContextField .regHandle)) ∧
      exec .entryIrq s = .fault (.unsetContextField .regHandle) ∧
      exec .entryStop s = .fault (.unsetContextField .regHandle) ∧
      (∀ n, exec (.entryRecv n) s = .fault (.unsetContextField .rxCursor)) ∧
      exec .entryGetLink s = .fault (.unsetContextField .current) ∧
      (∀ p, p ≠ [] → exec (.entrySend p) s = .next { s with ret := some .busy }) ∧
      exec .entryTick s = .next { s with statRxErrors := 0, ret := some .done })

/-- R901, R124, R3: along every step the marks are kept and only grow, a removed device stays removed, and the run's
parameters never change. -/
def Obligations.MarksAndRemovalArePermanent : Prop :=
  ∀ s t : State, step s = .next t →
    (∃ more, t.marks = s.marks ++ more) ∧ (s.removed = true → t.removed = true) ∧ t.cfg = s.cfg
end

