-- ==== Sys2Proof/Laws/Memory.lean ====
section
/-!
SUPPORT. Sys2Proof/Laws/Memory.lean: what the memory operations do: a read after a write to the same byte gives the byte
written, every other byte is left alone, words and byte lists the same, and every operation keeps the canonical form.
-/
namespace Sys2Proof.Machine

/-! ### One byte -/

theorem memGet?_memInsert_same (m : Memory) (a : Nat) (v : Byte) : memGet? (memInsert m a v) a = some v := by
  induction m with
  | nil => simp [memInsert, memGet?]
  | cons c m ih =>
    obtain ⟨b, w⟩ := c
    by_cases h1 : a < b
    · simp [memInsert, memGet?, h1]
    · by_cases h2 : a = b
      · simp [memInsert, memGet?, h2]
      · simp [memInsert, memGet?, h1, h2, ih]

theorem memGet?_memInsert_other (m : Memory) {a x : Nat} (v : Byte) (h : x ≠ a) :
    memGet? (memInsert m a v) x = memGet? m x := by
  induction m with
  | nil => simp [memInsert, memGet?, h]
  | cons c m ih =>
    obtain ⟨b, w⟩ := c
    by_cases h1 : a < b
    · simp [memInsert, memGet?, h1, h]
    · by_cases h2 : a = b
      · subst h2; simp [memInsert, memGet?, h]
      · simp [memInsert, memGet?, h1, h2, ih]

@[simp] theorem memRead_memWrite_same (m : Memory) (a : Word) (v : Byte) : memRead (memWrite m a v) a = v := by
  simp [memRead, memWrite, memGet?_memInsert_same]

theorem memRead_memWrite_other (m : Memory) {a x : Word} (v : Byte) (h : x ≠ a) :
    memRead (memWrite m a v) x = memRead m x := by
  have h' : x.toNat ≠ a.toNat := fun e => h (BitVec.eq_of_toNat_eq e)
  simp [memRead, memWrite, memGet?_memInsert_other m v h']

/-! ### Byte lists -/

/-- Two byte addresses of one run of less than 2^32 bytes are equal only for equal offsets. -/
theorem addr_inj {a : Word} {j k : Nat} (hj : j < 2 ^ 32) (hk : k < 2 ^ 32)
    (h : a + BitVec.ofNat 32 j = a + BitVec.ofNat 32 k) : j = k := by
  have h1 := congrArg BitVec.toNat h
  simp only [BitVec.toNat_add, BitVec.toNat_ofNat] at h1
  have := a.isLt
  omega

theorem addr_succ (a : Word) (k : Nat) : a + 1 + BitVec.ofNat 32 k = a + BitVec.ofNat 32 (k + 1) := by
  apply BitVec.eq_of_toNat_eq
  simp only [BitVec.toNat_add, BitVec.toNat_ofNat, BitVec.ofNat_eq_ofNat]
  omega

theorem memRead_memWriteBytes_other (l : List Byte) (m : Memory) (a x : Word)
    (h : ∀ k, k < l.length → x ≠ a + BitVec.ofNat 32 k) : memRead (memWriteBytes m a l) x = memRead m x := by
  induction l generalizing m a with
  | nil => rfl
  | cons b bs ih =>
    rw [memWriteBytes, ih]
    · exact memRead_memWrite_other m b (by simpa using h 0 (by simp))
    · intro k hk
      rw [addr_succ]
      exact h (k + 1) (by simpa using hk)

theorem memRead_memWriteBytes_at (l : List Byte) (m : Memory) (a : Word) (k : Nat) (hl : l.length ≤ 2 ^ 32)
    (hk : k < l.length) : memRead (memWriteBytes m a l) (a + BitVec.ofNat 32 k) = l[k] := by
  induction l generalizing m a k with
  | nil => simp at hk
  | cons b bs ih =>
    simp only [List.length_cons] at hl hk
    rw [memWriteBytes]
    cases k with
    | zero =>
      rw [memRead_memWriteBytes_other]
      · simp
      · intro j hj e
        rw [addr_succ] at e
        have := addr_inj (by omega) (by omega) e
        omega
    | succ k =>
      rw [← addr_succ, ih]
      · simp
      · omega
      · omega

@[simp] theorem memReadBytes_length (m : Memory) (a : Word) (n : Nat) : (memReadBytes m a n).length = n := by
  induction n generalizing a with
  | zero => rfl
  | succ n ih => simp [memReadBytes, ih]

theorem memReadBytes_getElem (m : Memory) (a : Word) (n k : Nat) (h : k < (memReadBytes m a n).length) :
    (memReadBytes m a n)[k] = memRead m (a + BitVec.ofNat 32 k) := by
  induction n generalizing a k with
  | zero => simp [memReadBytes] at h
  | succ n ih =>
    cases k with
    | zero => simp [memReadBytes]
    | succ k =>
      simp only [memReadBytes, List.getElem_cons_succ]
      rw [ih, addr_succ]

/-- What lies apart from the bytes written reads as before. -/
theorem memReadBytes_congr (m m' : Memory) (a : Word) (n : Nat)
    (h : ∀ k, k < n → memRead m' (a + BitVec.ofNat 32 k) = memRead m (a + BitVec.ofNat 32 k)) :
    memReadBytes m' a n = memReadBytes m a n := by
  apply List.ext_getElem (by simp)
  intro k h1 h2
  rw [memReadBytes_getElem, memReadBytes_getElem, h k (by simpa using h1)]

theorem memReadBytes_memWriteBytes (l : List Byte) (m : Memory) (a : Word) (hl : l.length ≤ 2 ^ 32) :
    memReadBytes (memWriteBytes m a l) a l.length = l := by
  apply List.ext_getElem (by simp)
  intro k h1 h2
  rw [memReadBytes_getElem, memRead_memWriteBytes_at l m a k hl h2]

theorem memWriteBytes_append (l l' : List Byte) (m : Memory) (a : Word) :
    memWriteBytes m a (l ++ l') = memWriteBytes (memWriteBytes m a l) (a + BitVec.ofNat 32 l.length) l' := by
  induction l generalizing m a with
  | nil => simp [memWriteBytes]
  | cons b bs ih => simp only [List.cons_append, memWriteBytes, ih, List.length_cons, addr_succ]

/-! ### Words -/

@[simp] theorem wordBytes_length (v : Word) : (wordBytes v).length = 4 := rfl

theorem wordOfBytes_byteOfWord (v : Word) :
    wordOfBytes (byteOfWord v 0) (byteOfWord v 1) (byteOfWord v 2) (byteOfWord v 3) = v := by
  unfold wordOfBytes byteOfWord
  ext i hi
  simp only [BitVec.getElem_append, BitVec.getElem_extractLsb']
  split
  · rw [BitVec.getLsbD_eq_getElem (by omega)]; simp
  · split
    · rw [BitVec.getLsbD_eq_getElem (by omega)]; congr 1; omega
    · split
      · rw [BitVec.getLsbD_eq_getElem (by omega)]; congr 1; omega
      · rw [BitVec.getLsbD_eq_getElem (by omega)]; congr 1; omega

theorem memReadWord_memWriteWord_same (m : Memory) (a v : Word) : memReadWord (memWriteWord m a v) a = v := by
  have h := fun k hk => memRead_memWriteBytes_at (wordBytes v) m a k (by simp) hk
  have h0 := h 0 (by simp)
  have h1 := h 1 (by simp)
  have h2 := h 2 (by simp)
  have h3 := h 3 (by simp)
  simp only [wordBytes, List.getElem_cons_zero, List.getElem_cons_succ, BitVec.add_zero] at h0 h1 h2 h3
  unfold memReadWord memWriteWord
  simp only [BitVec.ofNat_eq_ofNat, wordBytes]
  rw [h0, h1, h2, h3, wordOfBytes_byteOfWord]

theorem memRead_memWriteWord_other (m : Memory) (a v x : Word)
    (h : ∀ k, k < 4 → x ≠ a + BitVec.ofNat 32 k) : memRead (memWriteWord m a v) x = memRead m x :=
  memRead_memWriteBytes_other _ m a x (by simpa using h)

theorem memReadWord_congr (m m' : Memory) (a : Word)
    (h : ∀ k, k < 4 → memRead m' (a + BitVec.ofNat 32 k) = memRead m (a + BitVec.ofNat 32 k)) :
    memReadWord m' a = memReadWord m a := by
  have h0 := h 0 (by omega)
  have h1 := h 1 (by omega)
  have h2 := h 2 (by omega)
  have h3 := h 3 (by omega)
  simp only [BitVec.add_zero] at h0 h1 h2 h3
  simp only [memReadWord, BitVec.ofNat_eq_ofNat, h0, h1, h2, h3]

theorem memReadWord_memWriteWord_other (m : Memory) (a v x : Word)
    (h : ∀ j k, j < 4 → k < 4 → x + BitVec.ofNat 32 j ≠ a + BitVec.ofNat 32 k) :
    memReadWord (memWriteWord m a v) x = memReadWord m x :=
  memReadWord_congr _ _ _ (fun j hj => memRead_memWriteWord_other _ _ _ _ (fun k hk => h j k hj hk))

/-! ### The canonical form -/

theorem memWf_cons (a : Nat) (v : Byte) (m : Memory) :
    memWf ((a, v) :: m) = true ↔ a < 2 ^ 32 ∧ (∀ c ∈ m, a < c.1) ∧ memWf m = true := by
  induction m generalizing a v with
  | nil => simp [memWf]
  | cons c m ih =>
    obtain ⟨b, w⟩ := c
    rw [memWf, Bool.and_eq_true, decide_eq_true_iff, ih]
    constructor
    · rintro ⟨h1, h2, h3, h4⟩
      refine ⟨by omega, ?_, h2, h3, h4⟩
      intro c hc
      rcases List.mem_cons.1 hc with rfl | hc
      · exact h1
      · exact Nat.lt_trans h1 (h3 c hc)
    · rintro ⟨_, h2, h3⟩
      exact ⟨h2 (b, w) (by simp), h3⟩

theorem mem_memInsert {m : Memory} {a : Nat} {v : Byte} {c : Host.Cell} (h : c ∈ memInsert m a v) :
    c.1 = a ∨ c ∈ m := by
  induction m with
  | nil => simp [memInsert] at h; simp [h]
  | cons d m ih =>
    obtain ⟨b, w⟩ := d
    rw [memInsert] at h
    split at h
    · rcases List.mem_cons.1 h with rfl | h
      · exact .inl rfl
      · exact .inr h
    · split at h
      · rcases List.mem_cons.1 h with rfl | h
        · exact .inl rfl
        · exact .inr (List.mem_cons_of_mem _ h)
      · rcases List.mem_cons.1 h with rfl | h
        · exact .inr (by simp)
        · rcases ih h with h | h
          · exact .inl h
          · exact .inr (List.mem_cons_of_mem _ h)

theorem memWf_memInsert {m : Memory} {a : Nat} (v : Byte) (ha : a < 2 ^ 32) (h : memWf m = true) :
    memWf (memInsert m a v) = true := by
  induction m with
  | nil => exact decide_eq_true ha
  | cons d m ih =>
    obtain ⟨b, w⟩ := d
    have hd := (memWf_cons b w m).1 h
    rw [memInsert]
    split
    · rename_i hab
      rw [memWf_cons]
      refine ⟨ha, ?_, h⟩
      intro c hc
      rcases List.mem_cons.1 hc with rfl | hc
      · exact hab
      · exact Nat.lt_trans hab (hd.2.1 c hc)
    · split
      · rename_i hab
        subst hab
        exact (memWf_cons _ _ _).2 ⟨ha, hd.2.1, hd.2.2⟩
      · rw [memWf_cons]
        refine ⟨hd.1, ?_, ih hd.2.2⟩
        intro c hc
        rcases mem_memInsert hc with h1 | h1
        · omega
        · exact hd.2.1 c h1

theorem memWf_memWrite {m : Memory} (a : Word) (v : Byte) (h : memWf m = true) : memWf (memWrite m a v) = true :=
  memWf_memInsert v a.isLt h

theorem memWf_memWriteBytes (l : List Byte) {m : Memory} (a : Word) (h : memWf m = true) :
    memWf (memWriteBytes m a l) = true := by
  induction l generalizing m a with
  | nil => exact h
  | cons b bs ih => exact ih (a + 1) (memWf_memWrite a b h)

theorem memWf_memWriteWord {m : Memory} (a v : Word) (h : memWf m = true) : memWf (memWriteWord m a v) = true :=
  memWf_memWriteBytes _ a h

theorem memWf_reset : memWf State.reset.mem = true := rfl

end Sys2Proof.Machine
end

