-- ==== Sys2Proof/Laws/State.lean ====
section
/-!
SUPPORT. Sys2Proof/Laws/State.lean: for each small update of the state, one lemma per field, so that no later proof
unfolds a record update.
-/
namespace Sys2Proof.Machine

/-! ### `refuse` -/

@[simp] theorem refuse_cfg (m : Mark) (s : State) : (refuse m s).cfg = s.cfg := rfl
@[simp] theorem refuse_regs (m : Mark) (s : State) : (refuse m s).regs = s.regs := rfl
@[simp] theorem refuse_miic (m : Mark) (s : State) : (refuse m s).miic = s.miic := rfl
@[simp] theorem refuse_eec (m : Mark) (s : State) : (refuse m s).eec = s.eec := rfl
@[simp] theorem refuse_tx (m : Mark) (s : State) : (refuse m s).tx = s.tx := rfl
@[simp] theorem refuse_rx (m : Mark) (s : State) : (refuse m s).rx = s.rx := rfl
@[simp] theorem refuse_wireIn (m : Mark) (s : State) : (refuse m s).wireIn = s.wireIn := rfl
@[simp] theorem refuse_wireOut (m : Mark) (s : State) : (refuse m s).wireOut = s.wireOut := rfl
@[simp] theorem refuse_removed (m : Mark) (s : State) : (refuse m s).removed = s.removed := rfl
@[simp] theorem refuse_irqArmed (m : Mark) (s : State) : (refuse m s).irqArmed = s.irqArmed := rfl
@[simp] theorem refuse_irqPending (m : Mark) (s : State) : (refuse m s).irqPending = s.irqPending := rfl
@[simp] theorem refuse_phyLog (m : Mark) (s : State) : (refuse m s).phyLog = s.phyLog := rfl
@[simp] theorem refuse_mem (m : Mark) (s : State) : (refuse m s).mem = s.mem := rfl
@[simp] theorem refuse_ctx (m : Mark) (s : State) : (refuse m s).ctx = s.ctx := rfl
@[simp] theorem refuse_statRxErrors (m : Mark) (s : State) : (refuse m s).statRxErrors = s.statRxErrors := rfl
@[simp] theorem refuse_ops (m : Mark) (s : State) : (refuse m s).ops = s.ops := rfl
@[simp] theorem refuse_hostT (m : Mark) (s : State) : (refuse m s).hostT = s.hostT := rfl
@[simp] theorem refuse_hostD (m : Mark) (s : State) : (refuse m s).hostD = s.hostD := rfl
@[simp] theorem refuse_dst (m : Mark) (s : State) : (refuse m s).dst = s.dst := rfl
@[simp] theorem refuse_ret (m : Mark) (s : State) : (refuse m s).ret = s.ret := rfl
@[simp] theorem refuse_events (m : Mark) (s : State) : (refuse m s).events = s.events := rfl
@[simp] theorem refuse_marks (m : Mark) (s : State) : (refuse m s).marks = s.marks ++ [m] := rfl
@[simp] theorem refuse_prog (m : Mark) (s : State) : (refuse m s).prog = s.prog := rfl
@[simp] theorem refuse_sched (m : Mark) (s : State) : (refuse m s).sched = s.sched := rfl
@[simp] theorem refuse_rounds (m : Mark) (s : State) : (refuse m s).rounds = s.rounds := rfl
@[simp] theorem refuse_draws (m : Mark) (s : State) : (refuse m s).draws = s.draws := rfl
@[simp] theorem refuse_pins (m : Mark) (s : State) : (refuse m s).pins = s.pins := rfl

/-! ### `drawn` -/

@[simp] theorem drawn_cfg (n : Nat) (s : State) : (drawn n s).cfg = s.cfg := rfl
@[simp] theorem drawn_regs (n : Nat) (s : State) : (drawn n s).regs = s.regs := rfl
@[simp] theorem drawn_miic (n : Nat) (s : State) : (drawn n s).miic = s.miic := rfl
@[simp] theorem drawn_eec (n : Nat) (s : State) : (drawn n s).eec = s.eec := rfl
@[simp] theorem drawn_tx (n : Nat) (s : State) : (drawn n s).tx = s.tx := rfl
@[simp] theorem drawn_rx (n : Nat) (s : State) : (drawn n s).rx = s.rx := rfl
@[simp] theorem drawn_wireIn (n : Nat) (s : State) : (drawn n s).wireIn = s.wireIn := rfl
@[simp] theorem drawn_wireOut (n : Nat) (s : State) : (drawn n s).wireOut = s.wireOut := rfl
@[simp] theorem drawn_removed (n : Nat) (s : State) : (drawn n s).removed = s.removed := rfl
@[simp] theorem drawn_irqArmed (n : Nat) (s : State) : (drawn n s).irqArmed = s.irqArmed := rfl
@[simp] theorem drawn_irqPending (n : Nat) (s : State) : (drawn n s).irqPending = s.irqPending := rfl
@[simp] theorem drawn_phyLog (n : Nat) (s : State) : (drawn n s).phyLog = s.phyLog := rfl
@[simp] theorem drawn_mem (n : Nat) (s : State) : (drawn n s).mem = s.mem := rfl
@[simp] theorem drawn_ctx (n : Nat) (s : State) : (drawn n s).ctx = s.ctx := rfl
@[simp] theorem drawn_statRxErrors (n : Nat) (s : State) : (drawn n s).statRxErrors = s.statRxErrors := rfl
@[simp] theorem drawn_ops (n : Nat) (s : State) : (drawn n s).ops = s.ops := rfl
@[simp] theorem drawn_hostT (n : Nat) (s : State) : (drawn n s).hostT = s.hostT := rfl
@[simp] theorem drawn_hostD (n : Nat) (s : State) : (drawn n s).hostD = s.hostD := rfl
@[simp] theorem drawn_dst (n : Nat) (s : State) : (drawn n s).dst = s.dst := rfl
@[simp] theorem drawn_ret (n : Nat) (s : State) : (drawn n s).ret = s.ret := rfl
@[simp] theorem drawn_events (n : Nat) (s : State) : (drawn n s).events = s.events := rfl
@[simp] theorem drawn_marks (n : Nat) (s : State) : (drawn n s).marks = s.marks := rfl
@[simp] theorem drawn_prog (n : Nat) (s : State) : (drawn n s).prog = s.prog := rfl
@[simp] theorem drawn_sched (n : Nat) (s : State) : (drawn n s).sched = s.sched := rfl
@[simp] theorem drawn_rounds (n : Nat) (s : State) : (drawn n s).rounds = s.rounds := rfl
@[simp] theorem drawn_draws (n : Nat) (s : State) : (drawn n s).draws = s.draws + n := rfl
@[simp] theorem drawn_pins (n : Nat) (s : State) : (drawn n s).pins = s.pins.drop n := rfl

/-! ### `setStatus` -/

@[simp] theorem setStatus_cfg (b : Word) (s : State) : (setStatus b s).cfg = s.cfg := rfl
@[simp] theorem setStatus_regs (b : Word) (s : State) : (setStatus b s).regs = { s.regs with intrStatus := s.regs.intrStatus ||| b } := rfl
@[simp] theorem setStatus_miic (b : Word) (s : State) : (setStatus b s).miic = s.miic := rfl
@[simp] theorem setStatus_eec (b : Word) (s : State) : (setStatus b s).eec = s.eec := rfl
@[simp] theorem setStatus_tx (b : Word) (s : State) : (setStatus b s).tx = s.tx := rfl
@[simp] theorem setStatus_rx (b : Word) (s : State) : (setStatus b s).rx = s.rx := rfl
@[simp] theorem setStatus_wireIn (b : Word) (s : State) : (setStatus b s).wireIn = s.wireIn := rfl
@[simp] theorem setStatus_wireOut (b : Word) (s : State) : (setStatus b s).wireOut = s.wireOut := rfl
@[simp] theorem setStatus_removed (b : Word) (s : State) : (setStatus b s).removed = s.removed := rfl
@[simp] theorem setStatus_irqArmed (b : Word) (s : State) : (setStatus b s).irqArmed = s.irqArmed := rfl
@[simp] theorem setStatus_irqPending (b : Word) (s : State) : (setStatus b s).irqPending = s.irqPending := rfl
@[simp] theorem setStatus_phyLog (b : Word) (s : State) : (setStatus b s).phyLog = s.phyLog := rfl
@[simp] theorem setStatus_mem (b : Word) (s : State) : (setStatus b s).mem = s.mem := rfl
@[simp] theorem setStatus_ctx (b : Word) (s : State) : (setStatus b s).ctx = s.ctx := rfl
@[simp] theorem setStatus_statRxErrors (b : Word) (s : State) : (setStatus b s).statRxErrors = s.statRxErrors := rfl
@[simp] theorem setStatus_ops (b : Word) (s : State) : (setStatus b s).ops = s.ops := rfl
@[simp] theorem setStatus_hostT (b : Word) (s : State) : (setStatus b s).hostT = s.hostT := rfl
@[simp] theorem setStatus_hostD (b : Word) (s : State) : (setStatus b s).hostD = s.hostD := rfl
@[simp] theorem setStatus_dst (b : Word) (s : State) : (setStatus b s).dst = s.dst := rfl
@[simp] theorem setStatus_ret (b : Word) (s : State) : (setStatus b s).ret = s.ret := rfl
@[simp] theorem setStatus_events (b : Word) (s : State) : (setStatus b s).events = s.events := rfl
@[simp] theorem setStatus_marks (b : Word) (s : State) : (setStatus b s).marks = s.marks := rfl
@[simp] theorem setStatus_prog (b : Word) (s : State) : (setStatus b s).prog = s.prog := rfl
@[simp] theorem setStatus_sched (b : Word) (s : State) : (setStatus b s).sched = s.sched := rfl
@[simp] theorem setStatus_rounds (b : Word) (s : State) : (setStatus b s).rounds = s.rounds := rfl
@[simp] theorem setStatus_draws (b : Word) (s : State) : (setStatus b s).draws = s.draws := rfl
@[simp] theorem setStatus_pins (b : Word) (s : State) : (setStatus b s).pins = s.pins := rfl

/-! ### `pushOps` -/

@[simp] theorem pushOps_cfg (l : List HostOp) (s : State) : (pushOps l s).cfg = s.cfg := rfl
@[simp] theorem pushOps_regs (l : List HostOp) (s : State) : (pushOps l s).regs = s.regs := rfl
@[simp] theorem pushOps_miic (l : List HostOp) (s : State) : (pushOps l s).miic = s.miic := rfl
@[simp] theorem pushOps_eec (l : List HostOp) (s : State) : (pushOps l s).eec = s.eec := rfl
@[simp] theorem pushOps_tx (l : List HostOp) (s : State) : (pushOps l s).tx = s.tx := rfl
@[simp] theorem pushOps_rx (l : List HostOp) (s : State) : (pushOps l s).rx = s.rx := rfl
@[simp] theorem pushOps_wireIn (l : List HostOp) (s : State) : (pushOps l s).wireIn = s.wireIn := rfl
@[simp] theorem pushOps_wireOut (l : List HostOp) (s : State) : (pushOps l s).wireOut = s.wireOut := rfl
@[simp] theorem pushOps_removed (l : List HostOp) (s : State) : (pushOps l s).removed = s.removed := rfl
@[simp] theorem pushOps_irqArmed (l : List HostOp) (s : State) : (pushOps l s).irqArmed = s.irqArmed := rfl
@[simp] theorem pushOps_irqPending (l : List HostOp) (s : State) : (pushOps l s).irqPending = s.irqPending := rfl
@[simp] theorem pushOps_phyLog (l : List HostOp) (s : State) : (pushOps l s).phyLog = s.phyLog := rfl
@[simp] theorem pushOps_mem (l : List HostOp) (s : State) : (pushOps l s).mem = s.mem := rfl
@[simp] theorem pushOps_ctx (l : List HostOp) (s : State) : (pushOps l s).ctx = s.ctx := rfl
@[simp] theorem pushOps_statRxErrors (l : List HostOp) (s : State) : (pushOps l s).statRxErrors = s.statRxErrors := rfl
@[simp] theorem pushOps_ops (l : List HostOp) (s : State) : (pushOps l s).ops = l ++ s.ops := rfl
@[simp] theorem pushOps_hostT (l : List HostOp) (s : State) : (pushOps l s).hostT = s.hostT := rfl
@[simp] theorem pushOps_hostD (l : List HostOp) (s : State) : (pushOps l s).hostD = s.hostD := rfl
@[simp] theorem pushOps_dst (l : List HostOp) (s : State) : (pushOps l s).dst = s.dst := rfl
@[simp] theorem pushOps_ret (l : List HostOp) (s : State) : (pushOps l s).ret = s.ret := rfl
@[simp] theorem pushOps_events (l : List HostOp) (s : State) : (pushOps l s).events = s.events := rfl
@[simp] theorem pushOps_marks (l : List HostOp) (s : State) : (pushOps l s).marks = s.marks := rfl
@[simp] theorem pushOps_prog (l : List HostOp) (s : State) : (pushOps l s).prog = s.prog := rfl
@[simp] theorem pushOps_sched (l : List HostOp) (s : State) : (pushOps l s).sched = s.sched := rfl
@[simp] theorem pushOps_rounds (l : List HostOp) (s : State) : (pushOps l s).rounds = s.rounds := rfl
@[simp] theorem pushOps_draws (l : List HostOp) (s : State) : (pushOps l s).draws = s.draws := rfl
@[simp] theorem pushOps_pins (l : List HostOp) (s : State) : (pushOps l s).pins = s.pins := rfl

/-! ### `finish` -/

@[simp] theorem finish_cfg (r : HostReturn) (s : State) : (finish r s).cfg = s.cfg := rfl
@[simp] theorem finish_regs (r : HostReturn) (s : State) : (finish r s).regs = s.regs := rfl
@[simp] theorem finish_miic (r : HostReturn) (s : State) : (finish r s).miic = s.miic := rfl
@[simp] theorem finish_eec (r : HostReturn) (s : State) : (finish r s).eec = s.eec := rfl
@[simp] theorem finish_tx (r : HostReturn) (s : State) : (finish r s).tx = s.tx := rfl
@[simp] theorem finish_rx (r : HostReturn) (s : State) : (finish r s).rx = s.rx := rfl
@[simp] theorem finish_wireIn (r : HostReturn) (s : State) : (finish r s).wireIn = s.wireIn := rfl
@[simp] theorem finish_wireOut (r : HostReturn) (s : State) : (finish r s).wireOut = s.wireOut := rfl
@[simp] theorem finish_removed (r : HostReturn) (s : State) : (finish r s).removed = s.removed := rfl
@[simp] theorem finish_irqArmed (r : HostReturn) (s : State) : (finish r s).irqArmed = s.irqArmed := rfl
@[simp] theorem finish_irqPending (r : HostReturn) (s : State) : (finish r s).irqPending = s.irqPending := rfl
@[simp] theorem finish_phyLog (r : HostReturn) (s : State) : (finish r s).phyLog = s.phyLog := rfl
@[simp] theorem finish_mem (r : HostReturn) (s : State) : (finish r s).mem = s.mem := rfl
@[simp] theorem finish_ctx (r : HostReturn) (s : State) : (finish r s).ctx = s.ctx := rfl
@[simp] theorem finish_statRxErrors (r : HostReturn) (s : State) : (finish r s).statRxErrors = s.statRxErrors := rfl
@[simp] theorem finish_ops (r : HostReturn) (s : State) : (finish r s).ops = [] := rfl
@[simp] theorem finish_hostT (r : HostReturn) (s : State) : (finish r s).hostT = s.hostT := rfl
@[simp] theorem finish_hostD (r : HostReturn) (s : State) : (finish r s).hostD = s.hostD := rfl
@[simp] theorem finish_dst (r : HostReturn) (s : State) : (finish r s).dst = s.dst := rfl
@[simp] theorem finish_ret (r : HostReturn) (s : State) : (finish r s).ret = some r := rfl
@[simp] theorem finish_events (r : HostReturn) (s : State) : (finish r s).events = s.events := rfl
@[simp] theorem finish_marks (r : HostReturn) (s : State) : (finish r s).marks = s.marks := rfl
@[simp] theorem finish_prog (r : HostReturn) (s : State) : (finish r s).prog = s.prog := rfl
@[simp] theorem finish_sched (r : HostReturn) (s : State) : (finish r s).sched = s.sched := rfl
@[simp] theorem finish_rounds (r : HostReturn) (s : State) : (finish r s).rounds = s.rounds := rfl
@[simp] theorem finish_draws (r : HostReturn) (s : State) : (finish r s).draws = s.draws := rfl
@[simp] theorem finish_pins (r : HostReturn) (s : State) : (finish r s).pins = s.pins := rfl

/-! ### `takeInterrupt` -/

@[simp] theorem takeInterrupt_cfg (s : State) : (takeInterrupt s).cfg = s.cfg := rfl
@[simp] theorem takeInterrupt_regs (s : State) : (takeInterrupt s).regs = s.regs := rfl
@[simp] theorem takeInterrupt_miic (s : State) : (takeInterrupt s).miic = s.miic := rfl
@[simp] theorem takeInterrupt_eec (s : State) : (takeInterrupt s).eec = s.eec := rfl
@[simp] theorem takeInterrupt_tx (s : State) : (takeInterrupt s).tx = s.tx := rfl
@[simp] theorem takeInterrupt_rx (s : State) : (takeInterrupt s).rx = s.rx := rfl
@[simp] theorem takeInterrupt_wireIn (s : State) : (takeInterrupt s).wireIn = s.wireIn := rfl
@[simp] theorem takeInterrupt_wireOut (s : State) : (takeInterrupt s).wireOut = s.wireOut := rfl
@[simp] theorem takeInterrupt_removed (s : State) : (takeInterrupt s).removed = s.removed := rfl
@[simp] theorem takeInterrupt_irqArmed (s : State) : (takeInterrupt s).irqArmed = false := rfl
@[simp] theorem takeInterrupt_irqPending (s : State) : (takeInterrupt s).irqPending = true := rfl
@[simp] theorem takeInterrupt_phyLog (s : State) : (takeInterrupt s).phyLog = s.phyLog := rfl
@[simp] theorem takeInterrupt_mem (s : State) : (takeInterrupt s).mem = s.mem := rfl
@[simp] theorem takeInterrupt_ctx (s : State) : (takeInterrupt s).ctx = s.ctx := rfl
@[simp] theorem takeInterrupt_statRxErrors (s : State) : (takeInterrupt s).statRxErrors = s.statRxErrors := rfl
@[simp] theorem takeInterrupt_ops (s : State) : (takeInterrupt s).ops = s.ops := rfl
@[simp] theorem takeInterrupt_hostT (s : State) : (takeInterrupt s).hostT = s.hostT := rfl
@[simp] theorem takeInterrupt_hostD (s : State) : (takeInterrupt s).hostD = s.hostD := rfl
@[simp] theorem takeInterrupt_dst (s : State) : (takeInterrupt s).dst = s.dst := rfl
@[simp] theorem takeInterrupt_ret (s : State) : (takeInterrupt s).ret = s.ret := rfl
@[simp] theorem takeInterrupt_events (s : State) : (takeInterrupt s).events = s.events := rfl
@[simp] theorem takeInterrupt_marks (s : State) : (takeInterrupt s).marks = s.marks := rfl
@[simp] theorem takeInterrupt_prog (s : State) : (takeInterrupt s).prog = s.prog := rfl
@[simp] theorem takeInterrupt_sched (s : State) : (takeInterrupt s).sched = s.sched := rfl
@[simp] theorem takeInterrupt_rounds (s : State) : (takeInterrupt s).rounds = s.rounds := rfl
@[simp] theorem takeInterrupt_draws (s : State) : (takeInterrupt s).draws = s.draws := rfl
@[simp] theorem takeInterrupt_pins (s : State) : (takeInterrupt s).pins = s.pins := rfl

/-! ### `rearmInterrupt` -/

@[simp] theorem rearmInterrupt_cfg (s : State) : (rearmInterrupt s).cfg = s.cfg := rfl
@[simp] theorem rearmInterrupt_regs (s : State) : (rearmInterrupt s).regs = s.regs := rfl
@[simp] theorem rearmInterrupt_miic (s : State) : (rearmInterrupt s).miic = s.miic := rfl
@[simp] theorem rearmInterrupt_eec (s : State) : (rearmInterrupt s).eec = s.eec := rfl
@[simp] theorem rearmInterrupt_tx (s : State) : (rearmInterrupt s).tx = s.tx := rfl
@[simp] theorem rearmInterrupt_rx (s : State) : (rearmInterrupt s).rx = s.rx := rfl
@[simp] theorem rearmInterrupt_wireIn (s : State) : (rearmInterrupt s).wireIn = s.wireIn := rfl
@[simp] theorem rearmInterrupt_wireOut (s : State) : (rearmInterrupt s).wireOut = s.wireOut := rfl
@[simp] theorem rearmInterrupt_removed (s : State) : (rearmInterrupt s).removed = s.removed := rfl
@[simp] theorem rearmInterrupt_irqArmed (s : State) : (rearmInterrupt s).irqArmed = true := rfl
@[simp] theorem rearmInterrupt_irqPending (s : State) : (rearmInterrupt s).irqPending = s.irqPending := rfl
@[simp] theorem rearmInterrupt_phyLog (s : State) : (rearmInterrupt s).phyLog = s.phyLog := rfl
@[simp] theorem rearmInterrupt_mem (s : State) : (rearmInterrupt s).mem = s.mem := rfl
@[simp] theorem rearmInterrupt_ctx (s : State) : (rearmInterrupt s).ctx = s.ctx := rfl
@[simp] theorem rearmInterrupt_statRxErrors (s : State) : (rearmInterrupt s).statRxErrors = s.statRxErrors := rfl
@[simp] theorem rearmInterrupt_ops (s : State) : (rearmInterrupt s).ops = s.ops := rfl
@[simp] theorem rearmInterrupt_hostT (s : State) : (rearmInterrupt s).hostT = s.hostT := rfl
@[simp] theorem rearmInterrupt_hostD (s : State) : (rearmInterrupt s).hostD = s.hostD := rfl
@[simp] theorem rearmInterrupt_dst (s : State) : (rearmInterrupt s).dst = s.dst := rfl
@[simp] theorem rearmInterrupt_ret (s : State) : (rearmInterrupt s).ret = s.ret := rfl
@[simp] theorem rearmInterrupt_events (s : State) : (rearmInterrupt s).events = s.events := rfl
@[simp] theorem rearmInterrupt_marks (s : State) : (rearmInterrupt s).marks = s.marks := rfl
@[simp] theorem rearmInterrupt_prog (s : State) : (rearmInterrupt s).prog = s.prog := rfl
@[simp] theorem rearmInterrupt_sched (s : State) : (rearmInterrupt s).sched = s.sched := rfl
@[simp] theorem rearmInterrupt_rounds (s : State) : (rearmInterrupt s).rounds = s.rounds := rfl
@[simp] theorem rearmInterrupt_draws (s : State) : (rearmInterrupt s).draws = s.draws := rfl
@[simp] theorem rearmInterrupt_pins (s : State) : (rearmInterrupt s).pins = s.pins := rfl

/-! ### The SOFT phase depends on IntrControl alone -/

theorem softPhase_of_intrControl {s t : State} (h : t.regs.intrControl = s.regs.intrControl) :
    softPhase t = softPhase s := by simp [softPhase, h]

@[simp] theorem softPhase_refuse (m : Mark) (s : State) : softPhase (refuse m s) = softPhase s := rfl
@[simp] theorem softPhase_drawn (n : Nat) (s : State) : softPhase (drawn n s) = softPhase s := rfl
@[simp] theorem softPhase_setStatus (b : Word) (s : State) : softPhase (setStatus b s) = softPhase s := rfl
@[simp] theorem softPhase_pushOps (l : List HostOp) (s : State) : softPhase (pushOps l s) = softPhase s := rfl
@[simp] theorem softPhase_finish (r : HostReturn) (s : State) : softPhase (finish r s) = softPhase s := rfl
@[simp] theorem softPhase_takeInterrupt (s : State) : softPhase (takeInterrupt s) = softPhase s := rfl
@[simp] theorem softPhase_rearmInterrupt (s : State) : softPhase (rearmInterrupt s) = softPhase s := rfl

end Sys2Proof.Machine
end

