-- ==== Sys2Proof/Laws/Engines.lean ====
section
/-!
SUPPORT. Sys2Proof/Laws/Engines.lean: everything a visit of a DMA engine can do, said once for each engine (spec/42 R522
to R526, R541 to R545): which fields it may change, and what it keeps of them.
-/
namespace Sys2Proof.Machine

/-- The pointer after a completed descriptor names a slot when the pointer before did (R522). -/
theorem nextPtr?_lt {s : State} {p q : Nat} {fl : Word} (hp : p < s.cfg.ringLen) (h : nextPtr? s p fl = some q) :
    q < s.cfg.ringLen := by
  unfold nextPtr? at h
  split at h
  · cases h; omega
  · split at h
    · cases h
    · cases h; omega

/-- What a visit keeps of its engine: it stays as enabled as it was, at its ring, and is never kicked by it. -/
structure EngineKept (n : Nat) (e e' : Engine) : Prop where
  en   : e'.en = e.en
  base : e'.base = e.base
  kick : e'.kick = true → e.kick = true
  ptr  : e.ptr < n → e'.ptr < n

/-- Everything a TX visit can change. -/
structure TxVisitFrame (s t : State) : Prop where
  fields : t = { s with
    wireOut := t.wireOut, mem := t.mem, tx := t.tx, regs.intrStatus := t.regs.intrStatus, draws := t.draws
    pins := t.pins }
  memory : memWf s.mem = true → memWf t.mem = true
  engine : EngineKept s.cfg.ringLen s.tx t.tx
  status : t.regs.intrStatus = s.regs.intrStatus ∨ t.regs.intrStatus = s.regs.intrStatus ||| txDoneBit ∨
    t.regs.intrStatus = s.regs.intrStatus ||| txIdleBit

theorem TxVisitFrame.refl (s : State) : TxVisitFrame s s :=
  ⟨rfl, id, ⟨rfl, rfl, id, id⟩, .inl rfl⟩

theorem txIdleVisit_frame (s : State) : TxVisitFrame s (txIdleVisit s) := by
  unfold txIdleVisit
  dsimp only
  split
  · exact ⟨rfl, id, ⟨rfl, rfl, by simp, id⟩, .inl rfl⟩
  · exact ⟨rfl, id, ⟨rfl, rfl, by simp, id⟩, .inr (.inr rfl)⟩

theorem txFinish_frame {c fl : Word} {b : List Byte} {n : Nat} {s t : State} (h : txFinish c fl b n s = .next t) :
    TxVisitFrame s t := by
  unfold txFinish at h
  dsimp only at h
  split at h
  · cases h
  · rename_i p hp
    cases h
    split
    · exact ⟨rfl, memWf_memWriteWord _ _, ⟨rfl, rfl, by simp, fun q => nextPtr?_lt q hp⟩, .inr (.inl rfl)⟩
    · exact ⟨rfl, memWf_memWriteWord _ _, ⟨rfl, rfl, by simp, fun q => nextPtr?_lt q hp⟩, .inl rfl⟩

theorem txComplete_frame {c fl : Word} {b : List Byte} {n : Nat} {s t : State} (h : txComplete c fl b n s = .next t) :
    TxVisitFrame s t := by
  unfold txComplete at h
  split at h
  · cases h
  · exact txFinish_frame h

theorem txOwnedVisit_frame {c : Word} {s t : State} (h : txOwnedVisit c s = .next t) : TxVisitFrame s t := by
  unfold txOwnedVisit at h
  dsimp only at h
  split at h
  · cases h
  · split at h
    · exact txComplete_frame h
    · split at h
      · cases h
      · exact txComplete_frame h

theorem execTxdHwown_frame {intr : BitVec 1} {rsvd : BitVec 6} {cmd : BitVec 8} {status : Half} {s t : State}
    (h : execTxdHwown intr rsvd cmd status s = .next t) : TxVisitFrame s t := by
  unfold execTxdHwown at h
  split at h
  · exact txOwnedVisit_frame h
  · cases h; exact .refl s

theorem execTxdSwown_frame (intr : BitVec 1) (rsvd : BitVec 6) (cmd : BitVec 8) (status : Half) {s t : State}
    (h : execTxdSwown intr rsvd cmd status s = .next t) : TxVisitFrame s t := by
  unfold execTxdSwown at h
  split at h
  · cases h; exact txIdleVisit_frame s
  · cases h; exact .refl s

/-- Everything an RX visit can change. -/
structure RxVisitFrame (s t : State) : Prop where
  fields : t = { s with
    wireIn := t.wireIn, mem := t.mem, rx := t.rx, regs.intrStatus := t.regs.intrStatus, draws := t.draws
    pins := t.pins }
  memory : memWf s.mem = true → memWf t.mem = true
  engine : EngineKept s.cfg.ringLen s.rx t.rx
  frames : t.wireIn = s.wireIn ∨ t.wireIn = s.wireIn.tail
  status : t.regs.intrStatus = s.regs.intrStatus ∨ t.regs.intrStatus = s.regs.intrStatus ||| rxDoneBit ∨
    t.regs.intrStatus = s.regs.intrStatus ||| rxIdleBit

theorem RxVisitFrame.refl (s : State) : RxVisitFrame s s :=
  ⟨rfl, id, ⟨rfl, rfl, id, id⟩, .inl rfl, .inl rfl⟩

theorem rxUnaccepted_frame (b : List Byte) (s : State) : RxVisitFrame s (rxUnaccepted b s) :=
  ⟨rfl, id, ⟨rfl, rfl, by simp [rxUnaccepted], id⟩, .inr rfl, .inl rfl⟩

theorem rxFullVisit_frame (b : List Byte) (s : State) : RxVisitFrame s (rxFullVisit b s) := by
  unfold rxFullVisit
  dsimp only
  split
  · refine ⟨rfl, id, ⟨rfl, rfl, by simp, id⟩, ?_, .inl rfl⟩
    simp only [drawn_wireIn]
    split
    · exact .inr rfl
    · exact .inl rfl
  · refine ⟨rfl, id, ⟨rfl, rfl, by simp [setStatus], id⟩, ?_, .inr (.inr rfl)⟩
    simp only [setStatus, drawn_wireIn]
    split
    · exact .inr rfl
    · exact .inl rfl

theorem memWf_rxWriteBack (bp : Word) (cap n : Nat) (f : Config.Frame) (s : State) (h : memWf s.mem = true) :
    memWf (rxWriteBack bp cap n f s) = true :=
  memWf_memWriteWord _ _ (memWf_memWriteWord _ _ (memWf_memWriteBytes _ _ h))

theorem rxComplete_frame {c bp fl : Word} {f : Config.Frame} {s t : State} (h : rxComplete c bp fl f s = .next t) :
    RxVisitFrame s t := by
  unfold rxComplete at h
  dsimp only at h
  split at h
  · cases h
  · rename_i p hp
    cases h
    split
    · exact ⟨rfl, memWf_rxWriteBack _ _ _ _ _, ⟨rfl, rfl, by simp, fun q => nextPtr?_lt q hp⟩, .inr rfl,
        .inr (.inl rfl)⟩
    · exact ⟨rfl, memWf_rxWriteBack _ _ _ _ _, ⟨rfl, rfl, by simp, fun q => nextPtr?_lt q hp⟩, .inr rfl, .inl rfl⟩

theorem rxOwnedVisit_frame {c : Word} {f : Config.Frame} {s t : State} (h : rxOwnedVisit c f s = .next t) :
    RxVisitFrame s t := by
  unfold rxOwnedVisit at h
  dsimp only at h
  split at h
  · cases h
  · split at h
    · cases h
    · split at h
      · cases h
      · exact rxComplete_frame h

theorem execRxdHwown_frame {intr : BitVec 1} {rsvd : BitVec 6} {cmd : BitVec 8} {status : Half} {s t : State}
    (h : execRxdHwown intr rsvd cmd status s = .next t) : RxVisitFrame s t := by
  unfold execRxdHwown at h
  split at h
  · split at h
    · exact rxOwnedVisit_frame h
    · cases h; exact rxUnaccepted_frame _ s
  · cases h; exact .refl s

theorem execRxdSwown_frame (intr : BitVec 1) (rsvd : BitVec 6) (cmd : BitVec 8) (status : Half) {s t : State}
    (h : execRxdSwown intr rsvd cmd status s = .next t) : RxVisitFrame s t := by
  unfold execRxdSwown at h
  split at h
  · split at h
    · cases h; exact rxFullVisit_frame _ s
    · cases h; exact rxUnaccepted_frame _ s
  · cases h; exact .refl s

/-! ### The controllers' completions -/

/-- Everything a completion of MIIC can do (R452, R453). -/
theorem miiComplete_cases (s : State) :
    (s.miic.busy = false ∧ miiComplete s = s) ∨
    (s.miic.busy = true ∧ ∃ (log : List Config.PhyTxn) (r : Option Half),
      miiComplete s = { s with phyLog := log, miic := { s.miic with busy := false, rdata := r } }) := by
  unfold miiComplete
  cases hb : s.miic.busy
  · exact .inl ⟨rfl, by simp⟩
  · refine .inr ⟨rfl, ?_⟩
    simp only [if_true]
    split
    · exact ⟨_, _, rfl⟩
    · unfold phyWrite
      split
      · exact ⟨_, _, rfl⟩
      · exact ⟨s.phyLog, none, rfl⟩

/-- Everything a completion of EEC can do (R469). -/
theorem eeComplete_cases (s : State) :
    (s.eec.busy = false ∧ eeComplete s = s) ∨
    (s.eec.busy = true ∧
      eeComplete s = { s with eec := { s.eec with busy := false, rdata := some (eepromWord s.cfg s.eec.word) } }) := by
  unfold eeComplete
  cases hb : s.eec.busy
  · exact .inl ⟨rfl, by simp⟩
  · exact .inr ⟨rfl, by simp⟩

end Sys2Proof.Machine
end

