-- ==== Sys2Proof/Laws/PerInstr.lean ====
section
/-!
SUPPORT. Sys2Proof/Laws/PerInstr.lean: one law per constructor of Instr, the family Encodes: the bytes of an operation are
the format byte of the format the spec gives it (R300 to R306) and at least one byte more, so that the format alone
decides how the rest is read.
-/

/-- The encoding begins with a format byte and goes on. -/
def Sys2Proof.Laws.Encodes.Statement (i : Sys2Proof.Instr) : Prop :=
  ∀ m : Sys2Proof.Config.RegMap, ∃ (f : Sys2Proof.Format) (b : Sys2Proof.Byte) (rest : List Sys2Proof.Byte),
    Sys2Proof.encode m i = f.tag :: b :: rest

theorem Sys2Proof.Laws.Encodes.rd32TxControl :
    Sys2Proof.Laws.Encodes.Statement .rd32TxControl :=
  fun _ => ⟨.acc, _, _, rfl⟩

theorem Sys2Proof.Laws.Encodes.rd32TxDescBase :
    Sys2Proof.Laws.Encodes.Statement .rd32TxDescBase :=
  fun _ => ⟨.acc, _, _, rfl⟩

theorem Sys2Proof.Laws.Encodes.rd32RxControl :
    Sys2Proof.Laws.Encodes.Statement .rd32RxControl :=
  fun _ => ⟨.acc, _, _, rfl⟩

theorem Sys2Proof.Laws.Encodes.rd32RxDescBase :
    Sys2Proof.Laws.Encodes.Statement .rd32RxDescBase :=
  fun _ => ⟨.acc, _, _, rfl⟩

theorem Sys2Proof.Laws.Encodes.rd32IntrStatus :
    Sys2Proof.Laws.Encodes.Statement .rd32IntrStatus :=
  fun _ => ⟨.acc, _, _, rfl⟩

theorem Sys2Proof.Laws.Encodes.rd32IntrMask :
    Sys2Proof.Laws.Encodes.Statement .rd32IntrMask :=
  fun _ => ⟨.acc, _, _, rfl⟩

theorem Sys2Proof.Laws.Encodes.rd32IntrControl :
    Sys2Proof.Laws.Encodes.Statement .rd32IntrControl :=
  fun _ => ⟨.acc, _, _, rfl⟩

theorem Sys2Proof.Laws.Encodes.rd32ROMInterface :
    Sys2Proof.Laws.Encodes.Statement .rd32ROMInterface :=
  fun _ => ⟨.acc, _, _, rfl⟩

theorem Sys2Proof.Laws.Encodes.rd32StationControl :
    Sys2Proof.Laws.Encodes.Statement .rd32StationControl :=
  fun _ => ⟨.acc, _, _, rfl⟩

theorem Sys2Proof.Laws.Encodes.rd32GMIIControl :
    Sys2Proof.Laws.Encodes.Statement .rd32GMIIControl :=
  fun _ => ⟨.acc, _, _, rfl⟩

theorem Sys2Proof.Laws.Encodes.rd32RGDelay :
    Sys2Proof.Laws.Encodes.Statement .rd32RGDelay :=
  fun _ => ⟨.acc, _, _, rfl⟩

theorem Sys2Proof.Laws.Encodes.rd32RxMacControl :
    Sys2Proof.Laws.Encodes.Statement .rd32RxMacControl :=
  fun _ => ⟨.acc, _, _, rfl⟩

theorem Sys2Proof.Laws.Encodes.rd32RxMacAddr25 :
    Sys2Proof.Laws.Encodes.Statement .rd32RxMacAddr25 :=
  fun _ => ⟨.acc, _, _, rfl⟩

theorem Sys2Proof.Laws.Encodes.rd32RxHashTable0 :
    Sys2Proof.Laws.Encodes.Statement .rd32RxHashTable0 :=
  fun _ => ⟨.acc, _, _, rfl⟩

theorem Sys2Proof.Laws.Encodes.rd32RxHashTable1 :
    Sys2Proof.Laws.Encodes.Statement .rd32RxHashTable1 :=
  fun _ => ⟨.acc, _, _, rfl⟩

theorem Sys2Proof.Laws.Encodes.wr32TxControl (v : Sys2Proof.Word) :
    Sys2Proof.Laws.Encodes.Statement (.wr32TxControl v) :=
  fun _ => ⟨.acc, _, _, rfl⟩

theorem Sys2Proof.Laws.Encodes.wr32TxDescBase (v : Sys2Proof.Word) :
    Sys2Proof.Laws.Encodes.Statement (.wr32TxDescBase v) :=
  fun _ => ⟨.acc, _, _, rfl⟩

theorem Sys2Proof.Laws.Encodes.wr32RxControl (v : Sys2Proof.Word) :
    Sys2Proof.Laws.Encodes.Statement (.wr32RxControl v) :=
  fun _ => ⟨.acc, _, _, rfl⟩

theorem Sys2Proof.Laws.Encodes.wr32RxDescBase (v : Sys2Proof.Word) :
    Sys2Proof.Laws.Encodes.Statement (.wr32RxDescBase v) :=
  fun _ => ⟨.acc, _, _, rfl⟩

theorem Sys2Proof.Laws.Encodes.wr32IntrStatus (v : Sys2Proof.Word) :
    Sys2Proof.Laws.Encodes.Statement (.wr32IntrStatus v) :=
  fun _ => ⟨.acc, _, _, rfl⟩

theorem Sys2Proof.Laws.Encodes.wr32IntrMask (v : Sys2Proof.Word) :
    Sys2Proof.Laws.Encodes.Statement (.wr32IntrMask v) :=
  fun _ => ⟨.acc, _, _, rfl⟩

theorem Sys2Proof.Laws.Encodes.wr32IntrControl (v : Sys2Proof.Word) :
    Sys2Proof.Laws.Encodes.Statement (.wr32IntrControl v) :=
  fun _ => ⟨.acc, _, _, rfl⟩

theorem Sys2Proof.Laws.Encodes.wr32ROMInterface (v : Sys2Proof.Word) :
    Sys2Proof.Laws.Encodes.Statement (.wr32ROMInterface v) :=
  fun _ => ⟨.acc, _, _, rfl⟩

theorem Sys2Proof.Laws.Encodes.wr32StationControl (v : Sys2Proof.Word) :
    Sys2Proof.Laws.Encodes.Statement (.wr32StationControl v) :=
  fun _ => ⟨.acc, _, _, rfl⟩

theorem Sys2Proof.Laws.Encodes.wr32GMIIControl (v : Sys2Proof.Word) :
    Sys2Proof.Laws.Encodes.Statement (.wr32GMIIControl v) :=
  fun _ => ⟨.acc, _, _, rfl⟩

theorem Sys2Proof.Laws.Encodes.wr32RGDelay (v : Sys2Proof.Word) :
    Sys2Proof.Laws.Encodes.Statement (.wr32RGDelay v) :=
  fun _ => ⟨.acc, _, _, rfl⟩

theorem Sys2Proof.Laws.Encodes.wr32RxMacControl (v : Sys2Proof.Word) :
    Sys2Proof.Laws.Encodes.Statement (.wr32RxMacControl v) :=
  fun _ => ⟨.acc, _, _, rfl⟩

theorem Sys2Proof.Laws.Encodes.wr32RxMacAddr25 (v : Sys2Proof.Word) :
    Sys2Proof.Laws.Encodes.Statement (.wr32RxMacAddr25 v) :=
  fun _ => ⟨.acc, _, _, rfl⟩

theorem Sys2Proof.Laws.Encodes.wr32RxHashTable0 (v : Sys2Proof.Word) :
    Sys2Proof.Laws.Encodes.Statement (.wr32RxHashTable0 v) :=
  fun _ => ⟨.acc, _, _, rfl⟩

theorem Sys2Proof.Laws.Encodes.wr32RxHashTable1 (v : Sys2Proof.Word) :
    Sys2Proof.Laws.Encodes.Statement (.wr32RxHashTable1 v) :=
  fun _ => ⟨.acc, _, _, rfl⟩

theorem Sys2Proof.Laws.Encodes.wr8Sa01 (lane : BitVec 1) (b : Sys2Proof.Byte) :
    Sys2Proof.Laws.Encodes.Statement (.wr8Sa01 lane b) :=
  fun _ => ⟨.acc, _, _, rfl⟩

theorem Sys2Proof.Laws.Encodes.wr8Sa25 (lane : BitVec 2) (b : Sys2Proof.Byte) :
    Sys2Proof.Laws.Encodes.Statement (.wr8Sa25 lane b) :=
  fun _ => ⟨.acc, _, _, rfl⟩

theorem Sys2Proof.Laws.Encodes.miiRead (data : Sys2Proof.Half) (regad : BitVec 5) (phyad : BitVec 5) :
    Sys2Proof.Laws.Encodes.Statement (.miiRead data regad phyad) :=
  fun _ => ⟨.miicmd, _, _, rfl⟩

theorem Sys2Proof.Laws.Encodes.miiWrite (data : Sys2Proof.Half) (regad : BitVec 5) (phyad : BitVec 5) :
    Sys2Proof.Laws.Encodes.Statement (.miiWrite data regad phyad) :=
  fun _ => ⟨.miicmd, _, _, rfl⟩

theorem Sys2Proof.Laws.Encodes.miiIdle (data : Sys2Proof.Half) (regad : BitVec 5) (phyad : BitVec 5) (opWr : BitVec 1) :
    Sys2Proof.Laws.Encodes.Statement (.miiIdle data regad phyad opWr) :=
  fun _ => ⟨.miicmd, _, _, rfl⟩

theorem Sys2Proof.Laws.Encodes.miiBitbang (data : Sys2Proof.Half) (regad : BitVec 5) (phyad : BitVec 5) (opWr : BitVec 1) (lines : BitVec 4) :
    Sys2Proof.Laws.Encodes.Statement (.miiBitbang data regad phyad opWr lines) :=
  fun _ => ⟨.miicmd, _, _, rfl⟩

theorem Sys2Proof.Laws.Encodes.miiRsvd (data : Sys2Proof.Half) (regad : BitVec 5) (phyad : BitVec 5) (opWr : BitVec 1) (lines : BitVec 4) :
    Sys2Proof.Laws.Encodes.Statement (.miiRsvd data regad phyad opWr lines) :=
  fun _ => ⟨.miicmd, _, _, rfl⟩

theorem Sys2Proof.Laws.Encodes.eeRead (data : Sys2Proof.Half) (word : BitVec 6) :
    Sys2Proof.Laws.Encodes.Statement (.eeRead data word) :=
  fun _ => ⟨.eecmd, _, _, rfl⟩

theorem Sys2Proof.Laws.Encodes.eeWrite (data : Sys2Proof.Half) (word : BitVec 6) :
    Sys2Proof.Laws.Encodes.Statement (.eeWrite data word) :=
  fun _ => ⟨.eecmd, _, _, rfl⟩

theorem Sys2Proof.Laws.Encodes.eeRsvd0 (data : Sys2Proof.Half) (word : BitVec 6) :
    Sys2Proof.Laws.Encodes.Statement (.eeRsvd0 data word) :=
  fun _ => ⟨.eecmd, _, _, rfl⟩

theorem Sys2Proof.Laws.Encodes.eeRsvd3 (data : Sys2Proof.Half) (word : BitVec 6) :
    Sys2Proof.Laws.Encodes.Statement (.eeRsvd3 data word) :=
  fun _ => ⟨.eecmd, _, _, rfl⟩

theorem Sys2Proof.Laws.Encodes.eeRsvdLines (data : Sys2Proof.Half) (word : BitVec 6) (op : BitVec 2) (low : BitVec 7) :
    Sys2Proof.Laws.Encodes.Statement (.eeRsvdLines data word op low) :=
  fun _ => ⟨.eecmd, _, _, rfl⟩

theorem Sys2Proof.Laws.Encodes.eeIdle (data : Sys2Proof.Half) (word : BitVec 6) (op : BitVec 2) (low : BitVec 7) :
    Sys2Proof.Laws.Encodes.Statement (.eeIdle data word op low) :=
  fun _ => ⟨.eecmd, _, _, rfl⟩

theorem Sys2Proof.Laws.Encodes.txctlKick (cfgHi : BitVec 27) (cfgLo : BitVec 3) :
    Sys2Proof.Laws.Encodes.Statement (.txctlKick cfgHi cfgLo) :=
  fun _ => ⟨.txctl, _, _, rfl⟩

theorem Sys2Proof.Laws.Encodes.txctlEnable (cfgHi : BitVec 27) (cfgLo : BitVec 3) :
    Sys2Proof.Laws.Encodes.Statement (.txctlEnable cfgHi cfgLo) :=
  fun _ => ⟨.txctl, _, _, rfl⟩

theorem Sys2Proof.Laws.Encodes.txctlDisable (cfgHi : BitVec 27) (poll : BitVec 1) (cfgLo : BitVec 3) :
    Sys2Proof.Laws.Encodes.Statement (.txctlDisable cfgHi poll cfgLo) :=
  fun _ => ⟨.txctl, _, _, rfl⟩

theorem Sys2Proof.Laws.Encodes.rxctlKick (cfgHi : BitVec 27) (cfgLo : BitVec 3) :
    Sys2Proof.Laws.Encodes.Statement (.rxctlKick cfgHi cfgLo) :=
  fun _ => ⟨.rxctl, _, _, rfl⟩

theorem Sys2Proof.Laws.Encodes.rxctlEnable (cfgHi : BitVec 27) (cfgLo : BitVec 3) :
    Sys2Proof.Laws.Encodes.Statement (.rxctlEnable cfgHi cfgLo) :=
  fun _ => ⟨.rxctl, _, _, rfl⟩

theorem Sys2Proof.Laws.Encodes.rxctlDisable (cfgHi : BitVec 27) (poll : BitVec 1) (cfgLo : BitVec 3) :
    Sys2Proof.Laws.Encodes.Statement (.rxctlDisable cfgHi poll cfgLo) :=
  fun _ => ⟨.rxctl, _, _, rfl⟩

theorem Sys2Proof.Laws.Encodes.icSoft (hi : Sys2Proof.Half) (lo : BitVec 15) :
    Sys2Proof.Laws.Encodes.Statement (.icSoft hi lo) :=
  fun _ => ⟨.ic, _, _, rfl⟩

theorem Sys2Proof.Laws.Encodes.icRelease (hi : Sys2Proof.Half) (lo : BitVec 15) :
    Sys2Proof.Laws.Encodes.Statement (.icRelease hi lo) :=
  fun _ => ⟨.ic, _, _, rfl⟩

theorem Sys2Proof.Laws.Encodes.isAck (clear : Sys2Proof.Word) :
    Sys2Proof.Laws.Encodes.Statement (.isAck clear) :=
  fun _ => ⟨.is, _, _, rfl⟩

theorem Sys2Proof.Laws.Encodes.txdHwown (intr : BitVec 1) (rsvd : BitVec 6) (cmd : BitVec 8) (status : Sys2Proof.Half) :
    Sys2Proof.Laws.Encodes.Statement (.txdHwown intr rsvd cmd status) :=
  fun _ => ⟨.txd, _, _, rfl⟩

theorem Sys2Proof.Laws.Encodes.txdSwown (intr : BitVec 1) (rsvd : BitVec 6) (cmd : BitVec 8) (status : Sys2Proof.Half) :
    Sys2Proof.Laws.Encodes.Statement (.txdSwown intr rsvd cmd status) :=
  fun _ => ⟨.txd, _, _, rfl⟩

theorem Sys2Proof.Laws.Encodes.rxdHwown (intr : BitVec 1) (rsvd : BitVec 6) (cmd : BitVec 8) (status : Sys2Proof.Half) :
    Sys2Proof.Laws.Encodes.Statement (.rxdHwown intr rsvd cmd status) :=
  fun _ => ⟨.rxd, _, _, rfl⟩

theorem Sys2Proof.Laws.Encodes.rxdSwown (intr : BitVec 1) (rsvd : BitVec 6) (cmd : BitVec 8) (status : Sys2Proof.Half) :
    Sys2Proof.Laws.Encodes.Statement (.rxdSwown intr rsvd cmd status) :=
  fun _ => ⟨.rxd, _, _, rfl⟩

theorem Sys2Proof.Laws.Encodes.entryInit :
    Sys2Proof.Laws.Encodes.Statement .entryInit :=
  fun _ => ⟨.entry, _, _, rfl⟩

theorem Sys2Proof.Laws.Encodes.entrySend (payload : List Sys2Proof.Byte) :
    Sys2Proof.Laws.Encodes.Statement (.entrySend payload) :=
  fun _ => ⟨.entry, _, _, rfl⟩

theorem Sys2Proof.Laws.Encodes.entryRecv (maxLen : Nat) :
    Sys2Proof.Laws.Encodes.Statement (.entryRecv maxLen) :=
  fun _ => ⟨.entry, _, _, rfl⟩

theorem Sys2Proof.Laws.Encodes.entrySetFilter (promisc : Bool) (multi : Bool) (broad : Bool) :
    Sys2Proof.Laws.Encodes.Statement (.entrySetFilter promisc multi broad) :=
  fun _ => ⟨.entry, _, _, rfl⟩

theorem Sys2Proof.Laws.Encodes.entrySetSa (addr : Sys2Proof.StationAddr) :
    Sys2Proof.Laws.Encodes.Statement (.entrySetSa addr) :=
  fun _ => ⟨.entry, _, _, rfl⟩

theorem Sys2Proof.Laws.Encodes.entryGetLink :
    Sys2Proof.Laws.Encodes.Statement .entryGetLink :=
  fun _ => ⟨.entry, _, _, rfl⟩

theorem Sys2Proof.Laws.Encodes.entryStop :
    Sys2Proof.Laws.Encodes.Statement .entryStop :=
  fun _ => ⟨.entry, _, _, rfl⟩

theorem Sys2Proof.Laws.Encodes.entryIrq :
    Sys2Proof.Laws.Encodes.Statement .entryIrq :=
  fun _ => ⟨.entry, _, _, rfl⟩

theorem Sys2Proof.Laws.Encodes.entryTick :
    Sys2Proof.Laws.Encodes.Statement .entryTick :=
  fun _ => ⟨.entry, _, _, rfl⟩
end

