-- ==== Sys2Proof/Laws/RegMap.lean ====
section
/-!
SUPPORT. Sys2Proof/Laws/RegMap.lean: what every REGMAP does, whatever its offsets, positions and codes: a layout is undone
by its inverse, an offset of a register or of a station-address byte finds it; a byte write of a station-address
byte fills that byte; the bits of PHY registers; and what an answer that PHY_SCRIPT admits is.
-/
namespace Sys2Proof

/-! ### Bit positions -/

theorem getLsbD_swapBits (i j : Nat) (hi : i < 32) (hj : j < 32) (v : Word) (k : Nat) :
    (swapBits i j v).getLsbD k =
      if k = i then v.getLsbD j else if k = j then v.getLsbD i else v.getLsbD k := by
  unfold swapBits
  split
  · rename_i h
    by_cases h1 : k = i
    · rw [if_pos h1, h1, h]
    · by_cases h2 : k = j
      · rw [if_neg h1, if_pos h2, h2, h]
      · rw [if_neg h1, if_neg h2]
  · rename_i h
    simp only [BitVec.getLsbD_xor, BitVec.getLsbD_or, BitVec.getLsbD_twoPow]
    by_cases h1 : k = i
    · subst h1
      cases hk : v.getLsbD k <;> cases hq : v.getLsbD j <;> simp_all
    · by_cases h2 : k = j
      · subst h2
        cases hk : v.getLsbD k <;> cases hq : v.getLsbD i <;> simp_all
      · have e1 : ¬ i = k := fun e => h1 e.symm
        have e2 : ¬ j = k := fun e => h2 e.symm
        simp [h1, h2, e1, e2]

theorem swapBits_swapBits (i j : Nat) (hi : i < 32) (hj : j < 32) (v : Word) : swapBits i j (swapBits i j v) = v := by
  apply BitVec.eq_of_getLsbD_eq
  intro k _
  simp only [getLsbD_swapBits _ _ hi hj]
  by_cases h1 : k = i
  · subst h1; by_cases h3 : j = k <;> simp [h3]
  · by_cases h2 : k = j
    · subst h2; simp [h1]
    · simp [h1, h2]

theorem exchange_exchange (w : Config.LaidOut) (e : Config.BitExchange) (v : Word) :
    exchange w e (exchange w e v) = v := by
  unfold exchange
  split
  · exact swapBits_swapBits _ _ e.i.isLt e.j.isLt v
  · rfl

theorem foldr_foldl_exchange (w : Config.LaidOut) (l : List Config.BitExchange) (v : Word) :
    l.foldr (fun e x => exchange w e x) (l.foldl (fun x e => exchange w e x) v) = v := by
  induction l generalizing v with
  | nil => rfl
  | cons e l ih => rw [List.foldl_cons, List.foldr_cons, ih, exchange_exchange]

theorem foldl_foldr_exchange (w : Config.LaidOut) (l : List Config.BitExchange) (v : Word) :
    l.foldl (fun x e => exchange w e x) (l.foldr (fun e x => exchange w e x) v) = v := by
  induction l generalizing v with
  | nil => rfl
  | cons e l ih => rw [List.foldr_cons, List.foldl_cons, exchange_exchange, ih]

/-! ### The codes of EE_OP -/

theorem swapCode_swapCode (a b x : BitVec 2) : swapCode a b (swapCode a b x) = x := by
  revert a b x
  decide

@[simp] theorem eeOpOfBus_eeOpToBus (m : Config.RegMap) (op : BitVec 2) : m.eeOpOfBus (m.eeOpToBus op) = op := by
  unfold Config.RegMap.eeOpOfBus Config.RegMap.eeOpToBus
  rw [swapCode_swapCode, swapCode_swapCode]

@[simp] theorem eeOpToBus_eeOpOfBus (m : Config.RegMap) (op : BitVec 2) : m.eeOpToBus (m.eeOpOfBus op) = op := by
  unfold Config.RegMap.eeOpOfBus Config.RegMap.eeOpToBus
  rw [swapCode_swapCode, swapCode_swapCode]

/-- The codes of a read and a write are those that REGMAP names. -/
theorem eeOpToBus_codes {m : Config.RegMap} (h : m.eeOpRead ≠ m.eeOpWrite) :
    m.eeOpToBus 0b10#2 = m.eeOpRead ∧ m.eeOpToBus 0b01#2 = m.eeOpWrite := by
  unfold Config.RegMap.eeOpToBus Config.RegMap.eeOpMoved
  revert h
  generalize m.eeOpRead = r
  generalize m.eeOpWrite = w
  revert r w
  decide

/-- The parts of a word put together around EE_OP. -/
theorem opWord_fields (a : BitVec 22) (b : BitVec 2) (c : BitVec 8) :
    (a ++ b ++ c).extractLsb' 10 22 = a ∧ (a ++ b ++ c).extractLsb' 8 2 = b ∧ (a ++ b ++ c).extractLsb' 0 8 = c := by
  refine ⟨?_, ?_, ?_⟩ <;> apply BitVec.eq_of_getLsbD_eq <;> intro k hk <;>
    simp only [BitVec.getLsbD_extractLsb', BitVec.getLsbD_append, hk, decide_true, Bool.true_and]
  · rw [if_neg (by omega), if_neg (by omega)]
    congr 1
    omega
  · rw [if_neg (by omega), if_pos (by omega)]
    congr 1
    omega
  · rw [if_pos (by omega), Nat.zero_add]

theorem opWord_self (v : BitVec (22 + 2 + 8)) : v.extractLsb' 10 22 ++ v.extractLsb' 8 2 ++ v.extractLsb' 0 8 = v := by
  apply BitVec.eq_of_getLsbD_eq
  intro k hk
  simp only [BitVec.getLsbD_append, BitVec.getLsbD_extractLsb']
  split
  · simp [*]
  · split
    · rename_i h1 h2
      rw [decide_eq_true h2, Bool.true_and]
      congr 1
      omega
    · rw [decide_eq_true (by omega), Bool.true_and]
      congr 1
      omega

theorem opWord_recode (f : BitVec 2 → BitVec 2) (a : BitVec 22) (b : BitVec 2) (c : BitVec 8) :
    (a ++ b ++ c).extractLsb' 10 22 ++ f ((a ++ b ++ c).extractLsb' 8 2) ++ (a ++ b ++ c).extractLsb' 0 8 = a ++ f b ++ c := by
  obtain ⟨e1, e2, e3⟩ := opWord_fields a b c
  rw [e1, e2, e3]

/-- A recoding is undone by its inverse. -/
theorem recodeEeOp_cancel {f g : BitVec 2 → BitVec 2} (h : ∀ op, f (g op) = op) (w : Config.LaidOut) (v : Word) :
    recodeEeOp f w (recodeEeOp g w v) = v := by
  unfold recodeEeOp
  split
  · have e := opWord_recode f (v.extractLsb' 10 22) (g (v.extractLsb' 8 2)) (v.extractLsb' 0 8)
    rw [h] at e
    exact e.trans (opWord_self v)
  · rfl

/-- What stands on the bus is read back as the word it was made from. -/
@[simp] theorem ofBus_toBus (m : Config.RegMap) (w : Config.LaidOut) (v : Word) : m.ofBus w (m.toBus w v) = v := by
  unfold Config.RegMap.ofBus Config.RegMap.toBus
  rw [foldr_foldl_exchange, recodeEeOp_cancel (eeOpOfBus_eeOpToBus m)]

@[simp] theorem toBus_ofBus (m : Config.RegMap) (w : Config.LaidOut) (v : Word) : m.toBus w (m.ofBus w v) = v := by
  unfold Config.RegMap.ofBus Config.RegMap.toBus
  rw [recodeEeOp_cancel (eeOpToBus_eeOpOfBus m), foldl_foldr_exchange]

theorem eeOpOfBus_reference (op : BitVec 2) : Config.referenceMap.eeOpOfBus op = op := by revert op; decide

theorem ofBus_reference (w : Config.LaidOut) (v : Word) : Config.referenceMap.ofBus w v = v := by
  show recodeEeOp _ w v = v
  unfold recodeEeOp
  split
  · rw [eeOpOfBus_reference]
    exact opWord_self v
  · rfl

theorem toBus_reference (w : Config.LaidOut) (v : Word) : Config.referenceMap.toBus w v = v := by
  rw [← ofBus_reference w v, toBus_ofBus, ofBus_reference]

/-! ### Offsets -/

theorem mem_allRegs (r : Reg) : r ∈ allRegs := by cases r <;> decide

theorem offset_injective {m : Config.RegMap} (h : m.ok = true) {r q : Reg} (e : m.offset r = m.offset q) : r = q := by
  unfold Config.RegMap.ok at h
  simp only [Bool.and_eq_true, List.all_eq_true, Bool.or_eq_true, decide_eq_true_iff] at h
  rcases h.1.1.1.1.2 r (mem_allRegs r) q (mem_allRegs q) with h | h
  · exact h
  · exact absurd e h

/-- A register's offset names that register. -/
theorem regAt_offset {m : Config.RegMap} (h : m.ok = true) (r : Reg) : m.regAt (m.offset r) = some r := by
  unfold Config.RegMap.regAt
  cases hf : allRegs.find? (fun q => decide (m.offset q = m.offset r)) with
  | none =>
    have := List.find?_eq_none.1 hf r (mem_allRegs r)
    simp at this
  | some q =>
    have := List.find?_some hf
    rw [offset_injective h (of_decide_eq_true this)]

/-- An offset names a register only if it is that register's. -/
theorem regAt_eq_some {m : Config.RegMap} {off : BitVec 12} {r : Reg} (h : m.regAt off = some r) : m.offset r = off :=
  of_decide_eq_true (List.find?_some (p := fun q => decide (m.offset q = off)) h)

theorem regAt_eq_none {m : Config.RegMap} {off : BitVec 12} (h : ∀ r, m.offset r ≠ off) : m.regAt off = none := by
  unfold Config.RegMap.regAt
  rw [List.find?_eq_none]
  intro r _
  simpa using h r

/-! ### Station-address bytes -/

/-- An offset names a station-address byte only if it is that byte's. -/
theorem sa01At_eq_some {m : Config.RegMap} {off : BitVec 12} {lane : BitVec 1} (h : m.sa01At off = some lane) :
    m.sa01 lane = off :=
  of_decide_eq_true (List.find?_some (p := fun l => decide (m.sa01 l = off)) h)

theorem sa25At_eq_some {m : Config.RegMap} {off : BitVec 12} {lane : BitVec 2} (h : m.sa25At off = some lane) :
    m.sa25 lane = off :=
  of_decide_eq_true (List.find?_some (p := fun l => decide (m.sa25 l = off)) h)

theorem sa01At_eq_none {m : Config.RegMap} {off : BitVec 12} (h : ∀ lane, m.sa01 lane ≠ off) : m.sa01At off = none := by
  unfold Config.RegMap.sa01At
  rw [List.find?_eq_none]
  intro lane _
  simpa using h lane

theorem sa25At_eq_none {m : Config.RegMap} {off : BitVec 12} (h : ∀ lane, m.sa25 lane ≠ off) : m.sa25At off = none := by
  unfold Config.RegMap.sa25At
  rw [List.find?_eq_none]
  intro lane _
  simpa using h lane

theorem mem_bit (lane : BitVec 1) : lane ∈ [0#1, 1#1] := by revert lane; decide

theorem mem_lanes (lane : BitVec 2) : lane ∈ [0#2, 1#2, 2#2, 3#2] := by revert lane; decide

/-- The two parts of an offset are what it is made from. -/
theorem offset_parts (a : BitVec 10) (b : BitVec 2) : (a ++ b).extractLsb' 2 10 = a ∧ (a ++ b).extractLsb' 0 2 = b := by
  constructor <;> apply BitVec.eq_of_getLsbD_eq <;> intro k hk <;>
    simp only [BitVec.getLsbD_extractLsb', BitVec.getLsbD_append, hk, decide_true, Bool.true_and]
  · rw [if_neg (by omega)]
    congr 1
    omega
  · rw [if_pos (by omega), Nat.zero_add]

theorem offset_self (v : BitVec (10 + 2)) : v.extractLsb' 2 10 ++ v.extractLsb' 0 2 = v := by
  apply BitVec.eq_of_getLsbD_eq
  intro k hk
  simp only [BitVec.getLsbD_append, BitVec.getLsbD_extractLsb']
  split
  · rename_i h
    rw [decide_eq_true h, Bool.true_and, Nat.zero_add]
  · rw [decide_eq_true (by omega), Bool.true_and]
    congr 1
    omega

theorem offset_parts_inj {a c : BitVec 10} {b d : BitVec 2} (h : a ++ b = c ++ d) : a = c ∧ b = d := by
  have h1 := congrArg (BitVec.extractLsb' 2 10) h
  have h2 := congrArg (BitVec.extractLsb' 0 2) h
  rw [(offset_parts a b).1, (offset_parts c d).1] at h1
  rw [(offset_parts a b).2, (offset_parts c d).2] at h2
  exact ⟨h1, h2⟩

/-- What `ok` says of the words that hold the station address. -/
theorem ok_lanes {m : Config.RegMap} (h : m.ok = true) :
    m.saLane0 ≠ m.saLane1 ∧ [m.saLane2, m.saLane3, m.saLane4, m.saLane5].Nodup ∧
      m.rxMacControl.extractLsb' 0 2 = 0 ∧ m.rxMacAddr25.extractLsb' 0 2 = 0 ∧ m.saOk = true := by
  unfold Config.RegMap.ok at h
  simp only [Bool.and_eq_true, List.all_eq_true, decide_eq_true_iff] at h
  exact ⟨h.1.1.1.2, h.1.1.2, (h.1.1.1.1.1 .rxMacControl (mem_allRegs _)).2, (h.1.1.1.1.1 .rxMacAddr25 (mem_allRegs _)).2, h.2⟩

/-- No two of the first two station-address bytes share an offset. -/
theorem sa01_injective {m : Config.RegMap} (h : m.ok = true) {l k : BitVec 1} (e : m.sa01 l = m.sa01 k) : l = k := by
  have h0 := (ok_lanes h).1
  have e := (offset_parts_inj e).2
  have hl : l = 0#1 ∨ l = 1#1 := by simpa only [List.mem_cons, List.not_mem_nil, or_false] using mem_bit l
  have hk : k = 0#1 ∨ k = 1#1 := by simpa only [List.mem_cons, List.not_mem_nil, or_false] using mem_bit k
  rcases hl with rfl | rfl <;> rcases hk with rfl | rfl <;> first | rfl | simp_all [Config.RegMap.saLane]

/-- No two of the last four station-address bytes share an offset. -/
theorem sa25_injective {m : Config.RegMap} (h : m.ok = true) {l k : BitVec 2} (e : m.sa25 l = m.sa25 k) : l = k := by
  have h0 := (ok_lanes h).2.1
  have e := (offset_parts_inj e).2
  have hl : l = 0#2 ∨ l = 1#2 ∨ l = 2#2 ∨ l = 3#2 := by
    simpa only [List.mem_cons, List.not_mem_nil, or_false] using mem_lanes l
  have hk : k = 0#2 ∨ k = 1#2 ∨ k = 2#2 ∨ k = 3#2 := by
    simpa only [List.mem_cons, List.not_mem_nil, or_false] using mem_lanes k
  rcases hl with rfl | rfl | rfl | rfl <;> rcases hk with rfl | rfl | rfl | rfl <;> first | rfl | simp_all [Config.RegMap.saLane]

/-- A byte beside the receive filter is none of the last four. -/
theorem sa01_ne_sa25 {m : Config.RegMap} (h : m.ok = true) (l : BitVec 1) (k : BitVec 2) : m.sa01 l ≠ m.sa25 k := by
  intro e
  obtain ⟨_, _, h1, h2, _⟩ := ok_lanes h
  have e := (offset_parts_inj e).1
  have : m.offset .rxMacControl = m.offset .rxMacAddr25 := by
    show m.rxMacControl = m.rxMacAddr25
    have e1 := offset_self m.rxMacControl
    have e2 := offset_self m.rxMacAddr25
    rw [h1] at e1
    rw [h2] at e2
    exact e1.symm.trans ((congrArg (fun x => x ++ (0 : BitVec 2)) e).trans e2)
  exact absurd (offset_injective h this) (by decide)

/-- The offset of a station-address byte names it. -/
theorem sa01At_sa01 {m : Config.RegMap} (h : m.ok = true) (lane : BitVec 1) : m.sa01At (m.sa01 lane) = some lane := by
  cases e : m.sa01At (m.sa01 lane) with
  | some k => rw [sa01_injective h (sa01At_eq_some e)]
  | none =>
    exact absurd (decide_eq_true rfl) (List.find?_eq_none.1 e lane (mem_bit lane))

theorem sa25At_sa25 {m : Config.RegMap} (h : m.ok = true) (lane : BitVec 2) : m.sa25At (m.sa25 lane) = some lane := by
  cases e : m.sa25At (m.sa25 lane) with
  | some k => rw [sa25_injective h (sa25At_eq_some e)]
  | none =>
    exact absurd (decide_eq_true rfl) (List.find?_eq_none.1 e lane (mem_lanes lane))

theorem sa01At_sa25 {m : Config.RegMap} (h : m.ok = true) (lane : BitVec 2) : m.sa01At (m.sa25 lane) = none :=
  sa01At_eq_none fun l => sa01_ne_sa25 h l lane

/-! ### Byte writes -/

theorem getLsbD_exchange (w : Config.LaidOut) (e : Config.BitExchange) :
    ∃ f : Nat → Nat, ∀ (v : Word) (k : Nat), (exchange w e v).getLsbD k = v.getLsbD (f k) := by
  unfold exchange
  split
  · refine ⟨fun k => if k = e.i then e.j else if k = e.j then e.i else k, fun v k => ?_⟩
    rw [getLsbD_swapBits _ _ e.i.isLt e.j.isLt]
    dsimp only
    split
    · rfl
    · split <;> rfl
  · exact ⟨id, fun _ _ => rfl⟩

/-- A layout moves bits: which bit stands at a place does not depend on the word. -/
theorem getLsbD_toBus (m : Config.RegMap) {w : Config.LaidOut} (hw : w ≠ .reg .romInterface) :
    ∃ f : Nat → Nat, ∀ (v : Word) (k : Nat), (m.toBus w v).getLsbD k = v.getLsbD (f k) := by
  unfold Config.RegMap.toBus
  simp only [recodeEeOp, if_neg hw]
  generalize m.exchanges = l
  induction l with
  | nil => exact ⟨id, fun _ _ => rfl⟩
  | cons e l ih =>
    obtain ⟨f, hf⟩ := ih
    obtain ⟨g, hg⟩ := getLsbD_exchange w e
    exact ⟨g ∘ f, fun v k => by rw [List.foldl_cons, hf, hg]; rfl⟩

theorem getLsbD_setLane (w : Word) (b : Byte) {k p : Nat} (hk : k < 4) :
    (setLane w k b).getLsbD p =
      if 8 * k ≤ p ∧ p < 8 * k + 8 then b.getLsbD (p - 8 * k) else w.getLsbD p := by
  have hm : (0x000000FF#32 : Word).getLsbD = fun p => decide (p < 8) := by
    funext p
    by_cases h : p < 32
    · have : ∀ q : Fin 32, (0x000000FF#32 : Word).getLsbD q = decide (q.val < 8) := by decide
      exact this ⟨p, h⟩
    · rw [BitVec.getLsbD_of_ge _ _ (by omega)]
      simp; omega
  by_cases hp : p < 32
  · simp only [setLane, BitVec.getLsbD_or, BitVec.getLsbD_and, BitVec.getLsbD_not, BitVec.getLsbD_shiftLeft, hm, hp,
      decide_true, Bool.true_and, BitVec.zeroExtend, BitVec.getLsbD_setWidth]
    by_cases h1 : p < 8 * k
    · have h2 : ¬ (8 * k ≤ p ∧ p < 8 * k + 8) := by omega
      simp [h1, h2]
    · by_cases h3 : p < 8 * k + 8
      · have h4 : 8 * k ≤ p ∧ p < 8 * k + 8 := by omega
        have h5 : p - 8 * k < 8 := by omega
        have h6 : p - 8 * k < 32 := by omega
        rw [if_pos h4]
        simp [h1, h5, h6]
      · have h4 : ¬ (8 * k ≤ p ∧ p < 8 * k + 8) := by omega
        have h5 : ¬ p - 8 * k < 8 := by omega
        rw [if_neg h4, BitVec.getLsbD_of_ge b _ (by omega)]
        simp [h1, h5]
  · rw [BitVec.getLsbD_of_ge _ _ (by omega), if_neg (by omega), BitVec.getLsbD_of_ge _ _ (by omega)]

/-- Where lane j of the reference layout is lane k on the bus, a byte write of that lane is the write of lane j. -/
theorem writeLane_eq {m : Config.RegMap} {w : Config.LaidOut} (hw : w ≠ .reg .romInterface) {j k : Nat} (hj : j < 4)
    (hk : k < 4) (h : m.laneAt w j k = true) (b : Byte) (v : Word) : m.writeLane w k b v = setLane v j b := by
  unfold Config.RegMap.writeLane
  rw [← ofBus_toBus m w (setLane v j b)]
  congr 1
  obtain ⟨f, hf⟩ := getLsbD_toBus m hw
  have hb (i : Nat) (hi : i < 8) (p : Nat) (hp : p < 32) : f p = 8 * j + i ↔ p = 8 * k + i := by
    have e := of_decide_eq_true (List.all_eq_true.1 h i (List.mem_range.2 hi))
    have e := congrArg (fun x => BitVec.getLsbD x p) e
    simp only [hf, BitVec.getLsbD_twoPow] at e
    have h1 : 8 * j + i < 32 := by omega
    have h2 : 8 * k + i < 32 := by omega
    simp only [h1, h2, decide_true, Bool.true_and, decide_eq_decide] at e
    omega
  apply BitVec.eq_of_getLsbD_eq
  intro p hp
  rw [hf, getLsbD_setLane _ _ hk, getLsbD_setLane _ _ hj, hf]
  by_cases h1 : 8 * k ≤ p ∧ p < 8 * k + 8
  · have h2 := (hb (p - 8 * k) (by omega) p hp).2 (by omega)
    rw [if_pos h1, if_pos (by omega), h2, Nat.add_sub_cancel_left]
  · rw [if_neg h1, if_neg]
    intro h2
    have := (hb (f p - 8 * j) (by omega) p hp).1 (by omega)
    omega

/-- Where `ok` holds, the byte write of station-address byte 0 or 1 fills byte lane 2 or 3 of the reference layout. -/
theorem writeLane_sa01 {m : Config.RegMap} (h : m.ok = true) (lane : BitVec 1) (b : Byte) (v : Word) :
    m.writeLane (.reg .rxMacControl) (m.saLane lane.toNat).toNat b v = setLane v (2 + lane.toNat) b := by
  have hl : lane.toNat < 2 := lane.isLt
  have hs := (ok_lanes h).2.2.2.2
  unfold Config.RegMap.saOk at hs
  rw [Bool.and_eq_true] at hs
  exact writeLane_eq (by decide) (by omega) (m.saLane lane.toNat).isLt
    (List.all_eq_true.1 hs.1 _ (List.mem_range.2 hl)) b v

/-- Where `ok` holds, the byte write of station-address byte 2 + i fills byte lane i of the reference layout. -/
theorem writeLane_sa25 {m : Config.RegMap} (h : m.ok = true) (lane : BitVec 2) (b : Byte) (v : Word) :
    m.writeLane (.reg .rxMacAddr25) (m.saLane (2 + lane.toNat)).toNat b v = setLane v lane.toNat b := by
  have hl : lane.toNat < 4 := lane.isLt
  have hs := (ok_lanes h).2.2.2.2
  unfold Config.RegMap.saOk at hs
  rw [Bool.and_eq_true] at hs
  exact writeLane_eq (by decide) hl (m.saLane (2 + lane.toNat)).isLt
    (List.all_eq_true.1 hs.2 _ (List.mem_range.2 hl)) b v

theorem referenceMap_ok : Config.referenceMap.ok = true := by decide

namespace Machine

/-! ### PHY registers -/

@[simp] theorem getLsbD_bit16 (k : Fin 16) (n : Nat) : (bit16 k).getLsbD n = decide (n = k.val) := by
  have h := k.isLt
  by_cases e : n = k.val
  · subst e; simp [bit16]
  · by_cases l : n < k.val
    · simp [bit16, e, l]
    · simp [bit16, e, l, show n - k.val ≠ 0 by omega]

/-- In the reference map the gigabit intersection is that of R310. -/
theorem gig_reference (gtcr gtsr : Half) :
    gigFull Config.referencePhyMap gtcr gtsr = (gtcr &&& (gtsr >>> 2)).getLsbD 9 ∧
    gigHalf Config.referencePhyMap gtcr gtsr = (gtcr &&& (gtsr >>> 2)).getLsbD 8 := by
  simp only [BitVec.getLsbD_and, BitVec.getLsbD_ushiftRight]
  exact ⟨rfl, rfl⟩

/-! ### PHY_SCRIPT -/

/-- A clause fixes the bits of its mask and leaves the others. -/
theorem getLsbD_clauseAnswer (c : Config.PhyClause) (d : Half) {k : Nat} (hk : k < 16) :
    (clauseAnswer c d).getLsbD k = if c.mask.getLsbD k = true then c.value.getLsbD k else d.getLsbD k := by
  unfold clauseAnswer
  split
  · rename_i h
    have : c.mask.getLsbD k = true := by
      rw [h]
      have : ∀ j : Fin 16, (0xFFFF#16 : Half).getLsbD j = true := by decide
      exact this ⟨k, hk⟩
    rw [if_pos this]
  · simp only [BitVec.getLsbD_or, BitVec.getLsbD_and, BitVec.getLsbD_not, hk, decide_true, Bool.true_and]
    cases c.mask.getLsbD k <;> simp

theorem nextAdmitted_admits {p : Half → Bool} {n : Nat} {d v : Half} (h : nextAdmitted p n d = some v) : p v = true := by
  induction n generalizing d with
  | zero => cases h
  | succ n ih =>
    unfold nextAdmitted at h
    split at h
    · cases h; assumption
    · exact ih h

theorem nextAdmitted_finds {p : Half → Bool} {n k : Nat} {d : Half} (hk : k < n) (h : p (d + BitVec.ofNat 16 k) = true) :
    ∃ v, nextAdmitted p n d = some v := by
  induction n generalizing d k with
  | zero => omega
  | succ n ih =>
    unfold nextAdmitted
    split
    · exact ⟨d, rfl⟩
    · cases k with
      | zero => simp at h; contradiction
      | succ k =>
        refine ih (k := k) (by omega) ?_
        rw [← h]
        congr 1
        apply BitVec.eq_of_toNat_eq
        simp only [BitVec.toNat_add, BitVec.toNat_ofNat, BitVec.ofNat_eq_ofNat]
        omega

/-- The answer under a relation is one it admits, if it admits any. -/
theorem scriptAnswer_relation {k : Nat} {log : List Config.PhyTxn} {a r : BitVec 5} {d v : Half}
    (h : Config.phyRelation k log a r v = true) :
    Config.phyRelation k log a r (scriptAnswer (.relation k) log a r d) = true := by
  have hv : d + BitVec.ofNat 16 (v - d).toNat = v := by
    rw [BitVec.ofNat_toNat, BitVec.setWidth_eq]
    bv_omega
  obtain ⟨x, hx⟩ := nextAdmitted_finds (p := Config.phyRelation k log a r) (n := 2 ^ 16) (d := d) (v - d).isLt
    (by rw [hv]; exact h)
  have e : scriptAnswer (.relation k) log a r d = x := by
    unfold scriptAnswer
    dsimp only
    rw [hx]
    rfl
  rw [e]
  exact nextAdmitted_admits hx

end Machine
end Sys2Proof
end

