-- ==== Sys2Proof/Laws/Window.lean ====
section
/-!
SUPPORT. Sys2Proof/Laws/Window.lean: everything an access of the register window can do, said once: what it leaves
unchanged (`WindowFrame`), what it does when the window is open, refused or removed.
-/
namespace Sys2Proof.Machine

/-- What no access of the window changes: memory, the Device Context, HOST's position, the queues, the schedule. The marks
may grow, HOST's local t may be read into. -/
structure WindowFrame (s t : State) : Prop where
  cfg          : t.cfg = s.cfg
  mem          : t.mem = s.mem
  ctx          : t.ctx = s.ctx
  ops          : t.ops = s.ops
  prog         : t.prog = s.prog
  sched        : t.sched = s.sched
  rounds       : t.rounds = s.rounds
  ret          : t.ret = s.ret
  events       : t.events = s.events
  dst          : t.dst = s.dst
  hostD        : t.hostD = s.hostD
  wireIn       : t.wireIn = s.wireIn
  wireOut      : t.wireOut = s.wireOut
  removed      : t.removed = s.removed
  irqArmed     : t.irqArmed = s.irqArmed
  irqPending   : t.irqPending = s.irqPending
  statRxErrors : t.statRxErrors = s.statRxErrors
  marks        : ∃ more, t.marks = s.marks ++ more

theorem WindowFrame.rfl' (s : State) : WindowFrame s s :=
  ⟨rfl, rfl, rfl, rfl, rfl, rfl, rfl, rfl, rfl, rfl, rfl, rfl, rfl, rfl, rfl, rfl, rfl, [], by simp⟩

theorem WindowFrame.of_refuse (m : Mark) (s : State) : WindowFrame s (refuse m s) :=
  ⟨rfl, rfl, rfl, rfl, rfl, rfl, rfl, rfl, rfl, rfl, rfl, rfl, rfl, rfl, rfl, rfl, rfl, [m], rfl⟩

/-- A state that differs only in registers, controllers, engines, bus history, local t and the free values' count. -/
theorem WindowFrame.of_update (s : State) (rg : Regs) (mi : Miic) (ee : Eec) (tx rx : Engine) (pl : List Config.PhyTxn)
    (ht : Word) (n : Nat) (ps : List Word) :
    WindowFrame s { s with regs := rg, miic := mi, eec := ee, tx := tx, rx := rx, phyLog := pl, hostT := ht, draws := n,
                           pins := ps } :=
  ⟨rfl, rfl, rfl, rfl, rfl, rfl, rfl, rfl, rfl, rfl, rfl, rfl, rfl, rfl, rfl, rfl, rfl, [], by simp⟩

theorem phyWrite_cases (a r : BitVec 5) (d : Half) (s : State) :
    phyWrite a r d s =
      { s with phyLog := if phyPresent s a = true then s.phyLog ++ [⟨.wr, a, r, d⟩] else s.phyLog } := by
  unfold phyWrite
  split <;> rfl

/-- Everything the soft reset can do (R803): the abandoned PHY write is in the history or not. -/
theorem softReset_cases (v : Word) (s : State) :
    ∃ (pl : List Config.PhyTxn) (rg : Regs), softReset v s =
      { s with
        regs := rg, tx := { s.tx with en := false, kick := false }, rx := { s.rx with en := false, kick := false }
        miic := { s.miic with busy := false, rdata := none }, eec := { s.eec with busy := false, rdata := none }
        phyLog := pl, draws := s.draws + 12, pins := s.pins.drop 12 } ∧
      rg.intrControl = v ∧ rg.intrMask = 0 ∧ rg.romStored = s.regs.romStored ∧ rg.gmiiStored = s.regs.gmiiStored ∧
      rg.txCfg = drawAt s 9 &&& cfgMask ∧ rg.rxCfg = drawAt s 10 &&& cfgMask ∧
      rg.intrStatus = drawAt s 2 &&& definedStatus ∧ rg.txDescBase = drawAt s 0 &&& 0xFFFFFFF0#32 ∧
      rg.rxDescBase = drawAt s 1 &&& 0xFFFFFFF0#32 ∧
      (pl = s.phyLog ∨ (s.miic.busy = true ∧ s.miic.op = .wr ∧
        pl = s.phyLog ++ [⟨.wr, s.miic.phy, s.miic.reg, s.miic.wdata⟩])) := by
  unfold softReset
  split
  · rename_i h
    rw [phyWrite_cases]
    refine ⟨_, _, rfl, rfl, rfl, rfl, rfl, rfl, rfl, rfl, rfl, rfl, ?_⟩
    split
    · exact .inr ⟨h.1, h.2.1, rfl⟩
    · exact .inl rfl
  · exact ⟨_, _, rfl, rfl, rfl, rfl, rfl, rfl, rfl, rfl, rfl, rfl, .inl rfl⟩

theorem softReset_frame (v : Word) (s : State) : WindowFrame s (softReset v s) := by
  obtain ⟨pl, rg, h, -⟩ := softReset_cases v s
  rw [h]
  exact .of_update s _ _ _ _ _ _ _ _ _

/-- Everything a GMIIControl write can do (R451): a refusal, or the stored bits and perhaps a transaction begun. -/
theorem miiWrite_cases (v : Word) (s : State) :
    (∃ m, miiWrite v s = refuse m s) ∨
    (∃ mi, miiWrite v s = { s with regs.gmiiStored := v.extractLsb' 5 11 ++ 0#5, miic := mi } ∧
      (mi = s.miic ∨ (mi.busy = true ∧ mi.rdata = none))) := by
  unfold miiWrite
  dsimp only
  split
  · exact .inl ⟨_, rfl⟩
  · split
    · exact .inl ⟨_, rfl⟩
    · split
      · exact .inr ⟨_, rfl, .inr ⟨rfl, rfl⟩⟩
      · exact .inr ⟨s.miic, rfl, .inl rfl⟩

/-- Everything a ROMInterface write can do (R468, R471): a refusal, or the stored bits and perhaps a read begun. -/
theorem eeWrite_cases (v : Word) (s : State) :
    (∃ m, eeWrite v s = refuse m s) ∨
    (∃ ee, eeWrite v s = { s with regs.romStored := v.extractLsb' 8 8 ++ 0#5 ++ v.extractLsb' 0 3, eec := ee } ∧
      (ee = s.eec ∨ (ee.busy = true ∧ ee.rdata = none))) := by
  unfold eeWrite
  dsimp only
  split
  · exact .inl ⟨_, rfl⟩
  · split
    · exact .inr ⟨s.eec, rfl, .inl rfl⟩
    · split
      · exact .inl ⟨_, rfl⟩
      · split
        · exact .inr ⟨_, rfl, .inr ⟨rfl, rfl⟩⟩
        · split <;> exact .inl ⟨_, rfl⟩

theorem miiWrite_frame (v : Word) (s : State) : WindowFrame s (miiWrite v s) := by
  rcases miiWrite_cases v s with ⟨m, h⟩ | ⟨mi, h, -⟩ <;> rw [h]
  · exact .of_refuse m s
  · exact .of_update s _ mi _ _ _ _ _ _ _

theorem eeWrite_frame (v : Word) (s : State) : WindowFrame s (eeWrite v s) := by
  rcases eeWrite_cases v s with ⟨m, h⟩ | ⟨ee, h, -⟩ <;> rw [h]
  · exact .of_refuse m s
  · exact .of_update s _ _ ee _ _ _ _ _ _

theorem writeEffect_frame (r : Reg) (v : Word) (s : State) : WindowFrame s (writeEffect r v s) := by
  cases r
  case txDescBase =>
    unfold writeEffect
    dsimp only
    split
    · exact .of_refuse _ _
    · exact .of_update s _ _ _ _ _ _ _ _ _
  case rxDescBase =>
    unfold writeEffect
    dsimp only
    split
    · exact .of_refuse _ _
    · exact .of_update s _ _ _ _ _ _ _ _ _
  case intrControl =>
    unfold writeEffect
    dsimp only
    split
    · exact softReset_frame v s
    · exact .of_update s _ _ _ _ _ _ _ _ _
  case romInterface => exact eeWrite_frame v s
  case gmiiControl => exact miiWrite_frame v s
  all_goals exact .of_update s _ _ _ _ _ _ _ _ _

/-- Everything a write of a removed device can do: nothing, or the end of the SOFT phase (log entry 35). -/
theorem removedWrite_cases (r : Reg) (v : Word) (s : State) :
    removedWrite r v s = s ∨
    (softPhase s = true ∧ r = .intrControl ∧
      removedWrite r v s = { s with regs.intrControl := s.regs.intrControl &&& 0xFFFF7FFF#32 }) := by
  unfold removedWrite
  split
  · rename_i h
    rw [Bool.and_eq_true, isRelease, Bool.and_eq_true, decide_eq_true_iff] at h
    exact .inr ⟨h.1, h.2.1, rfl⟩
  · exact .inl rfl

/-- A 32-bit write: refused in the SOFT phase (but the release), of a removed device, else its effect. -/
theorem regWrite32_cases (r : Reg) (v : Word) (s : State) :
    (softPhase s = true ∧ isRelease r v = false ∧ regWrite32 r v s = refuse .accessDuringSoftReset s) ∨
    (s.removed = true ∧ regWrite32 r v s = removedWrite r v s) ∨
    (s.removed = false ∧ (softPhase s = true → r = .intrControl ∧ v.getLsbD 15 = false) ∧
      regWrite32 r v s = writeEffect r v s) := by
  unfold regWrite32
  cases h1 : softPhase s <;> cases h2 : isRelease r v <;> cases h3 : s.removed <;> simp
  simpa [isRelease] using h2

theorem regWrite32_frame (r : Reg) (v : Word) (s : State) : WindowFrame s (regWrite32 r v s) := by
  rcases regWrite32_cases r v s with ⟨-, -, h⟩ | ⟨-, h⟩ | ⟨-, -, h⟩ <;> rw [h]
  · exact .of_refuse _ _
  · rcases removedWrite_cases r v s with h' | ⟨-, -, h'⟩ <;> rw [h']
    · exact .rfl' s
    · exact .of_update s _ _ _ _ _ _ _ _ _
  · exact writeEffect_frame r v s

theorem regWrite32_open {s : State} (h : windowOpen s = true) (r : Reg) (v : Word) :
    regWrite32 r v s = writeEffect r v s := by
  simp [windowOpen] at h
  simp [regWrite32, h]

theorem regRead32_frame (r : Reg) (s : State) : WindowFrame s (regRead32 r s) := by
  unfold regRead32
  split
  · exact .of_refuse _ _
  · split
    · exact .of_update s _ _ _ _ _ _ _ _ _
    · split <;>
        exact .of_update s _ _ _ _ _ _ _ _ _

/-- A read of an open window is the register's value, and takes one free value where the register has free bits. -/
theorem regRead32_open {s : State} (h : windowOpen s = true) (r : Reg) :
    regRead32 r s =
      if readDraws r = true then drawn 1 { s with hostT := readValue r s (drawAt s 0) }
      else { s with hostT := readValue r s 0 } := by
  simp [windowOpen] at h
  simp [regRead32, h]

theorem regWrite8_frame (i : Nat) (b : Byte) (s : State) : WindowFrame s (regWrite8 i b s) := by
  unfold regWrite8
  split
  · exact .of_refuse _ _
  · split
    · exact .of_refuse _ _
    · split
      · exact .rfl' s
      · split <;>
          exact .of_update s _ _ _ _ _ _ _ _ _

/-- The frame speaks of no register. -/
theorem WindowFrame.withRegs {s t : State} (h : WindowFrame s t) (rg : Regs) : WindowFrame s { t with regs := rg } :=
  ⟨h.cfg, h.mem, h.ctx, h.ops, h.prog, h.sched, h.rounds, h.ret, h.events, h.dst, h.hostD, h.wireIn, h.wireOut, h.removed,
    h.irqArmed, h.irqPending, h.statRxErrors, h.marks⟩

/-- STOP's pulse in R1003's reading is the write of IntrControl, but that the CFG bits stay and no status bit is new. -/
theorem stopPulse_cases (s : State) :
    ∃ rg : Regs, stopPulse s = { regWrite32 .intrControl 0x00008000#32 s with regs := rg } ∧
      rg = { (regWrite32 .intrControl 0x00008000#32 s).regs with
        txCfg := s.regs.txCfg, rxCfg := s.regs.rxCfg, intrStatus := rg.intrStatus } ∧
      rg.intrStatus &&& ~~~s.regs.intrStatus = 0 := by
  refine ⟨_, rfl, rfl, ?_⟩
  dsimp only
  rw [BitVec.and_assoc]
  simp

theorem stopPulse_frame (s : State) : WindowFrame s (stopPulse s) :=
  (regWrite32_frame .intrControl 0x00008000#32 s).withRegs _

theorem rejectAccess_frame (m : Mark) (s : State) : WindowFrame s (rejectAccess m s) := by
  unfold rejectAccess
  split <;> exact .of_refuse _ _

/-- No read and no write of another register changes IntrControl. -/
theorem regWrite32_intrControl (r : Reg) (v : Word) (s : State) (h : r ≠ .intrControl) :
    (regWrite32 r v s).regs.intrControl = s.regs.intrControl := by
  rcases regWrite32_cases r v s with ⟨-, -, h'⟩ | ⟨-, h'⟩ | ⟨-, -, h'⟩ <;> rw [h']
  · rfl
  · rcases removedWrite_cases r v s with e | ⟨-, e, -⟩
    · rw [e]
    · exact absurd e h
  · cases r
    case intrControl => exact absurd rfl h
    case txDescBase => unfold writeEffect; dsimp only; split <;> rfl
    case rxDescBase => unfold writeEffect; dsimp only; split <;> rfl
    case romInterface =>
      rcases eeWrite_cases v s with ⟨m, e⟩ | ⟨ee, e, -⟩ <;> simp [writeEffect, e]
    case gmiiControl =>
      rcases miiWrite_cases v s with ⟨m, e⟩ | ⟨mi, e, -⟩ <;> simp [writeEffect, e]
    all_goals rfl

end Sys2Proof.Machine
end

