-- ==== Sys2Proof/Laws/Sequence.lean ====
section
/-!
SUPPORT. Sys2Proof/Laws/Sequence.lean: everything a HOST micro-operation can do, said once: the points of the sequences
change only the Device Context and HOST's position (`PointFrame`), the accesses only what an access changes, and every
one keeps the relations between the fields of the Device Context (`ContextOk`).
-/
namespace Sys2Proof.Machine

/-- The relations between fields of the Device Context that every operation of HOST keeps, for rings of n slots: the
cursors name slots, the current PHY is one of the list, an enabled context has a station address (R140, R143, R805). -/
structure ContextOk (n : Nat) (c : Context) : Prop where
  txCursor : ∀ k, c.txCursor = some k → k < n
  rxCursor : ∀ k, c.rxCursor = some k → k < n
  current  : ∀ k, c.cur = some k → k < c.phys.length
  enabled  : c.enabled = true → c.stationAddress ≠ none

/-- What a point of a sequence, or the start of an entry point, can change. -/
structure PointFrame (s t : State) : Prop where
  fields  : t = { s with
    ctx := t.ctx, ops := t.ops, ret := t.ret, irqArmed := t.irqArmed, irqPending := t.irqPending, events := t.events
    statRxErrors := t.statRxErrors, marks := t.marks }
  marks   : ∃ more, t.marks = s.marks ++ more
  context : 0 < s.cfg.ringLen → ContextOk s.cfg.ringLen s.ctx → ContextOk s.cfg.ringLen t.ctx

theorem PointFrame.refl (s : State) : PointFrame s s := ⟨rfl, ⟨[], by simp⟩, fun _ h => h⟩

/-- A state that differs only in HOST's position, with the context changed in a way that keeps its relations. -/
theorem PointFrame.of_context {s : State} {c : Context} (ops : List HostOp) (ret : Option HostReturn) (b1 b2 : Bool)
    (ev : List HostEvent) (e : Word)
    (h : 0 < s.cfg.ringLen → ContextOk s.cfg.ringLen s.ctx → ContextOk s.cfg.ringLen c) :
    PointFrame s { s with ctx := c, ops := ops, ret := ret, irqArmed := b1, irqPending := b2, events := ev
                          statRxErrors := e } :=
  ⟨rfl, ⟨[], by simp⟩, h⟩

/-- The same, with the context as it was in the fields that the relations are about. -/
theorem PointFrame.of_same {s : State} {c : Context} (ops : List HostOp) (ret : Option HostReturn) (b1 b2 : Bool)
    (ev : List HostEvent) (e : Word) (h1 : c.txCursor = s.ctx.txCursor) (h2 : c.rxCursor = s.ctx.rxCursor)
    (h3 : c.cur = s.ctx.cur) (h4 : c.phys = s.ctx.phys) (h5 : c.enabled = s.ctx.enabled)
    (h6 : c.stationAddress = s.ctx.stationAddress) :
    PointFrame s { s with ctx := c, ops := ops, ret := ret, irqArmed := b1, irqPending := b2, events := ev
                          statRxErrors := e } :=
  .of_context _ _ _ _ _ _ fun _ h =>
    ⟨by rw [h1]; exact h.txCursor, by rw [h2]; exact h.rxCursor, by rw [h3, h4]; exact h.current,
      by rw [h5, h6]; exact h.enabled⟩

theorem PointFrame.trans {s t u : State} (h1 : PointFrame s t) (h2 : PointFrame t u) : PointFrame s u := by
  have hc : t.cfg = s.cfg := by rw [h1.fields]
  refine ⟨?_, ?_, ?_⟩
  · rw [h2.fields, h1.fields]
  · obtain ⟨m1, e1⟩ := h1.marks
    obtain ⟨m2, e2⟩ := h2.marks
    exact ⟨m1 ++ m2, by rw [e2, e1, List.append_assoc]⟩
  · intro hn h
    have := h2.context (by rw [hc]; exact hn) (by rw [hc]; exact h1.context hn h)
    rwa [hc] at this

theorem withField_next {α : Type} {o : Option α} {f : CtxField} {k : α → Result} {t : State}
    (h : withField o f k = .next t) : ∃ a, o = some a ∧ k a = .next t := by
  unfold withField at h
  split at h
  · exact ⟨_, rfl, h⟩
  · cases h

theorem pushOps_frame (l : List HostOp) (s : State) : PointFrame s (pushOps l s) :=
  .of_same (l ++ s.ops) s.ret s.irqArmed s.irqPending s.events s.statRxErrors rfl rfl rfl rfl rfl rfl

theorem finish_frame (r : HostReturn) (s : State) : PointFrame s (finish r s) :=
  .of_same [] (some r) s.irqArmed s.irqPending s.events s.statRxErrors rfl rfl rfl rfl rfl rfl

theorem setStationAddress_frame (a : StationAddr) (s : State) :
    PointFrame s { s with ctx.stationAddress := some a } :=
  .of_context s.ops s.ret s.irqArmed s.irqPending s.events s.statRxErrors fun _ h =>
    ⟨h.txCursor, h.rxCursor, h.current, by simp⟩

theorem saChoose_frame {o : Option StationAddr} {s t : State} (h : saChoose o s = .next t) : PointFrame s t := by
  unfold saChoose at h
  split at h
  · cases h; exact setStationAddress_frame _ s
  · split at h
    · cases h; exact setStationAddress_frame _ s
    · cases h

theorem setFsm_frame (f : Fsm) (s : State) : PointFrame s { s with ctx.fsm := f } :=
  .of_same s.ops s.ret s.irqArmed s.irqPending s.events s.statRxErrors rfl rfl rfl rfl rfl rfl

theorem choosePhy_frame {p : Option Nat} {s t : State} (h : choosePhy p s = .next t) : PointFrame s t := by
  unfold choosePhy at h
  dsimp only at h
  split at h
  · cases h
  · rename_i c hc
    cases h
    refine PointFrame.trans ?_ (pushOps_frame _ _)
    refine .of_context s.ops s.ret s.irqArmed s.irqPending s.events s.statRxErrors fun _ h => ?_
    refine ⟨h.txCursor, h.rxCursor, ?_, h.enabled⟩
    intro k hk
    cases hk
    exact (List.getElem?_eq_some_iff.1 hc).1

theorem selectFrom_frame {i : Nat} {p : Option Nat} {s t : State} (h : selectFrom i p s = .next t) :
    PointFrame s t := by
  unfold selectFrom at h
  split at h
  · cases h; exact pushOps_frame _ s
  · exact choosePhy_frame h

theorem scanFrom_frame {a : Nat} {s t : State} (h : scanFrom a s = .next t) : PointFrame s t := by
  unfold scanFrom at h
  split at h
  · cases h; exact pushOps_frame _ s
  · split at h
    · cases h; exact (setFsm_frame _ s).trans (finish_frame _ _)
    · exact (setFsm_frame _ s).trans (selectFrom_frame h)

theorem linkPollFrom_frame {a : BitVec 5} {i : Nat} {b : Bool} {s t : State} (h : linkPollFrom a i b s = .next t) :
    PointFrame s t := by
  unfold linkPollFrom at h
  split at h
  · cases h; exact pushOps_frame _ s
  · cases h; exact setFsm_frame _ s

theorem anegPollFrom_frame {a : BitVec 5} {i : Nat} {s t : State} (h : anegPollFrom a i s = .next t) :
    PointFrame s t := by
  unfold anegPollFrom at h
  split at h
  · cases h; exact pushOps_frame _ s
  · cases h; exact setFsm_frame _ s

theorem resolved_frame {u : ResolveFor} {r : Speed × Duplex} {s t : State} (h : resolved u r s = .next t) :
    PointFrame s t := by
  unfold resolved at h
  split at h
  · cases h
    refine PointFrame.trans ?_ (pushOps_frame _ _)
    exact .of_same s.ops s.ret s.irqArmed s.irqPending s.events s.statRxErrors rfl rfl rfl rfl rfl rfl
  · cases h; exact finish_frame _ s

theorem recvFrame_frame {c m : Nat} {s t : State} (h : recvFrame c m s = .next t) : PointFrame s t := by
  unfold recvFrame at h
  split at h
  · cases h
    refine PointFrame.trans ?_ (pushOps_frame _ _)
    exact .of_same s.ops s.ret s.irqArmed s.irqPending s.events s.statRxErrors rfl rfl rfl rfl rfl rfl
  · cases h; exact pushOps_frame _ s

/-- A change of context fields that the relations of ContextOk are not about. -/
theorem setOther_frame {s : State} {c : Context} (h1 : c.txCursor = s.ctx.txCursor) (h2 : c.rxCursor = s.ctx.rxCursor)
    (h3 : c.cur = s.ctx.cur) (h4 : c.phys = s.ctx.phys) (h5 : c.enabled = s.ctx.enabled)
    (h6 : c.stationAddress = s.ctx.stationAddress) : PointFrame s { s with ctx := c } :=
  .of_same s.ops s.ret s.irqArmed s.irqPending s.events s.statRxErrors h1 h2 h3 h4 h5 h6

/-- The PHY list may grow, and a record in it may change, without moving the current PHY out of it. -/
theorem setPhys_frame {s : State} {l : List PhyRecord} (h : s.ctx.phys.length ≤ l.length) :
    PointFrame s { s with ctx.phys := l } :=
  .of_context s.ops s.ret s.irqArmed s.irqPending s.events s.statRxErrors fun _ k =>
    ⟨k.txCursor, k.rxCursor, fun i hi => Nat.lt_of_lt_of_le (k.current i hi) h, k.enabled⟩

/-- Everything a point of a sequence can do. -/
theorem runPoint_frame {p : HostPoint} {s t : State} (h : runPoint p s = .next t) : PointFrame s t := by
  cases p
  case resolveSa =>
    simp only [runPoint] at h
    have h0 : PointFrame s { s with ctx.rgmii := false } := setOther_frame rfl rfl rfl rfl rfl rfl
    split at h
    · cases h; exact h0.trans (pushOps_frame _ _)
    · exact h0.trans (saChoose_frame h)
  case saSignature =>
    simp only [runPoint] at h
    split at h
    · exact saChoose_frame h
    · cases h; exact pushOps_frame _ s
  case saBoard =>
    simp only [runPoint] at h
    have h0 : PointFrame s { s with ctx.rgmii := s.hostD.getLsbD s.cfg.eepromMap.rgmii } :=
      setOther_frame rfl rfl rfl rfl rfl rfl
    split at h
    · cases h; exact h0.trans (pushOps_frame _ _)
    · exact h0.trans (saChoose_frame h)
  case saWord k acc =>
    simp only [runPoint] at h
    split at h
    · cases h; exact pushOps_frame _ s
    · exact saChoose_frame h
  case ringInit =>
    simp only [runPoint] at h
    split at h
    · cases h
      exact (setOther_frame (c := { s.ctx with allocated := true }) rfl rfl rfl rfl rfl rfl).trans (pushOps_frame _ _)
    · cases h
  case initSlot i =>
    simp only [runPoint] at h
    split at h <;> (cases h; exact pushOps_frame _ s)
  case zeroCursors =>
    simp only [runPoint] at h
    cases h
    refine .of_context s.ops s.ret s.irqArmed s.irqPending s.events s.statRxErrors fun hn k => ?_
    exact ⟨fun _ e => (by cases e; exact hn), fun _ e => (by cases e; exact hn), k.current, k.enabled⟩
  case programStationAddress =>
    simp only [runPoint] at h
    obtain ⟨a, -, h⟩ := withField_next h
    cases h; exact pushOps_frame _ s
  case saDisable a => simp only [runPoint] at h; cases h; exact pushOps_frame _ s
  case saEnable a => simp only [runPoint] at h; cases h; exact pushOps_frame _ s
  case saRecord a => simp only [runPoint] at h; cases h; exact setStationAddress_frame a s
  case fsmStart =>
    simp only [runPoint] at h
    refine PointFrame.trans ?_ (scanFrom_frame h)
    refine .of_context s.ops s.ret s.irqArmed s.irqPending s.events s.statRxErrors fun _ k => ?_
    exact ⟨k.txCursor, k.rxCursor, fun _ e => (by cases e), k.enabled⟩
  case scanStatus a =>
    simp only [runPoint] at h
    split at h
    · exact scanFrom_frame h
    · cases h; exact pushOps_frame _ s
  case scanId1 a st => simp only [runPoint] at h; cases h; exact pushOps_frame _ s
  case scanId2 a st id1 =>
    simp only [runPoint] at h
    exact (setPhys_frame (by simp)).trans (scanFrom_frame h)
  case selectStatus i pref =>
    simp only [runPoint] at h
    exact (setPhys_frame (by simp)).trans (selectFrom_frame h)
  case isolateWrite a => simp only [runPoint] at h; cases h; exact pushOps_frame _ s
  case unisolateWrite a => simp only [runPoint] at h; cases h; exact pushOps_frame _ s
  case latchLink a =>
    simp only [runPoint] at h
    cases h
    refine PointFrame.trans ?_ (pushOps_frame _ _)
    exact setOther_frame rfl rfl rfl rfl rfl rfl
  case afterReset a =>
    simp only [runPoint] at h
    obtain ⟨b, -, h⟩ := withField_next h
    split at h
    · exact (setFsm_frame _ s).trans (linkPollFrom_frame h)
    · exact (setFsm_frame _ s).trans (anegPollFrom_frame h)
  case linkPoll a i prev =>
    simp only [runPoint] at h
    split at h
    · exact (setFsm_frame _ s).trans (anegPollFrom_frame h)
    · exact linkPollFrom_frame h
  case anegPoll a i =>
    simp only [runPoint] at h
    split at h
    · cases h; exact (setFsm_frame _ s).trans (pushOps_frame _ _)
    · exact anegPollFrom_frame h
  case capLpa a use => simp only [runPoint] at h; cases h; exact pushOps_frame _ s
  case capAdv a use lpa => simp only [runPoint] at h; cases h; exact pushOps_frame _ s
  case capAner a use lpa adv =>
    simp only [runPoint] at h
    split at h
    · cases h; exact pushOps_frame _ s
    · exact resolved_frame h
  case capGtcr a use lpa adv aner => simp only [runPoint] at h; cases h; exact pushOps_frame _ s
  case capGtsr use lpa adv aner gtcr => simp only [runPoint] at h; exact resolved_frame h
  case stationWrite v d => simp only [runPoint] at h; cases h; exact pushOps_frame _ s
  case negotiated up =>
    simp only [runPoint] at h
    cases h
    exact (setOther_frame (c := { s.ctx with autonegDone := true }) rfl rfl rfl rfl rfl rfl).trans (pushOps_frame _ _)
  case initDone =>
    simp only [runPoint] at h
    obtain ⟨a, ha, h⟩ := withField_next h
    cases h
    refine PointFrame.trans ?_ (finish_frame _ _)
    refine .of_context s.ops s.ret s.irqArmed s.irqPending s.events s.statRxErrors fun _ k => ?_
    exact ⟨k.txCursor, k.rxCursor, k.current, fun _ => by simp [ha]⟩
  case sendOwn payload c =>
    simp only [runPoint] at h
    split at h
    · cases h; exact finish_frame _ s
    · cases h; exact pushOps_frame _ s
  case sendRelease c =>
    simp only [runPoint] at h
    obtain ⟨d, -, h⟩ := withField_next h
    obtain ⟨v, -, h⟩ := withField_next h
    cases h; exact pushOps_frame _ s
  case advanceCursor ring c =>
    simp only [runPoint] at h
    have hl : 0 < s.cfg.ringLen → (c + 1) % s.cfg.ringLen < s.cfg.ringLen := Nat.mod_lt _
    split at h
    · cases h
      refine .of_context s.ops s.ret s.irqArmed s.irqPending s.events s.statRxErrors fun hn k => ?_
      exact ⟨fun _ e => (by cases e; exact hl hn), k.rxCursor, k.current, k.enabled⟩
    · cases h
      refine .of_context s.ops s.ret s.irqArmed s.irqPending s.events s.statRxErrors fun hn k => ?_
      exact ⟨k.txCursor, fun _ e => (by cases e; exact hl hn), k.current, k.enabled⟩
  case recvOwn c m =>
    simp only [runPoint] at h
    split at h
    · cases h; exact finish_frame _ s
    · exact recvFrame_frame h
  case recvLength c m => simp only [runPoint] at h; cases h; exact pushOps_frame _ s
  case filterWrite f => simp only [runPoint] at h; cases h; exact pushOps_frame _ s
  case linkStatus a =>
    simp only [runPoint] at h
    split at h
    · cases h; exact pushOps_frame _ s
    · cases h; exact finish_frame _ s
  case irqDecode =>
    simp only [runPoint] at h
    split at h
    · cases h
      exact .of_same [] _ _ s.irqPending s.events s.statRxErrors rfl rfl rfl rfl rfl rfl
    · cases h; exact pushOps_frame _ s
  case emit e =>
    simp only [runPoint] at h
    cases h
    exact .of_same s.ops s.ret s.irqArmed s.irqPending _ s.statRxErrors rfl rfl rfl rfl rfl rfl
  case rearm =>
    simp only [runPoint] at h
    cases h
    exact .of_same s.ops s.ret true s.irqPending s.events s.statRxErrors rfl rfl rfl rfl rfl rfl
  case stopDone =>
    simp only [runPoint] at h
    cases h
    refine PointFrame.trans ?_ (finish_frame _ _)
    refine .of_context s.ops s.ret s.irqArmed s.irqPending s.events s.statRxErrors fun _ k => ?_
    exact ⟨fun _ e => (by cases e), fun _ e => (by cases e), k.current, fun e => (by cases e)⟩
  case finish r => simp only [runPoint] at h; cases h; exact finish_frame _ s

/-! ### The start of an entry point -/

theorem whenIdle_next {s t : State} {k : Result} (h : whenIdle s k = .next t) : t = s ∨ k = .next t := by
  unfold whenIdle at h
  split at h
  · exact .inr h
  · cases h; exact .inl rfl

theorem startOps_frame {l : List HostOp} {s t : State} (h : startOps l s = .next t) : PointFrame s t := by
  cases h
  exact .of_same l none s.irqArmed s.irqPending s.events s.statRxErrors rfl rfl rfl rfl rfl rfl

theorem withHandle_next {s t : State} {k : Result} (h : withHandle s k = .next t) : k = .next t := by
  obtain ⟨_, -, h⟩ := withField_next h
  exact h

/-- An idle HOST's entry point is what follows its tests. -/
theorem whenIdle_idle {s : State} (h : s.ops = []) (k : Result) : whenIdle s k = k := by
  unfold whenIdle
  rw [h]

theorem withHandle_set {s : State} (h : s.ctx.regHandle ≠ none) (k : Result) : withHandle s k = k := by
  unfold withHandle withField
  split
  · rfl
  · rename_i e; exact absurd e h

theorem execEntryInit_frame {s t : State} (h : execEntryInit s = .next t) : PointFrame s t := by
  rcases whenIdle_next h with rfl | h
  · exact .refl _
  · split at h
    · obtain ⟨a, -, h⟩ := withField_next h
      cases h; exact finish_frame _ s
    · split at h
      · cases h; exact finish_frame _ s
      · split at h
        · cases h
        · refine PointFrame.trans ?_ (startOps_frame h)
          exact setOther_frame rfl rfl rfl rfl rfl rfl

theorem execEntrySend_frame {p : List Byte} {s t : State} (h : execEntrySend p s = .next t) : PointFrame s t := by
  rcases whenIdle_next h with rfl | h
  · exact .refl _
  · split at h
    · cases h; exact ⟨rfl, ⟨_, rfl⟩, fun _ k => k⟩
    · split at h
      · cases h; exact finish_frame _ s
      · split at h
        · cases h
        · obtain ⟨c, -, h⟩ := withField_next h
          exact startOps_frame h

theorem execEntryRecv_frame {n : Nat} {s t : State} (h : execEntryRecv n s = .next t) : PointFrame s t := by
  rcases whenIdle_next h with rfl | h
  · exact .refl _
  · obtain ⟨c, -, h⟩ := withField_next h
    exact startOps_frame h

theorem execEntrySetFilter_frame {a b c : Bool} {s t : State} (h : execEntrySetFilter a b c s = .next t) :
    PointFrame s t := by
  rcases whenIdle_next h with rfl | h
  · exact .refl _
  · exact startOps_frame (withHandle_next h)

theorem execEntrySetSa_frame {a : StationAddr} {s t : State} (h : execEntrySetSa a s = .next t) : PointFrame s t := by
  rcases whenIdle_next h with rfl | h
  · exact .refl _
  · exact startOps_frame (withHandle_next h)

theorem execEntryGetLink_frame {s t : State} (h : execEntryGetLink s = .next t) : PointFrame s t := by
  rcases whenIdle_next h with rfl | h
  · exact .refl _
  · obtain ⟨c, -, h⟩ := withField_next h
    exact startOps_frame (withHandle_next h)

theorem execEntryStop_frame {s t : State} (h : execEntryStop s = .next t) : PointFrame s t := by
  rcases whenIdle_next h with rfl | h
  · exact .refl _
  · exact startOps_frame (withHandle_next h)

theorem execEntryIrq_frame {s t : State} (h : execEntryIrq s = .next t) : PointFrame s t := by
  rcases whenIdle_next h with rfl | h
  · exact .refl _
  · refine PointFrame.trans ?_ (startOps_frame (withHandle_next h))
    exact .of_same s.ops s.ret false false s.events s.statRxErrors rfl rfl rfl rfl rfl rfl

theorem execEntryTick_frame {s t : State} (h : execEntryTick s = .next t) : PointFrame s t := by
  rcases whenIdle_next h with rfl | h
  · exact .refl _
  · cases h
    exact .of_same [] (some .done) s.irqArmed s.irqPending s.events s.ctx.rxErrors rfl rfl rfl rfl rfl rfl

/-! ### The accesses of host memory -/

/-- Everything an access of host memory by HOST can change. -/
structure HostMemFrame (s t : State) : Prop where
  fields : t = { s with
    mem := t.mem, hostT := t.hostT, dst := t.dst, marks := t.marks, draws := t.draws, pins := t.pins }
  marks  : ∃ more, t.marks = s.marks ++ more
  memory : memWf s.mem = true → memWf t.mem = true

theorem hostDescRead_frame (ring : Ring) (i : Nat) (w : DescWord) (s : State) :
    HostMemFrame s (hostDescRead ring i w s) := by
  unfold hostDescRead
  split <;> exact ⟨rfl, ⟨[], by simp⟩, id⟩

theorem hostDescWrite_frame {ring : Ring} {i : Nat} {w : DescWord} {v : Word} {s t : State}
    (h : hostDescWrite ring i w v s = .next t) : HostMemFrame s t := by
  unfold hostDescWrite at h
  split at h
  · cases h; exact ⟨rfl, ⟨_, rfl⟩, id⟩
  · split at h
    · cases h
    · cases h; exact ⟨rfl, ⟨[], by simp⟩, memWf_memWriteWord _ _⟩

theorem hostBufWrite_frame {ring : Ring} {i off : Nat} {b : List Byte} {s t : State}
    (h : hostBufWrite ring i off b s = .next t) : HostMemFrame s t := by
  unfold hostBufWrite at h
  dsimp only at h
  split at h
  · cases h
  · cases h; exact ⟨rfl, ⟨[], by simp⟩, memWf_memWriteBytes _ _⟩

theorem hostBufRead_frame (i k : Nat) (s : State) : HostMemFrame s (hostBufRead i k s) := by
  unfold hostBufRead
  split <;> exact ⟨rfl, ⟨[], by simp⟩, id⟩

theorem zeroRings_frame (s : State) : HostMemFrame s (zeroRings s) :=
  ⟨rfl, ⟨[], by simp [zeroRings]⟩, fun h => memWf_memWriteBytes _ _ (memWf_memWriteBytes _ _ h)⟩

/-! ### The completion polls -/

/-- Everything an iteration of a poll can change. -/
structure PollFrame (s t : State) : Prop where
  fields : t = { s with
    ops := t.ops, hostT := t.hostT, hostD := t.hostD, marks := t.marks, draws := t.draws, pins := t.pins }
  marks  : ∃ more, t.marks = s.marks ++ more

theorem regRead32_pollFrame (r : Reg) (s : State) : PollFrame s (regRead32 r s) := by
  unfold regRead32
  split
  · exact ⟨rfl, _, rfl⟩
  · split
    · exact ⟨rfl, [], by simp⟩
    · split <;> exact ⟨rfl, [], by simp⟩

theorem pollMii_frame (s : State) : PollFrame s (pollMii s) := by
  have h := regRead32_pollFrame .gmiiControl s
  unfold pollMii
  dsimp only
  split
  · exact h
  · split
    · exact ⟨by rw [h.fields]; rfl, h.marks⟩
    · exact ⟨by rw [h.fields], h.marks⟩

theorem pollEe_frame (s : State) : PollFrame s (pollEe s) := by
  have h := regRead32_pollFrame .romInterface s
  unfold pollEe
  dsimp only
  split
  · exact h
  · split
    · exact ⟨by rw [h.fields]; rfl, h.marks⟩
    · exact ⟨by rw [h.fields], h.marks⟩

end Sys2Proof.Machine
end

