-- ==== Sys2Proof/Laws/Slots.lean ====
section
/-!
SUPPORT. Sys2Proof/Laws/Slots.lean: the slots of the two rings where the regions are as the allocator places them
(spec/20 R209, R222; spec/42 R501): a descriptor word written is read back, a write of a slot's word or buffer touches no
other slot, and when such a write of HOST is a race.
-/
namespace Sys2Proof.Machine

/-! ### Descriptor words -/

theorem descGet_descPut_same (m : Config.RegMap) (mem : Memory) (base : Word) (i : Nat) (w : DescWord) (v : Word) :
    descGet m (descPut m mem base i w v) base i w = v := by
  unfold descGet descPut
  rw [memReadWord_memWriteWord_same, ofBus_toBus]

theorem memRead_descPut_other (m : Config.RegMap) (mem : Memory) (base : Word) (i : Nat) (w : DescWord) (v x : Word)
    (h : ∀ k, k < 4 → x ≠ descAddr base i w + BitVec.ofNat 32 k) :
    memRead (descPut m mem base i w v) x = memRead mem x :=
  memRead_memWriteWord_other _ _ _ _ h

theorem memWf_descPut {m : Config.RegMap} {mem : Memory} (base : Word) (i : Nat) (w : DescWord) (v : Word)
    (h : memWf mem = true) : memWf (descPut m mem base i w v) = true :=
  memWf_memWriteWord _ _ h

/-! ### Where the slots stand -/

/-- A ring region. -/
def ringSpan (c : Config.Params) : Nat := 16 * c.ringLen

/-- A pool region. -/
def poolSpan (c : Config.Params) : Nat := c.bufSize * c.ringLen

/-- What R209 and R1004 item 5 say of the regions, as inequalities. -/
structure RegionFacts (c : Config.Params) : Prop where
  ringTop  : ∀ r, (ringPa c r).toNat + ringSpan c ≤ 2 ^ 32
  poolTop  : ∀ r, (poolPa c r).toNat + poolSpan c ≤ 2 ^ 32
  rings    : ∀ r q, r ≠ q → (ringPa c r).toNat + ringSpan c ≤ (ringPa c q).toNat ∨
    (ringPa c q).toNat + ringSpan c ≤ (ringPa c r).toNat
  ringPool : ∀ r q, (ringPa c r).toNat + ringSpan c ≤ (poolPa c q).toNat ∨
    (poolPa c q).toNat + poolSpan c ≤ (ringPa c r).toNat
  pools    : ∀ r q, r ≠ q → (poolPa c r).toNat + poolSpan c ≤ (poolPa c q).toNat ∨
    (poolPa c q).toNat + poolSpan c ≤ (poolPa c r).toNat

theorem regionFacts {c : Config.Params} (h : regionsOk c = true) : RegionFacts c := by
  unfold regionsOk apart at h
  simp only [Bool.and_eq_true, Bool.or_eq_true, decide_eq_true_iff] at h
  obtain ⟨⟨⟨⟨⟨⟨⟨⟨⟨⟨⟨⟨⟨-, -⟩, -⟩, -⟩, h1⟩, h2⟩, h3⟩, h4⟩, h5⟩, h6⟩, h7⟩, h8⟩, h9⟩, h10⟩ := h
  constructor
  · intro r; cases r <;> simp only [ringPa, ringSpan] <;> assumption
  · intro r; cases r <;> simp only [poolPa, poolSpan] <;> assumption
  · intro r q hrq
    cases r <;> cases q <;> simp only [ringPa, ringSpan] <;> first | exact absurd rfl hrq | omega
  · intro r q
    cases r <;> cases q <;> simp only [ringPa, poolPa, ringSpan, poolSpan] <;> omega
  · intro r q hrq
    cases r <;> cases q <;> simp only [poolPa, poolSpan] <;> first | exact absurd rfl hrq | omega

theorem wordIndex_lt (w : DescWord) : wordIndex w < 4 := by cases w <;> decide

theorem descAddr_toNat {c : Config.Params} (h : RegionFacts c) {r : Ring} {i : Nat} (hi : i < c.ringLen) (w : DescWord) :
    (descAddr (ringPa c r) i w).toNat = (ringPa c r).toNat + 16 * i + 4 * wordIndex w := by
  have h1 := h.ringTop r
  have h2 := wordIndex_lt w
  unfold ringSpan at h1
  unfold descAddr
  rw [BitVec.toNat_add, BitVec.toNat_ofNat]
  omega

/-- A slot's buffer ends where the next one begins, inside the pool. -/
theorem buf_le {c : Config.Params} {i : Nat} (hi : i < c.ringLen) : i * c.bufSize + c.bufSize ≤ poolSpan c := by
  have := Nat.mul_le_mul_right c.bufSize (show i + 1 ≤ c.ringLen from hi)
  unfold poolSpan
  rw [Nat.mul_comm c.bufSize, ← Nat.succ_mul]
  exact this

/-- Buffers of different slots do not overlap. -/
theorem buf_lt {i j b : Nat} (h : i < j) : i * b + b ≤ j * b := by
  rw [← Nat.succ_mul]
  exact Nat.mul_le_mul_right b h

theorem bufAddr_toNat {c : Config.Params} (h : RegionFacts c) {r : Ring} {i : Nat} (hi : i < c.ringLen) :
    (bufAddr c r i).toNat = (poolPa c r).toNat + i * c.bufSize := by
  have h1 := h.poolTop r
  have h2 := buf_le hi
  unfold bufAddr
  rw [BitVec.toNat_add, BitVec.toNat_ofNat]
  have : (poolPa c r).toNat + i * c.bufSize < 2 ^ 32 := by
    have h3 := (poolPa c r).isLt
    rcases Nat.eq_zero_or_pos c.bufSize with hb | hb
    · rw [hb, Nat.mul_zero]; exact h3
    · omega
  rw [Nat.mod_eq_of_lt (a := i * c.bufSize) (by omega), Nat.mod_eq_of_lt this]

/-! ### What a write touches -/

theorem overlaps_eq_false {a n b m : Nat} (h : a + n ≤ b ∨ b + m ≤ a) : overlaps a n b m = false := by
  unfold overlaps
  rcases h with h | h
  · rw [decide_eq_false (p := b < a + n) (by omega)]; simp
  · rw [decide_eq_false (p := a < b + m) (by omega)]; simp

theorem overlaps_eq_true {a n b m : Nat} (h1 : a < b + m) (h2 : b < a + n) (h3 : 0 < n) (h4 : 0 < m) :
    overlaps a n b m = true := by
  simp [overlaps, h1, h2, h3, h4]

/-- A write of a descriptor word touches its own slot, unless it is CMDSTS, and no other. -/
theorem touchesSlot_desc {s : State} (h : RegionFacts s.cfg) {ring r : Ring} {i j : Nat}
    (hi : i < s.cfg.ringLen) (hj : j < s.cfg.ringLen) (w : DescWord) :
    touchesSlot s (slotAddr s ring i w) 4 r j = decide (r = ring ∧ j = i ∧ w ≠ .cmdsts) := by
  unfold touchesSlot slotAddr
  simp only [descAddr_toNat h hi, descAddr_toNat h hj, bufAddr_toNat h hj]
  have h2 := buf_le hj
  have hw := wordIndex_lt w
  have hz : wordIndex .psize = 0 := rfl
  have hp : overlaps ((ringPa s.cfg ring).toNat + 16 * i + 4 * wordIndex w) 4 ((poolPa s.cfg r).toNat + j * s.cfg.bufSize)
      s.cfg.bufSize = false := by
    apply overlaps_eq_false
    have := h.ringPool ring r
    unfold ringSpan at this
    omega
  rw [hp, Bool.or_false]
  by_cases hr : r = ring
  · subst hr
    by_cases hij : j = i
    · subst hij
      cases w
      case cmdsts =>
        rw [overlaps_eq_false (by simp only [wordIndex]; omega), overlaps_eq_false (by simp only [wordIndex]; omega)]
        simp
      case psize => rw [overlaps_eq_true] <;> simp [wordIndex]
      case bufptr =>
        rw [overlaps_eq_true (m := 8) (by simp only [wordIndex]; omega) (by simp only [wordIndex]; omega) (by omega) (by omega)]
        simp
      case flags =>
        rw [overlaps_eq_true (m := 8) (by simp only [wordIndex]; omega) (by simp only [wordIndex]; omega) (by omega) (by omega)]
        simp
    · rw [overlaps_eq_false (by omega), overlaps_eq_false (by omega)]
      simp [hij]
  · have := h.rings r ring hr
    unfold ringSpan at this
    rw [overlaps_eq_false (by omega), overlaps_eq_false (by omega)]
    simp [hr]

/-- A write inside a slot's buffer touches no slot but that one. -/
theorem touchesSlot_buf {s : State} (h : RegionFacts s.cfg) {ring r : Ring} {i j off n : Nat} (hi : i < s.cfg.ringLen)
    (hj : j < s.cfg.ringLen) (hn : off + n ≤ s.cfg.bufSize) (hij : r ≠ ring ∨ j ≠ i) :
    touchesSlot s (bufAddr s.cfg ring i + BitVec.ofNat 32 off) n r j = false := by
  have hi2 := buf_le hi
  have hj2 := buf_le hj
  have ht := h.poolTop ring
  have ha : (bufAddr s.cfg ring i + BitVec.ofNat 32 off).toNat = ((poolPa s.cfg ring).toNat + i * s.cfg.bufSize + off) % 2 ^ 32 := by
    rw [BitVec.toNat_add, BitVec.toNat_ofNat, bufAddr_toNat h hi]
    omega
  by_cases hz : n = 0
  · subst hz; simp [touchesSlot, overlaps]
  · have ha' : (bufAddr s.cfg ring i + BitVec.ofNat 32 off).toNat = (poolPa s.cfg ring).toNat + i * s.cfg.bufSize + off := by
      rw [ha]; exact Nat.mod_eq_of_lt (by omega)
    unfold touchesSlot
    simp only [ha', descAddr_toNat h hj, bufAddr_toNat h hj, wordIndex]
    have hrp := h.ringPool r ring
    unfold ringSpan at hrp
    rw [overlaps_eq_false (by omega), overlaps_eq_false (by omega), overlaps_eq_false]
    · rfl
    · by_cases hr : r = ring
      · subst hr
        rcases hij with hij | hij
        · exact absurd rfl hij
        · rcases Nat.lt_or_gt_of_ne hij with hlt | hlt
          · have := buf_lt (b := s.cfg.bufSize) hlt; omega
          · have := buf_lt (b := s.cfg.bufSize) hlt; omega
      · have := h.pools r ring hr; omega

/-! ### Races of HOST -/

theorem race?_eq_none {s : State} {w : Writer} {a : Word} {n : Nat}
    (h : ∀ r j, j < s.cfg.ringLen → touchesSlot s a n r j = true → mayWrite s w r j = true) : race? s w a n = none := by
  have hf : ∀ r, (List.range s.cfg.ringLen).find? (fun i => touchesSlot s a n r i && !mayWrite s w r i) = none := by
    intro r
    rw [List.find?_eq_none]
    intro j hj
    cases ht : touchesSlot s a n r j
    · simp
    · simp [h r j (List.mem_range.1 hj) ht]
  unfold race?
  simp only [hf]
  rfl

/-- The slot a race names is one that was touched and is not the writer's. -/
theorem race?_eq_some {s : State} {w : Writer} {a : Word} {n : Nat} {r : Ring} {j : Nat} (h : race? s w a n = some (r, j)) :
    j < s.cfg.ringLen ∧ touchesSlot s a n r j = true ∧ mayWrite s w r j = false := by
  have hf : ∀ r, (List.range s.cfg.ringLen).find? (fun i => touchesSlot s a n r i && !mayWrite s w r i) = some j →
      j < s.cfg.ringLen ∧ touchesSlot s a n r j = true ∧ mayWrite s w r j = false := by
    intro r hr
    have h1 := List.find?_some hr
    have h2 := List.mem_of_find?_eq_some hr
    simp only [Bool.and_eq_true, Bool.not_eq_true'] at h1
    exact ⟨List.mem_range.1 h2, h1.1, h1.2⟩
  unfold race? at h
  dsimp only at h
  split at h
  · rename_i i hi; cases h; exact hf .tx hi
  · rw [Option.map_eq_some_iff] at h
    obtain ⟨i, hi, e⟩ := h
    cases e
    exact hf .rx hi

/-- HOST's write of a descriptor word is a race exactly when the word is not CMDSTS and the slot is hardware-owned, and the
race is recorded with that slot (R222, R501). -/
theorem race?_desc {s : State} (h : RegionFacts s.cfg) {ring : Ring} {i : Nat}
    (hi : i < s.cfg.ringLen) (w : DescWord) :
    race? s .host (slotAddr s ring i w) 4 = if w ≠ .cmdsts ∧ slotOwned s ring i = true then some (ring, i) else none := by
  split
  · rename_i hw
    cases hr : race? s .host (slotAddr s ring i w) 4 with
    | none =>
      exfalso
      have hne : ∀ r, (List.range s.cfg.ringLen).find?
          (fun j => touchesSlot s (slotAddr s ring i w) 4 r j && !mayWrite s .host r j) = none := by
        unfold race? at hr
        dsimp only at hr
        split at hr
        · cases hr
        · rename_i h1
          rw [Option.map_eq_none_iff] at hr
          intro r
          cases r
          · exact h1
          · exact hr
      have := List.find?_eq_none.1 (hne ring) i (List.mem_range.2 hi)
      simp [touchesSlot_desc h hi hi, mayWrite, hw] at this
    | some x =>
      obtain ⟨r, j⟩ := x
      have h1 := race?_eq_some hr
      have h2 := h1.2.1
      rw [touchesSlot_desc h hi h1.1, decide_eq_true_iff] at h2
      rw [h2.1, h2.2.1]
  · rename_i hw
    apply race?_eq_none
    intro r j hj ht
    rw [touchesSlot_desc h hi hj, decide_eq_true_iff] at ht
    obtain ⟨rfl, rfl, hc⟩ := ht
    cases ho : slotOwned s r j
    · simp [mayWrite, ho]
    · exact absurd ⟨hc, ho⟩ hw

/-- HOST's write inside the buffer of a slot it owns is no race. -/
theorem race?_buf {s : State} (h : RegionFacts s.cfg) {ring : Ring} {i off n : Nat} (hi : i < s.cfg.ringLen)
    (hn : off + n ≤ s.cfg.bufSize) (ho : slotOwned s ring i = false) :
    race? s .host (bufAddr s.cfg ring i + BitVec.ofNat 32 off) n = none := by
  apply race?_eq_none
  intro r j hj ht
  by_cases hrj : r ≠ ring ∨ j ≠ i
  · rw [touchesSlot_buf h hi hj hn hrj] at ht
    cases ht
  · obtain ⟨h1, h2⟩ := not_or.1 hrj
    have h1 := Classical.not_not.1 h1
    have h2 := Classical.not_not.1 h2
    subst h1; subst h2
    simp [mayWrite, ho]

end Sys2Proof.Machine
end

