-- ==== Sys2Proof/Laws/Steps.lean ====
section
/-!
SUPPORT. Sys2Proof/Laws/Steps.lean: how runs of turns unfold one turn at a time, and what HOST's turn does in each
position of control.
-/
namespace Sys2Proof.Machine

/-! ### Runs of turns -/

theorem runTurns_nil (s : State) : runTurns [] s = .next s := rfl

theorem runTurns_cons_next {t : Config.Turn} {ts : List Config.Turn} {s s' : State} (h : takeTurn t s = .next s') :
    runTurns (t :: ts) s = runTurns ts s' := by
  simp [runTurns, h]

/-- Two runs one after the other are one run. -/
theorem runTurns_append_next {l l' : List Config.Turn} {s u : State} (h : runTurns l s = .next u) :
    runTurns (l ++ l') s = runTurns l' u := by
  induction l generalizing s with
  | nil => simp only [runTurns] at h; cases h; rfl
  | cons t ts ih =>
    simp only [runTurns] at h
    split at h
    · rename_i s' hs
      rw [List.cons_append, runTurns_cons_next hs]
      exact ih h
    · cases h
    · cases h

theorem hostTurns_zero (s : State) : hostTurns 0 s = .next s := rfl

theorem hostTurns_succ {n : Nat} {s s' : State} (h : hostTurn s = .next s') : hostTurns (n + 1) s = hostTurns n s' :=
  runTurns_cons_next (t := .host) h

theorem hostTurns_add {m n : Nat} {s u : State} (h : hostTurns m s = .next u) :
    hostTurns (m + n) s = hostTurns n u := by
  unfold hostTurns
  rw [← List.replicate_append_replicate]
  exact runTurns_append_next h

/-! ### HOST's turn -/

theorem hostTurn_of_ops {s : State} {op : HostOp} {rest : List HostOp} (h : s.ops = op :: rest) :
    hostTurn s = runOp op { s with ops := rest } := by
  unfold hostTurn
  rw [h]

theorem hostTurn_of_pending {s : State} (h : s.ops = []) (hp : s.irqPending = true) :
    hostTurn s = exec .entryIrq s := by
  unfold hostTurn
  rw [h]
  simp [hp]

theorem hostTurn_of_prog {s : State} (h : s.ops = []) (hp : s.irqPending = false) :
    hostTurn s = if s.prog = [] then .next s else fetchHost s := by
  unfold hostTurn
  rw [h]
  simp only [hp]
  cases hq : s.prog <;> simp

/-- A spurious run takes the interrupt between two entry points, and has no move inside one. -/
theorem spuriousTurn_eq (s : State) : spuriousTurn s = if s.ops = [] then takeInterrupt s else s := by
  unfold spuriousTurn
  cases s.ops <;> rfl

/-- The turn of a fair agent is a turn of that agent, or nothing. -/
theorem fairTurn_cases (a : Config.FairAgent) (s : State) :
    fairTurn a s = .next s ∨ ∃ t : Config.Turn, (a ≠ .host → t ≠ .host ∧ t ≠ .fair .host) ∧
      fairTurn a s = takeTurn t s ∧ ∀ b, t ≠ .fair b := by
  cases a
  · exact .inr ⟨.host, by simp, rfl, by simp⟩
  · exact .inr ⟨.miic, by simp, rfl, by simp⟩
  · exact .inr ⟨.eec, by simp, rfl, by simp⟩
  · simp only [fairTurn]
    split
    · exact .inr ⟨.txdma, by simp, rfl, by simp⟩
    · exact .inl rfl
  · simp only [fairTurn]
    split
    · exact .inr ⟨.rxdma, by simp, rfl, by simp⟩
    · exact .inl rfl
  · exact .inr ⟨.deliver, by simp, rfl, by simp⟩

/-! ### One micro-operation, with the window's handle set -/

theorem runOp_rd32 {s : State} (h : s.ctx.regHandle ≠ none) (r : Reg) : runOp (.rd32 r) s = .next (regRead32 r s) :=
  withHandle_set h _

theorem runOp_wr32 {s : State} (h : s.ctx.regHandle ≠ none) (r : Reg) (v : Word) :
    runOp (.wr32 r v) s = .next (regWrite32 r v s) :=
  withHandle_set h _

theorem runOp_wr8 {s : State} (h : s.ctx.regHandle ≠ none) (i : Nat) (b : Byte) :
    runOp (.wr8 i b) s = .next (regWrite8 i b s) :=
  withHandle_set h _

theorem runOp_stopPulse {s : State} (h : s.ctx.regHandle ≠ none) : runOp .stopPulse s = .next (stopPulse s) :=
  withHandle_set h _

theorem runOp_pollMii {s : State} (h : s.ctx.regHandle ≠ none) : runOp .pollMii s = .next (pollMii s) :=
  withHandle_set h _

theorem runOp_pollEe {s : State} (h : s.ctx.regHandle ≠ none) : runOp .pollEe s = .next (pollEe s) :=
  withHandle_set h _

theorem runOp_miiCmd {s : State} (h : s.ctx.regHandle ≠ none) (o : MiiOp) {a r : Nat} (d : Half) (ha : a ≤ 31)
    (hr : r ≤ 31) :
    runOp (.miiCmd o a r d) s =
      .next (regWrite32 .gmiiControl (miiCmdWord o (BitVec.ofNat 5 a) (BitVec.ofNat 5 r) d) s) := by
  simp only [runOp, withHandle_set h]
  rw [if_neg (by omega)]

theorem runOp_eeCmd {s : State} (h : s.ctx.regHandle ≠ none) {w : Nat} (hw : w ≤ 63) :
    runOp (.eeCmd w) s = .next (regWrite32 .romInterface (eeCmdWord (BitVec.ofNat 6 w)) s) := by
  simp only [runOp, withHandle_set h]
  rw [if_neg (by omega)]

/-- Everything a micro-operation can do: an access of the window, an access of host memory, a poll, or a point. -/
theorem runOp_cases {op : HostOp} {s t : State} (h : runOp op s = .next t) :
    WindowFrame s t ∨ HostMemFrame s t ∨ PollFrame s t ∨ PointFrame s t := by
  cases op
  case rd32 r => cases withHandle_next h; exact .inl (regRead32_frame r s)
  case wr32 r v => cases withHandle_next h; exact .inl (regWrite32_frame r v s)
  case wr8 i b => cases withHandle_next h; exact .inl (regWrite8_frame i b s)
  case stopPulse => cases withHandle_next h; exact .inl (stopPulse_frame s)
  case miiCmd o a r d =>
    have h := withHandle_next h
    split at h
    · cases h; exact .inl (.of_refuse _ s)
    · cases h; exact .inl (regWrite32_frame _ _ s)
  case eeCmd w =>
    have h := withHandle_next h
    split at h
    · cases h; exact .inl (.of_refuse _ s)
    · cases h; exact .inl (regWrite32_frame _ _ s)
  case pollMii => cases withHandle_next h; exact .inr (.inr (.inl (pollMii_frame s)))
  case pollEe => cases withHandle_next h; exact .inr (.inr (.inl (pollEe_frame s)))
  case memRead ring i w => cases h; exact .inr (.inl (hostDescRead_frame ring i w s))
  case memWrite ring i w v => exact .inr (.inl (hostDescWrite_frame h))
  case bufWrite ring i off b => exact .inr (.inl (hostBufWrite_frame h))
  case bufRead i k => cases h; exact .inr (.inl (hostBufRead_frame i k s))
  case zeroRings => cases h; exact .inr (.inl (zeroRings_frame s))
  case point p => exact .inr (.inr (.inr (runPoint_frame h)))

end Sys2Proof.Machine
end

