-- ==== Sys2Proof/Tests/Slice0.lean ====
section
/-!
SUPPORT. Sys2Proof/Tests/Slice0.lean: the model's own tests, each about one operation or one step on a small state. The
expected values are written out from spec/30_encoding.md or copied from spec/95_test_vectors.md (the vector's number is
in the comment); none is the model's own answer. The last part has, for every obligation with hypotheses, a state and
operands that meet them.
-/
namespace Sys2Proof.Tests
open Sys2Proof Sys2Proof.Machine

/-! ### Small states -/

/-- What a next state shows; none on a fault or a refusal. -/
def seen {α : Type} (r : Result) (f : State → α) : Option α :=
  match r with
  | .next s => some (f s)
  | .fault _ => none
  | .refused _ => none

/-- The fault an operation ends in, if it does. -/
def faultOf (r : Result) : Option Fault :=
  match r with
  | .fault f => some f
  | .next _ => none
  | .refused _ => none

/-- Spec/95's configuration with buffers of 64 bytes and a concrete RX_BAD: bit 0 is the error bit. -/
def conf : Config.Params :=
  { Config.reference with
    ringLen := 4, bufSize := 64, txRingPa := 0x00010000, rxRingPa := 0x00010040, txPoolPa := 0x00100000
    rxPoolPa := 0x00102000, rxBad := .errorBits 1 0 }

/-- The power-on state once the window is mapped. -/
def mapped : State :=
  { State.reset with cfg := conf, ctx.regHandle := some 0xFEBF0000, ctx.irqHandle := some 11 }

/-- The same in the SOFT phase. -/
def soft : State := { mapped with regs.intrControl := 0x00008000 }

/-- The same with the device removed. -/
def gone : State := { mapped with removed := true }

/-- A descriptor's sixteen bytes. -/
def desc (psize cmdsts bufptr flags : Word) : List Byte :=
  wordBytes psize ++ wordBytes cmdsts ++ wordBytes bufptr ++ wordBytes flags

/-- The end of P1 (spec/95 Part 3) with the given bytes written. -/
def ready (m : Memory) : State :=
  { mapped with
    regs := { Regs.reset with
      txCfg := 0x00001A00, rxCfg := 0x00001A0C, txDescBase := 0x00010000, rxDescBase := 0x00010040
      intrMask := 0x000100CC, stationControl := 0x04001800, rxMac := 0x11000A00, rxMacAddr25 := 0x55443322
      hash0 := 0xFFFFFFFF, hash1 := 0xFFFFFFFF }
    tx := { en := true, base := 0x00010000, ptr := 0, kick := false, idle := false }
    rx := { en := true, base := 0x00010040, ptr := 0, kick := true, idle := false }
    ctx := { mapped.ctx with
      speed := some .s100, duplex := some .full, autonegDone := true, allocated := true, txCursor := some 0
      rxCursor := some 0, phys := [⟨1, 0x001D, 0x8001, 0x786D, 0x0F⟩], cur := some 0, enabled := true
      stationAddress := some ⟨0x00, 0x11, 0x22, 0x33, 0x44, 0x55⟩, fsm := .negotiated, linkAtReset := some true }
    mem := m }

/-- TX slot 0 as the last slot of a ring would be if it were hardware-owned with four bytes to send. -/
def txReady (flags : Word) : State :=
  ready (memWriteBytes (memWriteBytes [] 0x00010000 (desc 4 0xC0230000 0x00100000 flags)) 0x00100000 [1, 2, 3, 4])

/-- RX slot 0 hardware-owned with a buffer of `cap` bytes, and one frame to the station address. -/
def rxReady (cap : Word) (bytes : List Byte) : State :=
  { ready (memWriteBytes [] 0x00010040 (desc 0 0xC0000000 0x00102000 cap)) with
    wireIn := [⟨bytes, false⟩], pins := [0x7FFFFFFE, 0x7FFFFFFE, 0] }

/-- Both slots 0 software-owned: the TX slot free, the RX slot with a frame of three bytes and the given status. -/
def hostReady (status : Word) : State :=
  ready (memWriteBytes (memWriteBytes (memWriteBytes [] 0x00010000 (desc 0 0 0x00100000 0))
    0x00010040 (desc 3 status 0x00102000 64)) 0x00102000 [7, 8, 9])

/-! ### WellFormed: an ill-formed term for each check -/

theorem test_wf_bitbang : (Instr.miiBitbang 0 1 1 0 0).WellFormed = false := by decide
theorem test_wf_rsvd : (Instr.miiRsvd 0 1 1 0 0).WellFormed = false := by decide
theorem test_wf_rsvdLines : (Instr.eeRsvdLines 0 3 2 0).WellFormed = false := by decide
theorem test_wf_recv : (Instr.entryRecv (2 ^ 32)).WellFormed = false := by decide
theorem test_wf_send : (Instr.entrySend (List.replicate (2 ^ 32) 0)).WellFormed = false := by
  rw [Instr.WellFormed, List.length_replicate]
  decide

/-! ### Decoding, from words written out bit by bit for the reference REGMAP -/

/-- The decoder under the reference REGMAP. -/
def ref (bytes : List Byte) : Decoded := decode Config.referenceMap bytes

/-- R300, R312: W = 0, SZ = 010, OFF: 0x2000 + off, the low byte first. -/
theorem test_decode_reads :
    ref [0x00, 0x00, 0x20] = .ok .rd32TxControl [] ∧ ref [0x00, 0x04, 0x20] = .ok .rd32TxDescBase [] ∧
    ref [0x00, 0x10, 0x20] = .ok .rd32RxControl [] ∧ ref [0x00, 0x14, 0x20] = .ok .rd32RxDescBase [] ∧
    ref [0x00, 0x20, 0x20] = .ok .rd32IntrStatus [] ∧ ref [0x00, 0x24, 0x20] = .ok .rd32IntrMask [] ∧
    ref [0x00, 0x28, 0x20] = .ok .rd32IntrControl [] ∧ ref [0x00, 0x3C, 0x20] = .ok .rd32ROMInterface [] ∧
    ref [0x00, 0x40, 0x20] = .ok .rd32StationControl [] ∧ ref [0x00, 0x44, 0x20] = .ok .rd32GMIIControl [] ∧
    ref [0x00, 0x58, 0x20] = .ok .rd32RGDelay [] ∧ ref [0x00, 0x60, 0x20] = .ok .rd32RxMacControl [] ∧
    ref [0x00, 0x64, 0x20] = .ok .rd32RxMacAddr25 [] ∧ ref [0x00, 0x68, 0x20] = .ok .rd32RxHashTable0 [] ∧
    ref [0x00, 0x6C, 0x20] = .ok .rd32RxHashTable1 [] := by decide

/-- R300, R312: W = 1, SZ = 010: 0xA000 + off, then the data word. -/
theorem test_decode_writes :
    ref [0x00, 0x00, 0xA0, 0x11, 0x1A, 0x00, 0x00] = .ok (.wr32TxControl 0x00001A11) [] ∧
    ref [0x00, 0x04, 0xA0, 0x00, 0x00, 0x01, 0x00] = .ok (.wr32TxDescBase 0x00010000) [] ∧
    ref [0x00, 0x10, 0xA0, 0x1D, 0x1A, 0x00, 0x00] = .ok (.wr32RxControl 0x00001A1D) [] ∧
    ref [0x00, 0x14, 0xA0, 0x40, 0x00, 0x01, 0x00] = .ok (.wr32RxDescBase 0x00010040) [] ∧
    ref [0x00, 0x20, 0xA0, 0xFF, 0xFF, 0xFF, 0xFF] = .ok (.wr32IntrStatus 0xFFFFFFFF) [] ∧
    ref [0x00, 0x24, 0xA0, 0xCC, 0x00, 0x01, 0x00] = .ok (.wr32IntrMask 0x000100CC) [] ∧
    ref [0x00, 0x28, 0xA0, 0x00, 0x80, 0x00, 0x00] = .ok (.wr32IntrControl 0x00008000) [] ∧
    ref [0x00, 0x3C, 0xA0, 0x80, 0x02, 0x00, 0x00] = .ok (.wr32ROMInterface 0x00000280) [] ∧
    ref [0x00, 0x40, 0xA0, 0x00, 0x18, 0x00, 0x04] = .ok (.wr32StationControl 0x04001800) [] ∧
    ref [0x00, 0x44, 0xA0, 0x50, 0x08, 0x00, 0x00] = .ok (.wr32GMIIControl 0x00000850) [] ∧
    ref [0x00, 0x58, 0xA0, 0x41, 0x04, 0x00, 0x00] = .ok (.wr32RGDelay 0x00000441) [] ∧
    ref [0x00, 0x60, 0xA0, 0x00, 0x0F, 0x00, 0x11] = .ok (.wr32RxMacControl 0x11000F00) [] ∧
    ref [0x00, 0x64, 0xA0, 0x22, 0x33, 0x44, 0x55] = .ok (.wr32RxMacAddr25 0x55443322) [] ∧
    ref [0x00, 0x68, 0xA0, 0xFF, 0xFF, 0xFF, 0xFF] = .ok (.wr32RxHashTable0 0xFFFFFFFF) [] ∧
    ref [0x00, 0x6C, 0xA0, 0xFF, 0xFF, 0xFF, 0xFF] = .ok (.wr32RxHashTable1 0xFFFFFFFF) [] := by decide

/-- R300, R312: W = 1, SZ = 000: 0x8062 to 0x8067. -/
theorem test_decode_bytes :
    ref [0x00, 0x62, 0x80, 0x00] = .ok (.wr8Sa01 0 0x00) [] ∧ ref [0x00, 0x63, 0x80, 0x11] = .ok (.wr8Sa01 1 0x11) [] ∧
    ref [0x00, 0x64, 0x80, 0x22] = .ok (.wr8Sa25 0 0x22) [] ∧ ref [0x00, 0x65, 0x80, 0x33] = .ok (.wr8Sa25 1 0x33) [] ∧
    ref [0x00, 0x66, 0x80, 0x44] = .ok (.wr8Sa25 2 0x44) [] ∧ ref [0x00, 0x67, 0x80, 0x55] = .ok (.wr8Sa25 3 0x55) [] := by
  decide

/-- V1, V2, V3 and R300: accesses the window does not have. -/
theorem test_decode_reserved :
    ref [0x00, 0x08, 0x20] = .reject .reservedOffset [] ∧ ref [0x00, 0x62, 0x20] = .reject .reservedOffset [] ∧
    ref [0x00, 0x61, 0x80, 0x00] = .reject .misalignedRegAccess [] ∧
    ref [0x00, 0x62, 0x00] = .reject .misalignedRegAccess [] ∧ ref [0x00, 0x00, 0x10] = .reject .misalignedRegAccess [] ∧
    ref [0x09, 0x00] = .reject .reservedEncoding [] ∧ ref [0x09, 0x0A] = .reject .reservedEncoding [] := by decide

/-- Spec/95 section 2.2: MiiCmd(RD, 1, 2), MiiCmd(RD, 31, 31), MiiCmd(WR, 1, 0, 0x9200), MiiCmd(WR, 2, 0, 0x1400), and the
words of V14, V15, V16. -/
theorem test_decode_mii :
    ref [0x01, 0x50, 0x10, 0x00, 0x00] = .ok (.miiRead 0 2 1) [] ∧
    ref [0x01, 0xD0, 0xFF, 0x00, 0x00] = .ok (.miiRead 0 31 31) [] ∧
    ref [0x01, 0x70, 0x00, 0x00, 0x92] = .ok (.miiWrite 0x9200 0 1) [] ∧
    ref [0x01, 0xB0, 0x00, 0x00, 0x14] = .ok (.miiWrite 0x1400 0 2) [] ∧
    ref [0x01, 0x00, 0x00, 0x00, 0x00] = .ok (.miiIdle 0 0 0 0) [] ∧
    ref [0x01, 0x01, 0x00, 0x00, 0x00] = .ok (.miiBitbang 0 0 0 0 1) [] ∧
    ref [0x01, 0x51, 0x08, 0x00, 0x00] = .ok (.miiRsvd 0 1 1 0 1) [] := by decide

/-- Spec/95 section 2.3: EeCmd(RD, 3), EeCmd(RD, 63), and the five other words of its table. -/
theorem test_decode_ee :
    ref [0x02, 0x80, 0x0E, 0x00, 0x00] = .ok (.eeRead 0 3) [] ∧
    ref [0x02, 0x80, 0xFE, 0x00, 0x00] = .ok (.eeRead 0 63) [] ∧
    ref [0x02, 0x80, 0x01, 0x00, 0x00] = .ok (.eeWrite 0 0) [] ∧
    ref [0x02, 0x80, 0x00, 0x00, 0x00] = .ok (.eeRsvd0 0 0) [] ∧
    ref [0x02, 0x80, 0x03, 0x00, 0x00] = .ok (.eeRsvd3 0 0) [] ∧
    ref [0x02, 0x81, 0x02, 0x00, 0x00] = .ok (.eeRsvdLines 0 0 2 1) [] ∧
    ref [0x02, 0x07, 0x00, 0x00, 0x00] = .ok (.eeIdle 0 0 0 7) [] := by decide

/-- R303, R315: ENB [0], POLL [4], SOFT [15]; the words of P1 and P2. -/
theorem test_decode_control :
    ref [0x03, 0x11, 0x1A, 0x00, 0x00] = .ok (.txctlKick 0xD0 0) [] ∧
    ref [0x03, 0x01, 0x1A, 0x00, 0x00] = .ok (.txctlEnable 0xD0 0) [] ∧
    ref [0x03, 0x00, 0x1A, 0x00, 0x00] = .ok (.txctlDisable 0xD0 0 0) [] ∧
    ref [0x04, 0x1D, 0x1A, 0x00, 0x00] = .ok (.rxctlKick 0xD0 6) [] ∧
    ref [0x04, 0x0D, 0x1A, 0x00, 0x00] = .ok (.rxctlEnable 0xD0 6) [] ∧
    ref [0x04, 0x0C, 0x1A, 0x00, 0x00] = .ok (.rxctlDisable 0xD0 0 6) [] ∧
    ref [0x05, 0x00, 0x80, 0x00, 0x00] = .ok (.icSoft 0 0) [] ∧
    ref [0x05, 0x00, 0x00, 0x00, 0x00] = .ok (.icRelease 0 0) [] ∧
    ref [0x06, 0x44, 0x00, 0x01, 0x00] = .ok (.isAck 0x00010044) [] := by decide

/-- R304, R316: OWN [31], INTR [30], CMD [23:16]; the words of section 2.4. -/
theorem test_decode_descriptors :
    ref [0x07, 0x00, 0x00, 0x23, 0xC0] = .ok (.txdHwown 1 0 0x23 0) [] ∧
    ref [0x07, 0x00, 0x00, 0x00, 0x00] = .ok (.txdSwown 0 0 0 0) [] ∧
    ref [0x08, 0x00, 0x00, 0x00, 0xC0] = .ok (.rxdHwown 1 0 0 0) [] ∧
    ref [0x08, 0x34, 0x12, 0x00, 0x40] = .ok (.rxdSwown 1 0 0 0x1234) [] := by decide

/-- R306: the entry-point codes 1 to 9. -/
theorem test_decode_entry :
    ref [0x09, 0x01] = .ok .entryInit [] ∧
    ref [0x09, 0x02, 0x02, 0x00, 0x00, 0x00, 0xAA, 0xBB, 0xCC] = .ok (.entrySend [0xAA, 0xBB]) [0xCC] ∧
    ref [0x09, 0x03, 0xEA, 0x05, 0x00, 0x00] = .ok (.entryRecv 1514) [] ∧
    ref [0x09, 0x04, 0x06] = .ok (.entrySetFilter false true true) [] ∧
    ref [0x09, 0x05, 0, 0x11, 0x22, 0x33, 0x44, 0x55] = .ok (.entrySetSa ⟨0, 0x11, 0x22, 0x33, 0x44, 0x55⟩) [] ∧
    ref [0x09, 0x06] = .ok .entryGetLink [] ∧ ref [0x09, 0x07] = .ok .entryStop [] ∧
    ref [0x09, 0x08] = .ok .entryIrq [] ∧ ref [0x09, 0x09] = .ok .entryTick [] := by decide

/-- R220, R524: a table word of TXD.HWOWN placed for the next step reaches the TX engine, which finds a descriptor whose
byte count is 0 and sends. -/
theorem test_placed_descriptor :
    seen (step (State.reset.withFetchWord 32 0xC0000000)) (fun t => (t.wireOut.length, t.tx.ptr)) = some (1, 1) := by
  decide

/-- R300: a table word of RD32.IntrMask placed for the next step is read. -/
theorem test_placed_access :
    seen (step (State.reset.withFetchWord 16 0x2024)) (fun t => (t.hostT, t.prog.length)) = some (0, 4) := by decide

/-- R7, R101: a REGMAP with IntrMask at 0x030 in place of 0x024, and StationControl's bits 0 and 31 exchanged. -/
def otherMap : Config.RegMap :=
  { Config.referenceMap with intrMask := 0x030#12, exchanges := [⟨.reg .stationControl, 0, 31⟩] }

theorem test_other_map :
    otherMap.ok = true ∧ decode otherMap [0x00, 0x30, 0x20] = .ok .rd32IntrMask [] ∧
    decode otherMap [0x00, 0x24, 0x20] = .reject .reservedOffset [] ∧
    decode otherMap [0x00, 0x40, 0xA0, 0x01, 0x00, 0x00, 0x04] = .ok (.wr32StationControl 0x84000000) [] ∧
    encode otherMap (.wr32StationControl 0x84000000) = [0x00, 0x40, 0xA0, 0x01, 0x00, 0x00, 0x04] := by decide

/-- A word with its bytes in the other order, as exchanges of bits. -/
def reversed (w : Config.LaidOut) : List Config.BitExchange :=
  [0, 1, 2, 3, 4, 5, 6, 7].flatMap (fun j => [⟨w, j, j + 24⟩, ⟨w, j + 8, j + 16⟩])

/-- R7, R114, R115, R203, R109: a block whose two words of the station address have their bytes in the other order, with the
byte offsets that go with it, and whose EE_OP is 01 for a read and 11 for a write. -/
def otherBytes : Config.RegMap :=
  { Config.referenceMap with
    saLane0 := 1, saLane1 := 0, saLane2 := 3, saLane3 := 2, saLane4 := 1, saLane5 := 0, eeOpRead := 0b01#2
    eeOpWrite := 0b11#2, exchanges := reversed (.reg .rxMacControl) ++ reversed (.reg .rxMacAddr25) }

/-- Byte 0 is at 0x61 and byte 2 at 0x67; 0x62 is none. -/
theorem test_other_byte_order :
    otherBytes.ok = true ∧ decode otherBytes [0x00, 0x61, 0x80, 0xAA] = .ok (.wr8Sa01 0 0xAA) [] ∧
    decode otherBytes [0x00, 0x67, 0x80, 0xAA] = .ok (.wr8Sa25 0 0xAA) [] ∧
    decode otherBytes [0x00, 0x62, 0x80, 0xAA] = .reject .misalignedRegAccess [] ∧
    decode otherBytes [0x00, 0x64, 0xA0, 0x01, 0x00, 0x00, 0x00] = .ok (.wr32RxMacAddr25 0x01000000) [] := by
  set_option maxRecDepth 4000 in decide

/-- R203, R207: the byte at 0x67 is bits [31:24] of the bus word at 0x64, which holds 0x44332211 with it 0xAA after it. -/
theorem test_other_byte_write :
    seen (exec (.wr8Sa25 0 0xAA) { mapped with cfg.regMap := otherBytes, regs.rxMacAddr25 := 0x11223344 })
      (fun t => (otherBytes.toBus (.reg .rxMacAddr25) t.regs.rxMacAddr25, t.regs.rxMacAddr25)) =
        some (0xAA332211, 0x112233AA) := by
  set_option maxRecDepth 4000 in decide

/-- R7, R203: a map that moves one bit of the word at 0x60 into the byte at 0x62 without its byte: the byte write still
replaces bits [23:16] of the bus word and no others, here bit 16 with the bit that the reference layout has at 0. `ok` says
no of such a map, since the byte at 0x62 is then no station-address byte (R115). -/
theorem test_moved_bit :
    (let m := { Config.referenceMap with exchanges := [⟨.reg .rxMacControl, 0, 16⟩] };
      m.ok = false ∧ seen (exec (.wr8Sa01 0 0xFF) { mapped with cfg.regMap := m })
        (fun t => (m.toBus (.reg .rxMacControl) t.regs.rxMac, t.regs.rxMac)) = some (0x00FF0000, 0x00FE0001)) := by decide

/-- EE_WORD 3 with EE_OP 01, 11, 00 and 10. -/
theorem test_other_ee_codes :
    decode otherBytes [0x02, 0x80, 0x0D, 0x00, 0x00] = .ok (.eeRead 0 3) [] ∧
    decode otherBytes [0x02, 0x80, 0x0F, 0x00, 0x00] = .ok (.eeWrite 0 3) [] ∧
    encode otherBytes (.eeRead 0 3) = [0x02, 0x80, 0x0D, 0x00, 0x00] ∧
    (decode otherBytes [0x02, 0x80, 0x0C, 0x00, 0x00] = .ok (.eeRsvd0 0 3) [] ∨
      decode otherBytes [0x02, 0x80, 0x0C, 0x00, 0x00] = .ok (.eeRsvd3 0 3) []) ∧
    (decode otherBytes [0x02, 0x80, 0x0E, 0x00, 0x00] = .ok (.eeRsvd0 0 3) [] ∨
      decode otherBytes [0x02, 0x80, 0x0E, 0x00, 0x00] = .ok (.eeRsvd3 0 3) []) := by decide

/-- R7, R305: a block whose BMSR is register 17 with LINK at bit 10 and 100FULL at bit 9. -/
def otherPhys : Config.PhyMap := { Config.referencePhyMap with bmsr := 17, link := 10, full100 := 9 }

theorem test_other_phys :
    seen (exec .entryGetLink { ready [] with cfg.phyMap := otherPhys }) (fun t => t.ops.head?) =
      some (some (.miiCmd .rd 1 17 0)) ∧
    seen (runOp (.point (.linkStatus 1)) { ready [] with cfg.phyMap := otherPhys, hostD := 0x0004 }) (fun t => t.ret) =
      some (some .down) ∧
    resolve otherPhys .fe 0x0200 0x0200 0 0 0 = (.s100, .full) ∧ resolve otherPhys .fe 0x0100 0x0100 0 0 0 = (.s10, .half) := by
  decide

/-- R7, R472: a block whose EEPROM has its signature in word 9, the RGMII flag at bit 3 and the even address byte high. -/
def otherEeprom : Config.EepromMap :=
  { Config.referenceEepromMap with signature := 9, rgmii := 3, evenByte := 8, oddByte := 0 }

theorem test_other_eeprom :
    seen (runOp (.point .resolveSa) { mapped with cfg.eepromMap := otherEeprom }) (fun t => t.ops.head?) =
      some (some (.eeCmd 9)) ∧
    seen (runOp (.point .saBoard) { mapped with cfg.eepromMap := otherEeprom, hostD := 0x0008 }) (fun t => t.ctx.rgmii) =
      some true ∧
    saBytes otherEeprom 0x1100 = [0x11, 0x00] := by decide

/-- R7, R1000: power-on values and the pulse of RGDelay that are not the reference ones. -/
theorem test_other_power_on :
    (powerOn { conf with powerOn.regs.rgDelay := 7, powerOn.tx.ptr := 2 }).regs.rgDelay = 7 ∧
    (powerOn { conf with powerOn.regs.rgDelay := 7, powerOn.tx.ptr := 2 }).tx.ptr = 2 ∧
    rgmiiPulseOps { Config.referenceCodes with delayPulse := 9 } = [.wr32 .rgDelay 9, .wr32 .rgDelay 0x00000440] := by decide

/-- R130; log entry 38: descriptor 1 of a ring at the top of the address space. -/
theorem test_descriptor_wraps : descAddr 0xFFFFFFF0 1 .cmdsts = 0x00000004 := by decide
/-- R202; log entries 44 and 32: HOST's bytes go on at address 0, and a DMA access past 2^32 is outside, in a region too. -/
theorem test_bytes_wrap :
    memWriteBytes [] 0xFFFFFFFF [1, 2] = [(0, 2), (0xFFFFFFFF, 1)] ∧ overlaps 0xFFFFFFFF 2 0 4 = false ∧
    dmaFault? { ready [] with cfg.txPoolPa := 0xFFFFFFF0 } 0xFFFFFFFF 2 = some 0x100000000 := by decide

/-! ### The register window (spec/95 section 2.1) -/

/-- V1, R317: refused, passed over. -/
theorem test_reserved_offset :
    seen (hostTurn { mapped with prog := [0x00, 0x08, 0x20, 0x09, 0x09] }) (fun t => (t.marks, t.prog)) =
      some ([.reservedOffset], [0x09, 0x09]) := by decide
/-- V4. -/
theorem test_wr8_last_byte :
    seen (exec (.wr8Sa25 3 0x55) { mapped with regs.rxMacAddr25 := 0xAABBCCDD }) (fun t => t.regs.rxMacAddr25) =
      some 0x55BBCCDD := by decide
/-- P1: the second byte of the station address goes to bits [31:24]. -/
theorem test_wr8_first_word : seen (exec (.wr8Sa01 1 0x11) mapped) (fun t => t.regs.rxMac) = some 0x11000000 := by decide
/-- V5. -/
theorem test_ring_base :
    seen (exec (.wr32TxDescBase 0x00010008) mapped) (fun t => (t.marks, t.regs.txDescBase)) =
      some ([.misalignedRingBase], 0) := by decide
theorem test_ring_base_rx : seen (exec (.wr32RxDescBase 0x00010040) mapped) (fun t => t.regs.rxDescBase) = some 0x00010040 := by
  decide
/-- V6, V7. -/
theorem test_removed_read : seen (exec .rd32IntrStatus gone) (fun t => t.hostT) = some 0xFFFFFFFF := by decide
theorem test_removed_write : seen (exec (.wr32IntrMask 0x000100CC) gone) (fun t => t.regs.intrMask) = some 0 := by decide
/-- V8, V9, V124. -/
theorem test_soft_read : seen (exec .rd32IntrStatus soft) (fun t => t.marks) = some [.accessDuringSoftReset] := by decide
theorem test_soft_release : seen (exec (.wr32IntrControl 0) soft) softPhase = some false := by decide
/-- R405, R904: an IntrControl write with SOFT = 1 in the SOFT phase does not end it, and is refused. -/
theorem test_soft_again : seen (exec (.icSoft 0 0) soft) (fun t => (t.marks, softPhase t)) =
    some ([.accessDuringSoftReset], true) := by decide
/-- Log entry 35: the device removed in the SOFT phase; the release ends the phase and the next read is all-ones. -/
theorem test_soft_removed :
    seen (exec (.icRelease 0 0) { soft with removed := true }) (fun t => (t.marks, softPhase t)) = some ([], false) := by
  decide
/-- Log entry 35: a SOFT write of a removed device does not begin the phase. -/
theorem test_removed_soft : seen (exec (.icSoft 0 0) gone) softPhase = some false := by decide
/-- V10. -/
theorem test_acknowledge :
    seen (exec (.wr32IntrStatus 0x00000044) { mapped with regs.intrStatus := 0x000100CC }) (fun t => t.regs.intrStatus) =
      some 0x00010088 := by decide
/-- V11. -/
theorem test_read_keeps_status :
    seen (exec .rd32IntrStatus { mapped with regs.intrStatus := 4 }) (fun t => (t.hostT, t.regs.intrStatus)) = some (4, 4) := by
  decide
/-- P1's TxControl with POLL read as the draw 0x10 (R102). -/
theorem test_read_control :
    seen (exec .rd32TxControl { ready [] with pins := [0x00000010] }) (fun t => t.hostT) = some 0x00001A11 ∧
    seen (exec .rd32RxControl { ready [] with pins := [0xFFFFFFEF] }) (fun t => t.hostT) = some 0x00001A0D := by decide

/-! ### The controllers (spec/95 sections 2.2, 2.3) -/

/-- The busy controller after V12. -/
def reading : State := { mapped with miic := { busy := true, op := .rd, phy := 1, reg := 1, wdata := 0, rdata := none } }

/-- V12, V13. -/
theorem test_mii_read : seen (exec (.miiRead 0 1 1) mapped) (fun t => (t.miic.busy, t.miic.op, t.miic.phy, t.miic.reg)) =
    some (true, .rd, 1, 1) := by decide
theorem test_mii_write : seen (exec (.wr32GMIIControl 0x92000070) mapped) (fun t => (t.miic.op, t.miic.phy, t.miic.wdata)) =
    some (.wr, 1, 0x9200) := by decide
/-- V14, V15, V16, V17. -/
theorem test_mii_idle : seen (exec (.miiIdle 0 0 0 0) mapped) (fun t => t.miic.busy) = some false := by decide
theorem test_mii_bitbang : seen (exec (.miiBitbang 0 0 0 0 1) mapped) (fun t => t.marks) = some [.miiBitBang] := by decide
theorem test_mii_rsvd : seen (exec (.miiRsvd 0 1 1 0 1) mapped) (fun t => t.marks) = some [.miiBitBang] := by decide
theorem test_mii_busy : seen (exec (.miiRead 0 1 1) reading) (fun t => t.marks) = some [.miiBusy] := by decide
/-- V18 and "Completion": the answer 0x786D, then v[31:16], v[15:5] = 0x042, v[4] = 0. -/
theorem test_mii_completion :
    seen (takeTurn .miic { reading with cfg := { conf with phyScript := .clauses (Config.pinnedReads 1 1 0 [0x786D]) } }) (fun t => t.miic.rdata) =
      some (some 0x786D) := by decide
/-- R462: a script that says a PHY's BMSR has its link bit only after a write of BMCR with ANRESTART, other bits free. -/
def linkScript : Config.PhyScript :=
  .clauses [⟨1, 1, [.lastWrite 0 0x0200 0x0200], 0x0004, 0x0004⟩, ⟨1, 1, [], 0x0004, 0x0000⟩]
theorem test_phy_script :
    scriptAnswer linkScript [] 1 1 0x786D = 0x7869 ∧ scriptAnswer linkScript [⟨.wr, 1, 0, 0x9200⟩] 1 1 0x7869 = 0x786D ∧
    scriptAnswer linkScript [⟨.wr, 1, 0, 0x9200⟩, ⟨.wr, 1, 0, 0x1000⟩] 1 1 0x786D = 0x7869 := by decide
theorem test_mii_readback :
    seen (exec .rd32GMIIControl
      { mapped with miic := { reading.miic with busy := false, rdata := some 0x786D }, regs.gmiiStored := 0x0840, pins := [0] })
      (fun t => t.hostT) = some 0x786D0840 := by decide
/-- Spec/95 section 2.3. -/
theorem test_ee_read : seen (exec (.wr32ROMInterface 0x00000E80) mapped) (fun t => (t.eec.busy, t.eec.word)) =
    some (true, 3) := by decide
theorem test_ee_completion :
    seen (takeTurn .eec { mapped with eec := { busy := true, word := 4, rdata := none } }) (fun t => t.eec.rdata) =
      some (some 0x3322) := by decide
theorem test_ee_write : seen (exec (.eeWrite 0 0) mapped) (fun t => t.marks) = some [.eeWriteUnsupported] := by decide
theorem test_ee_rsvd0 : seen (exec (.eeRsvd0 0 0) mapped) (fun t => t.marks) = some [.reservedEncoding] := by decide
theorem test_ee_rsvd3 : seen (exec (.eeRsvd3 0 0) mapped) (fun t => t.marks) = some [.reservedEncoding] := by decide
/-- Bits [6:0] are tested first (C16). -/
theorem test_ee_rsvdLines : seen (exec (.wr32ROMInterface 0x00000181) mapped) (fun t => t.marks) =
    some [.reservedEncoding] := by decide
theorem test_ee_idle : seen (exec (.eeIdle 0 0 0 7) mapped) (fun t => (t.regs.romStored, t.eec.busy)) = some (7, false) := by
  decide

/-! ### Engines and descriptors (spec/95 section 2.4) -/

/-- V44. -/
theorem test_tx_enable :
    seen (exec (.wr32TxControl 0x00001A01) { mapped with regs.txDescBase := 0x00010000, tx.ptr := 3, tx.idle := true })
      (fun t => t.tx) = some { en := true, base := 0x00010000, ptr := 0, kick := false, idle := false } := by decide
/-- V45. -/
theorem test_tx_kick :
    seen (exec (.txctlKick 0xD0 0) { ready [] with tx.idle := true, tx.ptr := 2 }) (fun t => (t.tx.kick, t.tx.ptr, visitFair t.tx)) =
      some (true, 2, true) := by decide
/-- V46. -/
theorem test_tx_disable :
    seen (exec (.txctlDisable 0xD0 0 0) { ready [] with tx.kick := true }) (fun t => (t.tx.en, t.tx.kick)) =
      some (false, false) := by decide
theorem test_rx_kick :
    seen (exec (.rxctlKick 0xD0 6) { ready [] with rx.kick := false }) (fun t => (t.rx.kick, t.regs.rxCfg)) =
      some (true, 0x00001A0C) := by decide
/-- V47 with a frame of four bytes: command bits 0x0023, the draw 0x80001234 without its OWN bit, TX_DONE. -/
theorem test_tx_visit :
    seen (exec (.txdHwown 1 0 0x23 0) { txReady 4 with pins := [0x80001234] })
      (fun t => (t.wireOut, memReadWord t.mem 0x00010004, t.regs.intrStatus, t.tx.ptr)) =
      some ([⟨[1, 2, 3, 4], 0x0023⟩], 0x00001234, 4, 1) := by decide
/-- V50. -/
theorem test_tx_wrap : seen (exec (.txdHwown 1 0 0x23 0) (txReady 0x80000004)) (fun t => t.tx.ptr) = some 0 := by decide
/-- V51, at slot 3. -/
theorem test_tx_overrun :
    faultOf (exec (.txdHwown 1 0 0x23 0)
      { ready (memWriteBytes [] 0x00010030 (desc 0 0xC0230000 0x00100000 4)) with tx.ptr := 3 }) = some (.ringOverrun .tx) := by
  decide
/-- V48, V49. -/
theorem test_tx_idle : seen (exec (.txdSwown 0 0 0 0) (ready [])) (fun t => (t.tx.idle, t.regs.intrStatus, t.tx.ptr)) =
    some (true, 8, 0) := by decide
theorem test_tx_idle_again : seen (exec (.txdSwown 0 0 0 0) { ready [] with tx.idle := true }) (fun t => t.regs.intrStatus) =
    some 0 := by decide
/-- R541, R542 with a good frame of six bytes: PSIZE's count, a CMDSTS without OWN that RX_BAD calls good, RX_DONE. -/
theorem test_rx_visit :
    seen (exec (.rxdHwown 1 0 0 0) (rxReady 64 [0x00, 0x11, 0x22, 0x33, 0x44, 0x55]))
      (fun t => (byteCount (memReadWord t.mem 0x00010040), memReadWord t.mem 0x00010044, memRead t.mem 0x00102005,
        t.regs.intrStatus, t.rx.ptr)) = some (6, 0x7FFFFFFE, 0x55, 0x40, 1) := by decide
/-- V52 with cap 4 and a frame of six bytes: four bytes written, reported bad (bit 0 in `conf`). -/
theorem test_rx_cut :
    seen (exec (.rxdHwown 1 0 0 0) (rxReady 4 [0x00, 0x11, 0x22, 0x33, 0x44, 0x55]))
      (fun t => (memRead t.mem 0x00102003, memGet? t.mem 0x00102004, rxBad conf.rxBad (memReadWord t.mem 0x00010044))) =
      some (0x33, none, true) := by decide
/-- V53, the draw 0 holding the frame. -/
theorem test_rx_idle :
    seen (exec (.rxdSwown 0 0 0 0) { rxReady 64 [0x00, 0x11, 0x22, 0x33, 0x44, 0x55] with pins := [0] })
      (fun t => (t.rx.idle, t.regs.intrStatus, t.wireIn.length)) = some (true, 0x80, 1) := by decide
/-- V54. -/
theorem test_rx_off :
    seen (takeTurn (.frame ⟨[1, 2, 3, 4, 5, 6], false⟩) { ready [] with rx.en := false }) (fun t => t.wireIn) = some [] := by
  decide
/-- V55. -/
theorem test_host_race :
    faultOf (runOp (.memWrite .tx 0 .psize 0) (txReady 4)) = some (.ownershipRace .tx 0 .host) := by decide
/-- R222, R501: TxDescBase latched at the TX pool; the write-back of CMDSTS lands in the buffer of slot 0, which HOST
owns. The visit's own descriptor is the first sixteen bytes of that buffer. -/
def strayTx : State :=
  { ready (memWriteBytes (memWriteBytes [] 0x00010000 (desc 0 0 0x00100000 0)) 0x00100000 (desc 4 0xC0230000 0x00100040 4))
    with tx.base := 0x00100000 }
theorem test_writeback_race : faultOf (exec (.txdHwown 1 0 0x23 0) strayTx) = some (.ownershipRace .tx 0 .txdma) := by decide
/-- R900, R903: the rules that raise F4 to F8. -/
theorem test_fault_rules :
    (faultCode (.tooLarge 65), faultRule (.tooLarge 65)) = (4, 506) ∧
    (faultCode (.ownershipRace .tx 0 .host), faultRule (.ownershipRace .tx 0 .host)) = (5, 222) ∧
    (faultCode (.ringOverrun .tx), faultRule (.ringOverrun .tx)) = (6, 522) ∧
    (faultCode (.dmaOutOfRegion 0), faultRule (.dmaOutOfRegion 0)) = (7, 202) ∧
    (faultCode (.unsetContextField .current), faultRule (.unsetContextField .current)) = (8, 140) := by decide
/-- V56 to V62. -/
theorem test_accept :
    accept (ready []) [0xFF, 0xFF, 0xFF, 0xFF, 0xFF, 0xFF] = true ∧ accept (ready []) [0x00, 0x11, 0x22, 0x33, 0x44, 0x55] = true ∧
    accept (ready []) [0x00, 0x11, 0x22, 0x33, 0x44, 0x56] = false ∧ accept (ready []) [0x01, 0x00, 0x5E, 0, 0, 1] = false ∧
    accept { ready [] with regs.rxMac := 0x11000F00 } [0x00, 0xAA, 0xBB, 0xCC, 0xDD, 0xEE] = true ∧
    accept { ready [] with regs.rxMac := 0x11000000 } [0x00, 0x11, 0x22, 0x33, 0x44, 0x55] = false := by decide
/-- Section 2.4, RING_LEN 32: the example of R504, slot 31. -/
theorem test_slot31 :
    bufAddr { Config.reference with rxPoolPa := 0x00100000 } .rx 31 = 0x0010F800 ∧
    flagsWord Config.reference 31 2048 = 0x80000800 := by decide
/-- The table of R507. -/
theorem test_release_words :
    releaseWord (cflags .full .s100) = 0xC0230000 ∧ releaseWord (cflags .half .s10) = 0xC03F0000 ∧
    releaseWord (cflags .half .s100) = 0xC03F0000 ∧ releaseWord (cflags .half .s1000) = 0xC0FF0000 := by decide

/-! ### Entry points (spec/95 sections 2.4 to 2.8) -/

/-- V25, V26, V120. -/
theorem test_send_empty : seen (exec (.entrySend []) (ready [])) (fun t => t.marks) = some [.emptyPayload] := by decide
theorem test_send_busy : seen (exec (.entrySend [1]) State.reset) (fun t => t.ret) = some (some .busy) := by decide
/-- V27 with BUF_SIZE 64. -/
theorem test_send_large : faultOf (exec (.entrySend (List.replicate 65 0)) (ready [])) = some (.tooLarge 65) := by decide
/-- V36, V43. -/
theorem test_recv_own :
    seen (runOp (.point (.recvOwn 0 1514)) { ready [] with hostT := 0xC0000000 }) (fun t => t.ret) = some (some .empty) := by decide
theorem test_recv_unset : faultOf (exec (.entryRecv 1514) State.reset) = some (.unsetContextField .rxCursor) := by decide
/-- V106 to V111: the filter bits. -/
theorem test_filter_bits :
    filterBits false false false = 0x00000200 ∧ filterBits false false true = 0x00000A00 ∧
    filterBits false true false = 0x00000600 ∧ filterBits false true true = 0x00000E00 ∧
    filterBits true false false = 0x00000F00 := by decide
/-- V121. -/
theorem test_filter_unset :
    faultOf (exec (.entrySetFilter false false false) State.reset) = some (.unsetContextField .regHandle) := by decide
/-- P1: ProgramSA begins with the read of the word at 0x60. -/
theorem test_setsa_reads :
    seen (exec (.entrySetSa ⟨2, 0, 0, 0, 0, 1⟩) (ready [])) (fun t => t.ops.head?) = some (some (.rd32 .rxMacControl)) := by decide
/-- V92, and P4: GET_LINK begins with the latched BMSR of the current PHY. -/
theorem test_link_unset : faultOf (exec .entryGetLink State.reset) = some (.unsetContextField .current) := by decide
theorem test_link_reads : seen (exec .entryGetLink (ready [])) (fun t => t.ops.head?) = some (some (.miiCmd .rd 1 1 0)) := by
  decide
/-- P3: STOP begins with the mask's clear and has thirteen places. -/
theorem test_stop : seen (exec .entryStop (ready [])) (fun t => (t.ops.head?, t.ops.length)) =
    some (some (.wr32 .intrMask 0), 13) := by decide
/-- V114, V115, V117. -/
theorem test_init_none :
    seen (exec .entryInit { State.reset with cfg.devicePresent := false }) (fun t => t.ret) = some (some .errorNoDevice) := by decide
theorem test_init_map : faultOf (exec .entryInit { State.reset with cfg.mapOk := false }) = some .mapFailed := by decide
/-- V102: a run of IRQ reads IntrStatus with the line disarmed. -/
theorem test_irq : seen (exec .entryIrq (ready [])) (fun t => (t.ops.head?, t.irqArmed)) =
    some (some (.rd32 .intrStatus), false) := by decide
/-- R707: a spurious run has no move while an entry point is in progress, and one between two. -/
theorem test_spurious :
    seen (takeTurn .spurious { ready [] with ops := [.point .initDone] }) (fun t => (t.irqArmed, t.irqPending)) =
      some (true, false) ∧
    seen (takeTurn .spurious (ready [])) (fun t => (t.irqArmed, t.irqPending)) = some (false, true) := by decide
/-- V122 and the TICK of section 2.6. -/
theorem test_tick : seen (exec .entryTick { ready [] with ctx.rxErrors := 3 }) (fun t => t.statRxErrors) = some 3 := by decide

/-! ### Interrupts and the link FSM (spec/95 sections 2.5, 2.6) -/

/-- V93 to V101. -/
theorem test_events :
    decodeEvents 0xFFFFFFFF = [] ∧ decodeEvents 0 = [] ∧ decodeEvents 0x00020000 = [] ∧
    decodeEvents 0x0000000C = [.sendAvailable] ∧ decodeEvents 0x00000080 = [.recvAvailable] ∧
    decodeEvents 0x000300CC = [.sendAvailable, .recvAvailable, .linkChange] := by decide
/-- The line (R704), V119. -/
theorem test_line :
    irqLine { ready [] with regs.intrStatus := 4 } = true ∧ irqLine { mapped with regs.intrStatus := 4 } = false ∧
    irqLine { ready [] with regs.intrStatus := 4, removed := true } = false := by decide
/-- Resolve with the reference PHY registers. -/
def phyResolve : ChipModel → Half → Half → Half → Half → Half → Speed × Duplex := resolve Config.referencePhyMap
/-- V64 to V74. -/
theorem test_resolve :
    phyResolve .fe 0x45E1 0x01E1 0x0001 0 0 = (.s100, .full) ∧ phyResolve .ge 0xC5E1 0x01E1 0x0001 0x0300 0x3C00 = (.s1000, .full) ∧
    phyResolve .ge 0xC5E1 0x01E1 0x0001 0x0300 0x0400 = (.s1000, .half) ∧
    phyResolve .ge 0xC5E1 0x01E1 0x0001 0x0300 0 = (.s100, .full) ∧
    phyResolve .ge 0x45E1 0x01E1 0x0001 0x0300 0x3C00 = (.s100, .full) ∧
    phyResolve .ge 0xC5E1 0x01E1 0 0x0300 0x3C00 = (.s100, .full) ∧ phyResolve .fe 0x00C1 0x01E1 1 0 0 = (.s100, .half) ∧
    phyResolve .fe 0x0041 0x01E1 1 0 0 = (.s10, .full) ∧ phyResolve .fe 0x0021 0x01E1 1 0 0 = (.s10, .half) ∧
    phyResolve .fe 0x0001 0x01E1 1 0 0 = (.s10, .half) := by decide
/-- SC with the reference field codes. -/
def scWord : Speed → Duplex → Bool → Word → Word := stationWord Config.referenceCodes
/-- V75 to V80. -/
theorem test_station :
    scWord .s100 .full false 0 = 0x04001800 ∧ scWord .s100 .full false 0xFFFFFFFF = 0xF4FFFBFF ∧
    scWord .s1000 .full false 0 = 0x07001C00 ∧ scWord .s10 .half false 0 = 0x04000400 ∧
    scWord .s100 .full true 0 = 0x07001800 ∧ scWord .s10 .full false 0x12345678 = 0x14345678 := by decide
/-- V21: no signature and no override. -/
theorem test_apc : faultOf (runOp (.point .saSignature) { mapped with hostD := 0xFFFF }) = some .unsupportedApc := by decide
/-- V82: PHY 1's record. -/
theorem test_record :
    seen (runOp (.point (.scanId2 1 0x786D 0x001D)) { mapped with hostD := 0x8001 }) (fun t => t.ctx.phys) =
      some [⟨1, 0x001D, 0x8001, 0x786D, 0x0F⟩] := by decide
/-- V85: the bound exceeded. -/
theorem test_timeout :
    seen (runOp (.point (.linkPoll 1 10 true)) { mapped with hostD := 0 }) (fun t => (t.ctx.fsm, t.ops.length)) =
      some (.linkDownTimeout, 0) := by decide

/-! ### The launch premise (R1004) -/

/-- Two calls to make: INIT, then TICK. -/
def launched : State := { State.reset with prog := [0x09, 0x01, 0x09, 0x09] }

theorem test_clean_launch : CleanLaunch launched := by
  constructor
  case calls => exact ⟨[.entryInit, .entryTick], by decide, rfl⟩
  all_goals decide

/-- A program that begins with a plain register write is no list of calls. -/
theorem test_only_calls : ¬ OnlyCalls { State.reset with prog := [0x00, 0x24, 0xA0, 1, 0, 0, 0] } := by
  rintro ⟨calls, h, e⟩
  cases calls with
  | nil => cases e
  | cons i l =>
    have hi := h i (List.mem_cons_self ..)
    cases i <;> first
      | exact absurd (show some (0x00 : Byte) = some 0x09 from congrArg List.head? e) (by decide)
      | cases hi

/-! ### Witnesses: for each obligation with hypotheses, a state and operands that meet them, at the ends of the ranges -/

/-- MIIC at the end of a read that answered 0x786D. -/
def answered : State := { mapped with miic := { reading.miic with busy := false, rdata := some 0x786D } }

/-- MIIC busy with a write. -/
def writing : State := { mapped with miic := { reading.miic with op := .wr, wdata := 0x9200 } }

theorem test_witness_DecodeOfEncode :
    (Config.referenceMap.ok = true ∧ otherMap.ok = true) ∧
    (Instr.miiBitbang 0xFFFF 31 31 1 1).WellFormed = true ∧ (Instr.miiRsvd 0 0 0 0 15).WellFormed = true ∧
    (Instr.eeRsvdLines 0 63 3 1).WellFormed = true ∧ (Instr.entryRecv (2 ^ 32 - 1)).WellFormed = true ∧
    (Instr.entrySend []).WellFormed = true ∧ Instr.entryInit.WellFormed = true := by decide

theorem test_witness_EncodeOfDecode : ref [0x01, 0x50, 0x08, 0x00, 0x00, 0xAA] = .ok (.miiRead 0 1 1) [0xAA] := by decide

/-- HOST between two entry points, with the given program. -/
def running (prog : List Byte) : State := { mapped with prog := prog }

theorem test_witness_ReservedSelectorsRefused :
    (∀ r, conf.regMap.offset r ≠ 0x008) ∧ (∀ r, conf.regMap.offset r ≠ 0xFFF) ∧
    (running (encodeAcc (accSelector 0#1 0b010#3 0x008) [] ++ [1])).ops = [] ∧
    (running (encodeAcc (accSelector 1#1 0b010#3 0xFFF) (wordBytes 7) ++ [1])).irqPending = false ∧
    ((0b001#3 : BitVec 3) ≠ 0b010#3 ∧ ((0b001#3 : BitVec 3) ≠ 0b000#3 ∨ (1#1 : BitVec 1) = 0#1)) ∧
    ((0b000#3 : BitVec 3) ≠ 0b010#3 ∧ ((0b000#3 : BitVec 3) ≠ 0b000#3 ∨ (0#1 : BitVec 1) = 0#1)) ∧
    ((∀ lane, conf.regMap.sa01 lane ≠ 0x061#12) ∧ ∀ lane, conf.regMap.sa25 lane ≠ 0x061#12) ∧
    ((∀ lane, conf.regMap.sa01 lane ≠ 0x068#12) ∧ ∀ lane, conf.regMap.sa25 lane ≠ 0x068#12) ∧ 9 < (0x0A#8).toNat :=
  ⟨fun r => by cases r <;> decide, fun r => by cases r <;> decide, rfl, rfl, by decide, by decide, by decide, by decide,
    by decide⟩

theorem test_witness_StepRunsDecodedOperation :
    (let s := { running [0x09, 0x09] with sched := [.host] };
      s.sched = [.host] ∧ s.ops = [] ∧ s.irqPending = false ∧ decode s.cfg.regMap s.prog = .ok .entryTick [] ∧
        hostMakes .entryTick = true) ∧
    (let s := { txReady 4 with sched := [.txdma] };
      s.sched = [.txdma] ∧ s.tx.en = true ∧ dmaFault? s (descAddr s.tx.base s.tx.ptr .cmdsts) 4 = none) ∧
    (let s := { rxReady 64 [0x00, 0x11, 0x22, 0x33, 0x44, 0x55] with sched := [.rxdma] };
      s.sched = [.rxdma] ∧ s.rx.en = true ∧ s.wireIn = [⟨[0x00, 0x11, 0x22, 0x33, 0x44, 0x55], false⟩] ∧
        accept s [0x00, 0x11, 0x22, 0x33, 0x44, 0x55] = true ∧
        dmaFault? s (descAddr s.rx.base s.rx.ptr .cmdsts) 4 = none) := by decide

/-- A state of a run in which the invariant holds and a step is taken: the ready block with a frame waiting. -/
def waiting : State := { rxReady 64 [0x00, 0x11, 0x22, 0x33, 0x44, 0x55] with sched := [.link] }

theorem test_witness_EveryStepKeepsInv :
    Inv waiting ∧ step waiting = .next { waiting with sched := [], regs.intrStatus := 0x00010000 } := by
  refine ⟨?_, rfl⟩
  constructor
  case txCursor => exact fun c h => by cases h; decide
  case rxCursor => exact fun c h => by cases h; decide
  case current => exact fun c h => by cases h; decide
  all_goals decide

/-- RegistersReadBack, CommandRegistersReadBack (its data clauses too), StationAddressByteWrites, on the reference map (that
of `otherBytes` is test_other_byte_order's), AcknowledgeClearsWrittenBits: open windows. -/
theorem test_witness_open :
    windowOpen mapped = true ∧ mapped.cfg.regMap = Config.referenceMap ∧ Config.referenceMap.ok = true ∧ windowOpen answered = true ∧ answered.miic.busy = false ∧
    answered.miic.rdata = some 0x786D ∧
    (let s := { mapped with eec := { busy := false, word := 0, rdata := some 0x0190 } };
      windowOpen s = true ∧ s.eec.busy = false ∧ s.eec.rdata = some 0x0190) := by decide

theorem test_witness_RegistersTakeWrites :
    windowOpen mapped = true ∧ (0xFFFFFFF0#32).toNat % 16 = 0 ∧ (0xFFFFFFFF#32).toNat % 16 ≠ 0 ∧
    (0x00000001#32).toNat % 16 ≠ 0 := by decide

/-- A command row, a read of IntrControl and a write of it with SOFT = 1 are refused; a write of IntrMask, as a next
state, leaves IntrControl alone. -/
theorem test_witness_SoftPhaseRefusesAccesses :
    softPhase soft = true ∧ (accessesWindow (.isAck 0) = true ∧ isReleaseRow (.isAck 0) = false) ∧
    (accessesWindow .rd32IntrControl = true ∧ isReleaseRow .rd32IntrControl = false) ∧
    (accessesWindow (.wr32IntrControl 0x8000) = true ∧ isReleaseRow (.wr32IntrControl 0x8000) = false) ∧
    writesIntrControl (.wr32IntrMask 1) = false ∧
    exec (.wr32IntrMask 1) mapped = .next { mapped with regs.intrMask := 1 } :=
  ⟨rfl, ⟨rfl, rfl⟩, ⟨rfl, rfl⟩, ⟨rfl, rfl⟩, rfl, rfl⟩

theorem test_witness_RemovedDeviceAccesses :
    softPhase gone = false ∧ gone.removed = true ∧ readsWindow .rd32GMIIControl = true ∧
    accessesWindow (.icSoft 0 0) = true ∧ readsWindow (.icSoft 0 0) = false ∧ gone.ctx.regHandle ≠ none ∧
    ({ gone with ops := [.pollMii] }).ops = [.pollMii] := by decide

/-- An idle controller (ManagementCommandStarts, IdleAndBitBangWrites) and a busy one (BusyManagementRefusesWrites,
ManagementCompletion, with an absent address and a write). -/
theorem test_witness_management :
    (windowOpen mapped = true ∧ mapped.miic.busy = false ∧ (1#4 : BitVec 4) ≠ 0 ∧ (15#4 : BitVec 4) ≠ 0) ∧
    (windowOpen reading = true ∧ reading.miic.busy = true ∧ reading.miic.op = .rd) ∧
    (let s := { reading with miic.phy := 31 }; s.miic.busy = true ∧ s.miic.op = .rd ∧
      s.cfg.phyPresent.getLsbD s.miic.phy.toNat = false) ∧
    (writing.miic.busy = true ∧ writing.miic.op = .wr) := by decide

/-- Two clauses about one answer that both apply. -/
def twoClauses : Config.PhyScript := .clauses [⟨1, 1, [], 0x0004, 0x0004⟩, ⟨1, 1, [], 0x8024, 0x0020⟩]

/-- ManagementCompletion's clause on PHY_SCRIPT: PHY 1 with a clause that applies to its next answer, and with a second one
that fixes bits 15 and 5, which the first leaves. -/
theorem test_witness_management_script :
    (let s := { reading with cfg := { conf with phyScript := .clauses (Config.pinnedReads 1 1 0 [0x786D]) } };
      s.miic.busy = true ∧ s.miic.op = .rd ∧ s.cfg.phyPresent.getLsbD s.miic.phy.toNat = true ∧
        s.cfg.phyScript = .clauses [⟨1, 1, [.readsAtLeast 0], 0xFFFF, 0x786D⟩] ∧
        clauseApplies s.phyLog s.miic.phy s.miic.reg ⟨1, 1, [.readsAtLeast 0], 0xFFFF, 0x786D⟩ = true) ∧
    (let s := { reading with cfg := { conf with phyScript := twoClauses } };
      s.cfg.phyScript = .clauses ([⟨1, 1, [], 0x0004, 0x0004⟩] ++ ⟨1, 1, [], 0x8024, 0x0020⟩ :: []) ∧
        clauseApplies s.phyLog s.miic.phy s.miic.reg ⟨1, 1, [], 0x8024, 0x0020⟩ = true ∧
        (0x8024#16 : Half).getLsbD 15 = true ∧ (0x0004#16 : Half).getLsbD 15 = false ∧
        (0x8024#16 : Half).getLsbD 5 = true ∧ (0x0004#16 : Half).getLsbD 5 = false) := by decide

/-- R462: the first clause gives bit 2, the second one bits 15 and 5, and bit 2 no more; the rest stays free. -/
theorem test_two_clauses :
    scriptAnswer twoClauses [] 1 1 0x0000 = 0x0024 ∧ scriptAnswer twoClauses [] 1 1 0xFFFF = 0x7FFF := by decide

/-- The same with a relation. -/
theorem test_witness_management_relation :
    (let s := { reading with cfg := { conf with phyScript := .relation 0 } };
      s.miic.busy = true ∧ s.miic.op = .rd ∧ s.cfg.phyPresent.getLsbD s.miic.phy.toNat = true ∧
        s.cfg.phyScript = .relation 0) := by decide

/-- EepromReadReturnsWord, at the last word; OtherRomInterfaceWrites, idle and busy. -/
theorem test_witness_eeprom :
    (windowOpen mapped = true ∧ mapped.eec.busy = false) ∧ (1#7 : BitVec 7) ≠ 0 ∧
    (let s := { mapped with ops := eeReadOps 63 ++ [] };
      windowOpen s = true ∧ s.eec.busy = false ∧ 63 < 64 ∧ s.ctx.regHandle ≠ none ∧ s.ops = eeReadOps 63 ++ []) ∧
    (let s := { mapped with eec := { busy := true, word := 0, rdata := none } };
      windowOpen s = true ∧ s.eec.busy = true) := by decide

/-- EngineEnableAndKick on engines off and on; DisabledEngineIsStill; SoftResetAndRelease in and out of the SOFT phase and
on a removed device; AcknowledgeClearsWrittenBits. -/
theorem test_witness_engines :
    (windowOpen mapped = true ∧ mapped.tx.en = false ∧ mapped.rx.en = false ∧ mapped.removed = false) ∧
    (windowOpen (ready []) = true ∧ (ready []).tx.en = true ∧ (ready []).rx.en = true) ∧
    (soft.removed = false ∧ softPhase soft = true) ∧
    (let s := { soft with removed := true }; s.removed = true ∧ softPhase s = true) := by decide

theorem test_witness_InterruptDelivery :
    ({ mapped with ops := [.point .rearm] }).ops = [.point .rearm] ∧
    ({ mapped with irqPending := true }).ops = [] ∧ ({ mapped with irqPending := true }).irqPending = true ∧
    (irqLine { ready [] with regs.intrStatus := 4 } = true ∧ (ready []).irqArmed = true) := by decide

theorem test_witness_DecodeOfStatus : (0x60020033#32 : Word) &&& 0x000100CC = 0 := by decide

/-- A frame of exactly BUFLEN bytes at slot 0, without and with RING_END. -/
theorem test_witness_TransmitVisit :
    (let s := txReady 4;
      s.tx.en = true ∧ dmaFault? s (descAddr s.tx.base s.tx.ptr .psize) 16 = none ∧
        byteCount (visitWord s s.tx .psize) = 4 ∧ visitWord s s.tx .bufptr = 0x00100000 ∧ visitWord s s.tx .flags = 4 ∧
        0 < 4 ∧ 4 ≤ ((4#32 : Word).extractLsb' 0 16).toNat ∧ dmaFault? s 0x00100000 4 = none ∧
        race? s .txdma (descAddr s.tx.base s.tx.ptr .cmdsts) 4 = none ∧ s.tx.ptr + 1 ≠ s.cfg.ringLen) ∧
    (let s := txReady 0x80000004;
      visitWord s s.tx .flags = 0x80000004 ∧ (0x80000004#32 : Word).getLsbD 31 = true ∧
        race? s .txdma (descAddr s.tx.base s.tx.ptr .cmdsts) 4 = none) := by decide

/-- One byte more than BUFLEN; the last slot without RING_END, with no bytes and with a frame of exactly BUFLEN bytes; a
descriptor and a frame outside the regions, each by its first or its last byte; a write-back into HOST's buffer. -/
theorem test_witness_TransmitVisitOtherCases :
    (let s := txReady 3;
      s.tx.en = true ∧ dmaFault? s (descAddr s.tx.base s.tx.ptr .psize) 16 = none ∧
        byteCount (visitWord s s.tx .psize) = 4 ∧ visitWord s s.tx .flags = 3 ∧ ((3#32 : Word).extractLsb' 0 16).toNat < 4 ∧
        race? s .txdma (descAddr s.tx.base s.tx.ptr .cmdsts) 4 = none ∧ s.tx.ptr + 1 ≠ s.cfg.ringLen) ∧
    (let s := { ready (memWriteBytes [] 0x00010030 (desc 0 0xC0230000 0x00100000 4)) with tx.ptr := 3 };
      dmaFault? s (descAddr s.tx.base s.tx.ptr .psize) 16 = none ∧ byteCount (visitWord s s.tx .psize) = 0 ∧
        visitWord s s.tx .flags = 4 ∧ (4#32 : Word).getLsbD 31 = false ∧
        race? s .txdma (descAddr s.tx.base s.tx.ptr .cmdsts) 4 = none ∧ s.tx.ptr + 1 = s.cfg.ringLen) ∧
    (let s := { ready (memWriteBytes [] 0x00010030 (desc 4 0xC0230000 0x00100000 4)) with tx.ptr := 3 };
      dmaFault? s (descAddr s.tx.base s.tx.ptr .psize) 16 = none ∧ byteCount (visitWord s s.tx .psize) = 4 ∧
        visitWord s s.tx .bufptr = 0x00100000 ∧ dmaFault? s 0x00100000 4 = none ∧
        race? s .txdma (descAddr s.tx.base s.tx.ptr .cmdsts) 4 = none ∧ s.tx.ptr + 1 = s.cfg.ringLen) := by decide

theorem test_witness_TransmitVisitOtherCases_faults :
    (let s := { ready [] with tx.base := 0x00000FF0 };
      s.tx.en = true ∧ dmaFault? s (descAddr s.tx.base s.tx.ptr .psize) 16 = some 0x00000FF0) ∧
    (let s := ready (memWriteBytes [] 0x00010000 (desc 4 0xC0230000 0x001020FD 4));
      s.tx.en = true ∧ dmaFault? s (descAddr s.tx.base s.tx.ptr .psize) 16 = none ∧
        byteCount (visitWord s s.tx .psize) = 4 ∧ visitWord s s.tx .bufptr = 0x001020FD ∧
        visitWord s s.tx .flags = 4 ∧ dmaFault? s 0x001020FD 4 = some 0x00102100) ∧
    (strayTx.tx.en = true ∧ dmaFault? strayTx (descAddr strayTx.tx.base strayTx.tx.ptr .psize) 16 = none ∧
      byteCount (visitWord strayTx strayTx.tx .psize) = 4 ∧ visitWord strayTx strayTx.tx .bufptr = 0x00100040 ∧
      visitWord strayTx strayTx.tx .flags = 4 ∧ dmaFault? strayTx 0x00100040 4 = none ∧
      race? strayTx .txdma (descAddr strayTx.tx.base strayTx.tx.ptr .cmdsts) 4 = some (.tx, 0)) := by decide

theorem test_witness_TransmitIdleVisit :
    (ready []).tx.en = true ∧ (ready []).tx.idle = false ∧ ({ ready [] with tx.idle := true }).tx.idle = true := by decide

/-- A frame of six bytes in a buffer of exactly six, and in one of five (reported bad). -/
theorem test_witness_ReceiveVisit (cap : Word) (h : cap = 6 ∨ cap = 5) :
    (let s := rxReady cap [0x00, 0x11, 0x22, 0x33, 0x44, 0x55];
      let f : Config.Frame := ⟨[0x00, 0x11, 0x22, 0x33, 0x44, 0x55], false⟩;
      s.rx.en = true ∧ s.wireIn = [f] ∧ accept s f.bytes = true ∧ f.bytes.length ≤ 65535 ∧
        dmaFault? s (descAddr s.rx.base s.rx.ptr .psize) 16 = none ∧
        visitWord s s.rx .bufptr = 0x00102000 ∧ visitWord s s.rx .flags = cap ∧
        (f.bad || decide ((cap.extractLsb' 0 16).toNat < f.bytes.length)) = decide (cap = 5) ∧
        dmaFault? s 0x00102000 (min f.bytes.length (cap.extractLsb' 0 16).toNat) = none ∧
        rxRace? 0x00102000 (min f.bytes.length (cap.extractLsb' 0 16).toNat) s = none ∧
        s.rx.ptr + 1 ≠ s.cfg.ringLen ∧ rxBadOk s.cfg.rxBad = true) := by
  rcases h with rfl | rfl <;> decide

/-- RX slot 3 with a buffer of 64 bytes and no RING_END, its buffer at `bp`, and a frame of six bytes. -/
def rxLast (bp : Word) : State :=
  { ready (memWriteBytes [] 0x00010070 (desc 0 0xC0000000 bp 64)) with
    rx.ptr := 3, wireIn := [⟨[0x00, 0x11, 0x22, 0x33, 0x44, 0x55], false⟩] }

/-- A descriptor and a buffer outside the regions; a buffer in the TX pool, whose slots are never the RX engine's; the last
slot without RING_END. -/
theorem test_witness_ReceiveVisitFaults :
    (let s := { rxLast 0x001020C0 with rx.base := 0x00000FF0 };
      s.rx.en = true ∧ accept s [0x00, 0x11, 0x22, 0x33, 0x44, 0x55] = true ∧
        dmaFault? s (descAddr s.rx.base s.rx.ptr .psize) 16 = some 0x00001020) ∧
    (let s := rxLast 0x001020FC;
      s.rx.en = true ∧ s.wireIn = [⟨[0x00, 0x11, 0x22, 0x33, 0x44, 0x55], false⟩] ∧
        accept s [0x00, 0x11, 0x22, 0x33, 0x44, 0x55] = true ∧ visitWord s s.rx .bufptr = 0x001020FC ∧
        visitWord s s.rx .flags = 64 ∧ min 6 ((64#32 : Word).extractLsb' 0 16).toNat = 6 ∧
        dmaFault? s (descAddr s.rx.base s.rx.ptr .psize) 16 = none ∧ dmaFault? s 0x001020FC 6 = some 0x00102100) ∧
    (let s := rxLast 0x00100000;
      visitWord s s.rx .bufptr = 0x00100000 ∧ dmaFault? s (descAddr s.rx.base s.rx.ptr .psize) 16 = none ∧
        dmaFault? s 0x00100000 6 = none ∧ rxRace? 0x00100000 6 s = some (.tx, 0)) ∧
    (let s := rxLast 0x001020C0;
      visitWord s s.rx .bufptr = 0x001020C0 ∧ dmaFault? s 0x001020C0 6 = none ∧ rxRace? 0x001020C0 6 s = none ∧
        (64#32 : Word).getLsbD 31 = false ∧ s.rx.ptr + 1 = s.cfg.ringLen) := by decide

theorem test_witness_ReceiveFullAndRefusedVisits :
    (let s := rxReady 64 [0x00, 0x11, 0x22, 0x33, 0x44, 0x55];
      s.rx.en = true ∧ s.wireIn = [⟨[0x00, 0x11, 0x22, 0x33, 0x44, 0x55], false⟩] ∧
        accept s [0x00, 0x11, 0x22, 0x33, 0x44, 0x55] = true ∧ s.cfg.rxFullPolicy = .either) ∧
    (let s := { rxReady 64 [0x00, 0x11, 0x22, 0x33, 0x44, 0x55] with cfg.rxFullPolicy := .drop };
      s.cfg.rxFullPolicy = .drop ∧ accept s [0x00, 0x11, 0x22, 0x33, 0x44, 0x55] = true) ∧
    (let s := { rxReady 64 [0x00, 0x11, 0x22, 0x33, 0x44, 0x55] with cfg.rxFullPolicy := .hold };
      s.cfg.rxFullPolicy = .hold ∧ accept s [0x00, 0x11, 0x22, 0x33, 0x44, 0x55] = true) ∧
    (let s := rxReady 64 [0x00, 0x11, 0x22, 0x33, 0x44, 0x56];
      s.rx.en = true ∧ accept s [0x00, 0x11, 0x22, 0x33, 0x44, 0x56] = false) := by decide

theorem test_witness_FrameArrivalAndFilter :
    ((⟨[1], false⟩ : Config.Frame).bytes ≠ [] ∧ (⟨[1], false⟩ : Config.Frame).bytes.length ≤ 65535) ∧
    (ready []).regs.hash0 = 0xFFFFFFFF ∧ (ready []).regs.hash1 = 0xFFFFFFFF ∧
    (let d : StationAddr := ⟨0x01, 0x00, 0x5E, 0x00, 0x00, 0x01⟩; d.b0.getLsbD 0 = true ∧ d.bytes ≠ List.replicate 6 0xFF) ∧
    (let d : StationAddr := ⟨0xFF, 0xFF, 0xFF, 0xFF, 0xFF, 0xFE⟩; d.b0.getLsbD 0 = true ∧ d.bytes ≠ List.replicate 6 0xFF) := by
  decide

/-- R545, R116: with tables of zeros no hash accepts a multicast destination, MCAST = 1 or not. -/
theorem test_multicast_tables :
    accept { ready [] with regs.rxMac := 0x11000E00, regs.hash0 := 0, regs.hash1 := 0 } [0x01, 0x00, 0x5E, 0, 0, 1] = false := by
  simp [accept, destOf, broadcastAddr, hashBit]

/-- The longest frame. -/
theorem test_witness_FrameArrival_longest : (List.replicate 65535 (0 : Byte)).length ≤ 65535 :=
  Nat.le_of_eq List.length_replicate

theorem test_witness_DeviceAgentsLeaveHostAlone :
    (Config.Turn.link ≠ .host ∧ Config.Turn.link ≠ .fair .host ∧
      takeTurn .link mapped = .next { mapped with regs.intrStatus := 0x00010000 }) :=
  ⟨by decide, by decide, rfl⟩

/-- R702, R701, R124: of all bits asked for the nine are set; a link event; a removal. -/
theorem test_environment_events :
    seen (takeTurn (.irqBits 0xFFFFFFFF) mapped) (fun t => t.regs.intrStatus) = some 0x600E0033 ∧
    seen (takeTurn .link { mapped with regs.intrStatus := 1 }) (fun t => t.regs.intrStatus) = some 0x00010001 ∧
    seen (takeTurn .remove mapped) (fun t => (t.removed, t.regs.intrStatus)) = some (true, 0) := by decide

/-- Each reserved bit at its end, a misaligned buffer, a hardware-owned slot, a software-owned one; with both rings at one
base, a write of a slot of one ring that touches a slot of the other, and a write of CMDSTS that touches none. -/
theorem test_witness_DescriptorWordWrites :
    (0x01000000#32 : Word).extractLsb' 24 6 ≠ 0 ∧ (0x20000000#32 : Word).extractLsb' 24 6 ≠ 0 ∧
    (0x00010000#32 : Word).extractLsb' 16 15 ≠ 0 ∧ (0x40000000#32 : Word).extractLsb' 16 15 ≠ 0 ∧
    (0x00100008#32 : Word).extractLsb' 0 4 ≠ 0 ∧
    (descRefusal? .psize 0xFFFFFFFF = none ∧ DescWord.psize ≠ .cmdsts ∧ slotOwned (txReady 4) .tx 0 = true ∧
      regionsOk (txReady 4).cfg = true ∧ 0 < (txReady 4).cfg.ringLen) ∧
    (descRefusal? .flags 0x8000FFFF = none ∧ slotOwned (hostReady 2) .tx 0 = false ∧ regionsOk (hostReady 2).cfg = true ∧
      memWf (hostReady 2).mem = true) ∧
    descRefusal? .cmdsts 0xC0FFFFFF = none ∧
    (let s := { txReady 4 with cfg.rxRingPa := 0x00010000 };
      race? s .host (slotAddr s .rx 0 .psize) 4 = some (.tx, 0) ∧
        race? { s with cfg.ringLen := 1 } .host (slotAddr s .rx 0 .cmdsts) 4 = none) := by decide

/-- HOST-owned slots at the first and at the last place of the rings. -/
def initialising (i : Nat) (a b : Word) : State :=
  { ready (memWriteBytes (memWriteBytes [] a (desc 0 0 0 0)) b (desc 0 0 0 0)) with ops := [.point (.initSlot i)] }

theorem test_witness_RingInitialisation :
    paramsOk conf = true ∧ regionsOk conf = true ∧
    (let s := { mapped with ops := [.point .ringInit] };
      s.ops = .point .ringInit :: [] ∧ s.cfg = conf ∧ s.cfg.allocOk = true) ∧
    (let s := { mapped with ops := [.point .ringInit], cfg.allocOk := false };
      s.ops = .point .ringInit :: [] ∧ paramsOk s.cfg = true ∧ s.cfg.allocOk = false) ∧
    (let s := initialising 0 0x00010000 0x00010040; s.cfg = conf ∧ 0 < s.cfg.ringLen ∧ s.ops = [.point (.initSlot 0)] ∧
      slotOwned s .rx 0 = false ∧ slotOwned s .tx 0 = false) ∧
    (let s := initialising 3 0x00010030 0x00010070; s.cfg = conf ∧ 3 < s.cfg.ringLen ∧ s.ops = [.point (.initSlot 3)] ∧
      slotOwned s .rx 3 = false ∧ slotOwned s .tx 3 = false) ∧
    (let s := { mapped with ops := [.point (.initSlot 4)] };
      s.cfg = conf ∧ windowOpen s = true ∧ s.ctx.regHandle ≠ none ∧ 4 = s.cfg.ringLen ∧
        s.ops = .point (.initSlot 4) :: []) := by decide

/-- The bytes just before and just after both rings of `conf`, and just after slot 0 of its TX ring. -/
theorem test_witness_RingInitialisation_outside (ring : Ring) :
    (∀ k : Fin 64, (0x0000FFFF#32 : Word) ≠ ringPa conf ring + BitVec.ofNat 32 k) ∧
    (∀ k : Fin 64, (0x00010080#32 : Word) ≠ ringPa conf ring + BitVec.ofNat 32 k) ∧
    (∀ k : Fin 16, (0x00010010#32 : Word) ≠ slotAddr mapped ring 0 .psize + BitVec.ofNat 32 k) := by
  cases ring <;> decide

theorem test_witness_InitGuardAndPlatformChecks :
    ((ready []).ops = [] ∧ (ready []).ctx.enabled = true ∧
      (ready []).ctx.stationAddress = some ⟨0x00, 0x11, 0x22, 0x33, 0x44, 0x55⟩) ∧
    (let s := { State.reset with cfg.devicePresent := false };
      s.ops = [] ∧ s.ctx.enabled = false ∧ s.cfg.devicePresent = false) ∧
    (let s := { State.reset with cfg.mapOk := false };
      s.ops = [] ∧ s.ctx.enabled = false ∧ s.cfg.devicePresent = true ∧ s.cfg.mapOk = false) ∧
    (State.reset.ops = [] ∧ State.reset.ctx.enabled = false ∧ State.reset.cfg.devicePresent = true ∧
      State.reset.cfg.mapOk = true) := by decide

theorem test_witness_ResetSequence :
    (let s := { ready [] with ops := resetSeqOps conf ++ [] };
      windowOpen s = true ∧ s.ctx.regHandle ≠ none ∧ paramsOk s.cfg = true ∧ s.ops = resetSeqOps s.cfg ++ []) := by decide

theorem test_witness_StationAddressResolved :
    (let s := { mapped with ops := [.point .resolveSa] };
      s.ops = .point .resolveSa :: [] ∧ s.ctx.regHandle ≠ none ∧ windowOpen s = true ∧ s.eec.busy = false ∧
        s.cfg.saSource = .eeprom ∧ s.cfg.envSa = none ∧ eepromWord s.cfg s.cfg.eepromMap.signature ≠ 0x0000 ∧ eepromWord s.cfg s.cfg.eepromMap.signature ≠ 0xFFFF) ∧
    (let s := { mapped with ops := [.point .resolveSa], cfg.envSa := some ⟨2, 0, 0, 0, 0, 1⟩ };
      s.cfg.saSource = .eeprom ∧ s.cfg.envSa = some ⟨2, 0, 0, 0, 0, 1⟩ ∧ eepromWord s.cfg s.cfg.eepromMap.signature ≠ 0x0000 ∧
        eepromWord s.cfg s.cfg.eepromMap.signature ≠ 0xFFFF) ∧
    (let s := { mapped with ops := [.point .resolveSa], cfg.eeprom := Vector.replicate 64 0xFFFF };
      s.cfg.saSource = .eeprom ∧ s.cfg.envSa = none ∧ eepromWord s.cfg s.cfg.eepromMap.signature = 0xFFFF) ∧
    (let s := { mapped with
        ops := [.point .resolveSa], cfg.eeprom := Vector.replicate 64 0, cfg.envSa := some ⟨2, 0, 0, 0, 0, 1⟩ };
      s.cfg.saSource = .eeprom ∧ s.cfg.envSa = some ⟨2, 0, 0, 0, 0, 1⟩ ∧ eepromWord s.cfg s.cfg.eepromMap.signature = 0x0000) ∧
    (let s := { mapped with ops := [.point .resolveSa], cfg.saSource := .apc, cfg.envSa := some ⟨2, 0, 0, 0, 0, 1⟩ };
      s.ops = .point .resolveSa :: [] ∧ s.cfg.saSource = .apc ∧ s.cfg.envSa = some ⟨2, 0, 0, 0, 0, 1⟩) ∧
    (let s := { mapped with ops := [.point .resolveSa], cfg.saSource := .apc };
      s.cfg.saSource = .apc ∧ s.cfg.envSa = none) := by decide

theorem test_witness_InitEnablesAndReturns :
    (let s := { ready [] with
        tx.en := false, rx.en := false, ops := enableInterruptsOps ++ enableEnginesOps conf ++ [.point .initDone] };
      s.ops = enableInterruptsOps ++ enableEnginesOps s.cfg ++ [.point .initDone] ∧ s.ctx.regHandle ≠ none ∧
        windowOpen s = true ∧ paramsOk s.cfg = true ∧ s.tx.en = false ∧ s.rx.en = false ∧
        s.ctx.stationAddress = some ⟨0x00, 0x11, 0x22, 0x33, 0x44, 0x55⟩) := by decide

/-- Payloads of BUF_SIZE bytes and one more; a hardware-owned slot at the cursor. -/
theorem test_witness_SendTests :
    (ready []).ops = [] ∧ mapped.ops = [] ∧ mapped.ctx.autonegDone = false ∧
    ((ready []).ctx.autonegDone = true ∧ (ready []).cfg.bufSize < (List.replicate 65 (0 : Byte)).length) ∧
    (let s := txReady 4;
      s.ops = [] ∧ s.ctx.autonegDone = true ∧ (List.replicate 64 (0 : Byte)).length ≤ s.cfg.bufSize ∧
        s.ctx.txCursor = some 0 ∧ slotOwned s .tx 0 = true) := by decide

/-- A payload of one byte and one of BUF_SIZE bytes, both ends of the range. -/
theorem test_witness_SendQueuesFrame (n : Nat) (hn : n = 1 ∨ n = 64) :
    (let s := hostReady 2;
      let p : List Byte := List.replicate n 0xA5;
      s.ops = [] ∧ p ≠ [] ∧ s.ctx.autonegDone = true ∧ p.length ≤ s.cfg.bufSize ∧ paramsOk s.cfg = true ∧
        regionsOk s.cfg = true ∧ windowOpen s = true ∧ s.ctx.regHandle ≠ none ∧ s.ctx.txCursor = some 0 ∧
        0 < s.cfg.ringLen ∧ s.ctx.duplex = some .full ∧ s.ctx.speed = some .s100 ∧ slotOwned s .tx 0 = false) := by
  rcases hn with rfl | rfl <;> decide

theorem test_witness_ReceiveEmpty :
    (mapped.ops = [] ∧ mapped.ctx.rxCursor = none) ∧
    (let s := rxReady 64 []; s.ops = [] ∧ s.ctx.rxCursor = some 0 ∧ slotOwned s .rx 0 = true) := by decide

/-- A good frame of three bytes with room for three, and for none. -/
theorem test_witness_ReceiveDeliversFrame :
    (let s := hostReady 2;
      s.ops = [] ∧ paramsOk s.cfg = true ∧ regionsOk s.cfg = true ∧ windowOpen s = true ∧ s.ctx.regHandle ≠ none ∧
        s.ctx.rxCursor = some 0 ∧ 0 < s.cfg.ringLen ∧ slotOwned s .rx 0 = false ∧
        rxBad s.cfg.rxBad (slotWord s .rx 0 .cmdsts) = false ∧ min (byteCount (slotWord s .rx 0 .psize)) 1514 = 3 ∧
        min (byteCount (slotWord s .rx 0 .psize)) 0 = 0) := by decide

/-- R202; log entry 45: RECV's copy of two bytes at the last byte of a pool takes the byte after the pool. -/
theorem test_copy_beyond_pool :
    (let s := { mapped with
        cfg.ringLen := 1, cfg.bufSize := 1, cfg.rxRingPa := 0x00010000
        mem := memWriteBytes (memWriteBytes [] 0x00010000 (desc 2 0 0x00102000 1)) 0x00102000 [1, 2] };
      s.ctx.allocated = false ∧ inRegions { s with ctx.allocated := true } 0x00102001 = false ∧
        seen (runOp (.bufRead 0 2) s) (fun t => (t.dst, t.marks)) = some ([1, 2], [])) := by decide

/-- Without and with RX_ERR_ADVANCE. -/
theorem test_witness_ReceiveCountsBadFrame :
    (let s := hostReady 1;
      s.ops = [] ∧ paramsOk s.cfg = true ∧ regionsOk s.cfg = true ∧ windowOpen s = true ∧ s.ctx.regHandle ≠ none ∧
        s.ctx.rxCursor = some 0 ∧ 0 < s.cfg.ringLen ∧ slotOwned s .rx 0 = false ∧
        rxBad s.cfg.rxBad (slotWord s .rx 0 .cmdsts) = true ∧ s.cfg.rxErrAdvance = false) ∧
    (let s := { hostReady 1 with cfg.rxErrAdvance := true };
      paramsOk s.cfg = true ∧ rxBad s.cfg.rxBad (slotWord s .rx 0 .cmdsts) = true ∧ s.cfg.rxErrAdvance = true) := by decide

/-- SendQueuesFrame, ReceiveDeliversFrame and ReceiveCountsBadFrame with the engine on and with it off. -/
theorem test_witness_kicked_engines :
    (hostReady 2).tx.en = true ∧ (hostReady 2).rx.en = true ∧
    (let s := { hostReady 2 with tx.en := false, rx.en := false };
      s.tx.en = false ∧ s.rx.en = false ∧ windowOpen s = true ∧ slotOwned s .tx 0 = false ∧ slotOwned s .rx 0 = false ∧
        rxBad s.cfg.rxBad (slotWord s .rx 0 .cmdsts) = false) ∧
    (let s := { hostReady 1 with rx.en := false, cfg.rxErrAdvance := true };
      s.rx.en = false ∧ windowOpen s = true ∧ slotOwned s .rx 0 = false ∧
        rxBad s.cfg.rxBad (slotWord s .rx 0 .cmdsts) = true) := by decide

/-- R809, R812: INIT's ProgramSA with the address set, and with none; STOP at its pulse, as ResetSeq left the window. -/
theorem test_witness_program_and_pulse :
    ((ready []).ops = [] ∧ (ready []).ctx.stationAddress = some ⟨0x00, 0x11, 0x22, 0x33, 0x44, 0x55⟩) ∧
    (mapped.ops = [] ∧ mapped.ctx.stationAddress = none) ∧
    (let s := { ready [] with ops := [.stopPulse, .wr32 .intrControl 0, .point .stopDone] };
      s.ctx.regHandle ≠ none ∧ windowOpen s = true ∧
        s.ops = [.stopPulse, .wr32 .intrControl 0, .point .stopDone]) := by decide

/-- R803, R815: STOP's pulse as it is at reset's reading, with the draws 0xFFFFFFFF. -/
theorem test_stop_redrawn :
    stopPulseOp conf = .wr32 .intrControl 0x00008000 ∧
    seen (runOp (stopPulseOp conf) { ready [] with pins := List.replicate 12 0xFFFFFFFF })
      (fun t => (t.regs.txCfg, t.regs.rxCfg, t.regs.intrStatus)) = some (0xFFFFFFEE, 0xFFFFFFEE, 0x600F00FF) := by decide

/-- R1003's reading: the CFG bits stay; of the status bits set before the pulse its draw keeps any, and it sets no other. -/
theorem test_stop_pulse (d : Word) (hd : d = 0xFFFFFFFF ∨ d = 0x00000040) :
    seen (runOp .stopPulse { ready [] with regs.intrStatus := 0x00010040, pins := List.replicate 12 d })
      (fun t => (t.regs.txCfg, t.regs.rxCfg, t.regs.intrMask, t.regs.intrControl, t.regs.intrStatus &&& d)) =
        some (0x00001A00, 0x00001A0C, 0, 0x00008000, 0x00010040 &&& d) := by
  rcases hd with rfl | rfl <;> decide

/-- R601: the second run of the FSM forgets the PHYs of the first and begins at address 0. -/
theorem test_fsm_start :
    seen (runOp (.point .fsmStart) (ready [])) (fun t => (t.ctx.phys, t.ctx.cur, t.ctx.autonegDone, t.ctx.fsm, t.ops.head?)) =
      some ([], none, false, .scanning, some (.miiCmd .rd 0 1 0)) := by decide

/-- InterruptHandler at the decode, at the acknowledge, before the first emit and after the last, with the link bit set
since the read, and at the end. -/
theorem test_witness_InterruptHandler :
    (let s := { ready [] with hostT := 0x00000044, ops := [.point .irqDecode] };
      s.ops = [.point .irqDecode] ∧ decodeEvents s.hostT = [.sendAvailable, .recvAvailable]) ∧
    (let s := { ready [] with
        regs.intrStatus := 0x00010044
        ops := [.wr32 .intrStatus 0x00000044, .wr32 .intrMask 0, .point (.emit .sendAvailable), .point (.emit .recvAvailable),
          .wr32 .intrMask 0x000100CC, .point .rearm, .point (.finish .done)] };
      s.ops = [.wr32 .intrStatus 0x00000044, .wr32 .intrMask 0]
          ++ [HostEvent.sendAvailable, .recvAvailable].map (fun e => HostOp.point (.emit e))
          ++ [.wr32 .intrMask 0x000100CC, .point .rearm, .point (.finish .done)] ∧
        s.ctx.regHandle ≠ none ∧ windowOpen s = true ∧ 0 ≤ [HostEvent.sendAvailable, .recvAvailable].length ∧
        2 ≤ [HostEvent.sendAvailable, .recvAvailable].length) ∧
    (let s := { ready [] with ops := [.wr32 .intrMask 0x000100CC, .point .rearm, .point (.finish .done)] };
      s.ops = [.wr32 .intrMask 0x000100CC, .point .rearm, .point (.finish .done)] ∧ s.ctx.regHandle ≠ none ∧
        windowOpen s = true) := by decide

/-- R1016, R1017: the link bit set between the read and the acknowledge survives; the mask is 0 and the line low at the
first emit. -/
theorem test_acknowledge_keeps_new_bit :
    (let s := { ready [] with
        regs.intrStatus := 0x00010044
        ops := [.wr32 .intrStatus 0x00000044, .wr32 .intrMask 0, .point (.emit .sendAvailable)] };
      seen (hostTurns 2 s) (fun t => (t.regs.intrStatus, t.regs.intrMask, irqLine t)) = some (0x00010000, 0, false)) := by
  decide

/-- R908; log entry 36: before INIT, in the SOFT phase, an entry point's first access faults and is not refused. -/
theorem test_handle_before_soft :
    faultOf (exec (.entrySetFilter false true true) { State.reset with regs.intrControl := 0x00008000 }) =
      some (.unsetContextField .regHandle) := by decide

/-- SetFilterResult, SetStationAddressResult, StopResult (in both readings) and InterruptHandler, in each of their cases. -/
theorem test_witness_idle_host :
    (State.reset.ops = [] ∧ State.reset.ctx.regHandle = none) ∧
    ((ready []).ops = [] ∧ (ready []).ctx.regHandle ≠ none ∧ windowOpen (ready []) = true ∧
      paramsOk (ready []).cfg = true ∧ softPhase (ready []) = false ∧ (ready []).cfg.regMap.ok = true ∧
      (ready []).cfg.stopReading = .redrawn) ∧
    (let s := { ready [] with cfg.stopReading := .kept };
      s.ops = [] ∧ s.ctx.regHandle ≠ none ∧ windowOpen s = true ∧ paramsOk s.cfg = true ∧ s.cfg.stopReading = .kept) ∧
    (let s := { ready [] with regs.intrStatus := 0x00010044 };
      s.ops = [] ∧ s.ctx.regHandle ≠ none ∧ softPhase s = false ∧ s.removed = false ∧
        decodeEvents s.regs.intrStatus ≠ []) ∧
    (let s := { ready [] with regs.intrStatus := 0x00020000 };
      s.removed = false ∧ decodeEvents s.regs.intrStatus = []) ∧
    (gone.ops = [] ∧ gone.ctx.regHandle ≠ none ∧ softPhase gone = false ∧ gone.removed = true) := by decide

theorem test_witness_GetLinkStatus :
    (State.reset.ops = [] ∧ State.reset.ctx.cur = none) ∧
    (let s := ready [];
      s.ops = [] ∧ s.ctx.cur = some 0 ∧ s.ctx.phys[0]? = some ⟨1, 0x001D, 0x8001, 0x786D, 0x0F⟩ ∧
        s.ctx.regHandle ≠ none ∧ windowOpen s = true ∧ s.miic.busy = false) ∧
    (0x7869#16 : Half).getLsbD 2 = false ∧ (0x786D#16 : Half).getLsbD 2 = true := by decide

/-- Both uses, on a 10/100 and on a gigabit chip. -/
theorem test_witness_CapabilityReadsResolve :
    (let s := { ready [] with ops := readAndResolveOps conf.phyMap 1 .getLink ++ [] };
      s.ops = readAndResolveOps conf.phyMap 1 .getLink ++ [] ∧ s.ctx.regHandle ≠ none ∧ windowOpen s = true ∧ s.miic.busy = false ∧
        s.cfg.chipModel = .fe) ∧
    (let s := { ready [] with cfg.chipModel := .ge, ops := readAndResolveOps conf.phyMap 31 (.negotiated true) ++ [.pollMii] };
      s.ops = readAndResolveOps conf.phyMap 31 (.negotiated true) ++ [.pollMii] ∧ s.ctx.regHandle ≠ none ∧ windowOpen s = true ∧
        s.miic.busy = false ∧ s.cfg.chipModel = .ge) := by decide

/-- V65, V66, V67, V68, V69, V70: each case of Resolve. -/
theorem test_witness_ResolvePriority :
    ((0xC5E1#16 : Half).getLsbD 15 = true ∧ (0x0001#16 : Half).getLsbD 0 = true ∧ (0x0300#16 : Half).getLsbD 9 = true ∧
      (0x3C00#16 : Half).getLsbD 11 = true) ∧
    (((0x0300#16 : Half).getLsbD 9 && (0x0400#16 : Half).getLsbD 11) = false ∧ (0x0300#16 : Half).getLsbD 8 = true ∧
      (0x0400#16 : Half).getLsbD 10 = true) ∧
    (((0x0300#16 : Half).getLsbD 9 && (0#16 : Half).getLsbD 11) = false ∧
      ((0x0300#16 : Half).getLsbD 8 && (0#16 : Half).getLsbD 10) = false) ∧
    (0x45E1#16 : Half).getLsbD 15 = false ∧ (0x0000#16 : Half).getLsbD 0 = false := by decide

/-- StationControlReprogrammed; NegotiationCompletes with and without the RGMII pulse. -/
theorem test_witness_fsm_points :
    (let s := { mapped with ops := [.rd32 .stationControl, .point (.stationWrite .s100 .full)] ++ [] };
      windowOpen s = true ∧ s.ctx.regHandle ≠ none ∧
        s.ops = [.rd32 .stationControl, .point (.stationWrite .s100 .full)] ++ []) ∧
    (let s := { mapped with ops := [.point (.negotiated true)], ctx.rgmii := true };
      windowOpen s = true ∧ s.ctx.regHandle ≠ none ∧ s.ops = .point (.negotiated true) :: [] ∧
        (true && s.ctx.rgmii) = true) ∧
    (let s := { mapped with ops := [.point (.negotiated false)] };
      windowOpen s = true ∧ s.ops = .point (.negotiated false) :: [] ∧ (false && s.ctx.rgmii) = false) := by decide

/-- Addresses 0, 30 and 31; an all-zeros, an all-ones and a real status; an empty list and one with a record. -/
theorem test_witness_ScanningFindsPhys :
    (({ mapped with hostD := 0x0000 }).hostD = 0x0000 ∧ 30 < 31) ∧ (({ mapped with hostD := 0xFFFF }).hostD = 0xFFFF ∧
      mapped.ctx.phys = []) ∧ (ready []).ctx.phys = ⟨1, 0x001D, 0x8001, 0x786D, 0x0F⟩ :: [] ∧
    seen (runOp (.point (.scanId2 31 0x786D 0x001D)) mapped) (fun t => t.ctx.phys) = some (⟨31, 0x001D, 0, 0x786D, 0x0F⟩ :: []) ∧
    (({ mapped with hostD := 0x786D }).hostD ≠ 0x0000 ∧ ({ mapped with hostD := 0x786D }).hostD ≠ 0xFFFF) := by decide

/-- Two PHYs, at 1 and 2. -/
def twoPhys : State := { ready [] with ctx.phys := [⟨1, 0, 0, 0, 0⟩, ⟨2, 0, 0, 0, 0⟩], hostD := 0x786D }

/-- The first of two PHYs; the last of one with none preferred, and the last of two with the first preferred, with none and
a link, with none and no link; the two BMCR sequences, MIIC idle. -/
theorem test_witness_PhySelection :
    twoPhys.ctx.phys[0 + 1]? = some ⟨2, 0, 0, 0, 0⟩ ∧
    (0 + 1 = (ready []).ctx.phys.length ∧ (ready []).ctx.phys[0]? = some ⟨1, 0x001D, 0x8001, 0x786D, 0x0F⟩) ∧
    (1 + 1 = twoPhys.ctx.phys.length ∧ twoPhys.ctx.phys[0]? = some ⟨1, 0, 0, 0, 0⟩ ∧ 0 < 1) ∧
    (twoPhys.hostD.getLsbD 2 = true ∧ twoPhys.ctx.phys[1]? = some ⟨2, 0, 0, 0, 0⟩) ∧
    ({ twoPhys with hostD := 0x7869 }).hostD.getLsbD 2 = false ∧
    (let s := { twoPhys with ops := isolateOps conf.phyMap 2 ++ [] };
      s.ctx.regHandle ≠ none ∧ windowOpen s = true ∧ s.miic.busy = false ∧ s.ops = isolateOps conf.phyMap 2 ++ []) ∧
    (let s := { twoPhys with ops := unisolateOps conf.phyMap 1 ++ [] };
      s.ctx.regHandle ≠ none ∧ windowOpen s = true ∧ s.miic.busy = false ∧ s.ops = unisolateOps conf.phyMap 1 ++ []) := by decide

/-- Below and at each bound (10 in `conf`), with a stable and an unstable link, and a finished and an unfinished
negotiation. -/
theorem test_witness_LinkPollsAreBounded :
    (let s := { mapped with hostD := 0x0004 };
      linkStable s.cfg.linkStable false (s.hostD.getLsbD 2) = false ∧ s.cfg.linkPollMax ≤ 10 ∧ 9 < s.cfg.linkPollMax ∧
        linkStable s.cfg.linkStable true (s.hostD.getLsbD 2) = true ∧ 1 ≤ s.cfg.anegPollMax ∧
        s.hostD.getLsbD 5 = false ∧ s.cfg.anegPollMax ≤ 10 ∧ 9 < s.cfg.anegPollMax) ∧
    ({ mapped with hostD := 0x786D }).hostD.getLsbD 5 = true ∧
    ((ready []).ctx.linkAtReset = some true ∧ 1 ≤ (ready []).cfg.linkPollMax) ∧
    (let s := { ready [] with ctx.linkAtReset := some false };
      s.ctx.linkAtReset = some false ∧ 1 ≤ s.cfg.anegPollMax) := by decide

theorem test_witness_OnlyTheFsmSetsSpeedAndDuplex :
    exec .rd32IntrMask mapped = .next { mapped with hostT := 0 } ∧
    runOp (.point .zeroCursors) mapped = .next { mapped with ctx.txCursor := some 0, ctx.rxCursor := some 0 } := ⟨rfl, rfl⟩

theorem test_witness_TickAndCallsBeforeInit : (ready []).ops = [] ∧ State.reset.ops = [] ∧ State.reset.ctx = Context.reset ∧ ([1] : List Byte) ≠ [] := by
  decide

theorem test_witness_MarksAndRemovalArePermanent :
    step { gone with sched := [.link] } = .next { gone with sched := [], regs.intrStatus := 0x00010000 } ∧
    gone.removed = true := ⟨rfl, rfl⟩

end Sys2Proof.Tests
end

section
/-!
PROOFS of the family 00_scope: what one turn of the schedule runs (R10, R11), and what a turn of an agent other than HOST
leaves unchanged (R10, R218, R700 to R702, R124).
-/
namespace Sys2Proof.Machine

/-! ### What a turn runs -/

/-- R10, R11: with a turn scheduled, the step is that turn. -/
theorem step_of_sched {s : State} {turn : Config.Turn} {later : List Config.Turn} (h : s.sched = turn :: later) :
    step s = takeTurn turn { s with sched := later } := by
  simp only [step, runStep, nextTurn, h]

/-- Nothing is decoded from an empty program. -/
theorem ne_nil_of_decode_ok {m : Config.RegMap} {bytes rest : List Byte} {i : Instr}
    (h : decode m bytes = .ok i rest) : bytes ≠ [] := by
  rintro rfl
  cases h

theorem fetchHost_of_decode {s : State} {i : Instr} {rest : List Byte} (hdec : decode s.cfg.regMap s.prog = .ok i rest)
    (hmake : hostMakes i = true) : fetchHost s = exec i { s with prog := rest } := by
  simp only [fetchHost, hdec, hmake, if_true]

/-- Between two entry points, with no interrupt delivered, HOST runs the operation its program begins with. -/
theorem hostTurn_of_decode {s : State} {i : Instr} {rest : List Byte} (hops : s.ops = []) (hirq : s.irqPending = false)
    (hdec : decode s.cfg.regMap s.prog = .ok i rest) (hmake : hostMakes i = true) :
    hostTurn s = exec i { s with prog := rest } := by
  rw [hostTurn_of_prog hops hirq, if_neg (ne_nil_of_decode_ok hdec), fetchHost_of_decode hdec hmake]

theorem txTurn_of_enabled {s : State} (hen : s.tx.en = true)
    (hdma : dmaFault? s (descAddr s.tx.base s.tx.ptr .cmdsts) 4 = none) :
    txTurn s = exec (decodeDesc .tx (visitWord s s.tx .cmdsts)) s := by
  simp only [txTurn, hen, hdma, if_true]

theorem rxTurn_of_accepted {s : State} {f : Config.Frame} {fs : List Config.Frame} (hen : s.rx.en = true)
    (hwire : s.wireIn = f :: fs) (hacc : accept s f.bytes = true)
    (hdma : dmaFault? s (descAddr s.rx.base s.rx.ptr .cmdsts) 4 = none) :
    rxTurn s = exec (decodeDesc .rx (visitWord s s.rx .cmdsts)) s := by
  simp only [rxTurn, hen, hwire, hacc, hdma, if_true]

/-- Settles O5: the step is the scheduled turn, whose tests do not look at the schedule. -/
theorem stepRunsDecodedOperation : Obligations.StepRunsDecodedOperation := by
  intro s later
  refine ⟨fun i rest hsched hops hirq hdec hmake => ?_, fun hsched hen hdma => ?_,
    fun f fs hsched hen hwire hacc hdma => ?_⟩
  · exact (step_of_sched hsched).trans (hostTurn_of_decode (s := { s with sched := later }) hops hirq hdec hmake)
  · exact (step_of_sched hsched).trans (txTurn_of_enabled (s := { s with sched := later }) hen hdma)
  · exact (step_of_sched hsched).trans (rxTurn_of_accepted (s := { s with sched := later }) hen hwire hacc hdma)

/-! ### What an agent other than HOST can change -/

/-- Everything a turn of an agent other than HOST can change: no register but IntrStatus, nothing HOST holds, and no
bit of IntrStatus is cleared (R10, R218). -/
structure DeviceFrame (s t : State) : Prop where
  fields : t = { s with
    miic := t.miic, eec := t.eec, tx := t.tx, rx := t.rx, wireIn := t.wireIn, wireOut := t.wireOut
    removed := t.removed, irqArmed := t.irqArmed, irqPending := t.irqPending, phyLog := t.phyLog, mem := t.mem
    draws := t.draws, pins := t.pins, regs.intrStatus := t.regs.intrStatus }
  status : ∃ set : Word, t.regs.intrStatus = s.regs.intrStatus ||| set

theorem DeviceFrame.of_status_eq {s t : State} (hfields : t = { s with
      miic := t.miic, eec := t.eec, tx := t.tx, rx := t.rx, wireIn := t.wireIn, wireOut := t.wireOut
      removed := t.removed, irqArmed := t.irqArmed, irqPending := t.irqPending, phyLog := t.phyLog, mem := t.mem
      draws := t.draws, pins := t.pins }) : DeviceFrame s t := by
  have hregs : t.regs = s.regs := by rw [hfields]
  refine ⟨?_, 0, by simp [hregs]⟩
  rw [hregs]
  exact hfields

theorem DeviceFrame.refl (s : State) : DeviceFrame s s := .of_status_eq rfl

theorem DeviceFrame.of_setStatus (bits : Word) (s : State) : DeviceFrame s (setStatus bits s) := ⟨rfl, bits, rfl⟩

theorem DeviceFrame.of_takeInterrupt (s : State) : DeviceFrame s (takeInterrupt s) := .of_status_eq rfl

/-- A visit that sets one of two status bits, or none, clears no bit. -/
theorem exists_set_of_visit_status {w w' done idle : Word} (h : w' = w ∨ w' = w ||| done ∨ w' = w ||| idle) :
    ∃ set : Word, w' = w ||| set := by
  obtain hkept | hdone | hidle := h
  · exact ⟨0, by simp [hkept]⟩
  · exact ⟨done, hdone⟩
  · exact ⟨idle, hidle⟩

theorem TxVisitFrame.deviceFrame {s t : State} (h : TxVisitFrame s t) : DeviceFrame s t :=
  ⟨by rw [h.fields], exists_set_of_visit_status h.status⟩

theorem RxVisitFrame.deviceFrame {s t : State} (h : RxVisitFrame s t) : DeviceFrame s t :=
  ⟨by rw [h.fields], exists_set_of_visit_status h.status⟩

/-- R316: the rows that a CMDSTS word of the TX ring can be. -/
theorem decodeDesc_tx_cases (v : Word) : ∃ (intr : BitVec 1) (rsvd : BitVec 6) (cmd : BitVec 8) (status : Half),
    decodeDesc .tx v = .txdHwown intr rsvd cmd status ∨ decodeDesc .tx v = .txdSwown intr rsvd cmd status := by
  refine ⟨v.extractLsb' 30 1, v.extractLsb' 24 6, v.extractLsb' 16 8, v.extractLsb' 0 16, ?_⟩
  cases hown : v.getLsbD 31
  · exact .inr (by simp only [decodeDesc, hown])
  · exact .inl (by simp only [decodeDesc, hown])

/-- R316: the rows that a CMDSTS word of the RX ring can be. -/
theorem decodeDesc_rx_cases (v : Word) : ∃ (intr : BitVec 1) (rsvd : BitVec 6) (cmd : BitVec 8) (status : Half),
    decodeDesc .rx v = .rxdHwown intr rsvd cmd status ∨ decodeDesc .rx v = .rxdSwown intr rsvd cmd status := by
  refine ⟨v.extractLsb' 30 1, v.extractLsb' 24 6, v.extractLsb' 16 8, v.extractLsb' 0 16, ?_⟩
  cases hown : v.getLsbD 31
  · exact .inr (by simp only [decodeDesc, hown])
  · exact .inl (by simp only [decodeDesc, hown])

theorem exec_decodeDesc_tx_frame {v : Word} {s t : State} (h : exec (decodeDesc .tx v) s = .next t) :
    TxVisitFrame s t := by
  obtain ⟨intr, rsvd, cmd, status, hrow | hrow⟩ := decodeDesc_tx_cases v <;> rw [hrow] at h
  · exact execTxdHwown_frame h
  · exact execTxdSwown_frame intr rsvd cmd status h

theorem exec_decodeDesc_rx_frame {v : Word} {s t : State} (h : exec (decodeDesc .rx v) s = .next t) :
    RxVisitFrame s t := by
  obtain ⟨intr, rsvd, cmd, status, hrow | hrow⟩ := decodeDesc_rx_cases v <;> rw [hrow] at h
  · exact execRxdHwown_frame h
  · exact execRxdSwown_frame intr rsvd cmd status h

theorem txTurn_frame {s t : State} (h : txTurn s = .next t) : TxVisitFrame s t := by
  unfold txTurn at h
  split at h
  · split at h
    · cases h
    · exact exec_decodeDesc_tx_frame h
  · cases h; exact .refl s

theorem rxTurn_frame {s t : State} (h : rxTurn s = .next t) : RxVisitFrame s t := by
  unfold rxTurn at h
  split at h
  · split at h
    · split at h
      · cases h
      · exact exec_decodeDesc_rx_frame h
    · cases h; exact rxUnaccepted_frame _ s
  · cases h; exact .refl s

theorem miiComplete_deviceFrame (s : State) : DeviceFrame s (miiComplete s) := by
  obtain ⟨-, heq⟩ | ⟨-, _, _, heq⟩ := miiComplete_cases s <;> rw [heq]
  · exact .refl s
  · exact .of_status_eq rfl

theorem eeComplete_deviceFrame (s : State) : DeviceFrame s (eeComplete s) := by
  obtain ⟨-, heq⟩ | ⟨-, heq⟩ := eeComplete_cases s <;> rw [heq]
  · exact .refl s
  · exact .of_status_eq rfl

theorem frameArrives_deviceFrame (f : Config.Frame) (s : State) : DeviceFrame s (frameArrives f s) := by
  unfold frameArrives
  split
  · exact .of_status_eq rfl
  · exact .refl s

theorem deliverTurn_deviceFrame (s : State) : DeviceFrame s (deliverTurn s) := by
  unfold deliverTurn
  split
  · exact .of_takeInterrupt s
  · exact .refl s

theorem spuriousTurn_deviceFrame (s : State) : DeviceFrame s (spuriousTurn s) := by
  rw [spuriousTurn_eq]
  split
  · exact .of_takeInterrupt s
  · exact .refl s

/-- A turn of one agent that is not HOST, taken by the agent itself and not as a fair turn. -/
theorem takeTurn_deviceFrame_of_not_fair {turn : Config.Turn} {s t : State} (hhost : turn ≠ .host)
    (hfair : ∀ a, turn ≠ .fair a) (h : takeTurn turn s = .next t) : DeviceFrame s t := by
  cases turn
  case host => exact absurd rfl hhost
  case fair a => exact absurd rfl (hfair a)
  case txdma => exact (txTurn_frame h).deviceFrame
  case rxdma => exact (rxTurn_frame h).deviceFrame
  case miic => cases h; exact miiComplete_deviceFrame s
  case eec => cases h; exact eeComplete_deviceFrame s
  case frame f => cases h; exact frameArrives_deviceFrame f s
  case link => cases h; exact .of_setStatus _ s
  case remove => cases h; exact .of_status_eq rfl
  case irqBits bits => cases h; exact .of_setStatus _ s
  case deliver => cases h; exact deliverTurn_deviceFrame s
  case spurious => cases h; exact spuriousTurn_deviceFrame s

theorem fairTurn_deviceFrame {a : Config.FairAgent} {s t : State} (hhost : a ≠ .host) (h : fairTurn a s = .next t) :
    DeviceFrame s t := by
  obtain hstill | ⟨turn, hother, hturn, hfair⟩ := fairTurn_cases a s
  · cases hstill.symm.trans h; exact .refl s
  · exact takeTurn_deviceFrame_of_not_fair (hother hhost).1 hfair (hturn.symm.trans h)

/-- R10, R218: every turn but HOST's leaves HOST alone. -/
theorem takeTurn_deviceFrame {turn : Config.Turn} {s t : State} (hhost : turn ≠ .host) (hfair : turn ≠ .fair .host)
    (h : takeTurn turn s = .next t) : DeviceFrame s t := by
  by_cases hagent : ∃ a, turn = .fair a
  · obtain ⟨a, rfl⟩ := hagent
    exact fairTurn_deviceFrame (fun ha => hfair (congrArg _ ha)) h
  · exact takeTurn_deviceFrame_of_not_fair hhost (not_exists.mp hagent) h

/-! ### The bits of the environment's events -/

/-- A bit once set in IntrStatus stays set over a turn that is not HOST's. -/
theorem DeviceFrame.status_kept {s t : State} (h : DeviceFrame s t) {k : Nat}
    (hk : s.regs.intrStatus.getLsbD k = true) : t.regs.intrStatus.getLsbD k = true := by
  obtain ⟨set, hset⟩ := h.status
  rw [hset, BitVec.getLsbD_or, hk, Bool.true_or]

/-- R701. -/
theorem linkBit_getLsbD : ∀ k < 32, linkBit.getLsbD k = decide (k = 16) := by decide

/-- R702: the nine bits of the IRQ agent. -/
theorem irqAgentBits_getLsbD :
    ∀ k < 32, irqAgentBits.getLsbD k = decide (k ∈ [0, 1, 4, 5, 17, 18, 19, 29, 30]) := by decide

/-- Settles O33, by the frame of every turn but HOST's and the bits of the two status masks. -/
theorem deviceAgentsLeaveHostAlone : Obligations.DeviceAgentsLeaveHostAlone := by
  refine ⟨fun turn s t hhost hfair h => ?_, fun s => ?_, fun s bits => ?_, fun s => rfl⟩
  · have hframe := takeTurn_deviceFrame hhost hfair h
    have hkept : ∀ k, k < 32 → s.regs.intrStatus.getLsbD k = true → t.regs.intrStatus.getLsbD k = true :=
      fun _ _ => hframe.status_kept
    refine ⟨?_, ?_, ?_, ?_, ?_, ?_, ?_, ?_, ?_, ?_, ?_, hkept⟩ <;> rw [hframe.fields]
  · exact ⟨s.regs.intrStatus ||| linkBit, rfl, fun k hk => by rw [BitVec.getLsbD_or, linkBit_getLsbD k hk]⟩
  · exact ⟨s.regs.intrStatus ||| bits &&& irqAgentBits, rfl, fun k hk => by
      rw [BitVec.getLsbD_or, BitVec.getLsbD_and, irqAgentBits_getLsbD k hk]⟩

end Sys2Proof.Machine
end

section
/-!
PROOFS of the family 10_state: the invariant of the block holds after every step from every state that meets it (R10, R102
to R106, R122, R123, R140, R143, R211, R405, R520 to R523, R540), and speed and duplex are set by the FSM's resolution of
the capabilities alone (R141, R620).
-/
namespace Sys2Proof.Machine

/-! ### Words inside a mask -/

/-- A word has no bit outside a mask exactly when each of its bits is one of the mask's. -/
theorem and_not_eq_zero_iff (x m : Word) :
    x &&& ~~~m = 0 ↔ ∀ k < 32, x.getLsbD k = true → m.getLsbD k = true := by
  constructor
  · intro h k hk hx
    have hbit := congrArg (fun w : Word => w.getLsbD k) h
    simpa [hx, hk] using hbit
  · intro h
    apply BitVec.eq_of_getLsbD_eq
    intro k hk
    cases hx : x.getLsbD k
    · simp [hx]
    · simp [hx, h k hk hx]

theorem and_not_self_eq_zero (x m : Word) : (x &&& m) &&& ~~~m = 0 := by
  rw [and_not_eq_zero_iff]
  intro k _ hx
  rw [BitVec.getLsbD_and, Bool.and_eq_true] at hx
  exact hx.2

/-- Bits cleared leave a word inside its mask. -/
theorem and_left_inside {x m : Word} (y : Word) (hx : x &&& ~~~m = 0) : (x &&& y) &&& ~~~m = 0 := by
  rw [and_not_eq_zero_iff] at *
  intro k hk hxy
  rw [BitVec.getLsbD_and, Bool.and_eq_true] at hxy
  exact hx k hk hxy.1

theorem or_inside {x y m : Word} (hx : x &&& ~~~m = 0) (hy : y &&& ~~~m = 0) : (x ||| y) &&& ~~~m = 0 := by
  rw [and_not_eq_zero_iff] at *
  intro k hk hxy
  rw [BitVec.getLsbD_or, Bool.or_eq_true] at hxy
  exact hxy.elim (hx k hk) (hy k hk)

theorem inside_trans {x y m : Word} (hxy : x &&& ~~~y = 0) (hy : y &&& ~~~m = 0) : x &&& ~~~m = 0 := by
  rw [and_not_eq_zero_iff] at *
  exact fun k hk hx => hy k hk (hxy k hk hx)

/-- R211: the mask of a drawn ring base clears its bits [3:0]. -/
theorem extractLsb'_ringBaseMask (d : Word) : (d &&& 0xFFFFFFF0#32).extractLsb' 0 4 = 0 := by
  have hmask : (0xFFFFFFF0#32).extractLsb' 0 4 = 0 := by decide
  rw [BitVec.extractLsb'_and, hmask, BitVec.ofNat_eq_ofNat, BitVec.and_zero]

/-! ### What a row and a micro-operation can do -/

/-- One access of the register window by HOST, or the refusal of one. -/
inductive WindowAccess (s : State) : State → Prop
  | refusal (m : Mark) : WindowAccess s (refuse m s)
  | read (r : Reg) : WindowAccess s (regRead32 r s)
  | write (r : Reg) (v : Word) : WindowAccess s (regWrite32 r v s)
  | writeByte (i : Nat) (b : Byte) : WindowAccess s (regWrite8 i b s)
  | stopPulse : WindowAccess s (stopPulse s)

theorem WindowAccess.frame {s t : State} (h : WindowAccess s t) : WindowFrame s t := by
  cases h
  case refusal m => exact .of_refuse m s
  case read r => exact regRead32_frame r s
  case write r v => exact regWrite32_frame r v s
  case writeByte i b => exact regWrite8_frame i b s
  case stopPulse => exact stopPulse_frame s

/-- R300 to R306: everything a row can do: an access of the window, a visit of an engine, or the start of an entry point. -/
theorem exec_cases {i : Instr} {s t : State} (h : exec i s = .next t) :
    WindowAccess s t ∨ TxVisitFrame s t ∨ RxVisitFrame s t ∨ (isEntryPoint i = true ∧ PointFrame s t) := by
  cases i
  case rd32TxControl | rd32TxDescBase | rd32RxControl | rd32RxDescBase | rd32IntrStatus | rd32IntrMask
    | rd32IntrControl | rd32ROMInterface | rd32StationControl | rd32GMIIControl | rd32RGDelay | rd32RxMacControl
    | rd32RxMacAddr25 | rd32RxHashTable0 | rd32RxHashTable1 => cases h; exact .inl (.read _)
  case wr8Sa01 | wr8Sa25 => cases h; exact .inl (.writeByte _ _)
  case txdHwown => exact .inr (.inl (execTxdHwown_frame h))
  case txdSwown intr rsvd cmd status => exact .inr (.inl (execTxdSwown_frame intr rsvd cmd status h))
  case rxdHwown => exact .inr (.inr (.inl (execRxdHwown_frame h)))
  case rxdSwown intr rsvd cmd status => exact .inr (.inr (.inl (execRxdSwown_frame intr rsvd cmd status h)))
  case entryInit => exact .inr (.inr (.inr ⟨rfl, execEntryInit_frame h⟩))
  case entrySend => exact .inr (.inr (.inr ⟨rfl, execEntrySend_frame h⟩))
  case entryRecv => exact .inr (.inr (.inr ⟨rfl, execEntryRecv_frame h⟩))
  case entrySetFilter => exact .inr (.inr (.inr ⟨rfl, execEntrySetFilter_frame h⟩))
  case entrySetSa => exact .inr (.inr (.inr ⟨rfl, execEntrySetSa_frame h⟩))
  case entryGetLink => exact .inr (.inr (.inr ⟨rfl, execEntryGetLink_frame h⟩))
  case entryStop => exact .inr (.inr (.inr ⟨rfl, execEntryStop_frame h⟩))
  case entryIrq => exact .inr (.inr (.inr ⟨rfl, execEntryIrq_frame h⟩))
  case entryTick => exact .inr (.inr (.inr ⟨rfl, execEntryTick_frame h⟩))
  all_goals cases h; exact .inl (.write _ _)

/-- R11: everything a micro-operation can do: an access of the window, an access of host memory, an iteration of a poll, or
a point of a sequence. -/
theorem runOp_access_cases {op : HostOp} {s t : State} (h : runOp op s = .next t) :
    WindowAccess s t ∨ HostMemFrame s t ∨ PollFrame s t ∨ ∃ p, op = .point p ∧ runPoint p s = .next t := by
  cases op
  case rd32 r => cases withHandle_next h; exact .inl (.read r)
  case wr32 r v => cases withHandle_next h; exact .inl (.write r v)
  case wr8 i b => cases withHandle_next h; exact .inl (.writeByte i b)
  case stopPulse => cases withHandle_next h; exact .inl .stopPulse
  case miiCmd o a r d =>
    have hcmd := withHandle_next h
    split at hcmd
    · cases hcmd; exact .inl (.refusal _)
    · cases hcmd; exact .inl (.write _ _)
  case eeCmd w =>
    have hcmd := withHandle_next h
    split at hcmd
    · cases hcmd; exact .inl (.refusal _)
    · cases hcmd; exact .inl (.write _ _)
  case pollMii => cases withHandle_next h; exact .inr (.inr (.inl (pollMii_frame s)))
  case pollEe => cases withHandle_next h; exact .inr (.inr (.inl (pollEe_frame s)))
  case memRead ring i w => cases h; exact .inr (.inl (hostDescRead_frame ring i w s))
  case memWrite => exact .inr (.inl (hostDescWrite_frame h))
  case bufWrite => exact .inr (.inl (hostBufWrite_frame h))
  case bufRead i k => cases h; exact .inr (.inl (hostBufRead_frame i k s))
  case zeroRings => cases h; exact .inr (.inl (zeroRings_frame s))
  case point p => exact .inr (.inr (.inr ⟨p, rfl, h⟩))

/-! ### The invariant of an engine -/

/-- The invariant's clauses on one DMA engine, for rings of n slots (R122, R123, R210, R520, R523). -/
structure EngineOk (n : Nat) (e : Engine) : Prop where
  base : e.base.extractLsb' 0 4 = 0
  kick : e.kick = true → e.en = true
  ptr  : e.ptr < n

theorem Inv.txOk {s : State} (hs : Inv s) : EngineOk s.cfg.ringLen s.tx := ⟨hs.txBaseAligned, hs.txKicked, hs.txPtr⟩

theorem Inv.rxOk {s : State} (hs : Inv s) : EngineOk s.cfg.ringLen s.rx := ⟨hs.rxBaseAligned, hs.rxKicked, hs.rxPtr⟩

theorem EngineKept.engineOk {n : Nat} {e e' : Engine} (h : EngineKept n e e') (he : EngineOk n e) : EngineOk n e' :=
  ⟨by rw [h.base]; exact he.base, fun hk => by rw [h.en]; exact he.kick (h.kick hk), h.ptr he.ptr⟩

/-- R520, R521, R523: the rise of ENB reloads an aligned base and pointer 0, and only ENB = 1 can kick. -/
theorem engineControl_ok {n : Nat} {e : Engine} {base : Word} (v : Word) (hn : 0 < n)
    (hbase : base.extractLsb' 0 4 = 0) (he : EngineOk n e) : EngineOk n (engineControl e base v) := by
  unfold engineControl
  cases henb : v.getLsbD 0
  · exact ⟨he.base, fun hk => (by cases hk), he.ptr⟩
  · cases hpoll : v.getLsbD 4 <;> cases hen : e.en
    · exact ⟨hbase, fun hk => (by cases hk), hn⟩
    · exact he
    · exact ⟨hbase, fun _ => rfl, hn⟩
    · exact ⟨he.base, fun _ => hen, he.ptr⟩

/-! ### The register window keeps the invariant -/

theorem Inv.of_pollFrame {s t : State} (hs : Inv s) (h : PollFrame s t) : Inv t := by
  rw [h.fields]
  exact { hs with }

theorem refuse_inv {s : State} (m : Mark) (hs : Inv s) : Inv (refuse m s) := { hs with }

theorem setStatus_inv {s : State} {bits : Word} (hbits : bits &&& ~~~definedStatus = 0) (hs : Inv s) :
    Inv (setStatus bits s) :=
  { hs with statusBits := or_inside hs.statusBits hbits }

/-- R803: the soft reset turns the engines off, the controllers idle and the interrupts masked, and its draws are masked. -/
theorem softReset_inv {s : State} (v : Word) (hs : Inv s) : Inv (softReset v s) := by
  obtain ⟨_, rg, heq, -, hmask, -, -, htxCfg, hrxCfg, hstatus, htxBase, hrxBase, -⟩ := softReset_cases v s
  rw [heq]
  exact { hs with
    statusBits := by rw [hstatus]; exact and_not_self_eq_zero _ _
    txCfgBits := by rw [htxCfg]; exact and_not_self_eq_zero _ _
    rxCfgBits := by rw [hrxCfg]; exact and_not_self_eq_zero _ _
    txDescAligned := by rw [htxBase]; exact extractLsb'_ringBaseMask _
    rxDescAligned := by rw [hrxBase]; exact extractLsb'_ringBaseMask _
    softQuiet := fun _ => ⟨rfl, rfl, rfl, rfl, hmask⟩
    miiPending := fun hbusy => by cases hbusy
    eePending := fun hbusy => by cases hbusy
    txKicked := fun hkick => by cases hkick
    rxKicked := fun hkick => by cases hkick }

/-- R520 to R523, outside the SOFT phase. -/
theorem ctlWrite_inv {s : State} (ring : Ring) (v : Word) (hsoft : softPhase s = false) (hs : Inv s) :
    Inv (ctlWrite ring v s) := by
  have hquiet : softPhase s ≠ true := by simp [hsoft]
  cases ring
  case tx =>
    have he := engineControl_ok v hs.ringLen hs.txDescAligned hs.txOk
    exact { hs with
      txCfgBits := and_not_self_eq_zero _ _
      softQuiet := fun h => absurd h hquiet
      txBaseAligned := he.base, txKicked := he.kick, txPtr := he.ptr }
  case rx =>
    have he := engineControl_ok v hs.ringLen hs.rxDescAligned hs.rxOk
    exact { hs with
      rxCfgBits := and_not_self_eq_zero _ _
      softQuiet := fun h => absurd h hquiet
      rxBaseAligned := he.base, rxKicked := he.kick, rxPtr := he.ptr }

/-- R451, outside the SOFT phase: a transaction begins without a result. -/
theorem miiWrite_inv {s : State} (v : Word) (hsoft : softPhase s = false) (hs : Inv s) : Inv (miiWrite v s) := by
  have hquiet : softPhase s ≠ true := by simp [hsoft]
  obtain ⟨m, heq⟩ | ⟨mi, heq, hmi⟩ := miiWrite_cases v s <;> rw [heq]
  · exact refuse_inv m hs
  · have hpending : mi.busy = true → mi.rdata = none := by
      obtain rfl | ⟨-, hnone⟩ := hmi
      · exact hs.miiPending
      · exact fun _ => hnone
    exact { hs with softQuiet := fun h => absurd h hquiet, miiPending := hpending }

/-- R468, R471, outside the SOFT phase: a read begins without a result. -/
theorem eeWrite_inv {s : State} (v : Word) (hsoft : softPhase s = false) (hs : Inv s) : Inv (eeWrite v s) := by
  have hquiet : softPhase s ≠ true := by simp [hsoft]
  obtain ⟨m, heq⟩ | ⟨ee, heq, hee⟩ := eeWrite_cases v s <;> rw [heq]
  · exact refuse_inv m hs
  · have hpending : ee.busy = true → ee.rdata = none := by
      obtain rfl | ⟨-, hnone⟩ := hee
      · exact hs.eePending
      · exact fun _ => hnone
    exact { hs with softQuiet := fun h => absurd h hquiet, eePending := hpending }

/-- R405, R803, R804: SOFT = 1 resets, SOFT = 0 ends the SOFT phase, in that phase too. -/
theorem writeEffect_intrControl_inv {s : State} (v : Word) (hs : Inv s) : Inv (writeEffect .intrControl v s) := by
  unfold writeEffect
  dsimp only
  split
  · exact softReset_inv v hs
  · rename_i hrelease
    exact { hs with softQuiet := fun hsoft => absurd hsoft hrelease }

/-- R406: the write of a register outside the SOFT phase. -/
theorem writeEffect_inv {s : State} (r : Reg) (v : Word) (hsoft : softPhase s = false) (hs : Inv s) :
    Inv (writeEffect r v s) := by
  cases r
  case txControl => exact ctlWrite_inv .tx v hsoft hs
  case rxControl => exact ctlWrite_inv .rx v hsoft hs
  case txDescBase =>
    unfold writeEffect
    dsimp only
    split
    · exact refuse_inv _ hs
    · rename_i haligned
      exact { hs with txDescAligned := Classical.not_not.mp haligned }
  case rxDescBase =>
    unfold writeEffect
    dsimp only
    split
    · exact refuse_inv _ hs
    · rename_i haligned
      exact { hs with rxDescAligned := Classical.not_not.mp haligned }
  case intrStatus => exact { hs with statusBits := and_left_inside _ hs.statusBits }
  case intrMask => exact { hs with softQuiet := fun h => absurd (hsoft.symm.trans h) Bool.false_ne_true }
  case intrControl => exact writeEffect_intrControl_inv v hs
  case romInterface => exact eeWrite_inv v hsoft hs
  case gmiiControl => exact miiWrite_inv v hsoft hs
  case stationControl | rgDelay | rxMacControl | rxMacAddr25 | rxHashTable0 | rxHashTable1 => exact { hs with }

/-- R404, R405: the release of a removed device leaves no SOFT phase. -/
theorem removedWrite_inv {s : State} (r : Reg) (v : Word) (hs : Inv s) : Inv (removedWrite r v s) := by
  obtain heq | ⟨-, -, heq⟩ := removedWrite_cases r v s <;> rw [heq]
  · exact hs
  · have hended : (s.regs.intrControl &&& 0xFFFF7FFF#32).getLsbD 15 = false := by simp
    exact { hs with softQuiet := fun hsoft => absurd (hended.symm.trans hsoft) Bool.false_ne_true }

theorem regWrite32_inv {s : State} (r : Reg) (v : Word) (hs : Inv s) : Inv (regWrite32 r v s) := by
  obtain ⟨-, -, heq⟩ | ⟨-, heq⟩ | ⟨-, hrelease, heq⟩ := regWrite32_cases r v s <;> rw [heq]
  · exact refuse_inv _ hs
  · exact removedWrite_inv r v hs
  · cases hsoft : softPhase s
    · exact writeEffect_inv r v hsoft hs
    · obtain ⟨rfl, -⟩ := hrelease hsoft
      exact writeEffect_intrControl_inv v hs

theorem regWrite8_inv {s : State} (i : Nat) (b : Byte) (hs : Inv s) : Inv (regWrite8 i b s) := by
  unfold regWrite8
  dsimp only
  split
  · exact refuse_inv _ hs
  · split
    · exact refuse_inv _ hs
    · split
      · exact hs
      · split <;> exact { hs with }

/-- R815, R1003: STOP's pulse leaves the CFG bits, and status bits that were set before it. -/
theorem stopPulse_inv {s : State} (hs : Inv s) : Inv (stopPulse s) := by
  have hpulse := regWrite32_inv .intrControl 0x00008000#32 hs
  obtain ⟨rg, heq, hrg, hstatus⟩ := stopPulse_cases s
  rw [heq, hrg]
  exact { hpulse with
    statusBits := inside_trans hstatus hs.statusBits, txCfgBits := hs.txCfgBits, rxCfgBits := hs.rxCfgBits }

theorem WindowAccess.inv {s t : State} (h : WindowAccess s t) (hs : Inv s) : Inv t := by
  cases h
  case refusal m => exact refuse_inv m hs
  case read r => exact hs.of_pollFrame (regRead32_pollFrame r s)
  case write r v => exact regWrite32_inv r v hs
  case writeByte i b => exact regWrite8_inv i b hs
  case stopPulse => exact stopPulse_inv hs

/-! ### HOST's memory accesses and points keep the invariant -/

theorem Inv.of_hostMemFrame {s t : State} (hs : Inv s) (h : HostMemFrame s t) : Inv t := by
  have hmem := h.memory hs.memory
  rw [h.fields]
  exact { hs with memory := hmem }

theorem Inv.contextOk {s : State} (hs : Inv s) : ContextOk s.cfg.ringLen s.ctx :=
  ⟨hs.txCursor, hs.rxCursor, hs.current, hs.enabled⟩

theorem Inv.of_pointFrame {s t : State} (hs : Inv s) (h : PointFrame s t) : Inv t := by
  have hctx := h.context hs.ringLen hs.contextOk
  rw [h.fields]
  exact { hs with
    txCursor := hctx.txCursor, rxCursor := hctx.rxCursor, current := hctx.current, enabled := hctx.enabled }

theorem runOp_inv {op : HostOp} {s t : State} (hs : Inv s) (h : runOp op s = .next t) : Inv t := by
  obtain haccess | hmem | hpoll | ⟨p, -, hpoint⟩ := runOp_access_cases h
  · exact haccess.inv hs
  · exact hs.of_hostMemFrame hmem
  · exact hs.of_pollFrame hpoll
  · exact hs.of_pointFrame (runPoint_frame hpoint)

/-! ### The engines and the controllers keep the invariant -/

/-- R700: each status bit of an engine's visit is a defined one. -/
theorem visitStatus_inside {w w' : Word} {ring : Ring} (hw : w &&& ~~~definedStatus = 0)
    (h : w' = w ∨ w' = w ||| doneBit ring ∨ w' = w ||| idleBit ring) : w' &&& ~~~definedStatus = 0 := by
  obtain rfl | rfl | rfl := h
  · exact hw
  · exact or_inside hw (by cases ring <;> decide)
  · exact or_inside hw (by cases ring <;> decide)

theorem Inv.of_txVisitFrame {s t : State} (hs : Inv s) (h : TxVisitFrame s t) : Inv t := by
  have hmem := h.memory hs.memory
  have hstatus := visitStatus_inside (ring := .tx) hs.statusBits h.status
  have he := h.engine.engineOk hs.txOk
  have hen := h.engine.en
  rw [h.fields]
  exact { hs with
    memory := hmem, statusBits := hstatus
    softQuiet := fun hsoft => ⟨hen.trans (hs.softQuiet hsoft).1, (hs.softQuiet hsoft).2⟩
    txBaseAligned := he.base, txKicked := he.kick, txPtr := he.ptr }

/-- The frames that wait after an RX visit waited before it. -/
theorem RxVisitFrame.mem_wireIn {s t : State} (h : RxVisitFrame s t) {f : Config.Frame} (hf : f ∈ t.wireIn) :
    f ∈ s.wireIn := by
  obtain hkept | hdropped := h.frames
  · exact hkept ▸ hf
  · exact List.mem_of_mem_tail (hdropped ▸ hf)

theorem Inv.of_rxVisitFrame {s t : State} (hs : Inv s) (h : RxVisitFrame s t) : Inv t := by
  have hmem := h.memory hs.memory
  have hstatus := visitStatus_inside (ring := .rx) hs.statusBits h.status
  have he := h.engine.engineOk hs.rxOk
  have hen := h.engine.en
  have hframes : ∀ f ∈ t.wireIn, frameOk f = true := fun f hf => hs.frames f (h.mem_wireIn hf)
  rw [h.fields]
  exact { hs with
    memory := hmem, statusBits := hstatus
    softQuiet := fun hsoft =>
      ⟨(hs.softQuiet hsoft).1, hen.trans (hs.softQuiet hsoft).2.1, (hs.softQuiet hsoft).2.2⟩
    rxBaseAligned := he.base, rxKicked := he.kick, rxPtr := he.ptr, frames := hframes }

/-- R452, R453: a completed transaction is no longer in progress. -/
theorem miiComplete_inv {s : State} (hs : Inv s) : Inv (miiComplete s) := by
  obtain ⟨-, heq⟩ | ⟨-, _, _, heq⟩ := miiComplete_cases s <;> rw [heq]
  · exact hs
  · exact { hs with
      softQuiet := fun hsoft =>
        have ⟨htx, hrx, _, hrest⟩ := hs.softQuiet hsoft
        ⟨htx, hrx, rfl, hrest⟩
      miiPending := fun hbusy => by cases hbusy }

/-- R469: a completed read is no longer in progress. -/
theorem eeComplete_inv {s : State} (hs : Inv s) : Inv (eeComplete s) := by
  obtain ⟨-, heq⟩ | ⟨-, heq⟩ := eeComplete_cases s <;> rw [heq]
  · exact hs
  · exact { hs with
      softQuiet := fun hsoft =>
        have ⟨htx, hrx, hmii, _, hmask⟩ := hs.softQuiet hsoft
        ⟨htx, hrx, hmii, rfl, hmask⟩
      eePending := fun hbusy => by cases hbusy }

theorem exec_inv {i : Instr} {s t : State} (hs : Inv s) (h : exec i s = .next t) : Inv t := by
  obtain haccess | htx | hrx | ⟨-, hpoint⟩ := exec_cases h
  · exact haccess.inv hs
  · exact hs.of_txVisitFrame htx
  · exact hs.of_rxVisitFrame hrx
  · exact hs.of_pointFrame hpoint

/-! ### Every turn keeps the invariant -/

theorem rejectAccess_inv {s : State} (m : Mark) (hs : Inv s) : Inv (rejectAccess m s) := by
  unfold rejectAccess
  split <;> exact refuse_inv _ hs

theorem fetchHost_inv {s t : State} (hs : Inv s) (h : fetchHost s = .next t) : Inv t := by
  have hmoved : ∀ rest, Inv { s with prog := rest } := fun _ => { hs with }
  unfold fetchHost at h
  split at h
  · split at h
    · exact exec_inv (hmoved _) h
    · cases h
  · split at h
    · cases h; exact refuse_inv _ (hmoved _)
    · cases h; exact rejectAccess_inv _ (hmoved _)
    · cases h

/-- R11, R912: HOST's turn is a micro-operation, the handler's start, an operation of its program, or nothing. -/
theorem hostTurn_inv {s t : State} (hs : Inv s) (h : hostTurn s = .next t) : Inv t := by
  unfold hostTurn at h
  split at h
  · rename_i op rest hops
    have htaken : Inv { s with ops := rest } := { hs with }
    exact runOp_inv htaken h
  · split at h
    · exact exec_inv hs h
    · split at h
      · cases h; exact hs
      · exact fetchHost_inv hs h

/-- R540: a frame is queued only when WIRE may deliver it. -/
theorem frameArrives_inv {s : State} (f : Config.Frame) (hs : Inv s) : Inv (frameArrives f s) := by
  unfold frameArrives
  split
  · rename_i harrives
    have hf : frameOk f = true := by simp [frameOk, harrives.1, harrives.2.1]
    exact { hs with frames := List.forall_mem_append.mpr ⟨hs.frames, List.forall_mem_singleton.mpr hf⟩ }
  · exact hs

theorem takeInterrupt_inv {s : State} (hs : Inv s) : Inv (takeInterrupt s) := { hs with }

theorem deliverTurn_inv {s : State} (hs : Inv s) : Inv (deliverTurn s) := by
  unfold deliverTurn
  split
  · exact takeInterrupt_inv hs
  · exact hs

theorem spuriousTurn_inv {s : State} (hs : Inv s) : Inv (spuriousTurn s) := by
  rw [spuriousTurn_eq]
  split
  · exact takeInterrupt_inv hs
  · exact hs

/-- R702: the IRQ agent's bits are defined ones. -/
theorem irqAgentBits_inside (bits : Word) : (bits &&& irqAgentBits) &&& ~~~definedStatus = 0 :=
  inside_trans (and_not_self_eq_zero bits irqAgentBits) (by decide)

/-- R10: a turn that an agent takes itself. -/
theorem takeTurn_inv_of_not_fair {turn : Config.Turn} {s t : State} (hfair : ∀ a, turn ≠ .fair a) (hs : Inv s)
    (h : takeTurn turn s = .next t) : Inv t := by
  cases turn
  case host => exact hostTurn_inv hs h
  case miic => cases h; exact miiComplete_inv hs
  case eec => cases h; exact eeComplete_inv hs
  case txdma => exact hs.of_txVisitFrame (txTurn_frame h)
  case rxdma => exact hs.of_rxVisitFrame (rxTurn_frame h)
  case frame f => cases h; exact frameArrives_inv f hs
  case link => cases h; exact setStatus_inv (by decide) hs
  case remove => cases h; exact { hs with }
  case irqBits bits => cases h; exact setStatus_inv (irqAgentBits_inside bits) hs
  case deliver => cases h; exact deliverTurn_inv hs
  case spurious => cases h; exact spuriousTurn_inv hs
  case fair a => exact absurd rfl (hfair a)

theorem fairTurn_inv {a : Config.FairAgent} {s t : State} (hs : Inv s) (h : fairTurn a s = .next t) : Inv t := by
  obtain hstill | ⟨turn, -, hturn, hfair⟩ := fairTurn_cases a s
  · cases hstill.symm.trans h; exact hs
  · exact takeTurn_inv_of_not_fair hfair hs (hturn.symm.trans h)

theorem takeTurn_inv {turn : Config.Turn} {s t : State} (hs : Inv s) (h : takeTurn turn s = .next t) : Inv t := by
  by_cases hagent : ∃ a, turn = .fair a
  · obtain ⟨a, rfl⟩ := hagent
    exact fairTurn_inv hs h
  · exact takeTurn_inv_of_not_fair (not_exists.mp hagent) hs h

/-- The choice of the next turn moves the schedule alone. -/
theorem nextTurn_inv {s : State} (hs : Inv s) : Inv (nextTurn s).2 := by
  unfold nextTurn
  split
  · exact { hs with }
  · split <;> exact { hs with }

/-- Settles O6: the schedule is not the invariant's, and every turn of every agent keeps it. -/
theorem everyStepKeepsInv : Obligations.EveryStepKeepsInv :=
  fun _ _ hs h => takeTurn_inv (nextTurn_inv hs) h

/-! ### Speed and duplex -/

/-- Speed and duplex are as they were (R141). -/
def LinkKept (s t : State) : Prop := t.ctx.speed = s.ctx.speed ∧ t.ctx.duplex = s.ctx.duplex

theorem LinkKept.of_ctx {s t : State} (h : t.ctx = s.ctx) : LinkKept s t := by rw [LinkKept, h]; exact ⟨rfl, rfl⟩

theorem saChoose_linkKept {o : Option StationAddr} {s t : State} (h : saChoose o s = .next t) : LinkKept s t := by
  unfold saChoose at h
  split at h
  · cases h; exact ⟨rfl, rfl⟩
  · split at h
    · cases h; exact ⟨rfl, rfl⟩
    · cases h

theorem choosePhy_linkKept {pref : Option Nat} {s t : State} (h : choosePhy pref s = .next t) : LinkKept s t := by
  unfold choosePhy at h
  dsimp only at h
  split at h
  · cases h
  · cases h; exact ⟨rfl, rfl⟩

theorem selectFrom_linkKept {i : Nat} {pref : Option Nat} {s t : State} (h : selectFrom i pref s = .next t) :
    LinkKept s t := by
  unfold selectFrom at h
  split at h
  · cases h; exact ⟨rfl, rfl⟩
  · exact choosePhy_linkKept h

theorem scanFrom_linkKept {a : Nat} {s t : State} (h : scanFrom a s = .next t) : LinkKept s t := by
  unfold scanFrom at h
  split at h
  · cases h; exact ⟨rfl, rfl⟩
  · split at h
    · cases h; exact ⟨rfl, rfl⟩
    · exact selectFrom_linkKept (s := { s with ctx.fsm := .phySelected }) h

theorem linkPollFrom_linkKept {a : BitVec 5} {i : Nat} {prev : Bool} {s t : State}
    (h : linkPollFrom a i prev s = .next t) : LinkKept s t := by
  unfold linkPollFrom at h
  split at h <;> (cases h; exact ⟨rfl, rfl⟩)

theorem anegPollFrom_linkKept {a : BitVec 5} {i : Nat} {s t : State} (h : anegPollFrom a i s = .next t) :
    LinkKept s t := by
  unfold anegPollFrom at h
  split at h <;> (cases h; exact ⟨rfl, rfl⟩)

theorem recvFrame_linkKept {c maxLen : Nat} {s t : State} (h : recvFrame c maxLen s = .next t) : LinkKept s t := by
  unfold recvFrame at h
  split at h <;> (cases h; exact ⟨rfl, rfl⟩)

/-- R620, R625: the resolution sets speed and duplex for the FSM alone, not for GET_LINK. -/
theorem resolved_linkKept {use : ResolveFor} {r : Speed × Duplex} {s t : State} (h : resolved use r s = .next t) :
    LinkKept s t ∨ ∃ up, use = .negotiated up := by
  cases use
  case negotiated up => exact .inr ⟨up, rfl⟩
  case getLink => cases h; exact .inl ⟨rfl, rfl⟩

/-- The two points at which the FSM has the capabilities it resolves (R616, R618, R620). -/
inductive FsmResolution : HostPoint → Prop
  | fe (a : BitVec 5) (up : Bool) (lpa adv : Half) : FsmResolution (.capAner a (.negotiated up) lpa adv)
  | ge (up : Bool) (lpa adv aner gtcr : Half) : FsmResolution (.capGtsr (.negotiated up) lpa adv aner gtcr)

/-- R601, R615, R620: no other point sets speed or duplex, the start of the FSM and its timeouts included. -/
theorem runPoint_linkKept {p : HostPoint} {s t : State} (h : runPoint p s = .next t) :
    LinkKept s t ∨ FsmResolution p := by
  cases p
  case capAner a use lpa adv =>
    simp only [runPoint] at h
    split at h
    · cases h; exact .inl ⟨rfl, rfl⟩
    · obtain hkept | ⟨up, rfl⟩ := resolved_linkKept h
      · exact .inl hkept
      · exact .inr (.fe a up lpa adv)
  case capGtsr use lpa adv aner gtcr =>
    obtain hkept | ⟨up, rfl⟩ := resolved_linkKept h
    · exact .inl hkept
    · exact .inr (.ge up lpa adv aner gtcr)
  all_goals left
  case resolveSa =>
    simp only [runPoint] at h
    split at h
    · cases h; exact ⟨rfl, rfl⟩
    · exact (saChoose_linkKept h :)
  case saSignature =>
    simp only [runPoint] at h
    split at h
    · exact saChoose_linkKept h
    · cases h; exact ⟨rfl, rfl⟩
  case saBoard =>
    simp only [runPoint] at h
    split at h
    · cases h; exact ⟨rfl, rfl⟩
    · exact (saChoose_linkKept h :)
  case saWord =>
    simp only [runPoint] at h
    split at h
    · cases h; exact ⟨rfl, rfl⟩
    · exact saChoose_linkKept h
  case ringInit =>
    simp only [runPoint] at h
    split at h
    · cases h; exact ⟨rfl, rfl⟩
    · cases h
  case fsmStart =>
    exact (scanFrom_linkKept h :)
  case scanStatus =>
    simp only [runPoint] at h
    split at h
    · exact scanFrom_linkKept h
    · cases h; exact ⟨rfl, rfl⟩
  case scanId2 =>
    exact (scanFrom_linkKept h :)
  case selectStatus =>
    exact (selectFrom_linkKept h :)
  case afterReset =>
    simp only [runPoint] at h
    obtain ⟨_, -, hpoll⟩ := withField_next h
    split at hpoll
    · exact (linkPollFrom_linkKept hpoll :)
    · exact (anegPollFrom_linkKept hpoll :)
  case linkPoll =>
    simp only [runPoint] at h
    split at h
    · exact (anegPollFrom_linkKept h :)
    · exact linkPollFrom_linkKept h
  case anegPoll =>
    simp only [runPoint] at h
    split at h
    · cases h; exact ⟨rfl, rfl⟩
    · exact anegPollFrom_linkKept h
  case recvOwn =>
    simp only [runPoint] at h
    split at h
    · cases h; exact ⟨rfl, rfl⟩
    · exact recvFrame_linkKept h
  case programStationAddress | initDone =>
    obtain ⟨_, -, hnext⟩ := withField_next h
    cases hnext; exact ⟨rfl, rfl⟩
  case sendRelease =>
    obtain ⟨_, -, hduplex⟩ := withField_next h
    obtain ⟨_, -, hspeed⟩ := withField_next hduplex
    cases hspeed; exact ⟨rfl, rfl⟩
  case initSlot | sendOwn | advanceCursor | linkStatus | irqDecode =>
    simp only [runPoint] at h
    split at h <;> (cases h; exact ⟨rfl, rfl⟩)
  case zeroCursors | saDisable | saEnable | saRecord | scanId1 | isolateWrite | unisolateWrite | latchLink | capLpa
    | capAdv | capGtcr | stationWrite | negotiated | recvLength | filterWrite | emit | rearm | stopDone | finish =>
    cases h; exact ⟨rfl, rfl⟩

theorem startOps_linkKept {l : List HostOp} {s t : State} (h : startOps l s = .next t) : LinkKept s t := by
  cases h; exact ⟨rfl, rfl⟩

/-- A call while an entry point is in progress changes nothing (R916). -/
theorem whenIdle_linkKept {k : Result} {s t : State} (h : whenIdle s k = .next t)
    (hbody : k = .next t → LinkKept s t) : LinkKept s t := by
  obtain rfl | hnext := whenIdle_next h
  · exact ⟨rfl, rfl⟩
  · exact hbody hnext

theorem execEntryInit_linkKept {s t : State} (h : execEntryInit s = .next t) : LinkKept s t := by
  refine whenIdle_linkKept h fun hbody => ?_
  split at hbody
  · obtain ⟨_, -, hnext⟩ := withField_next hbody
    cases hnext; exact ⟨rfl, rfl⟩
  · split at hbody
    · cases hbody; exact ⟨rfl, rfl⟩
    · split at hbody
      · cases hbody
      · exact (startOps_linkKept hbody :)

theorem execEntrySend_linkKept {payload : List Byte} {s t : State} (h : execEntrySend payload s = .next t) :
    LinkKept s t := by
  refine whenIdle_linkKept h fun hbody => ?_
  split at hbody
  · cases hbody; exact ⟨rfl, rfl⟩
  · split at hbody
    · cases hbody; exact ⟨rfl, rfl⟩
    · split at hbody
      · cases hbody
      · obtain ⟨_, -, hstart⟩ := withField_next hbody
        exact startOps_linkKept hstart

theorem exec_entryPoint_linkKept {i : Instr} {s t : State} (hrow : isEntryPoint i = true) (h : exec i s = .next t) :
    LinkKept s t := by
  cases i
  case entryInit => exact execEntryInit_linkKept h
  case entrySend => exact execEntrySend_linkKept h
  case entryRecv =>
    refine whenIdle_linkKept h fun hbody => ?_
    obtain ⟨_, -, hstart⟩ := withField_next hbody
    exact startOps_linkKept hstart
  case entryGetLink =>
    refine whenIdle_linkKept h fun hbody => ?_
    obtain ⟨_, -, hstart⟩ := withField_next hbody
    exact startOps_linkKept (withHandle_next hstart)
  case entrySetFilter | entrySetSa | entryStop =>
    exact whenIdle_linkKept h fun hbody => startOps_linkKept (withHandle_next hbody)
  case entryIrq =>
    refine whenIdle_linkKept h fun hbody => ?_
    exact (startOps_linkKept (withHandle_next hbody) :)
  case entryTick => exact whenIdle_linkKept h fun hbody => by cases hbody; exact ⟨rfl, rfl⟩
  all_goals cases hrow

theorem exec_linkKept {i : Instr} {s t : State} (h : exec i s = .next t) : LinkKept s t := by
  obtain haccess | htx | hrx | ⟨hrow, -⟩ := exec_cases h
  · exact .of_ctx haccess.frame.ctx
  · exact .of_ctx (by rw [htx.fields])
  · exact .of_ctx (by rw [hrx.fields])
  · exact exec_entryPoint_linkKept hrow h

theorem runOp_linkKept {op : HostOp} {s t : State} (h : runOp op s = .next t) :
    LinkKept s t ∨ ∃ p, op = .point p ∧ FsmResolution p := by
  obtain haccess | hmem | hpoll | ⟨p, rfl, hpoint⟩ := runOp_access_cases h
  · exact .inl (.of_ctx haccess.frame.ctx)
  · exact .inl (.of_ctx (by rw [hmem.fields]))
  · exact .inl (.of_ctx (by rw [hpoll.fields]))
  · obtain hkept | hresolution := runPoint_linkKept hpoint
    · exact .inl hkept
    · exact .inr ⟨p, rfl, hresolution⟩

/-- Settles O57: no row sets speed or duplex, and of the micro-operations the FSM's two resolutions alone. -/
theorem onlyTheFsmSetsSpeedAndDuplex : Obligations.OnlyTheFsmSetsSpeedAndDuplex := by
  refine ⟨fun i s t h => exec_linkKept h, fun op s t h => ?_⟩
  obtain hkept | ⟨p, rfl, hresolution⟩ := runOp_linkKept h
  · exact .inl hkept
  · cases hresolution
    case fe a up lpa adv => exact .inr (.inl ⟨a, up, lpa, adv, rfl⟩)
    case ge up lpa adv aner gtcr => exact .inr (.inr ⟨up, lpa, adv, aner, gtcr, rfl⟩)

end Sys2Proof.Machine
end

section
/-!
PROOFS of the family 20_memory: HOST's write of a descriptor word is refused, a race or stored (R202, R204, R209, R222,
R317, R501).
-/
namespace Sys2Proof.Machine

/-! ### What a write of a descriptor word can do -/

/-- The words that HOST may not write, and the mark each leaves (R209, R317). -/
theorem descRefusal?_eq_some_iff {w : DescWord} {v : Word} {m : Mark} :
    descRefusal? w v = some m ↔
      (((w = .cmdsts ∧ v.extractLsb' 24 6 ≠ 0) ∨ (w = .flags ∧ v.extractLsb' 16 15 ≠ 0)) ∧ m = .reservedDescriptorBit) ∨
      (w = .bufptr ∧ v.extractLsb' 0 4 ≠ 0 ∧ m = .misalignedBuffer) := by
  cases w <;> simp [descRefusal?, eq_comm]

theorem hostDescWrite_of_refusal {w : DescWord} {v : Word} {m : Mark} (ring : Ring) (i : Nat) (s : State)
    (h : descRefusal? w v = some m) : hostDescWrite ring i w v s = .next (refuse m s) := by
  simp only [hostDescWrite, h]

theorem hostDescWrite_of_race {s : State} {ring r : Ring} {i j : Nat} {w : DescWord} {v : Word}
    (hok : descRefusal? w v = none) (hrace : race? s .host (slotAddr s ring i w) 4 = some (r, j)) :
    hostDescWrite ring i w v s = .fault (.ownershipRace r j .host) := by
  simp only [hostDescWrite, hok, hrace]

theorem hostDescWrite_of_noRace {s : State} {ring : Ring} {i : Nat} {w : DescWord} {v : Word}
    (hok : descRefusal? w v = none) (hrace : race? s .host (slotAddr s ring i w) 4 = none) :
    hostDescWrite ring i w v s = .next { s with mem := descPut s.cfg.regMap s.mem (ringPa s.cfg ring) i w v } := by
  simp only [hostDescWrite, hok, hrace]

/-! ### When it is a race -/

/-- A race of HOST is with the DMA engine: the slot it names is hardware-owned (R500, R501). -/
theorem race?_host_eq_some {s : State} {a : Word} {n : Nat} {r : Ring} {j : Nat} (h : race? s .host a n = some (r, j)) :
    j < s.cfg.ringLen ∧ slotOwned s r j = true ∧ touchesSlot s a n r j = true := by
  obtain ⟨hj, htouch, hmay⟩ := race?_eq_some h
  exact ⟨hj, by simpa [mayWrite] using hmay, htouch⟩

theorem race?_desc_of_owned {s : State} {ring : Ring} {i : Nat} {w : DescWord} (hregions : regionsOk s.cfg = true)
    (hi : i < s.cfg.ringLen) (hw : w ≠ .cmdsts) (hown : slotOwned s ring i = true) :
    race? s .host (slotAddr s ring i w) 4 = some (ring, i) := by
  rw [race?_desc (regionFacts hregions) hi, if_pos ⟨hw, hown⟩]

theorem race?_desc_of_allowed {s : State} {ring : Ring} {i : Nat} {w : DescWord} (hregions : regionsOk s.cfg = true)
    (hi : i < s.cfg.ringLen) (hallowed : w = .cmdsts ∨ slotOwned s ring i = false) :
    race? s .host (slotAddr s ring i w) 4 = none := by
  rw [race?_desc (regionFacts hregions) hi, if_neg]
  rintro ⟨hw, hown⟩
  obtain hcmdsts | hfree := hallowed
  · exact hw hcmdsts
  · rw [hfree] at hown
    cases hown

/-- Settles O34: the refusal is tested first, then the race, which with the regions apart is the named slot's own; a word
that passes both is put at the slot's address and nowhere else. -/
theorem descriptorWordWrites : Obligations.DescriptorWordWrites := by
  intro s ring i w v
  refine ⟨fun hreserved => ?_, fun hbufptr hmisaligned => ?_, fun hok => ⟨fun r j hrace => ?_, ?_, fun hstored => ?_⟩⟩
  · exact hostDescWrite_of_refusal ring i s (descRefusal?_eq_some_iff.2 (.inl ⟨hreserved, rfl⟩))
  · exact hostDescWrite_of_refusal ring i s (descRefusal?_eq_some_iff.2 (.inr ⟨hbufptr, hmisaligned, rfl⟩))
  · exact ⟨hostDescWrite_of_race hok hrace, race?_host_eq_some hrace⟩
  · intro hregions hi hw hown
    exact hostDescWrite_of_race hok (race?_desc_of_owned hregions hi hw hown)
  · have hrace : race? s .host (slotAddr s ring i w) 4 = none := by
      obtain hnone | ⟨hregions, hi, hallowed⟩ := hstored
      · exact hnone
      · exact race?_desc_of_allowed hregions hi hallowed
    exact ⟨_, hostDescWrite_of_noRace hok hrace, rfl, descGet_descPut_same .., memWf_descPut _ _ _ _,
      fun a hapart => memRead_descPut_other _ _ _ _ _ _ a hapart⟩

end Sys2Proof.Machine
end

section
/-!
PROOFS of the family 30_encoding: the fields of each word and the rows that words, selectors and codes decode to; the two
directions between bytes and operations (R300 to R306, R312 to R318); what HOST does with a reserved selector or code (R317,
R402, R403, R908); and the StationControl word it writes for a link (R311, R621, R111).
-/
namespace Sys2Proof

/-! ### Words and their fields -/

theorem extractLsb'_one {n : Nat} (v : BitVec n) (k : Nat) : v.extractLsb' k 1 = BitVec.ofBool (v.getLsbD k) := by
  apply BitVec.eq_of_getLsbD_eq
  intro j hj
  obtain rfl : j = 0 := by omega
  simp

theorem getLsbD_zero_eq (b : BitVec 1) : b.getLsbD 0 = decide (b = 1#1) := by revert b; decide

/-- R300: W, SZ and OFF stand where the decoder looks for them. -/
theorem accSelector_fields (w : BitVec 1) (sz : BitVec 3) (off : BitVec 12) :
    let v : BitVec (1 + 3 + 12) := accSelector w sz off
    v.getLsbD 15 = decide (w = 1#1) ∧ v.extractLsb' 12 3 = sz ∧ v.extractLsb' 0 12 = off := by
  simp (disch := decide) only [accSelector, BitVec.extractLsb'_append_eq_of_le, BitVec.extractLsb'_append_eq_of_add_le,
    BitVec.getLsbD_append, if_neg, Nat.reduceSub, BitVec.extractLsb'_eq_self, getLsbD_zero_eq, and_self]

theorem exists_accSelector (v : BitVec (1 + 3 + 12)) : ∃ w sz off, v = accSelector w sz off := by
  refine ⟨v.extractLsb' 15 1, v.extractLsb' 12 3, v.extractLsb' 0 12, ?_⟩
  unfold accSelector
  iterate 2 rw [BitVec.extractLsb'_append_extractLsb'_eq_extractLsb' (by rfl)]
  exact BitVec.extractLsb'_eq_self.symm

/-- R301, as `decodeMii` takes the word apart. -/
theorem miiWord_fields (data : Half) (regad phyad : BitVec 5) (opWr req : BitVec 1) (lines : BitVec 4) :
    let v : BitVec (16 + 5 + 5 + 1 + 1 + 4) := miiWord data regad phyad opWr req lines
    v.extractLsb' 16 16 = data ∧ v.extractLsb' 11 5 = regad ∧ v.extractLsb' 6 5 = phyad ∧ v.extractLsb' 5 1 = opWr ∧
      v.getLsbD 5 = decide (opWr = 1#1) ∧ v.getLsbD 4 = decide (req = 1#1) ∧ v.extractLsb' 0 4 = lines := by
  simp (disch := decide) only [miiWord, BitVec.extractLsb'_append_eq_of_le, BitVec.extractLsb'_append_eq_of_add_le,
    BitVec.getLsbD_append, if_pos, if_neg, Nat.reduceSub, BitVec.extractLsb'_eq_self, getLsbD_zero_eq, and_self]

theorem exists_miiWord (v : BitVec (16 + 5 + 5 + 1 + 1 + 4)) :
    ∃ data regad phyad opWr req lines, v = miiWord data regad phyad opWr req lines := by
  refine ⟨v.extractLsb' 16 16, v.extractLsb' 11 5, v.extractLsb' 6 5, v.extractLsb' 5 1, v.extractLsb' 4 1,
    v.extractLsb' 0 4, ?_⟩
  unfold miiWord
  iterate 5 rw [BitVec.extractLsb'_append_extractLsb'_eq_extractLsb' (by rfl)]
  exact BitVec.extractLsb'_eq_self.symm

/-- R302, as `decodeEe` takes the word apart. -/
theorem eeWord_fields (data : Half) (word : BitVec 6) (op : BitVec 2) (req : BitVec 1) (low : BitVec 7) :
    let v : BitVec (16 + 6 + 2 + 1 + 7) := eeWord data word op req low
    v.extractLsb' 16 16 = data ∧ v.extractLsb' 10 6 = word ∧ v.extractLsb' 8 2 = op ∧
      v.getLsbD 7 = decide (req = 1#1) ∧ v.extractLsb' 0 7 = low := by
  simp (disch := decide) only [eeWord, BitVec.extractLsb'_append_eq_of_le, BitVec.extractLsb'_append_eq_of_add_le,
    BitVec.getLsbD_append, if_pos, if_neg, Nat.reduceSub, BitVec.extractLsb'_eq_self, getLsbD_zero_eq, and_self]

theorem exists_eeWord (v : BitVec (16 + 6 + 2 + 1 + 7)) : ∃ data word op req low, v = eeWord data word op req low := by
  refine ⟨v.extractLsb' 16 16, v.extractLsb' 10 6, v.extractLsb' 8 2, v.extractLsb' 7 1, v.extractLsb' 0 7, ?_⟩
  unfold eeWord
  iterate 4 rw [BitVec.extractLsb'_append_extractLsb'_eq_extractLsb' (by rfl)]
  exact BitVec.extractLsb'_eq_self.symm

/-- R303, as `decodeTxctl` and `decodeRxctl` take the word apart. -/
theorem ctlWord_fields (hi : BitVec 27) (poll : BitVec 1) (lo : BitVec 3) (enb : BitVec 1) :
    let v : BitVec (27 + 1 + 3 + 1) := ctlWord hi poll lo enb
    v.extractLsb' 5 27 = hi ∧ v.extractLsb' 4 1 = poll ∧ v.getLsbD 4 = decide (poll = 1#1) ∧ v.extractLsb' 1 3 = lo ∧
      v.getLsbD 0 = decide (enb = 1#1) := by
  simp (disch := decide) only [ctlWord, BitVec.extractLsb'_append_eq_of_le, BitVec.extractLsb'_append_eq_of_add_le,
    BitVec.getLsbD_append, if_pos, if_neg, Nat.reduceSub, BitVec.extractLsb'_eq_self, getLsbD_zero_eq, and_self]

theorem exists_ctlWord (v : BitVec (27 + 1 + 3 + 1)) : ∃ hi poll lo enb, v = ctlWord hi poll lo enb := by
  refine ⟨v.extractLsb' 5 27, v.extractLsb' 4 1, v.extractLsb' 1 3, v.extractLsb' 0 1, ?_⟩
  unfold ctlWord
  iterate 3 rw [BitVec.extractLsb'_append_extractLsb'_eq_extractLsb' (by rfl)]
  exact BitVec.extractLsb'_eq_self.symm

/-- R303, as `decodeIc` takes the word apart. -/
theorem icWord_fields (hi : Half) (soft : BitVec 1) (lo : BitVec 15) :
    let v : BitVec (16 + 1 + 15) := icWord hi soft lo
    v.extractLsb' 16 16 = hi ∧ v.getLsbD 15 = decide (soft = 1#1) ∧ v.extractLsb' 0 15 = lo := by
  simp (disch := decide) only [icWord, BitVec.extractLsb'_append_eq_of_le, BitVec.extractLsb'_append_eq_of_add_le,
    BitVec.getLsbD_append, if_pos, if_neg, Nat.reduceSub, BitVec.extractLsb'_eq_self, getLsbD_zero_eq, and_self]

theorem exists_icWord (v : BitVec (16 + 1 + 15)) : ∃ hi soft lo, v = icWord hi soft lo := by
  refine ⟨v.extractLsb' 16 16, v.extractLsb' 15 1, v.extractLsb' 0 15, ?_⟩
  unfold icWord
  iterate 2 rw [BitVec.extractLsb'_append_extractLsb'_eq_extractLsb' (by rfl)]
  exact BitVec.extractLsb'_eq_self.symm

/-- R304, as `decodeDesc` takes the word apart. -/
theorem cmdstsWord_fields (own intr : BitVec 1) (rsvd : BitVec 6) (cmd : BitVec 8) (status : Half) :
    let v : BitVec (1 + 1 + 6 + 8 + 16) := cmdstsWord own intr rsvd cmd status
    v.getLsbD 31 = decide (own = 1#1) ∧ v.extractLsb' 30 1 = intr ∧ v.extractLsb' 24 6 = rsvd ∧
      v.extractLsb' 16 8 = cmd ∧ v.extractLsb' 0 16 = status := by
  simp (disch := decide) only [cmdstsWord, BitVec.extractLsb'_append_eq_of_le, BitVec.extractLsb'_append_eq_of_add_le,
    BitVec.getLsbD_append, if_neg, Nat.reduceSub, BitVec.extractLsb'_eq_self, getLsbD_zero_eq, and_self]

theorem exists_cmdstsWord (v : BitVec (1 + 1 + 6 + 8 + 16)) :
    ∃ own intr rsvd cmd status, v = cmdstsWord own intr rsvd cmd status := by
  refine ⟨v.extractLsb' 31 1, v.extractLsb' 30 1, v.extractLsb' 24 6, v.extractLsb' 16 8, v.extractLsb' 0 16, ?_⟩
  unfold cmdstsWord
  iterate 4 rw [BitVec.extractLsb'_append_extractLsb'_eq_extractLsb' (by rfl)]
  exact BitVec.extractLsb'_eq_self.symm

/-! ### The row of a word, from its fields -/

/-- R313. -/
theorem decodeMii_miiWord (data : Half) (regad phyad : BitVec 5) (opWr req : BitVec 1) (lines : BitVec 4) :
    decodeMii (miiWord data regad phyad opWr req lines) =
      if lines = 0 then
        if req = 1#1 then
          if opWr = 1#1 then .miiWrite data regad phyad else .miiRead data regad phyad
        else .miiIdle data regad phyad opWr
      else if req = 1#1 then .miiRsvd data regad phyad opWr lines
      else .miiBitbang data regad phyad opWr lines := by
  simp only [decodeMii, miiWord_fields data regad phyad opWr req lines, decide_eq_true_eq]

/-- R314. -/
theorem decodeEe_eeWord (data : Half) (word : BitVec 6) (op : BitVec 2) (req : BitVec 1) (low : BitVec 7) :
    decodeEe (eeWord data word op req low) =
      if req = 1#1 then
        if low = 0 then
          if op = 0b10#2 then .eeRead data word
          else if op = 0b01#2 then .eeWrite data word
          else if op = 0b00#2 then .eeRsvd0 data word
          else .eeRsvd3 data word
        else .eeRsvdLines data word op low
      else .eeIdle data word op low := by
  simp only [decodeEe, eeWord_fields data word op req low, decide_eq_true_eq]

/-- R315. -/
theorem decodeTxctl_ctlWord (hi : BitVec 27) (poll : BitVec 1) (lo : BitVec 3) (enb : BitVec 1) :
    decodeTxctl (ctlWord hi poll lo enb) =
      if enb = 1#1 then if poll = 1#1 then .txctlKick hi lo else .txctlEnable hi lo else .txctlDisable hi poll lo := by
  simp only [decodeTxctl, ctlWord_fields hi poll lo enb, decide_eq_true_eq]

/-- R315. -/
theorem decodeRxctl_ctlWord (hi : BitVec 27) (poll : BitVec 1) (lo : BitVec 3) (enb : BitVec 1) :
    decodeRxctl (ctlWord hi poll lo enb) =
      if enb = 1#1 then if poll = 1#1 then .rxctlKick hi lo else .rxctlEnable hi lo else .rxctlDisable hi poll lo := by
  simp only [decodeRxctl, ctlWord_fields hi poll lo enb, decide_eq_true_eq]

/-- R315. -/
theorem decodeIc_icWord (hi : Half) (soft : BitVec 1) (lo : BitVec 15) :
    decodeIc (icWord hi soft lo) = if soft = 1#1 then .icSoft hi lo else .icRelease hi lo := by
  simp only [decodeIc, icWord_fields hi soft lo, decide_eq_true_eq]

/-- R316. -/
theorem decodeDesc_tx_cmdstsWord (own intr : BitVec 1) (rsvd : BitVec 6) (cmd : BitVec 8) (status : Half) :
    decodeDesc .tx (cmdstsWord own intr rsvd cmd status) =
      if own = 1#1 then .txdHwown intr rsvd cmd status else .txdSwown intr rsvd cmd status := by
  simp only [decodeDesc, cmdstsWord_fields own intr rsvd cmd status]
  obtain rfl | rfl := BitVec.eq_zero_or_eq_one own <;> rfl

/-- R316. -/
theorem decodeDesc_rx_cmdstsWord (own intr : BitVec 1) (rsvd : BitVec 6) (cmd : BitVec 8) (status : Half) :
    decodeDesc .rx (cmdstsWord own intr rsvd cmd status) =
      if own = 1#1 then .rxdHwown intr rsvd cmd status else .rxdSwown intr rsvd cmd status := by
  simp only [decodeDesc, cmdstsWord_fields own intr rsvd cmd status]
  obtain rfl | rfl := BitVec.eq_zero_or_eq_one own <;> rfl

/-! ### The row of a word encodes as that word -/

theorem decodeMii_encodes (m : Config.RegMap) (v : Word) :
    (decodeMii v).WellFormed = true ∧ encode m (decodeMii v) = encodeWord m .miicmd v := by
  obtain ⟨data, regad, phyad, opWr, req, lines, rfl⟩ := exists_miiWord v
  rw [decodeMii_miiWord]
  by_cases hlines : lines = 0
  · subst hlines
    obtain rfl | rfl := BitVec.eq_zero_or_eq_one req
    · exact ⟨rfl, rfl⟩
    · obtain rfl | rfl := BitVec.eq_zero_or_eq_one opWr <;> exact ⟨rfl, rfl⟩
  · rw [if_neg hlines]
    obtain rfl | rfl := BitVec.eq_zero_or_eq_one req <;> exact ⟨decide_eq_true hlines, rfl⟩

theorem decodeEe_encodes (m : Config.RegMap) (v : Word) :
    (decodeEe v).WellFormed = true ∧ encode m (decodeEe v) = encodeWord m .eecmd v := by
  obtain ⟨data, word, op, req, low, rfl⟩ := exists_eeWord v
  rw [decodeEe_eeWord]
  obtain rfl | rfl := BitVec.eq_zero_or_eq_one req
  · exact ⟨rfl, rfl⟩
  · by_cases hlow : low = 0
    · have hop : op = 0b10#2 ∨ op = 0b01#2 ∨ op = 0b00#2 ∨ op = 0b11#2 := by revert op; decide
      subst hlow
      obtain rfl | rfl | rfl | rfl := hop <;> exact ⟨rfl, rfl⟩
    · rw [if_pos rfl, if_neg hlow]
      exact ⟨decide_eq_true hlow, rfl⟩

theorem decodeCtl_encodes (m : Config.RegMap) (v : Word) :
    ((decodeTxctl v).WellFormed = true ∧ encode m (decodeTxctl v) = encodeWord m .txctl v) ∧
      (decodeRxctl v).WellFormed = true ∧ encode m (decodeRxctl v) = encodeWord m .rxctl v := by
  obtain ⟨hi, poll, lo, enb, rfl⟩ := exists_ctlWord v
  rw [decodeTxctl_ctlWord, decodeRxctl_ctlWord]
  obtain rfl | rfl := BitVec.eq_zero_or_eq_one enb
  · exact ⟨⟨rfl, rfl⟩, rfl, rfl⟩
  · obtain rfl | rfl := BitVec.eq_zero_or_eq_one poll <;> exact ⟨⟨rfl, rfl⟩, rfl, rfl⟩

theorem decodeIc_encodes (m : Config.RegMap) (v : Word) :
    (decodeIc v).WellFormed = true ∧ encode m (decodeIc v) = encodeWord m .ic v := by
  obtain ⟨hi, soft, lo, rfl⟩ := exists_icWord v
  rw [decodeIc_icWord]
  obtain rfl | rfl := BitVec.eq_zero_or_eq_one soft <;> exact ⟨rfl, rfl⟩

theorem decodeDesc_encodes (m : Config.RegMap) (v : Word) :
    ((decodeDesc .tx v).WellFormed = true ∧ encode m (decodeDesc .tx v) = encodeWord m .txd v) ∧
      (decodeDesc .rx v).WellFormed = true ∧ encode m (decodeDesc .rx v) = encodeWord m .rxd v := by
  obtain ⟨own, intr, rsvd, cmd, status, rfl⟩ := exists_cmdstsWord v
  rw [decodeDesc_tx_cmdstsWord, decodeDesc_rx_cmdstsWord]
  obtain rfl | rfl := BitVec.eq_zero_or_eq_one own <;> exact ⟨⟨rfl, rfl⟩, rfl, rfl⟩

/-- Whatever the format, the row of a 32-bit word is well formed and encodes as that word. -/
theorem decodeWord_encodes (m : Config.RegMap) {f : Format} (v : Word) (hacc : f ≠ .acc) (hentry : f ≠ .entry) :
    (decodeWord f v).WellFormed = true ∧ encode m (decodeWord f v) = encodeWord m f v := by
  cases f
  case acc => exact absurd rfl hacc
  case entry => exact absurd rfl hentry
  case miicmd => exact decodeMii_encodes m v
  case eecmd => exact decodeEe_encodes m v
  case txctl => exact (decodeCtl_encodes m v).1
  case rxctl => exact (decodeCtl_encodes m v).2
  case ic => exact decodeIc_encodes m v
  case is => exact ⟨rfl, rfl⟩
  case txd => exact (decodeDesc_encodes m v).1
  case rxd => exact (decodeDesc_encodes m v).2

/-! ### Bytes and words -/

@[simp] theorem wordBytes_wordOfBytes (b0 b1 b2 b3 : Byte) : wordBytes (wordOfBytes b0 b1 b2 b3) = [b0, b1, b2, b3] := by
  have h : let v := b3 ++ b2 ++ b1 ++ b0
      v.extractLsb' 0 8 = b0 ∧ v.extractLsb' 8 8 = b1 ∧ v.extractLsb' 16 8 = b2 ∧ v.extractLsb' 24 8 = b3 := by
    simp (disch := decide) only [BitVec.extractLsb'_append_eq_of_le, BitVec.extractLsb'_append_eq_of_add_le,
      Nat.reduceSub, BitVec.extractLsb'_eq_self, and_self]
  obtain ⟨h0, h1, h2, h3⟩ := h
  simp only [wordBytes, byteOfWord, wordOfBytes, Nat.reduceMul, h0, h1, h2, h3]

theorem halfBytes_append (b0 b1 : Byte) : halfBytes (b1 ++ b0) = [b0, b1] := by
  rw [halfBytes, BitVec.extractLsb'_append_eq_right, BitVec.extractLsb'_append_eq_left]

theorem append_halfBytes (v : Half) : (v.extractLsb' 8 8 ++ v.extractLsb' 0 8 : Half) = v := by
  rw [BitVec.extractLsb'_append_extractLsb'_eq_extractLsb' (by rfl)]
  exact BitVec.extractLsb'_eq_self

/-! ### The decoder, format by format -/

/-- The first test of a chain of tests, taken off. -/
theorem ite_eq_iff_or {α : Type} {p : Prop} [Decidable p] {a b x : α} :
    (if p then a else b) = x ↔ (p ∧ a = x) ∨ (¬ p ∧ b = x) := by
  by_cases hp : p
  · simp only [hp, if_true, true_and, not_true_eq_false, false_and, or_false]
  · simp only [hp, if_false, false_and, not_false_eq_true, true_and, false_or]

theorem eq_tag_of_ofTag {t : Byte} {f : Format} (h : Format.ofTag t = some f) : t = f.tag := by
  unfold Format.ofTag at h
  iterate 10
    rw [ite_eq_iff_or] at h
    obtain ⟨rfl, hf⟩ | ⟨-, h⟩ := h
    · cases hf; rfl
  cases h

theorem decode_encodeAcc (m : Config.RegMap) (sel : Half) (data rest : List Byte) :
    decode m (encodeAcc sel data ++ rest) = decodeAcc m sel (data ++ rest) := by
  show decodeAcc m (sel.extractLsb' 8 8 ++ sel.extractLsb' 0 8) (data ++ rest) = _
  rw [append_halfBytes]

theorem decode_encodeEntry (m : Config.RegMap) (code : Byte) (operands rest : List Byte) :
    decode m (encodeEntry code operands ++ rest) = decodeEntry code (operands ++ rest) := rfl

theorem decode_word (m : Config.RegMap) {f : Format} (b0 b1 b2 b3 : Byte) (rest : List Byte) (hacc : f ≠ .acc)
    (hentry : f ≠ .entry) :
    decode m (f.tag :: b0 :: b1 :: b2 :: b3 :: rest) =
      .ok (decodeWord f (m.ofBus f.carrier (wordOfBytes b0 b1 b2 b3))) rest := by
  cases f
  case acc => exact absurd rfl hacc
  case entry => exact absurd rfl hentry
  all_goals rfl

theorem decode_encodeWord (m : Config.RegMap) {f : Format} (v : Word) (rest : List Byte) (hacc : f ≠ .acc)
    (hentry : f ≠ .entry) : decode m (encodeWord m f v ++ rest) = .ok (decodeWord f v) rest := by
  rw [show encodeWord m f v ++ rest = f.tag :: (wordBytes (m.toBus f.carrier v) ++ rest) from rfl]
  exact (decode_word m _ _ _ _ rest hacc hentry).trans (by rw [Machine.wordOfBytes_byteOfWord, ofBus_toBus])

/-! ### Register accesses -/

theorem encode_rd32Of (m : Config.RegMap) (r : Reg) : encode m (rd32Of r) = encodeRead m r := by cases r <;> rfl

theorem encode_wr32Of (m : Config.RegMap) (v : Word) (r : Reg) : encode m (wr32Of v r) = encodeWrite m r v := by
  cases r <;> rfl

theorem rd32Of_wellFormed (r : Reg) : (rd32Of r).WellFormed = true := by cases r <;> rfl

theorem wr32Of_wellFormed (v : Word) (r : Reg) : (wr32Of v r).WellFormed = true := by cases r <;> rfl

section
variable {m : Config.RegMap} {off : BitVec 12}

theorem decodeAcc_read_of_reg {r : Reg} (h : m.regAt off = some r) (rest : List Byte) :
    decodeAcc m (accSelector 0#1 0b010#3 off) rest = .ok (rd32Of r) rest := by
  simp only [decodeAcc, accSelector_fields, h]
  rfl

theorem decodeAcc_read_of_none (h : m.regAt off = none) (rest : List Byte) :
    decodeAcc m (accSelector 0#1 0b010#3 off) rest = .reject .reservedOffset rest := by
  simp only [decodeAcc, accSelector_fields, h]
  rfl

theorem decodeAcc_write_of_reg {r : Reg} (h : m.regAt off = some r) (v : Word) (rest : List Byte) :
    decodeAcc m (accSelector 1#1 0b010#3 off) (wordBytes v ++ rest) = .ok (wr32Of (m.ofBus (.reg r) v) r) rest := by
  simp [decodeAcc, accSelector_fields, h, wordBytes, Machine.wordOfBytes_byteOfWord]

theorem decodeAcc_write_of_none (h : m.regAt off = none) (v : Word) (rest : List Byte) :
    decodeAcc m (accSelector 1#1 0b010#3 off) (wordBytes v ++ rest) = .reject .reservedOffset rest := by
  simp [decodeAcc, accSelector_fields, h, wordBytes]

theorem decodeAcc_byte_of_sa01 {lane : BitVec 1} (h : m.sa01At off = some lane) (b : Byte) (rest : List Byte) :
    decodeAcc m (accSelector 1#1 0b000#3 off) (b :: rest) = .ok (.wr8Sa01 lane b) rest := by
  simp [decodeAcc, accSelector_fields, h]

theorem decodeAcc_byte_of_sa25 {lane : BitVec 2} (h01 : m.sa01At off = none) (h25 : m.sa25At off = some lane) (b : Byte)
    (rest : List Byte) : decodeAcc m (accSelector 1#1 0b000#3 off) (b :: rest) = .ok (.wr8Sa25 lane b) rest := by
  simp [decodeAcc, accSelector_fields, h01, h25]

theorem decodeAcc_byte_of_none (h01 : m.sa01At off = none) (h25 : m.sa25At off = none) (b : Byte) (rest : List Byte) :
    decodeAcc m (accSelector 1#1 0b000#3 off) (b :: rest) = .reject .misalignedRegAccess rest := by
  simp [decodeAcc, accSelector_fields, h01, h25]

theorem decodeAcc_of_width {w : BitVec 1} {sz : BitVec 3} (h32 : sz ≠ 0b010#3) (h8 : sz ≠ 0b000#3 ∨ w = 0#1)
    (rest : List Byte) : decodeAcc m (accSelector w sz off) rest = .reject .misalignedRegAccess rest := by
  have hw : ¬ (sz = 0b000#3 ∧ w = 1#1) := by
    rintro ⟨hsz, rfl⟩
    exact h8.elim (fun h => h hsz) (by decide)
  simp only [decodeAcc, accSelector_fields, decide_eq_true_eq, if_neg h32, if_neg hw]

end

/-- R312, R318: an accepted access is a 32-bit write, a 32-bit read or a byte write, and its bytes are that row's. -/
theorem decodeAcc_encodes {m : Config.RegMap} {sel : Half} {data rest : List Byte} {i : Instr}
    (h : decodeAcc m sel data = .ok i rest) : i.WellFormed = true ∧ encode m i ++ rest = encodeAcc sel data := by
  obtain ⟨w, sz, off, rfl⟩ := exists_accSelector sel
  simp only [decodeAcc, accSelector_fields, decide_eq_true_eq] at h
  split at h
  · rename_i hsz
    subst hsz
    split at h
    · -- a 32-bit write
      rename_i hw
      subst hw
      split at h
      · split at h
        · rename_i r hr
          cases h
          rw [encode_wr32Of, encodeWrite, toBus_ofBus, wordBytes_wordOfBytes, regAt_eq_some hr]
          exact ⟨wr32Of_wellFormed _ r, rfl⟩
        · cases h
      · cases h
    · -- a 32-bit read
      rename_i hw
      obtain rfl := (BitVec.eq_zero_or_eq_one w).resolve_right hw
      split at h
      · rename_i r hr
        cases h
        rw [encode_rd32Of, encodeRead, regAt_eq_some hr]
        exact ⟨rd32Of_wellFormed r, rfl⟩
      · cases h
  · split at h
    · -- a byte write
      rename_i hbyte
      obtain ⟨rfl, rfl⟩ := hbyte
      split at h
      · split at h
        · rename_i lane _ hlane
          cases h
          exact ⟨rfl, by rw [encode, sa01At_eq_some hlane]; rfl⟩
        · rename_i lane _ hlane
          cases h
          exact ⟨rfl, by rw [encode, sa25At_eq_some hlane]; rfl⟩
        · cases h
      · cases h
    · cases h

/-! ### Entry points -/

theorem decodeEntry_of_reserved {code : Byte} (h : code = 0 ∨ 9 < code.toNat) (rest : List Byte) :
    decodeEntry code rest = .reject .reservedEncoding rest := by
  have hne (k : Byte) (hk : 1 ≤ k.toNat ∧ k.toNat ≤ 9) : code ≠ k := by
    rintro rfl
    obtain rfl | h := h
    · exact absurd hk.1 (by decide)
    · omega
  unfold decodeEntry
  iterate 9 rw [if_neg (hne _ (by decide))]

theorem decodeEntry_send {payload : List Byte} (h : payload.length < 2 ^ 32) (rest : List Byte) :
    decodeEntry 0x02#8 (wordBytes (BitVec.ofNat 32 payload.length) ++ (payload ++ rest)) =
      .ok (.entrySend payload) rest := by
  have hlen : (BitVec.ofNat 32 payload.length).toNat = payload.length := by
    rw [BitVec.toNat_ofNat, Nat.mod_eq_of_lt h]
  simp only [decodeEntry, wordBytes, List.cons_append, List.nil_append, Machine.wordOfBytes_byteOfWord, hlen,
    List.length_append, Nat.not_lt.2 (Nat.le_add_right ..), List.take_left, List.drop_left]
  rfl

theorem decodeEntry_recv {maxLen : Nat} (h : maxLen < 2 ^ 32) (rest : List Byte) :
    decodeEntry 0x03#8 (wordBytes (BitVec.ofNat 32 maxLen) ++ rest) = .ok (.entryRecv maxLen) rest := by
  show Decoded.ok (.entryRecv (wordOfBytes _ _ _ _).toNat) rest = _
  rw [Machine.wordOfBytes_byteOfWord, BitVec.toNat_ofNat, Nat.mod_eq_of_lt h]

theorem decodeEntry_setFilter (promisc multi broad : Bool) (rest : List Byte) :
    decodeEntry 0x04#8 (filterByte promisc multi broad :: rest) = .ok (.entrySetFilter promisc multi broad) rest := by
  cases promisc <;> cases multi <;> cases broad <;> rfl

/-- The flags operand is its three flags when the five reserved bits are 0 (log entry 21). -/
theorem filterByte_of_reserved (f : BitVec (5 + 1 + 1 + 1)) (h : f.extractLsb' 3 5 = 0#5) :
    filterByte (f.getLsbD 0) (f.getLsbD 1) (f.getLsbD 2) = f := by
  rw [filterByte, ← h, ← extractLsb'_one, ← extractLsb'_one, ← extractLsb'_one]
  iterate 3 rw [BitVec.extractLsb'_append_extractLsb'_eq_extractLsb' (by rfl)]
  exact BitVec.extractLsb'_eq_self

/-- SEND's payload, taken by the length before it, is long enough for that length to be read back. -/
theorem entrySend_encodes (m : Config.RegMap) {b0 b1 b2 b3 : Byte} {data : List Byte}
    (h : ¬ data.length < (wordOfBytes b0 b1 b2 b3).toNat) :
    let n := (wordOfBytes b0 b1 b2 b3).toNat
    (Instr.entrySend (data.take n)).WellFormed = true ∧
      encode m (.entrySend (data.take n)) ++ data.drop n = encodeEntry 0x02#8 (b0 :: b1 :: b2 :: b3 :: data) := by
  intro n
  have hlen : (data.take n).length = n := List.length_take_of_le (Nat.not_lt.1 h)
  have hlt : (data.take n).length < 2 ^ 32 := by
    rw [hlen]
    exact (wordOfBytes b0 b1 b2 b3).isLt
  refine ⟨decide_eq_true hlt, ?_⟩
  rw [encode, hlen, BitVec.ofNat_toNat, BitVec.setWidth_eq, wordBytes_wordOfBytes]
  show Format.entry.tag :: 0x02#8 :: b0 :: b1 :: b2 :: b3 :: (data.take n ++ data.drop n) = _
  rw [List.take_append_drop]
  rfl

/-- R306: an accepted entry point is a row of the table, and its bytes are that row's. -/
theorem decodeEntry_encodes (m : Config.RegMap) {code : Byte} {data rest : List Byte} {i : Instr}
    (h : decodeEntry code data = .ok i rest) : i.WellFormed = true ∧ encode m i ++ rest = encodeEntry code data := by
  simp only [decodeEntry, ite_eq_iff_or (x := Decoded.ok i rest)] at h
  obtain ⟨rfl, h⟩ | ⟨-, ⟨rfl, h⟩ | ⟨-, ⟨rfl, h⟩ | ⟨-, ⟨rfl, h⟩ | ⟨-, ⟨rfl, h⟩ | ⟨-, ⟨rfl, h⟩ | ⟨-, ⟨rfl, h⟩ |
    ⟨-, ⟨rfl, h⟩ | ⟨-, ⟨rfl, h⟩ | ⟨-, h⟩⟩⟩⟩⟩⟩⟩⟩⟩ := h
  · cases h; exact ⟨rfl, rfl⟩
  · split at h
    · split at h
      · cases h
      · rename_i hlen
        cases h
        exact entrySend_encodes m hlen
    · cases h
  · -- RECV
    split at h
    · cases h
      refine ⟨decide_eq_true (BitVec.isLt _), ?_⟩
      rw [encode, BitVec.ofNat_toNat, BitVec.setWidth_eq, wordBytes_wordOfBytes]
      rfl
    · cases h
  · -- SET_FILTER
    split at h
    · split at h
      · rename_i hreserved
        cases h
        exact ⟨rfl, by rw [encode, filterByte_of_reserved _ hreserved]; rfl⟩
      · cases h
    · cases h
  · -- SET_SA
    split at h
    · cases h; exact ⟨rfl, rfl⟩
    · cases h
  · cases h; exact ⟨rfl, rfl⟩
  · cases h; exact ⟨rfl, rfl⟩
  · cases h; exact ⟨rfl, rfl⟩
  · cases h; exact ⟨rfl, rfl⟩
  · cases h

/-! ### What an accepted byte string is -/

/-- R318: what the decoder accepts begins with a format byte, and the format alone says how the rest was read. -/
theorem decode_ok_cases {m : Config.RegMap} {bytes rest : List Byte} {i : Instr} (h : decode m bytes = .ok i rest) :
    (∃ sel data, bytes = encodeAcc sel data ∧ decodeAcc m sel data = .ok i rest) ∨
    (∃ code data, bytes = encodeEntry code data ∧ decodeEntry code data = .ok i rest) ∨
    (∃ f v, f ≠ .acc ∧ f ≠ .entry ∧ bytes = encodeWord m f v ++ rest ∧ i = decodeWord f v) := by
  unfold decode at h
  split at h
  · cases h
  · split at h
    · cases h
    · rename_i htag
      split at h
      · exact .inl ⟨_, _, by rw [eq_tag_of_ofTag htag, encodeAcc, halfBytes_append]; rfl, h⟩
      · cases h
    · rename_i htag
      split at h
      · exact .inr (.inl ⟨_, _, by rw [eq_tag_of_ofTag htag, encodeEntry], h⟩)
      · cases h
    · rename_i f hacc hentry htag
      split at h
      · cases h
        exact .inr (.inr ⟨f, _, hacc, hentry,
          by rw [eq_tag_of_ofTag htag, encodeWord, toBus_ofBus, wordBytes_wordOfBytes]; rfl, rfl⟩)
      · cases h

/-- Settles O2: the format byte says which of the three layouts was read, and each is put back together from its row. -/
theorem encodeOfDecode : Obligations.EncodeOfDecode := by
  intro m bytes rest i h
  obtain ⟨sel, data, rfl, hacc⟩ | ⟨code, data, rfl, hentry⟩ | ⟨f, v, hacc, hentry, rfl, rfl⟩ := decode_ok_cases h
  · exact decodeAcc_encodes hacc
  · exact decodeEntry_encodes m hentry
  · obtain ⟨hwf, henc⟩ := decodeWord_encodes m v hacc hentry
    exact ⟨hwf, by rw [henc]⟩

/-! ### Every row -/

section
variable {m : Config.RegMap} {i : Instr} (rest : List Byte)

theorem decode_of_readRow {r : Reg} (hm : m.ok = true) (henc : encode m i = encodeRead m r) (hrow : rd32Of r = i) :
    decode m (encode m i ++ rest) = .ok i rest := by
  rw [henc, encodeRead, decode_encodeAcc, List.nil_append, decodeAcc_read_of_reg (regAt_offset hm r), hrow]

theorem decode_of_writeRow {r : Reg} {v : Word} (hm : m.ok = true) (henc : encode m i = encodeWrite m r v)
    (hrow : wr32Of v r = i) : decode m (encode m i ++ rest) = .ok i rest := by
  rw [henc, encodeWrite, decode_encodeAcc, decodeAcc_write_of_reg (regAt_offset hm r), ofBus_toBus, hrow]

theorem decode_of_wordRow {f : Format} {v : Word} (henc : encode m i = encodeWord m f v) (hacc : f ≠ .acc)
    (hentry : f ≠ .entry) (hrow : decodeWord f v = i) : decode m (encode m i ++ rest) = .ok i rest := by
  rw [henc, decode_encodeWord m v rest hacc hentry, hrow]

end

/-- Settles O1, row by row: a register access finds its offset in REGMAP, a word has the fields it was made from, an entry
point has its operands; the five checks of `WellFormed` are what tells the row from its neighbours. -/
theorem decodeOfEncode : Obligations.DecodeOfEncode := by
  intro m i rest hm hwf
  cases i
  case rd32TxControl | rd32TxDescBase | rd32RxControl | rd32RxDescBase | rd32IntrStatus | rd32IntrMask |
      rd32IntrControl | rd32ROMInterface | rd32StationControl | rd32GMIIControl | rd32RGDelay | rd32RxMacControl |
      rd32RxMacAddr25 | rd32RxHashTable0 | rd32RxHashTable1 =>
    exact decode_of_readRow rest hm rfl rfl
  case wr32TxControl | wr32TxDescBase | wr32RxControl | wr32RxDescBase | wr32IntrStatus | wr32IntrMask |
      wr32IntrControl | wr32ROMInterface | wr32StationControl | wr32GMIIControl | wr32RGDelay | wr32RxMacControl |
      wr32RxMacAddr25 | wr32RxHashTable0 | wr32RxHashTable1 =>
    exact decode_of_writeRow rest hm rfl rfl
  case wr8Sa01 lane b => exact (decode_encodeAcc ..).trans (decodeAcc_byte_of_sa01 (sa01At_sa01 hm lane) b rest)
  case wr8Sa25 lane b =>
    exact (decode_encodeAcc ..).trans (decodeAcc_byte_of_sa25 (sa01At_sa25 hm lane) (sa25At_sa25 hm lane) b rest)
  case miiRead | miiWrite | miiIdle => exact decode_of_wordRow rest rfl (by decide) (by decide) (decodeMii_miiWord ..)
  case miiBitbang | miiRsvd =>
    exact decode_of_wordRow rest rfl (by decide) (by decide)
      ((decodeMii_miiWord ..).trans (if_neg (of_decide_eq_true hwf)))
  case eeRead | eeWrite | eeRsvd0 | eeRsvd3 | eeIdle =>
    exact decode_of_wordRow rest rfl (by decide) (by decide) (decodeEe_eeWord ..)
  case eeRsvdLines =>
    exact decode_of_wordRow rest rfl (by decide) (by decide)
      ((decodeEe_eeWord ..).trans (if_neg (of_decide_eq_true hwf)))
  case txctlKick | txctlEnable | txctlDisable =>
    exact decode_of_wordRow rest rfl (by decide) (by decide) (decodeTxctl_ctlWord ..)
  case rxctlKick | rxctlEnable | rxctlDisable =>
    exact decode_of_wordRow rest rfl (by decide) (by decide) (decodeRxctl_ctlWord ..)
  case icSoft | icRelease => exact decode_of_wordRow rest rfl (by decide) (by decide) (decodeIc_icWord ..)
  case isAck => exact decode_of_wordRow rest rfl (by decide) (by decide) rfl
  case txdHwown | txdSwown =>
    exact decode_of_wordRow rest rfl (by decide) (by decide) (decodeDesc_tx_cmdstsWord ..)
  case rxdHwown | rxdSwown =>
    exact decode_of_wordRow rest rfl (by decide) (by decide) (decodeDesc_rx_cmdstsWord ..)
  case entrySend payload =>
    rw [encode, decode_encodeEntry, List.append_assoc]
    exact decodeEntry_send (of_decide_eq_true hwf) rest
  case entryRecv maxLen => exact decodeEntry_recv (of_decide_eq_true hwf) rest
  case entrySetFilter promisc multi broad => exact decodeEntry_setFilter promisc multi broad rest
  case entryInit | entrySetSa | entryGetLink | entryStop | entryIrq | entryTick => rfl

/-- Settles O3: the words and the maps are written out, and the decoder is run on them. -/
theorem specWordsDecode : Obligations.SpecWordsDecode := by
  refine ⟨?_, ?_, ?_, ?_, ?_, ?_, ?_, ?_, ?_, ?_, ?_, ?_, ?_, ?_⟩ <;> decide

namespace Machine

/-! ### A rejected operation -/

theorem rejectAccess_eq (mark : Mark) (s : State) :
    rejectAccess mark s = refuse (if softPhase s then .accessDuringSoftReset else mark) s := by
  unfold rejectAccess
  split <;> rfl

section
variable {s : State} {rest : List Byte} (hops : s.ops = []) (hirq : s.irqPending = false)
include hops hirq

theorem hostTurn_of_reject {why : Reject} (hwhy : why ≠ .noOperation)
    (hdec : decode s.cfg.regMap s.prog = .reject why rest) : hostTurn s = fetchHost s := by
  rw [hostTurn_of_prog hops hirq, if_neg]
  intro hprog
  rw [hprog] at hdec
  cases hdec
  exact hwhy rfl

/-- R403: a 32-bit access at no register. -/
theorem hostTurn_of_reservedOffset (hdec : decode s.cfg.regMap s.prog = .reject .reservedOffset rest) :
    hostTurn s = .next
      (refuse (if softPhase s then .accessDuringSoftReset else .reservedOffset) { s with prog := rest }) := by
  rw [hostTurn_of_reject hops hirq (by decide) hdec]
  simp only [fetchHost, hdec, rejectMark?, rejectAccess_eq]
  rfl

/-- R402, R317: an access of another width, or a byte write outside the station address. -/
theorem hostTurn_of_misalignedRegAccess (hdec : decode s.cfg.regMap s.prog = .reject .misalignedRegAccess rest) :
    hostTurn s = .next
      (refuse (if softPhase s then .accessDuringSoftReset else .misalignedRegAccess) { s with prog := rest }) := by
  rw [hostTurn_of_reject hops hirq (by decide) hdec]
  simp only [fetchHost, hdec, rejectMark?, rejectAccess_eq]
  rfl

/-- R317: a reserved ENTRY code is no access of the window, so the SOFT phase is not tested. -/
theorem hostTurn_of_reservedEncoding (hdec : decode s.cfg.regMap s.prog = .reject .reservedEncoding rest) :
    hostTurn s = .next (refuse .reservedEncoding { s with prog := rest }) := by
  rw [hostTurn_of_reject hops hirq (by decide) hdec]
  simp only [fetchHost, hdec, rejectMark?]

end

/-- Settles O4: each clause is the decoder's own answer to the selector or the code, passed over by the turn. -/
theorem reservedSelectorsRefused : Obligations.ReservedSelectorsRefused := by
  intro s rest hops hirq
  refine ⟨fun off hoff => ⟨fun hprog => ?_, fun v hprog => ?_⟩, fun w sz off h32 h8 hprog => ?_,
    fun off b h01 h25 hprog => ?_, fun code hcode hprog => ?_⟩
  · apply hostTurn_of_reservedOffset hops hirq
    rw [hprog, decode_encodeAcc]
    exact decodeAcc_read_of_none (regAt_eq_none hoff) rest
  · apply hostTurn_of_reservedOffset hops hirq
    rw [hprog, decode_encodeAcc]
    exact decodeAcc_write_of_none (regAt_eq_none hoff) v rest
  · apply hostTurn_of_misalignedRegAccess hops hirq
    rw [hprog, decode_encodeAcc]
    exact decodeAcc_of_width h32 h8 rest
  · apply hostTurn_of_misalignedRegAccess hops hirq
    rw [hprog, decode_encodeAcc]
    exact decodeAcc_byte_of_none (sa01At_eq_none h01) (sa25At_eq_none h25) b rest
  · apply hostTurn_of_reservedEncoding hops hirq
    rw [hprog, decode_encodeEntry]
    exact decodeEntry_of_reserved hcode rest

/-! ### StationControl -/

theorem getLsbD_scMask : ∀ k < 32, scMask.getLsbD k = decide (24 ≤ k ∧ k < 28 ∨ 10 ≤ k ∧ k < 13) := by decide

theorem getLsbD_fdx : ∀ k < 32, (0x00001000#32 : Word).getLsbD k = decide (k = 12) := by decide

theorem getLsbD_zeroExtend_shiftLeft {n : Nat} (x : BitVec n) (i : Nat) {k : Nat} (hk : k < 32) :
    (x.zeroExtend 32 <<< i).getLsbD k = (decide (i ≤ k) && x.getLsbD (k - i)) := by
  have hki : k - i < 32 := by omega
  simp only [BitVec.getLsbD_shiftLeft, BitVec.zeroExtend, BitVec.getLsbD_setWidth, hk, hki, decide_true, Bool.true_and,
    ← decide_not, Nat.not_lt]

/-- R311: each bit of the word is IFMODE's, SPEED's, FDX or the old word's. -/
theorem getLsbD_stationWord (c : Config.FieldCodes) (speed : Speed) (duplex : Duplex) (rgmii : Bool) (old : Word) {k : Nat}
    (hk : k < 32) :
    (stationWord c speed duplex rgmii old).getLsbD k =
      if 24 ≤ k ∧ k < 28 then (ifModeCode c speed rgmii).getLsbD (k - 24)
      else if 10 ≤ k ∧ k < 12 then (speedCode c speed).getLsbD (k - 10)
      else if k = 12 then decide (duplex = .full) else old.getLsbD k := by
  have hmode (h : 28 ≤ k) := BitVec.getLsbD_of_ge (ifModeCode c speed rgmii) (k - 24) (by omega)
  have hspeed (h : 12 ≤ k) := BitVec.getLsbD_of_ge (speedCode c speed) (k - 10) (by omega)
  have hfdx : (if duplex = .full then 0x00001000#32 else 0#32 : Word).getLsbD k =
      (decide (k = 12) && decide (duplex = .full)) := by
    by_cases hfull : duplex = .full
    · rw [if_pos hfull, getLsbD_fdx k hk, decide_eq_true hfull, Bool.and_true]
    · rw [if_neg hfull, decide_eq_false hfull, Bool.and_false, BitVec.getLsbD_zero]
  simp only [stationWord, BitVec.getLsbD_or, BitVec.getLsbD_and, BitVec.getLsbD_not, getLsbD_scMask k hk, hfdx, hk,
    getLsbD_zeroExtend_shiftLeft _ _ hk]
  by_cases h1 : 24 ≤ k ∧ k < 28
  · simp [hspeed (by omega), h1, show k ≠ 12 by omega]
  rw [if_neg h1]
  by_cases h2 : 10 ≤ k ∧ k < 12
  · simp [h2, show ¬ 24 ≤ k by omega, show k ≠ 12 by omega, show k < 13 by omega]
  rw [if_neg h2]
  by_cases h3 : k = 12
  · simp [h3]
  rw [if_neg h3]
  by_cases h4 : 28 ≤ k
  · simp [hmode h4, hspeed (by omega), h3, show ¬ k < 28 by omega, show ¬ k < 13 by omega]
  · by_cases h5 : 10 ≤ k
    · simp [hspeed (by omega), h3, show ¬ 24 ≤ k by omega, show ¬ k < 13 by omega]
    · simp [h3, h5, show ¬ 24 ≤ k by omega]

theorem stationWord_speed (c : Config.FieldCodes) (speed : Speed) (duplex : Duplex) (rgmii : Bool) (old : Word) :
    (stationWord c speed duplex rgmii old).extractLsb' 10 2 = speedCode c speed := by
  apply BitVec.eq_of_getLsbD_eq
  intro k hk
  rw [BitVec.getLsbD_extractLsb', decide_eq_true hk, Bool.true_and, getLsbD_stationWord _ _ _ _ _ (by omega),
    if_neg (by omega), if_pos (by omega), Nat.add_sub_cancel_left]

theorem stationWord_ifMode (c : Config.FieldCodes) (speed : Speed) (duplex : Duplex) (rgmii : Bool) (old : Word) :
    (stationWord c speed duplex rgmii old).extractLsb' 24 4 = ifModeCode c speed rgmii := by
  apply BitVec.eq_of_getLsbD_eq
  intro k hk
  rw [BitVec.getLsbD_extractLsb', decide_eq_true hk, Bool.true_and, getLsbD_stationWord _ _ _ _ _ (by omega),
    if_pos (by omega), Nat.add_sub_cancel_left]

theorem stationWord_fdx (c : Config.FieldCodes) (speed : Speed) (duplex : Duplex) (rgmii : Bool) (old : Word) :
    (stationWord c speed duplex rgmii old).getLsbD 12 = decide (duplex = .full) := by
  rw [getLsbD_stationWord _ _ _ _ _ (by decide), if_neg (by decide), if_neg (by decide), if_pos rfl]

/-- R111: the bits outside SC_MASK stay. -/
theorem stationWord_keeps (c : Config.FieldCodes) (speed : Speed) (duplex : Duplex) (rgmii : Bool) (old : Word) :
    stationWord c speed duplex rgmii old &&& ~~~scMask = old &&& ~~~scMask := by
  apply BitVec.eq_of_getLsbD_eq
  intro k hk
  simp only [BitVec.getLsbD_and, BitVec.getLsbD_not, getLsbD_scMask k hk, getLsbD_stationWord _ _ _ _ _ hk]
  by_cases hfield : 24 ≤ k ∧ k < 28 ∨ 10 ≤ k ∧ k < 13
  · simp [hfield]
  · rw [if_neg (by omega), if_neg (by omega), if_neg (by omega)]

section
variable {s : State} {rest : List HostOp} (hopen : windowOpen s = true) (hhandle : s.ctx.regHandle ≠ none)
include hopen hhandle

/-- A turn that reads a register without free bits from an open window. -/
theorem hostTurn_rd32_open {r : Reg} (hdraws : readDraws r = false) (hops : s.ops = .rd32 r :: rest) :
    hostTurn s = .next { s with hostT := readValue r s 0, ops := rest } := by
  have hread := regRead32_open (s := { s with ops := rest }) hopen r
  rw [hdraws] at hread
  rw [hostTurn_of_ops hops]
  exact (runOp_rd32 (s := { s with ops := rest }) hhandle r).trans (congrArg _ (hread.trans (by cases r <;> rfl)))

/-- A turn that writes a register of an open window. -/
theorem hostTurn_wr32_open {r : Reg} {v : Word} (hops : s.ops = .wr32 r v :: rest) :
    hostTurn s = .next (writeEffect r v { s with ops := rest }) := by
  rw [hostTurn_of_ops hops]
  exact (runOp_wr32 (s := { s with ops := rest }) hhandle r v).trans
    (congrArg _ (regWrite32_open (s := { s with ops := rest }) hopen r v))

/-- R621: HOST's three turns read StationControl, put the word together and write it back. -/
theorem hostTurns_stationControl {speed : Speed} {duplex : Duplex}
    (hops : s.ops = [.rd32 .stationControl, .point (.stationWrite speed duplex)] ++ rest) :
    hostTurns 3 s = .next { s with
      regs.stationControl := stationWord s.cfg.codes speed duplex s.ctx.rgmii s.regs.stationControl
      hostT := s.regs.stationControl, ops := rest } := by
  have hread := hostTurn_rd32_open hopen hhandle rfl hops
  have hpoint : hostTurn { s with
        hostT := s.regs.stationControl, ops := .point (.stationWrite speed duplex) :: rest } =
      .next { s with
        hostT := s.regs.stationControl
        ops := .wr32 .stationControl
          (stationWord s.cfg.codes speed duplex s.ctx.rgmii s.regs.stationControl) :: rest } := rfl
  rw [hostTurns_succ hread]
  refine (hostTurns_succ hpoint).trans (hostTurns_succ ?_)
  refine hostTurn_wr32_open (r := .stationControl) ?_ ?_ rfl
  · exact hopen
  · exact hhandle

end

/-- Settles O52: the three turns write `stationWord`, whose fields are the link's and whose other bits are the old ones. -/
theorem stationControlReprogrammed : Obligations.StationControlReprogrammed := by
  intro s speed duplex rest hopen hhandle hops
  refine ⟨_, hostTurns_stationControl hopen hhandle hops, rfl, ?_, ?_, ?_, ?_⟩
  · exact stationWord_keeps ..
  · exact stationWord_speed ..
  · exact stationWord_fdx ..
  · exact stationWord_ifMode ..

end Machine
end Sys2Proof
end

section
/-!
PROOFS of the family 40_register_interface: the one access that each row of the window makes; what a read answers and a write
stores in an open window (R400 to R402, R406, R407, R456, R458); and what the SOFT phase and removal make of every access
(R404, R405, R904, R1015).
-/
namespace Sys2Proof.Machine

/-! ### The rows that are one access of the window -/

/-- R300 to R303: the one access that a row makes, and what the predicates on rows say of it. -/
inductive AccessRow (i : Instr) : Prop
  | read (r : Reg) (hread : readsWindow i = true) (hexec : ∀ s, exec i s = .next (regRead32 r s))
  | write (r : Reg) (v : Word) (hread : readsWindow i = false) (hrelease : isReleaseRow i = isRelease r v)
      (hcontrol : writesIntrControl i = decide (r = .intrControl)) (hexec : ∀ s, exec i s = .next (regWrite32 r v s))
  | writeByte (k : Nat) (b : Byte) (hk : k < 6) (hread : readsWindow i = false)
      (hexec : ∀ s, exec i s = .next (regWrite8 k b s))

theorem isRelease_icWord (hi : Half) (soft : BitVec 1) (lo : BitVec 15) :
    isRelease .intrControl (icWord hi soft lo) = !decide (soft = 1#1) :=
  congrArg (!·) (icWord_fields hi soft lo).2.1

theorem accessRow_of_accessesWindow {i : Instr} (hrow : accessesWindow i = true) : AccessRow i := by
  cases i
  case rd32TxControl | rd32TxDescBase | rd32RxControl | rd32RxDescBase | rd32IntrStatus | rd32IntrMask
    | rd32IntrControl | rd32ROMInterface | rd32StationControl | rd32GMIIControl | rd32RGDelay | rd32RxMacControl
    | rd32RxMacAddr25 | rd32RxHashTable0 | rd32RxHashTable1 => exact .read _ rfl fun _ => rfl
  case wr8Sa01 lane b => exact .writeByte _ b (by omega) rfl fun _ => rfl
  case wr8Sa25 lane b => exact .writeByte _ b (by omega) rfl fun _ => rfl
  case icSoft hi lo => exact .write _ _ rfl (isRelease_icWord hi 1#1 lo).symm rfl fun _ => rfl
  case icRelease hi lo => exact .write _ _ rfl (isRelease_icWord hi 0#1 lo).symm rfl fun _ => rfl
  case txdHwown | txdSwown | rxdHwown | rxdSwown | entryInit | entrySend | entryRecv | entrySetFilter | entrySetSa
    | entryGetLink | entryStop | entryIrq | entryTick => cases hrow
  all_goals exact .write _ _ rfl rfl rfl fun _ => rfl

theorem accessesWindow_of_readsWindow {i : Instr} (hread : readsWindow i = true) : accessesWindow i = true := by
  cases i
  case txdHwown | txdSwown | rxdHwown | rxdSwown | entryInit | entrySend | entryRecv | entrySetFilter | entrySetSa
    | entryGetLink | entryStop | entryIrq | entryTick => cases hread
  all_goals rfl

/-- R316, R915: a row that is no access of the window is a visit of a DMA engine or the start of an entry point. -/
theorem exec_cases_of_no_access {i : Instr} {s t : State} (hrow : accessesWindow i = false) (h : exec i s = .next t) :
    DeviceFrame s t ∨ PointFrame s t := by
  cases i
  case txdHwown => exact .inl (execTxdHwown_frame h).deviceFrame
  case txdSwown intr rsvd cmd status => exact .inl (execTxdSwown_frame intr rsvd cmd status h).deviceFrame
  case rxdHwown => exact .inl (execRxdHwown_frame h).deviceFrame
  case rxdSwown intr rsvd cmd status => exact .inl (execRxdSwown_frame intr rsvd cmd status h).deviceFrame
  case entryInit => exact .inr (execEntryInit_frame h)
  case entrySend => exact .inr (execEntrySend_frame h)
  case entryRecv => exact .inr (execEntryRecv_frame h)
  case entrySetFilter => exact .inr (execEntrySetFilter_frame h)
  case entrySetSa => exact .inr (execEntrySetSa_frame h)
  case entryGetLink => exact .inr (execEntryGetLink_frame h)
  case entryStop => exact .inr (execEntryStop_frame h)
  case entryIrq => exact .inr (execEntryIrq_frame h)
  case entryTick => exact .inr (execEntryTick_frame h)
  all_goals cases hrow

/-! ### An open window -/

theorem windowOpen_iff {s : State} : windowOpen s = true ↔ softPhase s = false ∧ s.removed = false := by
  rw [windowOpen, Bool.and_eq_true, Bool.not_eq_true', Bool.not_eq_true']

section
variable {s : State} (hopen : windowOpen s = true)
include hopen

/-- R400: a read of a register without free bits. -/
theorem regRead32_open_of_no_draw {r : Reg} (hdraws : readDraws r = false) :
    regRead32 r s = { s with hostT := readValue r s 0 } := by
  rw [regRead32_open hopen, hdraws, if_neg Bool.false_ne_true]

/-- R407: a read of a register with free bits takes one draw for them. -/
theorem regRead32_open_of_draw {r : Reg} (hdraws : readDraws r = true) :
    regRead32 r s =
      { s with hostT := readValue r s (drawAt s 0), draws := s.draws + 1, pins := s.pins.drop 1 } := by
  rw [regRead32_open hopen, hdraws, if_pos rfl, drawn]

/-- R402, R114: station-address bytes 0 and 1 stand in the word at 0x60. -/
theorem regWrite8_open_of_lt_two {i : Nat} (hi : i < 2) (b : Byte) :
    regWrite8 i b s = { s with
      regs.rxMac := s.cfg.regMap.writeLane (.reg .rxMacControl) (s.cfg.regMap.saLane i).toNat b s.regs.rxMac } := by
  obtain ⟨hsoft, hpresent⟩ := windowOpen_iff.1 hopen
  simp only [regWrite8, hsoft, hpresent, hi, Bool.false_eq_true, if_false, if_true, show ¬ 6 ≤ i by omega]

/-- R402, R115: station-address bytes 2 to 5 stand in the word at 0x64. -/
theorem regWrite8_open_of_two_le {i : Nat} (hlow : 2 ≤ i) (hi : i < 6) (b : Byte) :
    regWrite8 i b s = { s with
      regs.rxMacAddr25 :=
        s.cfg.regMap.writeLane (.reg .rxMacAddr25) (s.cfg.regMap.saLane i).toNat b s.regs.rxMacAddr25 } := by
  obtain ⟨hsoft, hpresent⟩ := windowOpen_iff.1 hopen
  simp only [regWrite8, hsoft, hpresent, Bool.false_eq_true, if_false, show ¬ 6 ≤ i by omega, show ¬ i < 2 by omega]

end

/-! ### The words that reads answer -/

/-- R102: bit 0 of a control register as read is ENB, and the others but bit 4 are the stored CFG bits. -/
theorem ctlValue_fields (cfg : Word) (en : Bool) (d : Word) :
    (ctlValue cfg en d).getLsbD 0 = en ∧
      ∀ k, k < 32 → k ≠ 0 → k ≠ 4 → (ctlValue cfg en d).getLsbD k = cfg.getLsbD k := by
  simp only [ctlValue, BitVec.getLsbD_append, BitVec.getLsbD_extractLsb']
  refine ⟨by simp, fun k hk h0 h4 => ?_⟩
  by_cases hlow : k < 4
  · simp [h0, show k - 1 < 3 by omega, show 1 + (k - 1) = k by omega]
  · simp [h0, show ¬ k - 1 < 3 by omega, show ¬ k - 1 - 3 < 1 by omega, show k - 1 - 3 - 1 < 27 by omega,
      show 5 + (k - 1 - 3 - 1) = k by omega]

/-- R407: the parts of GMIIControl and of ROMInterface as read, each of which is such a word. -/
theorem commandWord_fields {a b : Nat} (data : Half) (stored : BitVec a) (busy : Bool) (free : BitVec b)
    (low : BitVec 3) :
    let v := data ++ stored ++ BitVec.ofBool busy ++ free ++ low
    v.getLsbD (b + 3) = busy ∧ v.extractLsb' (b + 4) a = stored ∧ v.extractLsb' 0 3 = low ∧
      v.extractLsb' (a + b + 4) 16 = data := by
  refine ⟨?_, ?_, ?_, ?_⟩
  · simp (disch := omega) [-BitVec.getLsbD_eq_getElem, BitVec.getLsbD_append]
  all_goals
    simp (disch := omega) [BitVec.extractLsb'_append_eq_of_le, BitVec.extractLsb'_append_eq_of_add_le]

theorem gmiiValue_fields (s : State) (d : Word) :
    (gmiiValue s d).getLsbD 4 = s.miic.busy ∧
      (gmiiValue s d).extractLsb' 5 11 = s.regs.gmiiStored.extractLsb' 5 11 ∧
      (gmiiValue s d).extractLsb' 0 3 = s.regs.gmiiStored.extractLsb' 0 3 ∧
      (gmiiValue s d).extractLsb' 16 16 = miiData s d :=
  commandWord_fields (a := 11) (b := 1) ..

theorem romValue_fields (s : State) (d : Word) :
    (romValue s d).getLsbD 7 = s.eec.busy ∧
      (romValue s d).extractLsb' 8 8 = s.regs.romStored.extractLsb' 8 8 ∧
      (romValue s d).extractLsb' 0 3 = s.regs.romStored.extractLsb' 0 3 ∧
      (romValue s d).extractLsb' 16 16 = eeData s d :=
  commandWord_fields (a := 8) (b := 4) ..

theorem miiData_of_read {s : State} {answer : Half} (d : Word) (hidle : s.miic.busy = false)
    (hread : s.miic.rdata = some answer) : miiData s d = answer := by
  rw [miiData, hidle, hread, if_neg Bool.false_ne_true, Option.getD_some]

theorem eeData_of_read {s : State} {answer : Half} (d : Word) (hidle : s.eec.busy = false)
    (hread : s.eec.rdata = some answer) : eeData s d = answer := by
  rw [eeData, hidle, hread, if_neg Bool.false_ne_true, Option.getD_some]

/-! ### The words that writes store -/

/-- R203: a lane put in is that lane of the word, and the other lanes are the old ones. -/
theorem byteOfWord_setLane (w : Word) (b : Byte) {i k : Nat} (hi : i < 4) (hk : k < 4) :
    byteOfWord (setLane w i b) k = if k = i then b else byteOfWord w k := by
  apply BitVec.eq_of_getLsbD_eq
  intro p hp
  by_cases hki : k = i
  · subst hki
    rw [if_pos rfl, byteOfWord, BitVec.getLsbD_extractLsb', getLsbD_setLane w b hk, if_pos (by omega),
      Nat.add_sub_cancel_left, decide_eq_true hp, Bool.true_and]
  · rw [if_neg hki, byteOfWord, byteOfWord, BitVec.getLsbD_extractLsb', BitVec.getLsbD_extractLsb',
      getLsbD_setLane w b hi, if_neg (by omega)]

/-- R207, R402: on the bus, whatever REGMAP is, a byte write replaces the lane it names. -/
theorem byteOfWord_toBus_writeLane (m : Config.RegMap) (w : Config.LaidOut) (v : Word) (b : Byte) {i k : Nat} (hi : i < 4)
    (hk : k < 4) :
    byteOfWord (m.toBus w (m.writeLane w i b v)) k = if k = i then b else byteOfWord (m.toBus w v) k := by
  rw [Config.RegMap.writeLane, toBus_ofBus, byteOfWord_setLane _ _ hi hk]

/-- R209: an address is a multiple of 16 exactly when its bits [3:0] are 0. -/
theorem extractLsb'_low_eq_zero_iff (v : Word) : v.extractLsb' 0 4 = 0 ↔ v.toNat % 16 = 0 := by
  rw [← BitVec.toNat_inj, BitVec.extractLsb'_toNat, Nat.shiftRight_zero]
  exact Iff.rfl

/-- R209: a ring base that is a multiple of 16 is stored. -/
theorem writeEffect_ringBase {v : Word} (s : State) (hv : v.toNat % 16 = 0) :
    writeEffect .txDescBase v s = { s with regs.txDescBase := v } ∧
      writeEffect .rxDescBase v s = { s with regs.rxDescBase := v } := by
  have hlow := (extractLsb'_low_eq_zero_iff v).2 hv
  exact ⟨if_neg (not_not_intro hlow), if_neg (not_not_intro hlow)⟩

/-- R209: any other is refused. -/
theorem writeEffect_misaligned_ringBase {v : Word} (s : State) (hv : v.toNat % 16 ≠ 0) :
    writeEffect .txDescBase v s = refuse .misalignedRingBase s ∧
      writeEffect .rxDescBase v s = refuse .misalignedRingBase s := by
  have hlow := mt (extractLsb'_low_eq_zero_iff v).1 hv
  exact ⟨if_pos hlow, if_pos hlow⟩

/-! ### The obligations on an open window -/

/-- Settles O8: eleven registers are read without a draw; the two control registers are read bit by bit. -/
theorem registersReadBack : Obligations.RegistersReadBack := by
  intro s hopen
  have hplain {r : Reg} (hdraws : readDraws r = false) : (.next (regRead32 r s) : Result) = _ :=
    congrArg _ (regRead32_open_of_no_draw hopen hdraws)
  have hcontrol {r : Reg} (hdraws : readDraws r = true) : (.next (regRead32 r s) : Result) = _ :=
    congrArg _ (regRead32_open_of_draw hopen hdraws)
  exact ⟨hplain (r := .txDescBase) rfl, hplain (r := .rxDescBase) rfl, hplain (r := .intrStatus) rfl,
    hplain (r := .intrMask) rfl, hplain (r := .intrControl) rfl, hplain (r := .stationControl) rfl,
    hplain (r := .rgDelay) rfl, hplain (r := .rxMacControl) rfl, hplain (r := .rxMacAddr25) rfl,
    hplain (r := .rxHashTable0) rfl, hplain (r := .rxHashTable1) rfl,
    ⟨_, hcontrol (r := .txControl) rfl, ctlValue_fields ..⟩, ⟨_, hcontrol (r := .rxControl) rfl, ctlValue_fields ..⟩⟩

/-- Settles O9: the parts that the word read is put together from are its fields. -/
theorem commandRegistersReadBack : Obligations.CommandRegistersReadBack := by
  intro s hopen
  constructor
  · obtain ⟨hbusy, hstored, hlow, hdata⟩ := gmiiValue_fields s (drawAt s 0)
    exact ⟨_, congrArg _ (regRead32_open_of_draw hopen (r := .gmiiControl) rfl), hbusy, hstored, hlow,
      fun hidle answer hread => hdata.trans (miiData_of_read _ hidle hread)⟩
  · obtain ⟨hbusy, hstored, hlow, hdata⟩ := romValue_fields s (drawAt s 0)
    exact ⟨_, congrArg _ (regRead32_open_of_draw hopen (r := .romInterface) rfl), hbusy, hstored, hlow,
      fun hidle answer hread => hdata.trans (eeData_of_read _ hidle hread)⟩

/-- Settles O10: in an open window a write is its effect, and only a ring base is looked at before it is stored. -/
theorem registersTakeWrites : Obligations.RegistersTakeWrites := by
  intro s v hopen
  have hwrite (r : Reg) : (.next (regWrite32 r v s) : Result) = .next (writeEffect r v s) :=
    congrArg _ (regWrite32_open hopen r v)
  refine ⟨hwrite .intrMask, hwrite .stationControl, hwrite .rgDelay, hwrite .rxMacControl, hwrite .rxMacAddr25,
    hwrite .rxHashTable0, hwrite .rxHashTable1, fun hv => ?_, fun hv => ?_⟩
  · obtain ⟨htx, hrx⟩ := writeEffect_ringBase s hv
    exact ⟨(hwrite .txDescBase).trans (congrArg _ htx), (hwrite .rxDescBase).trans (congrArg _ hrx)⟩
  · obtain ⟨htx, hrx⟩ := writeEffect_misaligned_ringBase s hv
    exact ⟨(hwrite .txDescBase).trans (congrArg _ htx), (hwrite .rxDescBase).trans (congrArg _ hrx)⟩

/-- Settles O11: the lane is replaced on the bus, and where `ok` holds it is the byte's own lane of the reference layout. -/
theorem stationAddressByteWrites : Obligations.StationAddressByteWrites := by
  rintro s m b rfl hopen
  refine ⟨fun lane => ⟨_, congrArg _ (regWrite8_open_of_lt_two hopen lane.isLt b), fun k hk => ?_, fun hok k hk => ?_⟩,
    fun lane => ⟨_, congrArg _ (regWrite8_open_of_two_le hopen (Nat.le_add_right ..) (by omega) b), fun k hk => ?_,
      fun hok k hk => ?_⟩⟩
  · exact byteOfWord_toBus_writeLane _ _ _ _ (BitVec.isLt _) hk
  · rw [writeLane_sa01 hok, byteOfWord_setLane _ _ (by omega) hk]
  · exact byteOfWord_toBus_writeLane _ _ _ _ (BitVec.isLt _) hk
  · rw [writeLane_sa25 hok, byteOfWord_setLane _ _ lane.isLt hk]

/-! ### The SOFT phase -/

theorem regRead32_soft {s : State} (hsoft : softPhase s = true) (r : Reg) :
    regRead32 r s = refuse .accessDuringSoftReset s := by
  rw [regRead32, if_pos hsoft]

theorem regWrite32_soft {s : State} (hsoft : softPhase s = true) {r : Reg} {v : Word} (hrelease : isRelease r v = false) :
    regWrite32 r v s = refuse .accessDuringSoftReset s := by
  rw [regWrite32, hsoft, hrelease, Bool.not_false, Bool.and_true, if_pos rfl]

theorem regWrite8_soft {s : State} (hsoft : softPhase s = true) (i : Nat) (b : Byte) :
    regWrite8 i b s = refuse .accessDuringSoftReset s := by
  rw [regWrite8, if_pos hsoft]

/-- R405, R904, R1015: an access other than the release is refused, whichever it is. -/
theorem exec_access_soft {i : Instr} {s : State} (hsoft : softPhase s = true) (hrow : accessesWindow i = true)
    (hrelease : isReleaseRow i = false) : exec i s = .next (refuse .accessDuringSoftReset s) := by
  obtain ⟨r, -, hexec⟩ | ⟨r, v, -, hrel, -, hexec⟩ | ⟨k, b, -, -, hexec⟩ := accessRow_of_accessesWindow hrow
  · rw [hexec, regRead32_soft hsoft]
  · rw [hexec, regWrite32_soft hsoft (hrel.symm.trans hrelease)]
  · rw [hexec, regWrite8_soft hsoft]

theorem regWrite8_intrControl (i : Nat) (b : Byte) (s : State) :
    (regWrite8 i b s).regs.intrControl = s.regs.intrControl := by
  unfold regWrite8
  dsimp only
  split
  · rfl
  · split
    · rfl
    · split
      · rfl
      · split <;> rfl

/-- R108: a row that is no write of IntrControl keeps it. -/
theorem exec_keeps_intrControl {i : Instr} {s t : State} (hrow : writesIntrControl i = false) (h : exec i s = .next t) :
    t.regs.intrControl = s.regs.intrControl := by
  cases haccess : accessesWindow i
  case false =>
    obtain hdevice | hpoint := exec_cases_of_no_access haccess h
    · rw [hdevice.fields]
    · rw [hpoint.fields]
  case true =>
    obtain ⟨r, -, hexec⟩ | ⟨r, v, -, -, hcontrol, hexec⟩ | ⟨k, b, -, -, hexec⟩ := accessRow_of_accessesWindow haccess
    · cases (hexec s).symm.trans h
      rw [(regRead32_pollFrame r s).fields]
    · cases (hexec s).symm.trans h
      exact regWrite32_intrControl r v s (of_decide_eq_false (hcontrol.symm.trans hrow))
    · cases (hexec s).symm.trans h
      exact regWrite8_intrControl k b s

/-- Settles O12: the SOFT phase is tested first by every access, and is a bit of IntrControl. -/
theorem softPhaseRefusesAccesses : Obligations.SoftPhaseRefusesAccesses := by
  intro i s t
  refine ⟨exec_access_soft, fun hrow h => ?_⟩
  have hkept := exec_keeps_intrControl hrow h
  exact ⟨hkept, softPhase_of_intrControl hkept⟩

/-! ### A removed device -/

section
variable {s : State} (hsoft : softPhase s = false) (hremoved : s.removed = true)
include hsoft hremoved

theorem regRead32_removed (r : Reg) : regRead32 r s = { s with hostT := 0xFFFFFFFF#32 } := by
  rw [regRead32, hsoft, if_neg Bool.false_ne_true, if_pos hremoved]

theorem regWrite32_removed (r : Reg) (v : Word) : regWrite32 r v s = s := by
  simp only [regWrite32, removedWrite, hsoft, hremoved, Bool.false_and, Bool.false_eq_true, if_false, if_true]

theorem regWrite8_removed {i : Nat} (hi : i < 6) (b : Byte) : regWrite8 i b s = s := by
  simp only [regWrite8, hsoft, hremoved, Bool.false_eq_true, if_false, if_true, show ¬ 6 ≤ i by omega]

theorem pollMii_removed : pollMii s = pushOps [.pollMii] { s with hostT := 0xFFFFFFFF#32 } := by
  simp only [pollMii, regRead32_removed hsoft hremoved, hsoft, hremoved, Bool.true_or, Bool.false_eq_true, if_false,
    if_true]

theorem pollEe_removed : pollEe s = pushOps [.pollEe] { s with hostT := 0xFFFFFFFF#32 } := by
  simp only [pollEe, regRead32_removed hsoft hremoved, hsoft, hremoved, Bool.true_or, Bool.false_eq_true, if_false,
    if_true]

/-- R404: HOST's turn at a poll leaves it where it is. -/
theorem hostTurn_poll_removed (hhandle : s.ctx.regHandle ≠ none) {rest : List HostOp}
    (hops : s.ops = .pollMii :: rest ∨ s.ops = .pollEe :: rest) :
    hostTurn s = .next { s with hostT := 0xFFFFFFFF#32 } := by
  obtain hops | hops := hops
  · rw [hostTurn_of_ops hops, runOp_pollMii (s := { s with ops := rest }) hhandle,
      pollMii_removed (s := { s with ops := rest }) hsoft hremoved, pushOps, List.singleton_append, ← hops]
  · rw [hostTurn_of_ops hops, runOp_pollEe (s := { s with ops := rest }) hhandle,
      pollEe_removed (s := { s with ops := rest }) hsoft hremoved, pushOps, List.singleton_append, ← hops]

end

/-- Settles O13: outside the SOFT phase removal is the next test of every access. -/
theorem removedDeviceAccesses : Obligations.RemovedDeviceAccesses := by
  intro s hsoft hremoved
  refine ⟨fun i hread => ?_, fun i hrow hread => ?_, fun hhandle rest hops =>
    ⟨_, hostTurn_poll_removed hsoft hremoved hhandle hops, rfl, hremoved⟩⟩
  · obtain ⟨r, -, hexec⟩ | ⟨r, v, hnot, -, -, hexec⟩ | ⟨k, b, -, hnot, hexec⟩ :=
      accessRow_of_accessesWindow (accessesWindow_of_readsWindow hread)
    · exact (hexec s).trans (congrArg _ (regRead32_removed hsoft hremoved r))
    · cases hread.symm.trans hnot
    · cases hread.symm.trans hnot
  · obtain ⟨r, hreads, -⟩ | ⟨r, v, -, -, -, hexec⟩ | ⟨k, b, hk, -, hexec⟩ := accessRow_of_accessesWindow hrow
    · cases hreads.symm.trans hread
    · rw [hexec, regWrite32_removed hsoft hremoved]
    · rw [hexec, regWrite8_removed hsoft hremoved hk]

end Sys2Proof.Machine
end

section
/-!
PROOFS of the family 41_phy_management: what a GMIIControl write and a ROMInterface write do, by the fields of the word
(R451, R454 to R456, R468, R471); what the completions of the two controllers answer (R452, R453, R460 to R462, R469); and
HOST's read of an EEPROM word (R470).
-/
namespace Sys2Proof.Machine

/-! ### Writes of GMIIControl -/

/-- R301: the fields that stay stored. -/
theorem miiWord_stored (data : Half) (regad phyad : BitVec 5) (opWr req : BitVec 1) (lines : BitVec 4) :
    (miiWord data regad phyad opWr req lines).extractLsb' 5 11 = regad ++ phyad ++ opWr := by
  have hsplit : data ++ regad ++ phyad ++ opWr = data ++ (regad ++ phyad ++ opWr) := by
    simp only [BitVec.append_assoc, BitVec.cast_eq]
  simp (disch := decide) only [miiWord, BitVec.extractLsb'_append_eq_of_le, Nat.reduceSub, hsplit,
    BitVec.extractLsb'_append_eq_of_add_le, BitVec.extractLsb'_eq_self]

/-- R301: the low six bits, written as one field. -/
theorem miiWord_eq_append (data : Half) (regad phyad : BitVec 5) (opWr req : BitVec 1) (lines : BitVec 4) :
    miiWord data regad phyad opWr req lines = data ++ regad ++ phyad ++ (opWr ++ req ++ lines) := by
  simp only [miiWord, BitVec.append_assoc, BitVec.cast_eq]

theorem miiWrite_of_busy {s : State} (hbusy : s.miic.busy = true) (v : Word) : miiWrite v s = refuse .miiBusy s := by
  rw [miiWrite, if_pos hbusy]

/-- R451, R454, R455: the write of an idle controller, by the fields of the word. -/
theorem miiWrite_miiWord {s : State} (hidle : s.miic.busy = false) (data : Half) (regad phyad : BitVec 5)
    (opWr req : BitVec 1) (lines : BitVec 4) :
    miiWrite (miiWord data regad phyad opWr req lines) s =
      if lines ≠ 0 then refuse .miiBitBang s
      else if req = 1#1 then
        { s with
          regs.gmiiStored := regad ++ phyad ++ opWr ++ 0#5
          miic := { busy := true, op := if opWr = 1#1 then .wr else .rd, phy := phyad, reg := regad, wdata := data,
                    rdata := none } }
      else { s with regs.gmiiStored := regad ++ phyad ++ opWr ++ 0#5 } := by
  simp only [miiWrite, hidle, Bool.false_eq_true, if_false, miiWord_fields data regad phyad opWr req lines,
    miiWord_stored, decide_eq_true_eq]

/-- R451: a command with no line bit starts the transaction that its fields name. -/
theorem miiWrite_of_command {s : State} (hidle : s.miic.busy = false) (data : Half) (regad phyad : BitVec 5)
    (opWr : BitVec 1) :
    miiWrite (miiWord data regad phyad opWr 1#1 0#4) s = { s with
      regs.gmiiStored := regad ++ phyad ++ (opWr ++ 0#5)
      miic := { busy := true, op := if opWr = 1#1 then .wr else .rd, phy := phyad, reg := regad, wdata := data,
                rdata := none } } := by
  have hstored : regad ++ phyad ++ opWr ++ 0#5 = regad ++ phyad ++ (opWr ++ 0#5) := BitVec.append_assoc
  exact hstored ▸ miiWrite_miiWord hidle data regad phyad opWr 1#1 0#4

/-- Settles O14: the word's fields are the transaction's, and the plain row carries the command row's word. -/
theorem managementCommandStarts : Obligations.ManagementCommandStarts := by
  intro s data regad phyad hopen hidle
  have hrow (opWr : BitVec 1) :
      (.next (regWrite32 .gmiiControl (miiWord data regad phyad opWr 1#1 0#4) s) : Result) = _ :=
    congrArg _ ((regWrite32_open hopen .gmiiControl _).trans (miiWrite_of_command hidle data regad phyad opWr))
  have hplain (opWr : BitVec 1) :
      exec (.wr32GMIIControl (data ++ regad ++ phyad ++ (opWr ++ 1#1 ++ 0#4))) s = _ :=
    miiWord_eq_append data regad phyad opWr 1#1 0#4 ▸ hrow opWr
  exact ⟨⟨_, hrow 0#1, hplain 0#1, rfl⟩, ⟨_, hrow 1#1, hplain 1#1, rfl⟩⟩

/-- Settles O15: with the line bits 0 and REQ = 0 only the stored bits are written, and a line bit is tested before REQ. -/
theorem idleAndBitBangWrites : Obligations.IdleAndBitBangWrites := by
  intro s data regad phyad opWr hopen hidle
  have hrow (req : BitVec 1) (lines : BitVec 4) :
      (.next (regWrite32 .gmiiControl (miiWord data regad phyad opWr req lines) s) : Result) = _ :=
    congrArg _ ((regWrite32_open hopen .gmiiControl _).trans (miiWrite_miiWord hidle ..))
  have hplain : data ++ regad ++ phyad ++ opWr ++ 0#5 = miiWord data regad phyad opWr 0#1 0#4 :=
    (BitVec.append_assoc (x₂ := 0#1) (x₃ := 0#4)).symm
  refine ⟨⟨_, hrow 0#1 0#4, hplain ▸ hrow 0#1 0#4, rfl⟩, fun lines hlines => ?_⟩
  have hrefused (req : BitVec 1) := (hrow req lines).trans (congrArg _ (if_pos hlines))
  exact ⟨hrefused 0#1, hrefused 1#1, hrefused⟩

/-- Settles O16: every row that writes GMIIControl is refused before its word is looked at, and O9's read shows REQ. -/
theorem busyManagementRefusesWrites : Obligations.BusyManagementRefusesWrites := by
  intro s hopen hbusy
  have hrefused (v : Word) : (.next (regWrite32 .gmiiControl v s) : Result) = .next (refuse .miiBusy s) :=
    congrArg _ ((regWrite32_open hopen .gmiiControl v).trans (miiWrite_of_busy hbusy v))
  obtain ⟨⟨v, hread, hreq, -⟩, -⟩ := commandRegistersReadBack s hopen
  exact ⟨hrefused, fun _ _ _ => ⟨hrefused _, hrefused _⟩, fun _ _ _ _ => hrefused _,
    fun _ _ _ _ _ => ⟨hrefused _, hrefused _⟩, _, hread, hreq.trans hbusy, rfl⟩

/-! ### The answers of a PHY -/

/-- R460: an absent address answers all zeros or all ones. -/
theorem phyRead_of_absent {s : State} {a : BitVec 5} (habsent : phyPresent s a = false) (r : BitVec 5) :
    phyRead s a r = 0x0000 ∨ phyRead s a r = 0xFFFF := by
  rw [phyRead, habsent, if_neg Bool.false_ne_true]
  split
  · exact .inr rfl
  · exact .inl rfl

theorem phyRead_of_present {s : State} {a : BitVec 5} (hpresent : phyPresent s a = true) (r : BitVec 5) :
    phyRead s a r = scriptAnswer s.cfg.phyScript s.phyLog a r (Config.phyAnswer s.phyLog a r) := by
  rw [phyRead, if_pos hpresent]

/-- Clauses leave a bit that none of them fixes. -/
theorem getLsbD_foldr_clauseAnswer {l : List Config.PhyClause} {k : Nat} (hk : k < 16)
    (hfree : ∀ b ∈ l, b.mask.getLsbD k = false) (d : Half) : (l.foldr clauseAnswer d).getLsbD k = d.getLsbD k := by
  induction l with
  | nil => rfl
  | cons b l ih =>
    obtain ⟨hb, hl⟩ := List.forall_mem_cons.1 hfree
    rw [List.foldr_cons, getLsbD_clauseAnswer b _ hk, hb, if_neg Bool.false_ne_true, ih hl]

/-- R462: a clause that applies holds in the bits that no earlier applicable clause fixes. -/
theorem getLsbD_scriptAnswer_clauses {before after : List Config.PhyClause} {c : Config.PhyClause}
    {log : List Config.PhyTxn} {a r : BitVec 5} {k : Nat} (happlies : clauseApplies log a r c = true) (hk : k < 16)
    (hfixed : c.mask.getLsbD k = true)
    (hfirst : ∀ b ∈ before, clauseApplies log a r b = true → b.mask.getLsbD k = false) (d : Half) :
    (scriptAnswer (.clauses (before ++ c :: after)) log a r d).getLsbD k = c.value.getLsbD k := by
  have hfree : ∀ b ∈ before.filter (clauseApplies log a r), b.mask.getLsbD k = false := fun b hb =>
    hfirst b (List.mem_filter.1 hb).1 (List.mem_filter.1 hb).2
  rw [scriptAnswer, List.filter_append, List.filter_cons_of_pos happlies, List.foldr_append, List.foldr_cons,
    getLsbD_foldr_clauseAnswer hk hfree, getLsbD_clauseAnswer c _ hk, if_pos hfixed]

/-- R462: a relation admits the answer unless it admits none. -/
theorem scriptAnswer_relation_or_none (k : Nat) (log : List Config.PhyTxn) (a r : BitVec 5) (d : Half) :
    Config.phyRelation k log a r (scriptAnswer (.relation k) log a r d) = true ∨
      ∀ v, Config.phyRelation k log a r v = false := by
  by_cases hadmits : ∃ v, Config.phyRelation k log a r v = true
  · obtain ⟨v, hv⟩ := hadmits
    exact .inl (scriptAnswer_relation hv)
  · exact .inr fun v => eq_false_of_ne_true fun hv => hadmits ⟨v, hv⟩

/-! ### The completion of a management transaction -/

/-- R452: a read ends with the PHY's answer, in the history and for HOST. -/
theorem miiComplete_of_read {s : State} (hbusy : s.miic.busy = true) (hop : s.miic.op = .rd) :
    miiComplete s = { s with
      phyLog := s.phyLog ++ [⟨.rd, s.miic.phy, s.miic.reg, phyRead s s.miic.phy s.miic.reg⟩]
      miic := { s.miic with busy := false, rdata := some (phyRead s s.miic.phy s.miic.reg) } } := by
  rw [miiComplete, if_pos hbusy, hop]

/-- R453, R461: a write ends in the history when its PHY is present. -/
theorem miiComplete_of_write {s : State} (hbusy : s.miic.busy = true) (hop : s.miic.op = .wr) :
    miiComplete s = { s with
      phyLog := if phyPresent s s.miic.phy = true then
          s.phyLog ++ [⟨.wr, s.miic.phy, s.miic.reg, s.miic.wdata⟩] else s.phyLog
      miic := { s.miic with busy := false, rdata := none } } := by
  rw [miiComplete, if_pos hbusy, hop]
  simp only [phyWrite_cases]

/-- Settles O17: the answer kept is `phyRead`'s, which at a present PHY is `scriptAnswer`'s. -/
theorem managementCompletion : Obligations.ManagementCompletion := by
  intro s hbusy
  refine ⟨fun hop => ⟨_, congrArg _ (miiComplete_of_read hbusy hop), fun habsent => phyRead_of_absent habsent _,
    fun hpresent => ?_⟩, fun hop => congrArg _ (miiComplete_of_write hbusy hop)⟩
  rw [phyRead_of_present hpresent]
  refine ⟨fun before c after hscript happlies k hk hfixed hfirst => ?_, fun k hscript => ?_⟩
  · rw [hscript]
    exact getLsbD_scriptAnswer_clauses happlies hk hfixed hfirst _
  · rw [hscript]
    exact scriptAnswer_relation_or_none ..

/-! ### Writes of ROMInterface -/

/-- R302: the fields that stay stored. -/
theorem eeWord_stored (data : Half) (word : BitVec 6) (op : BitVec 2) (req : BitVec 1) (low : BitVec 7) :
    (eeWord data word op req low).extractLsb' 8 8 = word ++ op ∧
      (eeWord data word op req low).extractLsb' 0 3 = low.extractLsb' 0 3 := by
  have hsplit : data ++ word ++ op = data ++ (word ++ op) := BitVec.append_assoc
  simp (disch := decide) only [eeWord, BitVec.extractLsb'_append_eq_of_le, BitVec.extractLsb'_append_eq_of_add_le,
    Nat.reduceSub, hsplit, BitVec.extractLsb'_eq_self, and_self]

/-- R302: the low ten bits, written as one field. -/
theorem eeWord_eq_append (data : Half) (word : BitVec 6) (op : BitVec 2) (req : BitVec 1) (low : BitVec 7) :
    eeWord data word op req low = data ++ word ++ (op ++ req ++ low) := by
  simp only [eeWord, BitVec.append_assoc, BitVec.cast_eq]

theorem eeWrite_of_busy {s : State} (hbusy : s.eec.busy = true) (v : Word) : eeWrite v s = refuse .eeBusy s := by
  rw [eeWrite, if_pos hbusy]

/-- R468, R471: the write of an idle controller, by the fields of the word. -/
theorem eeWrite_eeWord {s : State} (hidle : s.eec.busy = false) (data : Half) (word : BitVec 6) (op : BitVec 2)
    (req : BitVec 1) (low : BitVec 7) :
    eeWrite (eeWord data word op req low) s =
      if req ≠ 1#1 then { s with regs.romStored := word ++ op ++ 0#5 ++ low.extractLsb' 0 3 }
      else if low ≠ 0 then refuse .reservedEncoding s
      else if op = 0b10#2 then
        { s with
          regs.romStored := word ++ op ++ 0#5 ++ low.extractLsb' 0 3
          eec := { busy := true, word := word, rdata := none } }
      else if op = 0b01#2 then refuse .eeWriteUnsupported s
      else refuse .reservedEncoding s := by
  simp only [eeWrite, hidle, Bool.false_eq_true, if_false, eeWord_fields data word op req low, eeWord_stored,
    Bool.not_eq_true', decide_eq_false_iff_not, ne_eq]

/-- R468: a read command starts a read of the word it names. -/
theorem eeWrite_of_read {s : State} (hidle : s.eec.busy = false) (data : Half) (word : BitVec 6) :
    eeWrite (eeWord data word 0b10#2 1#1 0#7) s = { s with
      regs.romStored := word ++ 0b1000000000#10, eec := { busy := true, word := word, rdata := none } } := by
  have hstored : word ++ 0b10#2 ++ 0#5 ++ 0#3 = word ++ 0b1000000000#10 := by
    rw [BitVec.append_assoc, BitVec.append_assoc]; rfl
  exact hstored ▸ eeWrite_eeWord hidle data word 0b10#2 1#1 0#7

/-- Settles O19: an idle controller tests EE_REQ, the low bits and EE_OP in this order, a busy one none of them. -/
theorem otherRomInterfaceWrites : Obligations.OtherRomInterfaceWrites := by
  intro s data word op low hopen
  have hwrite (v : Word) : (.next (regWrite32 .romInterface v s) : Result) = .next (eeWrite v s) :=
    congrArg _ (regWrite32_open hopen .romInterface v)
  refine ⟨fun hidle => ?_, fun hbusy => ?_⟩
  · have hrow (op : BitVec 2) (req : BitVec 1) (low : BitVec 7) :
        (.next (regWrite32 .romInterface (eeWord data word op req low) s) : Result) = _ :=
      (hwrite _).trans (congrArg _ (eeWrite_eeWord hidle data word op req low))
    have hplain (op : BitVec 2) :
        exec (.wr32ROMInterface (data ++ word ++ (op ++ 1#1 ++ 0#7))) s = _ :=
      eeWord_eq_append data word op 1#1 0#7 ▸ hrow op 1#1 0#7
    refine ⟨⟨_, hrow op 0#1 low, hrow op 0#1 low, rfl⟩, ⟨hrow 0b01#2 1#1 0#7, hplain 0b01#2⟩,
      ⟨hrow 0b00#2 1#1 0#7, hplain 0b00#2⟩, ⟨hrow 0b11#2 1#1 0#7, hplain 0b11#2⟩, fun hlow => ?_⟩
    have hlines := (hrow op 1#1 low).trans (congrArg _ (if_pos hlow))
    exact ⟨hlines, hlines⟩
  · have hrefused (v : Word) := (hwrite v).trans (congrArg _ (eeWrite_of_busy hbusy v))
    exact ⟨hrefused, hrefused _, hrefused _, hrefused _, hrefused _, hrefused _, hrefused _⟩

/-! ### HOST's read of an EEPROM word -/

/-- R16: the words of the EEPROM are 0 to 63. -/
theorem getElem?_eeprom (cfg : Config.Params) {w : Nat} (hw : w < 64) :
    cfg.eeprom[w]? = some (eepromWord cfg (BitVec.ofNat 6 w)) := by
  have hindex : (BitVec.ofNat 6 w).toNat = w := Nat.mod_eq_of_lt hw
  rw [eepromWord, hindex, List.getD_eq_getElem?_getD]
  simp [hw]

/-- R469: the controller's turn ends the read with the word it looked up. -/
theorem takeTurn_eec_of_busy {s : State} (hbusy : s.eec.busy = true) :
    takeTurn .eec s = .next { s with
      eec := { s.eec with busy := false, rdata := some (eepromWord s.cfg s.eec.word) } } := by
  rw [takeTurn, eeComplete, if_pos hbusy]

/-- R470: HOST's turn writes the read command. -/
theorem hostTurn_eeCmd_open {s : State} {w : Nat} {rest : List HostOp} (hopen : windowOpen s = true)
    (hhandle : s.ctx.regHandle ≠ none) (hidle : s.eec.busy = false) (hw : w < 64) (hops : s.ops = .eeCmd w :: rest) :
    hostTurn s = .next { s with
      ops := rest, regs.romStored := BitVec.ofNat 6 w ++ 0b1000000000#10
      eec := { busy := true, word := BitVec.ofNat 6 w, rdata := none } } := by
  rw [hostTurn_of_ops hops, runOp_eeCmd (s := { s with ops := rest }) hhandle (Nat.le_of_lt_succ hw),
    regWrite32_open (s := { s with ops := rest }) hopen]
  exact congrArg _ (eeWrite_of_read (s := { s with ops := rest }) hidle 0 _)

/-- R470: the poll of a controller that has completed a read takes the answer. -/
theorem pollEe_open {s : State} {answer : Half} (hopen : windowOpen s = true) (hidle : s.eec.busy = false)
    (hread : s.eec.rdata = some answer) :
    pollEe s = { s with
      hostT := romValue s (drawAt s 0), hostD := answer, draws := s.draws + 1, pins := s.pins.drop 1 } := by
  obtain ⟨hsoft, hpresent⟩ := windowOpen_iff.1 hopen
  have hlast : ¬ (s.removed || s.eec.busy) = true := by rw [hpresent, hidle]; exact Bool.false_ne_true
  rw [pollEe, if_neg (ne_true_of_eq_false hsoft), if_neg hlast, eeData_of_read _ hidle hread,
    regRead32_open_of_draw hopen (r := .romInterface) rfl]
  rfl

theorem hostTurn_pollEe_open {s : State} {answer : Half} {rest : List HostOp} (hopen : windowOpen s = true)
    (hhandle : s.ctx.regHandle ≠ none) (hidle : s.eec.busy = false) (hread : s.eec.rdata = some answer)
    (hops : s.ops = .pollEe :: rest) :
    hostTurn s = .next { s with
      ops := rest, hostT := romValue s (drawAt s 0), hostD := answer, draws := s.draws + 1, pins := s.pins.drop 1 } := by
  rw [hostTurn_of_ops hops, runOp_pollEe (s := { s with ops := rest }) hhandle,
    pollEe_open (s := { s with ops := rest }) hopen hidle hread]
  rfl

/-- Settles O18: the command starts the read, the completion looks up its word, and the poll that follows takes it. -/
theorem eepromReadReturnsWord : Obligations.EepromReadReturnsWord := by
  intro s hopen hidle
  refine ⟨fun data word => ?_, fun w rest hw hhandle hops => ?_⟩
  · have hrow : (.next (regWrite32 .romInterface (eeWord data word 0b10#2 1#1 0#7) s) : Result) = _ :=
      congrArg _ ((regWrite32_open hopen .romInterface _).trans (eeWrite_of_read hidle data word))
    exact ⟨_, hrow, eeWord_eq_append data word 0b10#2 1#1 0#7 ▸ hrow, rfl⟩
  · have hcommand := hostTurn_eeCmd_open hopen hhandle hidle hw hops
    rw [runTurns_cons_next (t := .host) hcommand, runTurns_cons_next (takeTurn_eec_of_busy rfl),
      runTurns_cons_next (t := .host) (hostTurn_pollEe_open ?_ ?_ rfl rfl rfl)]
    · exact ⟨_, rfl, rfl, getElem?_eeprom s.cfg hw, rfl, rfl, rfl, rfl⟩
    · exact hopen
    · exact hhandle

end Sys2Proof.Machine
end

section
/-!
PROOFS of the family 43_link_fsm, the management transaction: what HOST's command, the controller's completion and HOST's
poll do together (R463, R464), for every sequence that reads or writes a PHY register.
-/
namespace Sys2Proof.Machine

/-! ### The command and the poll -/

/-- HOST may start a management transaction: an open window, its handle, an idle controller. -/
structure MiiReady (s : State) : Prop where
  isOpen : windowOpen s = true
  handle : s.ctx.regHandle ≠ none
  idle   : s.miic.busy = false

/-- The OP_WR bit of a command. -/
def miiOpBit : MiiOp → BitVec 1
  | .rd => 0#1
  | .wr => 1#1

/-- R451: the command of a transaction is accepted. -/
def miiStarted (op : MiiOp) (a r : BitVec 5) (d : Half) (s : State) : State :=
  { s with
    regs.gmiiStored := r ++ a ++ (miiOpBit op ++ 0#5)
    miic := { busy := true, op := op, phy := a, reg := r, wdata := d, rdata := none } }

/-- R463: the poll that finds the controller idle has read GMIIControl and keeps its DATA. -/
def miiPolled (s : State) : State :=
  { s with
    hostT := gmiiValue s (drawAt s 0), hostD := miiData s (drawAt s 0), draws := s.draws + 1, pins := s.pins.drop 1 }

/-- The turns of a transaction with one poll. -/
def mdioTurns : List Config.Turn := [.host, .miic, .host]

/-- R307: a read command carries no data. -/
theorem miiCmdWord_eq_miiWord {op : MiiOp} {d : Half} (hd : op = .rd → d = 0) (a r : BitVec 5) :
    miiCmdWord op a r d = miiWord d r a (miiOpBit op) 1#1 0#4 := by
  cases op with
  | rd => rw [hd rfl]; rfl
  | wr => rfl

theorem regWrite32_miiCmdWord {s : State} (hs : MiiReady s) {op : MiiOp} {d : Half} (hd : op = .rd → d = 0)
    (a r : BitVec 5) : regWrite32 .gmiiControl (miiCmdWord op a r d) s = miiStarted op a r d s := by
  rw [regWrite32_open hs.isOpen, miiCmdWord_eq_miiWord hd]
  refine (miiWrite_of_command hs.idle d r a (miiOpBit op)).trans ?_
  cases op <;> rfl

theorem pollMii_of_ready {s : State} (hs : MiiReady s) : pollMii s = miiPolled s := by
  obtain ⟨hsoft, hpresent⟩ := windowOpen_iff.1 hs.isOpen
  have hlast : ¬ (s.removed || s.miic.busy) = true := by rw [hpresent, hs.idle]; exact Bool.false_ne_true
  rw [pollMii, if_neg (ne_true_of_eq_false hsoft), if_neg hlast,
    regRead32_open_of_draw hs.isOpen (r := .gmiiControl) rfl]
  rfl

/-- What whole transactions leave of a state: the history grows by them, and the rest of HOST's sequence is next. -/
structure MdioStep (rest : List HostOp) (txns : List Config.PhyTxn) (s t : State) : Prop where
  ready : MiiReady t
  ops   : t.ops = rest
  log   : t.phyLog = s.phyLog ++ txns
  cfg   : t.cfg = s.cfg
  ctx   : t.ctx = s.ctx
  mem   : t.mem = s.mem
  marks : t.marks = s.marks
  tx    : t.tx = s.tx
  rx    : t.rx = s.rx
  regs  : t.regs = { s.regs with gmiiStored := t.regs.gmiiStored }

theorem MdioStep.trans {rest rest' : List HostOp} {txns txns' : List Config.PhyTxn} {s t u : State}
    (h : MdioStep rest txns s t) (h' : MdioStep rest' txns' t u) : MdioStep rest' (txns ++ txns') s u where
  ready := h'.ready
  ops   := h'.ops
  log   := by rw [h'.log, h.log, List.append_assoc]
  cfg   := h'.cfg.trans h.cfg
  ctx   := h'.ctx.trans h.ctx
  mem   := h'.mem.trans h.mem
  marks := h'.marks.trans h.marks
  tx    := h'.tx.trans h.tx
  rx    := h'.rx.trans h.rx
  regs  := by rw [h'.regs, h.regs]

theorem MdioStep.pushOps {rest : List HostOp} {txns : List Config.PhyTxn} {s t : State} (h : MdioStep rest txns s t)
    (l : List HostOp) : MdioStep (l ++ rest) txns s (pushOps l t) :=
  { h with ready := ⟨h.ready.isOpen, h.ready.handle, h.ready.idle⟩, ops := congrArg (l ++ ·) h.ops }

section
variable {s : State} (hs : MiiReady s)
include hs

theorem MiiReady.setOps (ops : List HostOp) : MiiReady { s with ops := ops } := ⟨hs.isOpen, hs.handle, hs.idle⟩

/-- The completion of a transaction frees the controller and leaves HOST where it was. -/
theorem MiiReady.miiComplete_miiStarted (op : MiiOp) (a r : BitVec 5) (d : Half) :
    MiiReady (miiComplete (miiStarted op a r d s)) ∧ (miiComplete (miiStarted op a r d s)).ops = s.ops := by
  cases op with
  | rd => exact ⟨⟨hs.isOpen, hs.handle, rfl⟩, rfl⟩
  | wr => rw [miiComplete_of_write rfl rfl]; exact ⟨⟨hs.isOpen, hs.handle, rfl⟩, rfl⟩

theorem hostTurn_miiCmd {op : MiiOp} {a r : BitVec 5} {d : Half} {rest : List HostOp} (hd : op = .rd → d = 0)
    (hops : s.ops = .miiCmd op a.toNat r.toNat d :: rest) :
    hostTurn s = .next (miiStarted op a r d { s with ops := rest }) := by
  rw [hostTurn_of_ops hops, runOp_miiCmd (s := { s with ops := rest }) hs.handle op d (by omega) (by omega),
    BitVec.ofNat_toNat, BitVec.ofNat_toNat, BitVec.setWidth_eq, BitVec.setWidth_eq,
    regWrite32_miiCmdWord (hs.setOps rest) hd]

theorem hostTurn_pollMii {rest : List HostOp} (hops : s.ops = .pollMii :: rest) :
    hostTurn s = .next (miiPolled { s with ops := rest }) := by
  rw [hostTurn_of_ops hops, runOp_pollMii (s := { s with ops := rest }) hs.handle, pollMii_of_ready (hs.setOps rest)]

/-- R463, R464: HOST's command, the controller's completion and HOST's poll. -/
theorem runTurns_mdio {op : MiiOp} {a r : BitVec 5} {d : Half} {rest : List HostOp} (hd : op = .rd → d = 0)
    (hops : s.ops = .miiCmd op a.toNat r.toNat d :: .pollMii :: rest) :
    runTurns mdioTurns s = .next
      (miiPolled { miiComplete (miiStarted op a r d { s with ops := .pollMii :: rest }) with ops := rest }) := by
  obtain ⟨hready, hpoll⟩ := (hs.setOps (.pollMii :: rest)).miiComplete_miiStarted op a r d
  rw [mdioTurns, runTurns_cons_next (t := .host) (hostTurn_miiCmd hs hd hops), runTurns_cons_next (t := .miic) rfl,
    runTurns_cons_next (t := .host) (hostTurn_pollMii hready hpoll), runTurns_nil]

/-- R452, R463: a read brings HOST an answer, which the history keeps. -/
theorem exists_mdioRead {a r : BitVec 5} {rest : List HostOp} (hops : s.ops = mdioReadOps a.toNat r.toNat ++ rest) :
    ∃ t, runTurns mdioTurns s = .next t ∧ MdioStep rest [⟨.rd, a, r, t.hostD⟩] s t :=
  have hready := ⟨hs.isOpen, hs.handle, rfl⟩
  ⟨_, runTurns_mdio hs (fun _ => rfl) hops, hready, rfl, rfl, rfl, rfl, rfl, rfl, rfl, rfl, rfl⟩

/-- R453, R461, R464: a write is in the history when its PHY is present. -/
theorem exists_mdioWrite {a r : BitVec 5} {d : Half} {rest : List HostOp}
    (hops : s.ops = mdioWriteOps a.toNat r.toNat d ++ rest) :
    ∃ t, runTurns mdioTurns s = .next t ∧
      MdioStep rest (if s.cfg.phyPresent.getLsbD a.toNat = true then [⟨.wr, a, r, d⟩] else []) s t := by
  have hrun := runTurns_mdio (op := .wr) (rest := rest) hs nofun hops
  rw [miiComplete_of_write rfl rfl] at hrun
  refine ⟨_, hrun, ⟨hs.isOpen, hs.handle, rfl⟩, rfl, ?_, rfl, rfl, rfl, rfl, rfl, rfl, rfl⟩
  rw [apply_ite (s.phyLog ++ ·), List.append_nil]
  rfl

/-- A read, and the point that takes its answer. -/
theorem exists_mdioRead_point {a r : BitVec 5} {p : HostPoint} {rest : List HostOp}
    (hops : s.ops = mdioReadOps a.toNat r.toNat ++ .point p :: rest) :
    ∃ t, MdioStep rest [⟨.rd, a, r, t.hostD⟩] s t ∧
      ∀ {u : State} {turns : List Config.Turn}, runPoint p t = .next u →
        runTurns ([.host, .miic, .host, .host] ++ turns) s = runTurns turns u := by
  obtain ⟨t, hrun, ht⟩ := exists_mdioRead hs hops
  refine ⟨{ t with ops := rest }, { ht with ready := ht.ready.setOps rest, ops := rfl }, fun {u turns} hpoint => ?_⟩
  have hturn : takeTurn .host t = .next u := (hostTurn_of_ops ht.ops).trans hpoint
  exact (runTurns_append_next (l' := .host :: turns) hrun).trans (runTurns_cons_next hturn)

/-- A read whose answer decides what HOST does next. -/
theorem exists_mdioRead_pushOps {a r : BitVec 5} {p : HostPoint} {rest : List HostOp} {next : Half → List HostOp}
    (hops : s.ops = mdioReadOps a.toNat r.toNat ++ .point p :: rest)
    (hpoint : ∀ t : State, t.cfg = s.cfg → runPoint p t = .next (pushOps (next t.hostD) t)) :
    ∃ v t, MdioStep (next v ++ rest) [⟨.rd, a, r, v⟩] s t ∧
      ∀ {turns : List Config.Turn}, runTurns ([.host, .miic, .host, .host] ++ turns) s = runTurns turns t := by
  obtain ⟨t, ht, hrun⟩ := exists_mdioRead_point hs hops
  exact ⟨t.hostD, _, ht.pushOps (next t.hostD), hrun (hpoint t ht.cfg)⟩

end

end Sys2Proof.Machine
end

section
/-!
PROOFS of the family 43_link_fsm: what the points of the link FSM and of GET_LINK do with the answers of the management
reads (R601 to R625), and Resolve (R617).
-/
namespace Sys2Proof.Machine

/-! ### Resolve -/

/-- R617: the 10/100 part reads the bits both sides have; with none of them it falls back to 10 half. -/
theorem resolve100_and (m : Config.PhyMap) (lpa adv : Half) :
    resolve100 m (lpa &&& adv) =
      if (lpa.getLsbD m.full100 && adv.getLsbD m.full100) = true then (.s100, .full)
      else if (lpa.getLsbD m.half100 && adv.getLsbD m.half100) = true then (.s100, .half)
      else if (lpa.getLsbD m.full10 && adv.getLsbD m.full10) = true then (.s10, .full)
      else (.s10, .half) := by
  simp only [resolve100, BitVec.getLsbD_and, ite_self]

/-- R617: with the gate closed, or no gigabit mode that both sides have, the 10/100 part decides. -/
theorem resolve_of_no_gig {m : Config.PhyMap} {chip : ChipModel} {lpa adv aner gtcr gtsr : Half}
    (h : gigGate m chip lpa aner = false ∨ (gigFull m gtcr gtsr = false ∧ gigHalf m gtcr gtsr = false)) :
    resolve m chip lpa adv aner gtcr gtsr = resolve100 m (lpa &&& adv) := by
  obtain hgate | ⟨hfull, hhalf⟩ := h
  · simp only [resolve, hgate, Bool.false_and, Bool.false_eq_true, if_false]
  · simp only [resolve, hfull, hhalf, Bool.and_false, Bool.false_eq_true, if_false]

/-- Settles O51: the gate and the gigabit bits choose among the three results of `resolve`. -/
theorem resolvePriority : Obligations.ResolvePriority := by
  intro m lpa adv aner gtcr gtsr
  have hgate (hnext : lpa.getLsbD m.nextPage = true) (hable : aner.getLsbD m.lpAnAble = true) :
      gigGate m .ge lpa aner = true := by
    rw [gigGate, hnext, hable]; rfl
  refine ⟨fun hnext hable hadv hlp => ?_, fun hnext hable hfull hadv hlp => ?_, fun chip hno => ?_⟩
  · have hfull : gigFull m gtcr gtsr = true := by rw [gigFull, hadv, hlp]; rfl
    rw [resolve, hgate hnext hable, hfull]; rfl
  · have hhalf : gigHalf m gtcr gtsr = true := by rw [gigHalf, hadv, hlp]; rfl
    rw [resolve, hgate hnext hable, gigFull, hfull, hhalf]; rfl
  · refine (resolve_of_no_gig ?_).trans (resolve100_and m lpa adv)
    obtain rfl | hnext | hable | hbits := hno
    · exact .inl rfl
    · exact .inl (by rw [gigGate, hnext, Bool.and_false, Bool.false_and])
    · exact .inl (by rw [gigGate, hable, Bool.and_false])
    · exact .inr hbits

/-! ### Scanning -/

theorem scanFrom_of_lt {a : Nat} {s : State} (h : a < 32) :
    scanFrom a s = .next (pushOps (bmsrLatchedOps s.cfg.phyMap a ++ [.point (.scanStatus a)]) s) := if_pos h

/-- R603: the scan that found no PHY ends INIT. -/
theorem scanFrom_last_of_nil {s : State} (h : s.ctx.phys = []) :
    scanFrom 32 s = .next { s with ctx.fsm := .noTransceiver, ops := [], ret := some .errorNoTransceiver } := by
  rw [scanFrom, if_neg (by decide), if_pos h]
  rfl

theorem selectFrom_of_some {i : Nat} {pref : Option Nat} {s : State} {r : PhyRecord} (h : s.ctx.phys[i]? = some r) :
    selectFrom i pref s =
      .next (pushOps (bmsrLatchedOps s.cfg.phyMap r.addr.toNat ++ [.point (.selectStatus i pref)]) s) := by
  rw [selectFrom, h]

/-- R603, R604: the scan that found a PHY goes on with the link test of the first one. -/
theorem scanFrom_last_of_cons {s : State} {r : PhyRecord} {rs : List PhyRecord} (h : s.ctx.phys = r :: rs) :
    scanFrom 32 s = .next { s with
      ctx.fsm := .phySelected
      ops := bmsrLatchedOps s.cfg.phyMap r.addr.toNat ++ [.point (.selectStatus 0 none)] ++ s.ops } := by
  have hnil : s.ctx.phys ≠ [] := h ▸ List.cons_ne_nil r rs
  have hfirst : s.ctx.phys[0]? = some r := by rw [h]; rfl
  rw [scanFrom, if_neg (by decide), if_neg hnil]
  exact selectFrom_of_some hfirst

/-- Settles O53: a point of the scan either makes its next reads or hands the address on to `scanFrom`. -/
theorem scanningFindsPhys : Obligations.ScanningFindsPhys := by
  rintro s a st id1 m rfl
  refine ⟨rfl, fun hempty => ?_, fun hzeros hones => ?_, rfl, fun ha => ?_, ?_⟩
  · have hskip (a : Nat) : runOp (.point (.scanStatus a)) s = scanFrom (a + 1) s := if_pos hempty
    exact ⟨fun ha => (hskip a).trans (scanFrom_of_lt (Nat.succ_lt_succ ha)),
      fun hnil => (hskip 31).trans (scanFrom_last_of_nil hnil),
      fun r rs hcons => (hskip 31).trans (scanFrom_last_of_cons hcons)⟩
  · exact if_neg (not_or_intro hzeros hones)
  · exact scanFrom_of_lt (Nat.succ_lt_succ ha)
  · have hsome : s.ctx.phys ++ [⟨31#5, id1, s.hostD, st, st.extractLsb' s.cfg.phyMap.capTag 5⟩] ≠ [] :=
      List.concat_ne_nil _ _
    obtain ⟨r, rs, hphys⟩ := List.exists_cons_of_ne_nil hsome
    refine ⟨_, scanFrom_last_of_cons hphys, rfl, rfl, fun r' rs' hphys' => ?_⟩
    cases hphys.symm.trans hphys'
    rfl

/-! ### The choice of the PHY -/

/-- A list's images without one of them are the images of the list without it. (Core Lean has no such lemma.) -/
theorem eraseIdx_map_eq {α β : Type} (f : α → β) (l : List α) (k : Nat) :
    (l.map f).eraseIdx k = (l.eraseIdx k).map f := by
  rw [List.eraseIdx_eq_take_drop_succ, List.eraseIdx_eq_take_drop_succ, List.map_append, List.map_take, List.map_drop]

/-- The positions of a list other than one, in order, are the list without it. -/
theorem map_fst_filter_zipIdx {α : Type} (l : List α) (n k : Nat) :
    ((l.zipIdx n).filter (fun p => decide (p.2 ≠ n + k))).map Prod.fst = l.eraseIdx k := by
  induction l generalizing n k with
  | nil => rfl
  | cons x xs ih =>
    cases k with
    | zero =>
      have hlater : ∀ p ∈ xs.zipIdx (n + 1), decide (p.2 ≠ n + 0) = true := fun p hp =>
        decide_eq_true (Nat.ne_of_gt (List.le_snd_of_mem_zipIdx hp))
      rw [List.zipIdx_cons, List.filter_cons_of_neg (by simp), List.filter_eq_self.2 hlater, List.zipIdx_map_fst]
      rfl
    | succ k =>
      rw [List.zipIdx_cons, List.filter_cons_of_pos (by simp), List.map_cons, List.eraseIdx_cons_succ, ← ih (n + 1) k]
      simp only [Nat.add_assoc, Nat.add_comm 1 k]

/-- R604: the PHY of the choice becomes current, the others are isolated in list order, and it is unisolated and read. -/
theorem choosePhy_of_some {pref : Option Nat} {cur : Nat} {s : State} {c : PhyRecord} (hcur : pref.getD 0 = cur)
    (hc : s.ctx.phys[cur]? = some c) :
    choosePhy pref s = .next { s with
      ctx.cur := some cur
      ops := (((s.ctx.phys.map (·.addr)).eraseIdx cur).map (isolateOps s.cfg.phyMap)).flatten
        ++ unisolateOps s.cfg.phyMap c.addr ++ bmsrReadOps s.cfg.phyMap c.addr.toNat
        ++ bmsrReadOps s.cfg.phyMap c.addr.toNat ++ [.point (.latchLink c.addr)] ++ s.ops } := by
  subst hcur
  have hothers : (s.ctx.phys.zipIdx.filter (fun p => decide (p.2 ≠ pref.getD 0))).map (fun p => p.1.addr) =
      (s.ctx.phys.map (·.addr)).eraseIdx (pref.getD 0) := by
    have hkept := map_fst_filter_zipIdx s.ctx.phys 0 (pref.getD 0)
    rw [Nat.zero_add] at hkept
    rw [eraseIdx_map_eq, ← hkept, List.map_map]
    rfl
  simp only [choosePhy, hc, hothers, pushOps, List.flatMap_def, bmsrLatchedOps, mdioLatchedOps, bmsrReadOps,
    List.append_assoc]

theorem selectFrom_of_none {i : Nat} {pref : Option Nat} {s : State} (h : s.ctx.phys[i]? = none) :
    selectFrom i pref s = choosePhy pref s := by
  rw [selectFrom, h]

/-- R604: the link test writes a status and leaves the addresses. -/
theorem map_addr_modify_status (l : List PhyRecord) (i : Nat) (st : Half) :
    (l.modify i (fun p => { p with status := st })).map (·.addr) = l.map (·.addr) := by
  induction l generalizing i with
  | nil => cases i <;> rfl
  | cons p ps ih =>
    cases i with
    | zero => rfl
    | succ i => exact congrArg (p.addr :: ·) (ih i)

/-- R604: the first PHY with a link is kept. -/
theorem preferred_eq_or (m : Config.PhyMap) (st : Half) (i : Nat) (pref : Option Nat) :
    (if (linkOf m st && pref.isNone) = true then some i else pref) =
      pref.or (if linkOf m st = true then some i else none) := by
  cases pref with
  | none => rw [Option.isNone_none, Bool.and_true, Option.none_or]
  | some p => rw [Option.isNone_some, Bool.and_false, Option.some_or]; rfl

/-- R606, R607: a read of BMCR and the write back of what the point makes of it. -/
theorem exists_bmcrUpdate {s : State} (hs : MiiReady s) {a r : BitVec 5} {p : HostPoint} {rest : List HostOp}
    {update : Half → Half} (hops : s.ops = mdioReadOps a.toNat r.toNat ++ .point p :: rest)
    (hpoint : ∀ t : State, t.cfg = s.cfg →
      runPoint p t = .next (pushOps (mdioWriteOps a.toNat r.toNat (update t.hostD)) t)) :
    ∃ (u : State) (v : Half), runTurns [.host, .miic, .host, .host, .host, .miic, .host] s = .next u ∧ u.ops = rest ∧
      u.phyLog = s.phyLog ++ [⟨.rd, a, r, v⟩]
        ++ (if s.cfg.phyPresent.getLsbD a.toNat = true then [⟨.wr, a, r, update v⟩] else []) ∧
      u.miic.busy = false ∧ u.ctx = s.ctx ∧ u.mem = s.mem ∧ u.marks = s.marks := by
  obtain ⟨v, t, ht, hread⟩ := exists_mdioRead_pushOps hs hops
    (next := fun v => mdioWriteOps a.toNat r.toNat (update v)) hpoint
  obtain ⟨u, hwrite, hu⟩ := exists_mdioWrite ht.ready ht.ops
  have hall := ht.trans hu
  refine ⟨u, v, hread.trans hwrite, hall.ops, ?_, hu.ready.idle, hall.ctx, hall.mem, hall.marks⟩
  rw [hall.log, ht.cfg, List.append_assoc]

/-- Settles O54: the link test hands the next index on, the last one the choice; the two sequences are updates of BMCR. -/
theorem phySelection : Obligations.PhySelection := by
  rintro s i pref m rfl
  refine ⟨fun r hnext => ?_, fun hlast _ cur c hcur hchoice => ?_, fun a rest hhandle hopen hidle => ?_⟩
  · rw [runOp, runPoint, preferred_eq_or]
    have hsame : (s.ctx.phys.modify i (fun p => { p with status := s.hostD }))[i + 1]? = some r :=
      (List.getElem?_modify_ne _ _ (Nat.succ_ne_self i).symm).trans hnext
    refine (selectFrom_of_some hsame).trans ?_
    cases pref <;> rfl
  · rw [runOp, runPoint, preferred_eq_or]
    have hend : (s.ctx.phys.modify i (fun p => { p with status := s.hostD }))[i + 1]? = none :=
      List.getElem?_eq_none (Nat.le_of_eq ((List.length_modify _ _ _).trans hlast.symm))
    have haddrs := map_addr_modify_status s.ctx.phys i s.hostD
    obtain ⟨c', hc', haddr⟩ : ∃ c', (s.ctx.phys.modify i (fun p => { p with status := s.hostD }))[cur]? = some c' ∧
        c'.addr = c.addr := by
      rw [← Option.map_eq_some_iff, ← List.getElem?_map, haddrs, List.getElem?_map, hcur, Option.map_some]
    refine (selectFrom_of_none hend).trans ((choosePhy_of_some ?_ hc').trans ?_)
    · rw [hchoice]
      cases pref with
      | none => exact apply_ite (Option.getD · 0) _ _ _
      | some p => rfl
    · rw [haddrs, haddr, eraseIdx_map_eq, List.map_map]
      rfl
  · have hs : MiiReady s := ⟨hopen, hhandle, hidle⟩
    exact ⟨fun hops => exists_bmcrUpdate hs hops fun t hcfg => by rw [runPoint, hcfg]; rfl,
      fun hops => exists_bmcrUpdate hs hops fun t hcfg => by rw [runPoint, hcfg]; rfl⟩

/-! ### The polls of the FSM -/

section
variable {s : State} (a : BitVec 5) {i : Nat}

theorem linkPollFrom_of_le (prev : Bool) (h : i ≤ s.cfg.linkPollMax) :
    linkPollFrom a i prev s =
      .next (pushOps (bmsrReadOps s.cfg.phyMap a.toNat ++ [.point (.linkPoll a i prev)]) s) := if_pos h

theorem linkPollFrom_of_lt (prev : Bool) (h : s.cfg.linkPollMax < i) :
    linkPollFrom a i prev s = .next { s with ctx.fsm := .linkDownTimeout } := if_neg (Nat.not_le_of_lt h)

theorem anegPollFrom_of_le (h : i ≤ s.cfg.anegPollMax) :
    anegPollFrom a i s = .next (pushOps (bmsrReadOps s.cfg.phyMap a.toNat ++ [.point (.anegPoll a i)]) s) := if_pos h

theorem anegPollFrom_of_lt (h : s.cfg.anegPollMax < i) :
    anegPollFrom a i s = .next { s with ctx.fsm := .linkDownTimeout } := if_neg (Nat.not_le_of_lt h)

end

/-- Settles O56: each poll's point looks at the word just read, and what follows compares the iteration with the bound. -/
theorem linkPollsAreBounded : Obligations.LinkPollsAreBounded := by
  rintro s a i prev m rfl
  refine ⟨rfl, fun hup hmax => ?_, fun hdown hmax => ?_, fun hunstable hmax => ?_, fun hunstable hlt => ?_,
    fun hstable hmax => ?_, fun hpending hmax => ?_, fun hpending hlt => ?_, fun hcomplete => ?_⟩
  · simp only [runOp, runPoint, hup, withField, if_true]
    exact linkPollFrom_of_le a true hmax
  · simp only [runOp, runPoint, hdown, withField, Bool.false_eq_true, if_false]
    exact anegPollFrom_of_le a hmax
  · rw [runOp, runPoint, linkOf, if_neg (ne_true_of_eq_false hunstable)]
    exact linkPollFrom_of_lt a _ (Nat.lt_succ_of_le hmax)
  · rw [runOp, runPoint, linkOf, if_neg (ne_true_of_eq_false hunstable)]
    exact linkPollFrom_of_le a _ hlt
  · rw [runOp, runPoint, linkOf, if_pos hstable]
    exact anegPollFrom_of_le a hmax
  · rw [runOp, runPoint, anComplete, if_neg (ne_true_of_eq_false hpending)]
    exact anegPollFrom_of_lt a (Nat.lt_succ_of_le hmax)
  · rw [runOp, runPoint, anComplete, if_neg (ne_true_of_eq_false hpending)]
    exact anegPollFrom_of_le a hlt
  · rw [runOp, runPoint, anComplete, if_pos hcomplete]
    rfl

/-! ### Negotiated -/

/-- Settles O55: the point sets autonegDone, and the pulse, where there is one, is the two writes that follow it. -/
theorem negotiationCompletes : Obligations.NegotiationCompletes := by
  intro s up rest hopen hhandle hops
  refine ⟨fun hpulse => ?_, fun hpulse => ?_⟩
  · rw [hostTurn_of_ops hops, runOp, runPoint, if_neg (ne_true_of_eq_false hpulse)]
    rfl
  · have hpoint : hostTurn s = .next { s with
        ctx.autonegDone := true
        ops := .wr32 .rgDelay s.cfg.codes.delayPulse :: .wr32 .rgDelay s.cfg.codes.delayDefault :: rest } := by
      rw [hostTurn_of_ops hops, runOp, runPoint, if_pos hpulse]
      rfl
    have hwrite {t : State} {v : Word} {later : List HostOp} (hopen : windowOpen t = true)
        (hhandle : t.ctx.regHandle ≠ none) (hops : t.ops = .wr32 .rgDelay v :: later) :
        hostTurn t = .next { t with regs.rgDelay := v, ops := later } := hostTurn_wr32_open hopen hhandle hops
    have hstart := (hostTurns_succ hpoint (n := 1)).trans (hostTurns_succ (hwrite hopen hhandle rfl))
    exact ⟨hstart, (hostTurns_add hstart (n := 1)).trans (hostTurns_succ (hwrite hopen hhandle rfl))⟩

/-! ### GET_LINK -/

/-- Settles O47: the two reads of the latched BMSR, then the point that looks at the second answer. -/
theorem getLinkStatus : Obligations.GetLinkStatus := by
  rintro s m hidle rfl
  have hexec := whenIdle_idle hidle
  refine ⟨fun hcur => ?_, fun i r hcur hphy hhandle hopen hmiic => ?_⟩
  · exact (hexec _).trans (by rw [currentPhy?, hcur]; rfl)
  · have hcurrent : currentPhy? s.ctx = some r.addr := by simp only [currentPhy?, hcur, hphy, Option.map_some]
    let t : State := { s with
      ops := bmsrLatchedOps s.cfg.phyMap r.addr.toNat ++ [.point (.linkStatus r.addr)], ret := none }
    have hstart : exec .entryGetLink s = .next t :=
      (hexec _).trans (by rw [hcurrent, withField, withHandle_set hhandle]; rfl)
    have ht : MiiReady t := ⟨hopen, hhandle, hmiic⟩
    obtain ⟨t1, hrun1, ht1⟩ := exists_mdioRead ht (a := r.addr) (r := s.cfg.phyMap.bmsr) rfl
    obtain ⟨u, hrun2, hu⟩ := exists_mdioRead ht1.ready ht1.ops
    have hall := ht1.trans hu
    have hturn : takeTurn .host u = runPoint (.linkStatus r.addr) { u with ops := [] } := hostTurn_of_ops hall.ops
    refine ⟨t, u, t1.hostD, u.hostD, hstart, (runTurns_append_next hrun1).trans hrun2, hu.ready.isOpen, hu.ready.idle,
      hall.log, hall.ctx, hall.mem, fun hdown => ?_, fun hup => ?_⟩
    · rw [hturn, runPoint, linkOf, hall.cfg, if_neg (ne_true_of_eq_false hdown)]
      rfl
    · rw [hturn, runPoint, linkOf, hall.cfg, if_pos hup]
      rfl

/-! ### The capability registers -/

/-- R616, R625: what HOST does with the resolved speed and duplex. -/
theorem MdioStep.exists_resolved {rest : List HostOp} {txns : List Config.PhyTxn} {s t : State}
    (h : MdioStep rest txns s t) (use : ResolveFor) (r : Speed × Duplex) :
    ∃ u, resolved use r t = .next u ∧ u.phyLog = s.phyLog ++ txns ∧ u.mem = s.mem ∧ u.marks = s.marks ∧ u.tx = s.tx ∧
      u.rx = s.rx ∧ u.regs = { s.regs with gmiiStored := u.regs.gmiiStored } ∧
      (use = .getLink → u.ops = [] ∧ u.ctx = s.ctx ∧ u.ret = some (.up r.1 r.2)) ∧
      (∀ up, use = .negotiated up → u.ctx = { s.ctx with speed := some r.1, duplex := some r.2 } ∧
        u.ops = [.rd32 .stationControl, .point (.stationWrite r.1 r.2), .point (.negotiated up)] ++ rest) := by
  cases use with
  | negotiated up =>
    refine ⟨_, rfl, h.log, h.mem, h.marks, h.tx, h.rx, h.regs, nofun, fun _ hup => ?_⟩
    cases hup
    exact ⟨by rw [← h.ctx]; rfl, by rw [← h.ops]; rfl⟩
  | getLink => exact ⟨_, rfl, h.log, h.mem, h.marks, h.tx, h.rx, h.regs, fun _ => ⟨rfl, h.ctx, rfl⟩, nofun⟩

/-- Settles O48: each answer's point starts the next read, and the last one's resolves the answers. -/
theorem capabilityReadsResolve : Obligations.CapabilityReadsResolve := by
  rintro s a use rest m rfl hops hhandle hopen hidle
  obtain ⟨lpa, t1, h1, hrun1⟩ := exists_mdioRead_pushOps (a := a) (r := s.cfg.phyMap.anlpar) (p := .capLpa a use)
    ⟨hopen, hhandle, hidle⟩ hops
    (next := fun v => mdioReadOps a.toNat s.cfg.phyMap.anar.toNat ++ [.point (.capAdv a use v)])
    fun t hcfg => by rw [runPoint, hcfg]
  obtain ⟨adv, t2, h2, hrun2⟩ := exists_mdioRead_pushOps h1.ready h1.ops
    (next := fun v => mdioReadOps a.toNat s.cfg.phyMap.aner.toNat ++ [.point (.capAner a use lpa v)])
    fun t hcfg => by rw [runPoint, hcfg, h1.cfg]
  have h12 := h1.trans h2
  cases hchip : s.cfg.chipModel with
  | fe =>
    obtain ⟨t3, h3, hrun3⟩ := exists_mdioRead_point h2.ready h2.ops
    have h123 := h12.trans h3
    obtain ⟨u, hlast, hlog, hmem, hmarks, htx, hrx, hregs, huse⟩ :=
      h123.exists_resolved use (resolve s.cfg.phyMap .fe lpa adv t3.hostD 0 0)
    have hpoint : runPoint (.capAner a use lpa adv) t3 = .next u := by rw [runPoint, h123.cfg, hchip]; exact hlast
    refine ⟨u, lpa, adv, t3.hostD, 0, 0, hrun1.trans (hrun2.trans (hrun3 hpoint)), fun _ => ⟨rfl, rfl⟩, ?_, hmem, hmarks,
      htx, hrx, hregs, huse⟩
    exact hlog.trans (List.append_nil _).symm
  | ge =>
    obtain ⟨aner, t3, h3, hrun3⟩ := exists_mdioRead_pushOps h2.ready h2.ops
      (next := fun v => mdioReadOps a.toNat s.cfg.phyMap.gtcr.toNat ++ [.point (.capGtcr a use lpa adv v)])
      fun t hcfg => by rw [runPoint, hcfg, h12.cfg, hchip]
    have h123 := h12.trans h3
    obtain ⟨gtcr, t4, h4, hrun4⟩ := exists_mdioRead_pushOps h3.ready h3.ops
      (next := fun v => mdioReadOps a.toNat s.cfg.phyMap.gtsr.toNat ++ [.point (.capGtsr use lpa adv aner v)])
      fun t hcfg => by rw [runPoint, hcfg, h123.cfg]
    obtain ⟨t5, h5, hrun5⟩ := exists_mdioRead_point h4.ready h4.ops
    have hall := (h123.trans h4).trans h5
    obtain ⟨u, hlast, hlog, hmem, hmarks, htx, hrx, hregs, huse⟩ :=
      hall.exists_resolved use (resolve s.cfg.phyMap .ge lpa adv aner gtcr t5.hostD)
    have hpoint : runPoint (.capGtsr use lpa adv aner gtcr) t5 = .next u := by
      rw [runPoint, hall.cfg, hchip]; exact hlast
    refine ⟨u, lpa, adv, aner, gtcr, t5.hostD, hrun1.trans (hrun2.trans (hrun3.trans (hrun4.trans (hrun5 hpoint)))),
      nofun, ?_, hmem, hmarks, htx, hrx, hregs, huse⟩
    exact hlog.trans (List.append_assoc s.phyLog [_, _, _] [_, _]).symm

end Sys2Proof.Machine
end

section
/-!
PROOFS of the family 44_interrupt_decoder: the bits that an acknowledge clears (R705); the line and who runs the handler
(R704, R707, R912); the decode of a status word (R706, R713); and the handler, from its read of IntrStatus to its return
(R710 to R713, R1016, R1017).
-/
namespace Sys2Proof.Machine

/-! ### Two words with a common bit -/

theorem and_ne_zero_iff_exists_bit {v w : Word} :
    v &&& w ≠ 0 ↔ ∃ k, k < 32 ∧ v.getLsbD k = true ∧ w.getLsbD k = true := by
  constructor
  · intro hne
    refine Classical.byContradiction fun hnone => hne (BitVec.eq_of_getLsbD_eq fun k hk => ?_)
    rw [BitVec.getLsbD_and, BitVec.ofNat_eq_ofNat, BitVec.getLsbD_zero, Bool.eq_false_iff, ne_eq, Bool.and_eq_true]
    exact fun hboth => hnone ⟨k, hk, hboth⟩
  · rintro ⟨k, -, hv, hw⟩ hzero
    have hbit : (v &&& w).getLsbD k = true := by rw [BitVec.getLsbD_and, hv, hw, Bool.and_self]
    rw [hzero, BitVec.ofNat_eq_ofNat, BitVec.getLsbD_zero] at hbit
    cases hbit

/-- A word meets a mask of the bits i and j when one of the two is set. -/
theorem and_ne_zero_iff_of_mask {m : Word} {i j : Nat} (hi : i < 32) (hj : j < 32)
    (hm : ∀ k < 32, m.getLsbD k = decide (k = i ∨ k = j)) (s : Word) :
    s &&& m ≠ 0 ↔ s.getLsbD i = true ∨ s.getLsbD j = true := by
  rw [and_ne_zero_iff_exists_bit]
  constructor
  · rintro ⟨k, hk, hs, hbit⟩
    rw [hm k hk, decide_eq_true_iff] at hbit
    obtain rfl | rfl := hbit
    · exact .inl hs
    · exact .inr hs
  · rintro (hs | hs)
    · exact ⟨i, hi, hs, by rw [hm i hi, decide_eq_true (.inl rfl)]⟩
    · exact ⟨j, hj, hs, by rw [hm j hj, decide_eq_true (.inr rfl)]⟩

/-! ### The acknowledge -/

theorem regWrite32_intrStatus_open {s : State} (hopen : windowOpen s = true) (v : Word) :
    regWrite32 .intrStatus v s = { s with regs.intrStatus := s.regs.intrStatus &&& ~~~v } :=
  regWrite32_open hopen .intrStatus v

/-- Settles O23: both rows are one write, which clears the bits of its word from IntrStatus as it then stands, with the
device's sets before it and without those after it. -/
theorem acknowledgeClearsWrittenBits : Obligations.AcknowledgeClearsWrittenBits := by
  intro s v bits hopen
  have hack (t : State) (ht : windowOpen t = true) (w : Word) :
      exec (.isAck w) t = .next { t with regs.intrStatus := t.regs.intrStatus &&& ~~~w } :=
    congrArg Host.Outcome.next (regWrite32_intrStatus_open ht w)
  have hread : exec .rd32IntrStatus s = .next { s with hostT := s.regs.intrStatus } :=
    congrArg Host.Outcome.next (regRead32_open_of_no_draw hopen (r := .intrStatus) rfl)
  refine ⟨hack s hopen v, hack s hopen v, hack (setStatus bits s) hopen v, ⟨_, hack s hopen v, fun k hk => ?_⟩,
    ⟨_, hread, rfl, hack (setStatus bits { s with hostT := s.regs.intrStatus }) hopen _, fun k hk => ?_⟩⟩
  · rw [setStatus_regs, BitVec.getLsbD_or, BitVec.getLsbD_and, BitVec.getLsbD_not, decide_eq_true hk, Bool.true_and,
      Bool.or_comm]
  · rw [BitVec.getLsbD_and, BitVec.getLsbD_or, BitVec.getLsbD_not, decide_eq_true hk, Bool.true_and,
      Bool.and_or_distrib_right, Bool.and_not_self, Bool.false_or]

/-! ### The line and its delivery -/

/-- R704. -/
theorem irqLine_iff {s : State} :
    irqLine s = true ↔ (∃ k, k < 32 ∧ s.regs.intrStatus.getLsbD k = true ∧ s.regs.intrMask.getLsbD k = true) ∧
      s.removed = false := by
  rw [irqLine, Bool.and_eq_true, decide_eq_true_iff, Bool.not_eq_true', and_ne_zero_iff_exists_bit]

/-- R1017: with every bit masked the line is low. -/
theorem irqLine_of_mask_zero {s : State} (hmask : s.regs.intrMask = 0) : irqLine s = false := by
  rw [Bool.eq_false_iff, ne_eq, irqLine_iff, hmask]
  rintro ⟨⟨k, -, -, hbit⟩, -⟩
  rw [BitVec.ofNat_eq_ofNat, BitVec.getLsbD_zero] at hbit
  cases hbit

/-- Settles O24, by HOST's turn in each of its positions and the two turns that take an interrupt. -/
theorem interruptDelivery : Obligations.InterruptDelivery := by
  intro s
  have hdeliver : deliverTurn s = if irqLine s = true ∧ s.irqArmed = true then takeInterrupt s else s := by
    rw [deliverTurn, deliverable]
    simp only [Bool.and_eq_true]
  exact ⟨irqLine_iff, congrArg Host.Outcome.next hdeliver, congrArg Host.Outcome.next (spuriousTurn_eq s),
    fun _ _ => hostTurn_of_ops, hostTurn_of_pending⟩

/-! ### The decode -/

theorem decodeEvents_ones : decodeEvents 0xFFFFFFFF#32 = [] := rfl

/-- R706: what a word other than all-ones decodes to, from its bits. -/
theorem decodeEvents_of_ne {s : Word} (hs : s ≠ 0xFFFFFFFF#32) :
    decodeEvents s =
      (if s.getLsbD 2 = true ∨ s.getLsbD 3 = true then [.sendAvailable] else []) ++
      (if s.getLsbD 6 = true ∨ s.getLsbD 7 = true then [.recvAvailable] else []) ++
      (if s.getLsbD 16 = true then [.linkChange] else []) := by
  have hsend := and_ne_zero_iff_of_mask (m := 0x0000000C#32) (i := 2) (j := 3) (by decide) (by decide) (by decide) s
  have hrecv := and_ne_zero_iff_of_mask (m := 0x000000C0#32) (i := 6) (j := 7) (by decide) (by decide) (by decide) s
  have hlink := and_ne_zero_iff_of_mask (m := 0x00010000#32) (i := 16) (j := 16) (by decide) (by decide) (by decide) s
  rw [or_self] at hlink
  simp only [decodeEvents, if_neg hs, hsend, hrecv, hlink]

/-- R713: dispatch order, and each event at most once. -/
theorem decodeEvents_sublist (s : Word) :
    List.Sublist (decodeEvents s) [.sendAvailable, .recvAvailable, .linkChange] := by
  have hpart (p : Prop) [Decidable p] (e : HostEvent) : List.Sublist (if p then [e] else []) [e] := by
    split
    · exact .refl _
    · exact List.nil_sublist _
  by_cases hs : s = 0xFFFFFFFF#32
  · rw [hs, decodeEvents_ones]
    exact List.nil_sublist _
  · rw [decodeEvents_of_ne hs]
    exact ((hpart _ .sendAvailable).append (hpart _ .recvAvailable)).append (hpart _ .linkChange)

/-- R706: bits outside RECOGNIZED decode to nothing. -/
theorem decodeEvents_of_unrecognized {s : Word} (hs : s &&& recognized = 0) : decodeEvents s = [] := by
  have hpart (m : Word) (hm : recognized &&& m = m) : ¬ s &&& m ≠ 0 := by
    rw [← hm, ← BitVec.and_assoc, hs]
    exact not_not_intro BitVec.zero_and
  rw [decodeEvents, if_neg (hpart _ (by decide)), if_neg (hpart _ (by decide)), if_neg (hpart _ (by decide))]
  exact ite_self []

/-- Settles O25: each of the three parts of the decode is there exactly for its bits. -/
theorem decodeOfStatus : Obligations.DecodeOfStatus := by
  intro s
  have hmem (e : HostEvent) : e ∈ decodeEvents s ↔ s ≠ 0xFFFFFFFF#32 ∧
      (((s.getLsbD 2 = true ∨ s.getLsbD 3 = true) ∧ e = .sendAvailable ∨
        (s.getLsbD 6 = true ∨ s.getLsbD 7 = true) ∧ e = .recvAvailable) ∨ s.getLsbD 16 = true ∧ e = .linkChange) := by
    by_cases hs : s = 0xFFFFFFFF#32
    · rw [hs, decodeEvents_ones]
      exact ⟨nofun, fun h => absurd rfl h.1⟩
    · rw [decodeEvents_of_ne hs, List.mem_append, List.mem_append, List.mem_ite_nil_right, List.mem_ite_nil_right,
        List.mem_ite_nil_right, List.mem_singleton, List.mem_singleton, List.mem_singleton]
      exact (and_iff_right hs).symm
  refine ⟨?_, ?_, ?_, decodeEvents_sublist s, decodeEvents_of_unrecognized⟩
  · simp [hmem]
  · simp [hmem]
  · simp [hmem]

/-! ### The handler -/

/-- R707, R710: IRQ has disarmed the line, and its first access is the read of IntrStatus. -/
def irqEntered (s : State) : State :=
  { s with irqArmed := false, irqPending := false, ops := [.rd32 .intrStatus, .point .irqDecode], ret := none }

theorem exec_entryIrq_idle {s : State} (hops : s.ops = []) (hhandle : s.ctx.regHandle ≠ none) :
    exec .entryIrq s = .next (irqEntered s) :=
  (whenIdle_idle hops _).trans (withHandle_set hhandle _)

/-- R710: the acting path. -/
theorem hostTurn_irqDecode_of_events {s : State} {rest : List HostOp} (hops : s.ops = .point .irqDecode :: rest)
    (hevents : decodeEvents s.hostT ≠ []) :
    hostTurn s = .next { s with ops := handlerOps s.hostT (decodeEvents s.hostT) ++ rest } := by
  obtain ⟨e, es, hcons⟩ := List.exists_cons_of_ne_nil hevents
  rw [hostTurn_of_ops hops]
  simp only [runOp, runPoint, hcons]
  rfl

/-- R711, R712: the no-action path. -/
theorem hostTurn_irqDecode_of_none {s : State} {rest : List HostOp} (hops : s.ops = .point .irqDecode :: rest)
    (hnone : decodeEvents s.hostT = []) :
    hostTurn s = .next { s with irqArmed := s.irqArmed || s.cfg.hostAutoRearm, ops := [], ret := some .done } := by
  rw [hostTurn_of_ops hops]
  simp only [runOp, runPoint, hnone]
  rfl

/-- R713: k turns of HOST emit the first k events. -/
theorem hostTurns_emit {rest : List HostOp} {k : Nat} {evs : List HostEvent} {s : State}
    (hops : s.ops = evs.map (fun e => .point (.emit e)) ++ rest) (hk : k ≤ evs.length) :
    hostTurns k s = .next { s with
      events := s.events ++ evs.take k, ops := (evs.drop k).map (fun e => .point (.emit e)) ++ rest } := by
  induction k generalizing evs s with
  | zero => rw [hostTurns_zero, List.take_zero, List.drop_zero, List.append_nil, ← hops]
  | succ k ih =>
    cases evs with
    | nil => cases hk
    | cons e es =>
      have hturn : hostTurn s = .next { s with
          events := s.events ++ [e], ops := es.map (fun e => .point (.emit e)) ++ rest } := hostTurn_of_ops hops
      rw [hostTurns_succ hturn, ih (evs := es) rfl (Nat.le_of_succ_le_succ hk), List.append_assoc]
      rfl

section
variable {s : State} {rest : List HostOp} (hopen : windowOpen s = true) (hhandle : s.ctx.regHandle ≠ none)
include hopen hhandle

/-- R710, R1016, R1017: the acknowledge, the mask, and the first k of the events that follow. -/
theorem hostTurns_acknowledge {v : Word} {evs : List HostEvent} {k : Nat}
    (hops : s.ops = [.wr32 .intrStatus v, .wr32 .intrMask 0] ++ evs.map (fun e => .point (.emit e)) ++ rest)
    (hk : k ≤ evs.length) :
    hostTurns (2 + k) s = .next { s with
      regs.intrStatus := s.regs.intrStatus &&& ~~~v, regs.intrMask := 0, events := s.events ++ evs.take k
      ops := (evs.drop k).map (fun e => .point (.emit e)) ++ rest } := by
  have hmasked : hostTurns 2 s = .next { s with
      regs.intrStatus := s.regs.intrStatus &&& ~~~v, regs.intrMask := 0
      ops := evs.map (fun e => .point (.emit e)) ++ rest } := by
    refine (hostTurns_succ (hostTurn_wr32_open hopen hhandle hops)).trans (hostTurns_succ ?_)
    refine hostTurn_wr32_open (r := .intrMask) ?_ ?_ rfl
    · exact hopen
    · exact hhandle
  rw [hostTurns_add hmasked]
  exact hostTurns_emit rfl hk

/-- R710: the mask is restored, the line armed, and the handler returns; only the write looks at the state. -/
theorem hostTurns_handlerEnd (hops : s.ops = [.wr32 .intrMask recognized, .point .rearm, .point (.finish .done)]) :
    hostTurns 3 s = .next { s with regs.intrMask := recognized, irqArmed := true, ops := [], ret := some .done } :=
  hostTurns_succ (hostTurn_wr32_open hopen hhandle hops)

/-- R710: the acting path from its acknowledge to its return, with HOST alone taking turns. -/
theorem hostTurns_handlerOps {v : Word} {evs : List HostEvent} (hops : s.ops = handlerOps v evs) :
    hostTurns (2 + evs.length + 3) s = .next { s with
      regs.intrStatus := s.regs.intrStatus &&& ~~~v, regs.intrMask := recognized, events := s.events ++ evs
      irqArmed := true, ops := [], ret := some .done } := by
  have hemitted := hostTurns_acknowledge hopen hhandle hops (Nat.le_refl _)
  rw [List.take_length, List.drop_length] at hemitted
  rw [hostTurns_add hemitted]
  exact hostTurns_handlerEnd hopen hhandle rfl

/-- R710: the whole acting path, with HOST alone taking turns; it clears every bit that it read. -/
theorem hostTurns_irq_of_events (hops : s.ops = [.rd32 .intrStatus, .point .irqDecode])
    (hevents : decodeEvents s.regs.intrStatus ≠ []) :
    hostTurns (7 + (decodeEvents s.regs.intrStatus).length) s = .next { s with
      regs.intrStatus := 0, regs.intrMask := recognized, hostT := s.regs.intrStatus
      events := s.events ++ decodeEvents s.regs.intrStatus, irqArmed := true, ops := [], ret := some .done } := by
  have hread : hostTurn s = .next { s with hostT := s.regs.intrStatus, ops := [.point .irqDecode] } :=
    hostTurn_rd32_open hopen hhandle rfl hops
  have hdecode := hostTurn_irqDecode_of_events (s := { s with hostT := s.regs.intrStatus, ops := [.point .irqDecode] })
    rfl hevents
  have hcount (n : Nat) : 7 + n = 2 + n + 3 + 1 + 1 := by omega
  rw [hcount, hostTurns_succ hread, hostTurns_succ hdecode, ← BitVec.and_not_self s.regs.intrStatus]
  refine hostTurns_handlerOps ?_ ?_ (List.append_nil _)
  · exact hopen
  · exact hhandle

end

/-- R404, R711, R712: the read of a removed device is all-ones, so its word, too, decodes to nothing. -/
theorem exists_irqRead_of_nothing {s : State} (hsoft : softPhase s = false) (hhandle : s.ctx.regHandle ≠ none)
    {rest : List HostOp} (hops : s.ops = .rd32 .intrStatus :: rest)
    (hnothing : s.removed = true ∨ decodeEvents s.regs.intrStatus = []) :
    ∃ w, hostTurn s = .next { s with hostT := w, ops := rest } ∧ decodeEvents w = [] := by
  by_cases hremoved : s.removed = true
  · refine ⟨0xFFFFFFFF#32, ?_, decodeEvents_ones⟩
    have hread := regRead32_removed (s := { s with ops := rest }) hsoft hremoved .intrStatus
    rw [hostTurn_of_ops hops]
    exact (runOp_rd32 (s := { s with ops := rest }) hhandle _).trans (congrArg _ hread)
  · have hopen := windowOpen_iff.2 ⟨hsoft, Bool.eq_false_iff.2 hremoved⟩
    exact ⟨_, hostTurn_rd32_open hopen hhandle rfl hops, hnothing.resolve_left hremoved⟩

/-- Settles O50: HOST's turns one after the other, from the handler's read of IntrStatus. -/
theorem interruptHandler : Obligations.InterruptHandler := by
  intro s
  refine ⟨fun hops hhandle hsoft => ⟨irqEntered s, exec_entryIrq_idle hops hhandle, rfl, fun hpresent => ?_,
    fun hpresent hevents => ?_, fun hnothing => ?_⟩, fun hops hevents => ?_,
    fun v evs rest k hops hhandle hopen hk => ?_, fun hops hhandle hopen => hostTurns_handlerEnd hopen hhandle hops⟩
  · exact hostTurn_rd32_open (s := irqEntered s) (windowOpen_iff.2 ⟨hsoft, hpresent⟩) hhandle rfl rfl
  · have hrun := hostTurns_irq_of_events (s := irqEntered s) (windowOpen_iff.2 ⟨hsoft, hpresent⟩) hhandle rfl hevents
    exact hrun.trans (by rw [hops]; rfl)
  · obtain ⟨w, hread, hnone⟩ := exists_irqRead_of_nothing (s := irqEntered s) hsoft hhandle rfl hnothing
    have hdecode := hostTurn_irqDecode_of_none
      (s := { irqEntered s with hostT := w, ops := [.point .irqDecode] }) rfl hnone
    refine ⟨_, (hostTurns_succ hread).trans (hostTurns_succ hdecode), ?_⟩
    simp only [irqEntered, Bool.false_or, hops]
  · rw [hostTurn_irqDecode_of_events hops hevents, List.append_nil]
    rfl
  · exact ⟨_, hostTurns_acknowledge hopen hhandle hops hk, rfl, irqLine_of_mask_zero rfl⟩

end Sys2Proof.Machine
end

section
/-!
PROOFS of the family 45_mac_register_engine, the writes of its sequences: a run of plain writes of an open window, the words of
the two control registers (R102, R520, R521, R523), and the pulse of SOFT with its release (R803, R804, R815).
-/
namespace Sys2Proof.Machine

/-! ### Fields of the Device Context -/

theorem withField_set {α : Type} {o : Option α} {a : α} (h : o = some a) (f : CtxField) (k : α → Result) :
    withField o f k = k a := by
  rw [h, withField]

theorem withField_unset {α : Type} {o : Option α} (h : o = none) (f : CtxField) (k : α → Result) :
    withField o f k = .fault (.unsetContextField f) := by
  rw [h, withField]

theorem withHandle_unset {s : State} (h : s.ctx.regHandle = none) (k : Result) :
    withHandle s k = .fault (.unsetContextField .regHandle) :=
  withField_unset h _ _

/-! ### Runs of plain writes -/

theorem hostTurns_one {s t : State} (h : hostTurn s = .next t) : hostTurns 1 s = .next t := hostTurns_succ h

/-- A write as a micro-operation of HOST's. -/
def writeOp (w : Reg × Word) : HostOp := .wr32 w.1 w.2

/-- The state when HOST has made a list of writes of an open window and `rest` is left of its sequence. -/
def afterWrites (rest : List HostOp) : List (Reg × Word) → State → State
  | [], s => { s with ops := rest }
  | w :: ws, s => afterWrites rest ws (writeEffect w.1 w.2 { s with ops := ws.map writeOp ++ rest })

/-- Only a write of IntrControl closes an open window. -/
theorem windowOpen_writeEffect {s : State} (hopen : windowOpen s = true) {r : Reg} (hr : r ≠ .intrControl) (v : Word) :
    windowOpen (writeEffect r v s) = true := by
  obtain ⟨hsoft, hpresent⟩ := windowOpen_iff.1 hopen
  have hcontrol := regWrite32_intrControl r v s hr
  rw [regWrite32_open hopen] at hcontrol
  exact windowOpen_iff.2 ⟨(softPhase_of_intrControl hcontrol).trans hsoft, (writeEffect_frame r v s).removed.trans hpresent⟩

/-- HOST's turns make the writes one after the other. -/
theorem hostTurns_writes {rest : List HostOp} {ws : List (Reg × Word)} {s : State}
    (hplain : ws.all (fun w => decide (w.1 ≠ .intrControl)) = true) (hopen : windowOpen s = true)
    (hhandle : s.ctx.regHandle ≠ none) (hops : s.ops = ws.map writeOp ++ rest) :
    hostTurns ws.length s = .next (afterWrites rest ws s) := by
  induction ws generalizing s with
  | nil => rw [List.length_nil, hostTurns_zero, afterWrites, ← show s.ops = rest from hops]
  | cons w ws ih =>
    rw [List.all_cons, Bool.and_eq_true, decide_eq_true_iff] at hplain
    have hframe := writeEffect_frame w.1 w.2 { s with ops := ws.map writeOp ++ rest }
    rw [List.length_cons, hostTurns_succ (hostTurn_wr32_open hopen hhandle hops)]
    refine ih hplain.2 ?_ (hframe.ctx.symm ▸ hhandle) hframe.ops
    exact windowOpen_writeEffect (s := { s with ops := ws.map writeOp ++ rest }) hopen hplain.1 w.2

/-- R705: all-ones acknowledges every bit. -/
theorem and_not_ones (w : Word) : w &&& ~~~0xFFFFFFFF = 0 := by
  have hones : ~~~0xFFFFFFFF#32 = 0#32 := by decide
  exact hones ▸ BitVec.and_zero

/-! ### The control registers -/

theorem and_eq_self_of_inside {x m : Word} (hx : x &&& ~~~m = 0) : x &&& m = x := by
  rw [and_not_eq_zero_iff] at hx
  refine BitVec.eq_of_getLsbD_eq fun k hk => ?_
  rw [BitVec.getLsbD_and, Bool.and_eq_left_iff_imp]
  exact hx k hk

section
variable {cfg : Word} (hcfg : cfg &&& ~~~cfgMask = 0)
include hcfg

/-- R102: CFG bits are neither ENB nor POLL. -/
theorem cfg_enb_poll : cfg.getLsbD 0 = false ∧ cfg.getLsbD 4 = false := by
  rw [and_not_eq_zero_iff] at hcfg
  constructor
  · exact Bool.eq_false_iff.2 fun hbit => absurd (hcfg 0 (by decide) hbit) (by decide)
  · exact Bool.eq_false_iff.2 fun hbit => absurd (hcfg 4 (by decide) hbit) (by decide)

/-- R102: ENB and POLL are not stored. -/
theorem or_and_cfgMask {low : Word} (hlow : low &&& cfgMask = 0) : (cfg ||| low) &&& cfgMask = cfg := by
  rw [BitVec.and_comm, BitVec.and_or_distrib_left, BitVec.and_comm, and_eq_self_of_inside hcfg, BitVec.and_comm, hlow]
  exact BitVec.or_zero

/-- R523: the CFG bits alone turn an engine off. -/
theorem engineControl_cfg (e : Engine) (base : Word) : engineControl e base cfg = { e with en := false, kick := false } := by
  rw [engineControl, (cfg_enb_poll hcfg).1, if_neg Bool.false_ne_true]

/-- R520, R521: ENB's rise starts an engine at its latched base, and POLL kicks it. -/
theorem engineControl_rise {e : Engine} (hoff : e.en = false) (base : Word) {low : Word} (henb : low.getLsbD 0 = true) :
    engineControl e base (cfg ||| low) =
      { en := true, base := base, ptr := 0, kick := low.getLsbD 4, idle := false } := by
  obtain ⟨hcfgEnb, hcfgPoll⟩ := cfg_enb_poll hcfg
  simp only [engineControl, BitVec.getLsbD_or, hcfgEnb, hcfgPoll, henb, hoff, Bool.false_or, Bool.false_eq_true, if_false,
    if_true]
  cases low.getLsbD 4 <;> rfl

end

/-- R102: the CFG bits of the parameters are CFG bits. -/
theorem paramsOk_cfg {c : Config.Params} (h : paramsOk c = true) :
    c.txCfg &&& ~~~cfgMask = 0 ∧ c.rxCfg &&& ~~~cfgMask = 0 := by
  simp only [paramsOk, Bool.and_eq_true, decide_eq_true_iff] at h
  exact ⟨h.1.1.1.2, h.1.1.2⟩

/-! ### The pulse of SOFT and its release -/

/-- R803: in an open window a write with SOFT = 1 is the soft reset. -/
theorem regWrite32_soft_open {s : State} (hopen : windowOpen s = true) {v : Word} (hv : v.getLsbD 15 = true) :
    regWrite32 .intrControl v s = softReset v s :=
  (regWrite32_open hopen .intrControl v).trans (if_pos hv)

/-- R405, R804: the SOFT phase admits the release. -/
theorem release_admitted {v : Word} (hv : v.getLsbD 15 = false) (s : State) :
    ¬ (softPhase s && !isRelease .intrControl v) = true := by
  rw [isRelease, hv, Bool.not_false, decide_eq_true rfl, Bool.and_self, Bool.not_true, Bool.and_false]
  exact Bool.false_ne_true

/-- R804: the release, in the SOFT phase or out of it. -/
theorem regWrite32_release {s : State} (hpresent : s.removed = false) {v : Word} (hv : v.getLsbD 15 = false) :
    regWrite32 .intrControl v s = { s with regs.intrControl := v } :=
  (if_neg (release_admitted hv s)).trans
    ((if_neg (ne_true_of_eq_false hpresent)).trans (if_neg (ne_true_of_eq_false hv)))

/-- R405: the release of a removed device clears SOFT and nothing else (log entry 35). -/
theorem regWrite32_release_removed {s : State} (hremoved : s.removed = true) (hsoft : softPhase s = true) {v : Word}
    (hv : v.getLsbD 15 = false) :
    regWrite32 .intrControl v s = { s with regs.intrControl := s.regs.intrControl &&& 0xFFFF7FFF#32 } := by
  have hrelease : (softPhase s && isRelease .intrControl v) = true := by
    rw [hsoft, isRelease, hv, Bool.not_false, decide_eq_true rfl, Bool.and_self, Bool.and_self]
  exact (if_neg (release_admitted hv s)).trans ((if_pos hremoved).trans (if_pos hrelease))

/-- Settles O22: in an open window the write with SOFT = 1 is `softReset`; the release changes IntrControl alone. -/
theorem softResetAndRelease : Obligations.SoftResetAndRelease := by
  intro s hi lo
  have hbit (soft : BitVec 1) : (icWord hi soft lo).getLsbD 15 = decide (soft = 1#1) := (icWord_fields hi soft lo).2.1
  refine ⟨fun hopen => ?_, fun hpresent => ?_, fun hremoved hsoft => ?_⟩
  · obtain ⟨log, regs, hreset, hcontrol, hmask, hrom, hgmii, -, -, -, -, -, hlog⟩ := softReset_cases (icWord hi 1#1 lo) s
    have hwrite : (.next (regWrite32 .intrControl (icWord hi 1#1 lo) s) : Result) = _ :=
      congrArg _ ((regWrite32_soft_open hopen (hbit 1#1)).trans hreset)
    refine ⟨_, hwrite, hwrite, ?_, rfl, hcontrol, hmask, hrom, hgmii, hlog⟩
    exact (congrArg (·.getLsbD 15) hcontrol).trans (hbit 1#1)
  · have hwrite : (.next (regWrite32 .intrControl (icWord hi 0#1 lo) s) : Result) = _ :=
      congrArg _ (regWrite32_release hpresent (hbit 0#1))
    exact ⟨_, hwrite, hwrite, rfl, hbit 0#1⟩
  · have hwrite : (.next (regWrite32 .intrControl (icWord hi 0#1 lo) s) : Result) = _ :=
      congrArg _ (regWrite32_release_removed hremoved hsoft (hbit 0#1))
    refine ⟨_, hwrite, hwrite, rfl, ?_⟩
    exact BitVec.getLsbD_and.trans (Bool.and_false _)

end Sys2Proof.Machine
end

section
/-!
PROOFS of the family 45_mac_register_engine, ResetSeq and STOP: what HOST's pulse of SOFT and its release leave in either
reading of STOP's (R803, R804, R815, R1003; log entry 37), ResetSeq (R800), and STOP (R815).
-/
namespace Sys2Proof.Machine

/-! ### HOST's pulse of SOFT -/

/-- R803, R1003: the engines off, the controllers idle, interrupts masked, the SOFT phase over; `rest` is next. -/
structure Quieted (rest : List HostOp) (s t : State) : Prop where
  ops         : t.ops = rest
  tx          : t.tx = { s.tx with en := false, kick := false }
  rx          : t.rx = { s.rx with en := false, kick := false }
  miic        : t.miic = { s.miic with busy := false, rdata := none }
  eec         : t.eec = { s.eec with busy := false, rdata := none }
  intrMask    : t.regs.intrMask = 0
  intrControl : t.regs.intrControl = 0
  cfg         : t.cfg = s.cfg
  mem         : t.mem = s.mem
  ctx         : t.ctx = s.ctx
  marks       : t.marks = s.marks
  removed     : t.removed = s.removed
  irqArmed    : t.irqArmed = s.irqArmed
  wireIn      : t.wireIn = s.wireIn

theorem Quieted.trans {rest rest' : List HostOp} {s t u : State} (h : Quieted rest s t) (h' : Quieted rest' t u) :
    Quieted rest' s u where
  ops         := h'.ops
  tx          := by rw [h'.tx, h.tx]
  rx          := by rw [h'.rx, h.rx]
  miic        := by rw [h'.miic, h.miic]
  eec         := by rw [h'.eec, h.eec]
  intrMask    := h'.intrMask
  intrControl := h'.intrControl
  cfg         := h'.cfg.trans h.cfg
  mem         := h'.mem.trans h.mem
  ctx         := h'.ctx.trans h.ctx
  marks       := h'.marks.trans h.marks
  removed     := h'.removed.trans h.removed
  irqArmed    := h'.irqArmed.trans h.irqArmed
  wireIn      := h'.wireIn.trans h.wireIn

section
variable {rest : List HostOp} {s t : State} (h : Quieted rest s t)
include h

theorem Quieted.softPhase : softPhase t = false := by
  rw [Machine.softPhase, h.intrControl]
  rfl

theorem Quieted.windowOpen (hopen : windowOpen s = true) : windowOpen t = true :=
  windowOpen_iff.2 ⟨h.softPhase, h.removed.trans (windowOpen_iff.1 hopen).2⟩

theorem Quieted.regHandle (hhandle : s.ctx.regHandle ≠ none) : t.ctx.regHandle ≠ none := h.ctx.symm ▸ hhandle

end

/-- Draws are counted on. -/
theorem drawAt_of_drawn {s t : State} {n : Nat} (hdraws : t.draws = s.draws + n) (hpins : t.pins = s.pins.drop n) (k : Nat) :
    drawAt t k = drawAt s (n + k) := by
  rw [drawAt, drawAt, hdraws, hpins, List.getElem?_drop, Nat.add_assoc]

section
variable {s : State} {rest : List HostOp} (hhandle : s.ctx.regHandle ≠ none)
include hhandle

/-- R804: the release after a pulse that has left the device present and its handle set. -/
theorem hostTurns_pulse {t : State} (hpulse : hostTurn s = .next t) (hctx : t.ctx = s.ctx) (hpresent : t.removed = false)
    (hops : t.ops = .wr32 .intrControl 0 :: rest) :
    hostTurns 2 s = .next { t with regs.intrControl := 0, ops := rest } := by
  rw [hostTurns_succ hpulse]
  apply hostTurns_one
  rw [hostTurn_of_ops hops, runOp_wr32 (s := { t with ops := rest }) (hctx.symm ▸ hhandle)]
  exact congrArg _ (regWrite32_release (s := { t with ops := rest }) hpresent rfl)

variable (hopen : windowOpen s = true)
include hopen

/-- R803, R804: the pulse of SOFT redraws the CFG bits and IntrStatus, and takes twelve draws. -/
theorem exists_softPulse (hops : s.ops = .wr32 .intrControl 0x8000 :: .wr32 .intrControl 0 :: rest) :
    ∃ t, hostTurns 2 s = .next t ∧ Quieted rest s t ∧ (∀ k, drawAt t k = drawAt s (12 + k)) ∧
      t.regs.gmiiStored = s.regs.gmiiStored ∧ t.regs.txCfg = drawAt s 9 &&& cfgMask ∧
      t.regs.rxCfg = drawAt s 10 &&& cfgMask ∧ t.regs.intrStatus = drawAt s 2 &&& definedStatus := by
  obtain ⟨log, regs, hreset, -, hmask, -, hgmii, htx, hrx, hstatus, -⟩ :=
    softReset_cases 0x8000#32 { s with ops := .wr32 .intrControl 0 :: rest }
  have hpulse : hostTurn s = .next (softReset 0x8000#32 { s with ops := .wr32 .intrControl 0 :: rest }) :=
    hostTurn_wr32_open hopen hhandle hops
  rw [hreset] at hpulse
  refine ⟨_, hostTurns_pulse hhandle hpulse rfl (windowOpen_iff.1 hopen).2 rfl, ?_, drawAt_of_drawn rfl rfl, hgmii, htx, hrx, hstatus⟩
  exact ⟨rfl, rfl, rfl, rfl, rfl, hmask, rfl, rfl, rfl, rfl, rfl, rfl, rfl, rfl⟩

/-- R1003's reading of STOP's pulse: the CFG bits stay, and only status bits that were set can be. -/
theorem exists_stopPulse (hops : s.ops = .stopPulse :: .wr32 .intrControl 0 :: rest) :
    ∃ t, hostTurns 2 s = .next t ∧ Quieted rest s t ∧ t.regs.gmiiStored = s.regs.gmiiStored ∧
      t.regs.txCfg = s.regs.txCfg ∧ t.regs.rxCfg = s.regs.rxCfg ∧
      ∃ d, t.regs.intrStatus = d &&& s.regs.intrStatus := by
  obtain ⟨log, regs, hreset, -, hmask, -, hgmii, -⟩ := softReset_cases 0x8000#32 { s with ops := .wr32 .intrControl 0 :: rest }
  have hwrite := (regWrite32_soft_open (s := { s with ops := .wr32 .intrControl 0 :: rest }) hopen rfl).trans hreset
  have hpulse : hostTurn s = .next (stopPulse { s with ops := .wr32 .intrControl 0 :: rest }) :=
    (hostTurn_of_ops hops).trans (runOp_stopPulse hhandle)
  rw [stopPulse, hwrite] at hpulse
  refine ⟨_, hostTurns_pulse hhandle hpulse rfl (windowOpen_iff.1 hopen).2 rfl, ?_, hgmii, rfl, rfl, _, rfl⟩
  exact ⟨rfl, rfl, rfl, rfl, rfl, hmask, rfl, rfl, rfl, rfl, rfl, rfl, rfl, rfl⟩

/-- R815: STOP's pulse in the reading of the parameters. -/
theorem exists_stopPulseOp {cfg : Config.Params} (hops : s.ops = stopPulseOp cfg :: .wr32 .intrControl 0 :: rest) :
    ∃ t, hostTurns 2 s = .next t ∧ Quieted rest s t ∧ t.regs.gmiiStored = s.regs.gmiiStored ∧
      (cfg.stopReading = .redrawn → t.regs.txCfg = drawAt s 9 &&& cfgMask ∧ t.regs.rxCfg = drawAt s 10 &&& cfgMask ∧
        t.regs.intrStatus = drawAt s 2 &&& definedStatus) ∧
      (cfg.stopReading = .kept → t.regs.txCfg = s.regs.txCfg ∧ t.regs.rxCfg = s.regs.rxCfg ∧
        ∃ d, t.regs.intrStatus = d &&& s.regs.intrStatus) := by
  rw [stopPulseOp] at hops
  cases hreading : cfg.stopReading <;> rw [hreading] at hops
  case redrawn =>
    obtain ⟨t, hrun, hquiet, -, hgmii, hdrawn⟩ := exists_softPulse hhandle hopen hops
    exact ⟨t, hrun, hquiet, hgmii, fun _ => hdrawn, nofun⟩
  case kept =>
    obtain ⟨t, hrun, hquiet, hgmii, hkept⟩ := exists_stopPulse hhandle hopen hops
    exact ⟨t, hrun, hquiet, hgmii, nofun, fun _ => hkept⟩

/-! ### ResetSeq -/

/-- R800, R451: HOST's turn that clears the bits of GMIIControl, with the controller idle. -/
theorem hostTurn_clearGmii (hidle : s.miic.busy = false) (hops : s.ops = .wr32 .gmiiControl 0 :: rest) :
    hostTurn s = .next { s with regs.gmiiStored := 0, ops := rest } := by
  rw [hostTurn_wr32_open hopen hhandle hops]
  exact congrArg _ (if_neg (ne_true_of_eq_false hidle))

/-- R800: ResetSeq's writes before its pulse. -/
def maskWrites : List (Reg × Word) := [(.intrMask, 0), (.intrStatus, 0xFFFFFFFF)]

/-- R800: ResetSeq's writes after the release, up to that of GMIIControl. -/
def configWrites (cfg : Config.Params) : List (Reg × Word) :=
  [(.txControl, cfg.txCfg), (.rxControl, cfg.rxCfg), (.intrMask, 0), (.intrStatus, 0xFFFFFFFF)]

/-- R800, R1003: ResetSeq's writes after the release set what its pulse redrew. -/
theorem exists_resetSeq {cfg : Config.Params} (hparams : paramsOk cfg = true) (hops : s.ops = resetSeqOps cfg ++ rest) :
    ∃ t, hostTurns 9 s = .next t ∧ Quieted rest s t ∧ (∀ k, drawAt t k = drawAt s (12 + k)) ∧ t.regs.intrStatus = 0 ∧
      t.regs.txCfg = cfg.txCfg ∧ t.regs.rxCfg = cfg.rxCfg ∧ t.regs.gmiiStored = 0 := by
  obtain ⟨htxCfg, hrxCfg⟩ := paramsOk_cfg hparams
  have hmasked := hostTurns_writes (ws := maskWrites) rfl hopen hhandle hops
  obtain ⟨t, hpulse, ht, hdraw, -⟩ := exists_softPulse
    (s := afterWrites ((resetSeqOps cfg).drop 2 ++ rest) maskWrites s) hhandle hopen rfl
  have hset := hostTurns_writes (rest := .wr32 .gmiiControl 0 :: rest) (ws := configWrites cfg) rfl (ht.windowOpen hopen)
    (ht.regHandle hhandle) ht.ops
  have hclear := hostTurn_clearGmii (s := afterWrites (.wr32 .gmiiControl 0 :: rest) (configWrites cfg) t)
    (ht.regHandle hhandle) (ht.windowOpen hopen) (congrArg Miic.busy ht.miic) rfl
  refine ⟨_, (hostTurns_add hmasked).trans ((hostTurns_add hpulse).trans
    ((hostTurns_add hset).trans (hostTurns_one hclear))), ?quieted, hdraw, ?status, ?tx, ?rx, ?gmii⟩
  case quieted =>
    have htx := (engineControl_cfg htxCfg t.tx t.regs.txDescBase).trans (by rw [ht.tx])
    have hrx := (engineControl_cfg hrxCfg t.rx t.regs.rxDescBase).trans (by rw [ht.rx])
    exact ⟨rfl, htx, hrx, ht.miic, ht.eec, rfl, ht.intrControl, ht.cfg, ht.mem, ht.ctx, ht.marks, ht.removed, ht.irqArmed,
      ht.wireIn⟩
  case status => exact and_not_ones _
  case tx => exact and_eq_self_of_inside htxCfg
  case rx => exact and_eq_self_of_inside hrxCfg
  case gmii => rfl

end

/-- Settles O37: ResetSeq's pulse quiets the block, and its last writes set the registers that the pulse redrew. -/
theorem resetSequence : Obligations.ResetSequence := by
  intro s rest hopen hhandle hparams hops
  obtain ⟨t, hrun, ht, -, hstatus, htxCfg, hrxCfg, hgmii⟩ := exists_resetSeq hhandle hopen hparams hops
  exact ⟨t, hrun, ht.ops, ht.windowOpen hopen, ht.intrMask, hstatus, ht.intrControl, htxCfg, hrxCfg, hgmii,
    congrArg Engine.en ht.tx, congrArg Engine.kick ht.tx, congrArg Engine.en ht.rx, congrArg Engine.kick ht.rx,
    congrArg Miic.busy ht.miic, congrArg Miic.rdata ht.miic, congrArg Eec.busy ht.eec, congrArg Eec.rdata ht.eec,
    ht.mem, ht.ctx, ht.irqArmed, ht.wireIn, ht.marks⟩

/-! ### STOP -/

/-- R815: what STOP leaves of the Device Context. -/
def stoppedContext (c : Context) : Context :=
  { c with allocated := false, txCursor := none, rxCursor := none, autonegDone := false, enabled := false }

/-- R815: STOP's end. -/
def stopped (s : State) : State := finish .done { s with ctx := stoppedContext s.ctx }

theorem hostTurn_stopDone {s : State} {rest : List HostOp} (hops : s.ops = .point .stopDone :: rest) :
    hostTurn s = .next (stopped s) :=
  hostTurn_of_ops hops

/-- R815: STOP is ResetSeq and a second pulse, which comes at a state as ResetSeq left it. -/
theorem exists_stopOps {s : State} (hhandle : s.ctx.regHandle ≠ none) (hopen : windowOpen s = true)
    {cfg : Config.Params} (hparams : paramsOk cfg = true) (hops : s.ops = stopOps cfg) :
    ∃ t, hostTurns 13 s = .next (stopped t) ∧ Quieted [.point .stopDone] s t ∧ t.regs.gmiiStored = 0 ∧
      (cfg.stopReading = .redrawn → t.regs.txCfg = drawAt s 21 &&& cfgMask ∧ t.regs.rxCfg = drawAt s 22 &&& cfgMask ∧
        t.regs.intrStatus = drawAt s 14 &&& definedStatus) ∧
      (cfg.stopReading = .kept → t.regs.txCfg = cfg.txCfg ∧ t.regs.rxCfg = cfg.rxCfg ∧ t.regs.intrStatus = 0) := by
  obtain ⟨t, hreset, ht, hdraw, hstatus, htxCfg, hrxCfg, hgmii⟩ := exists_resetSeq hhandle hopen hparams hops
  have hmask := hostTurns_writes (ws := [(.intrMask, 0)]) rfl (ht.windowOpen hopen) (ht.regHandle hhandle) ht.ops
  obtain ⟨u, hpulse, hu, hgmii', hredrawn, hkept⟩ := exists_stopPulseOp (cfg := cfg)
    (s := afterWrites [stopPulseOp cfg, .wr32 .intrControl 0, .point .stopDone] [(.intrMask, 0)] t) (ht.regHandle hhandle)
    (ht.windowOpen hopen) rfl
  have hquiet : Quieted [.point .stopDone] t u := { hu with }
  refine ⟨u, (hostTurns_add hreset).trans ((hostTurns_add hmask).trans
    ((hostTurns_add hpulse).trans (hostTurns_one (hostTurn_stopDone hu.ops)))), ht.trans hquiet, hgmii'.trans hgmii,
    fun hreading => ?_, fun hreading => ?_⟩
  · rw [← hdraw 9, ← hdraw 10, ← hdraw 2]
    exact hredrawn hreading
  · obtain ⟨htx, hrx, d, hd⟩ := hkept hreading
    exact ⟨htx.trans htxCfg, hrx.trans hrxCfg, hd.trans ((congrArg (d &&& ·) hstatus).trans BitVec.and_zero)⟩

/-- Settles O49: STOP's second pulse from any state, and STOP from its call. -/
theorem stopResult : Obligations.StopResult := by
  intro s
  refine ⟨fun hops hhandle => ?_, fun hhandle hopen hops => ?_, fun hops hhandle hopen hparams => ?_⟩
  · exact (whenIdle_idle hops _).trans (withHandle_unset hhandle _)
  · obtain ⟨t, hrun, ht, hgmii, htxCfg, hrxCfg, d, hstatus⟩ := exists_stopPulse hhandle hopen hops
    refine ⟨stopped t, (hostTurns_add hrun).trans (hostTurns_one (hostTurn_stopDone ht.ops)), rfl, htxCfg, hrxCfg, hgmii,
      fun k _ hbit => ?_⟩
    have hboth : (d &&& s.regs.intrStatus).getLsbD k = true := hstatus ▸ hbit
    rw [BitVec.getLsbD_and, Bool.and_eq_true] at hboth
    exact hboth.2
  · obtain ⟨t, hrun, ht, hgmii, hredrawn, hkept⟩ := exists_stopOps (s := { s with ops := stopOps s.cfg, ret := none })
      hhandle hopen hparams rfl
    refine ⟨_, stopped t, (whenIdle_idle hops _).trans (withHandle_set hhandle _), rfl, fun hreading => ?_, hrun, rfl, rfl,
      congrArg Engine.en ht.tx, congrArg Engine.kick ht.tx, congrArg Engine.en ht.rx, congrArg Engine.kick ht.rx,
      congrArg Miic.busy ht.miic, congrArg Miic.rdata ht.miic, congrArg Eec.busy ht.eec, congrArg Eec.rdata ht.eec,
      ht.intrMask, ht.intrControl, hgmii, ht.softPhase, ht.mem, ht.marks, congrArg stoppedContext ht.ctx, hredrawn, hkept⟩
    rw [stopPulseOp, hreading]
    rfl

end Sys2Proof.Machine
end

section
/-!
PROOFS of the family 45_mac_register_engine, the receive filter and the station address: SET_FILTER (R810, R811), and
ProgramSA in SET_SA and in INIT (R812, R809).
-/
namespace Sys2Proof.Machine

/-! ### The filter word -/

theorem getLsbD_rxfMask : ∀ k < 32, rxfMask.getLsbD k = decide (8 ≤ k ∧ k ≤ 11) := by decide

/-- R810: the flags' bits. -/
theorem getLsbD_filterBits : ∀ promisc multi broad : Bool,
    (∀ k < 32, k < 8 ∨ 11 < k → (filterBits promisc multi broad).getLsbD k = false) ∧
      (filterBits promisc multi broad).getLsbD 8 = promisc ∧ (filterBits promisc multi broad).getLsbD 9 = true ∧
      (filterBits promisc multi broad).getLsbD 10 = (promisc || multi) ∧
      (filterBits promisc multi broad).getLsbD 11 = (promisc || broad) := by decide

/-- R810: the four accept bits are cleared before the new ones are put in. -/
theorem getLsbD_replaceFilter (old bits : Word) {k : Nat} (hk : k < 32) :
    ((old &&& ~~~rxfMask) ||| bits).getLsbD k = (old.getLsbD k && !decide (8 ≤ k ∧ k ≤ 11) || bits.getLsbD k) := by
  rw [BitVec.getLsbD_or, BitVec.getLsbD_and, BitVec.getLsbD_not, getLsbD_rxfMask k hk, decide_eq_true hk, Bool.true_and]

/-- R811: the writes of the word at 0x60 and of both hash tables. -/
def filterWrites (v : Word) : List (Reg × Word) :=
  [(.rxMacControl, v), (.rxHashTable0, 0xFFFFFFFF), (.rxHashTable1, 0xFFFFFFFF)]

/-- A point of a sequence, by what it leaves. -/
theorem hostTurn_point {s t : State} {p : HostPoint} {rest : List HostOp} (hops : s.ops = .point p :: rest)
    (hpoint : runPoint p { s with ops := rest } = .next t) : hostTurn s = .next t :=
  (hostTurn_of_ops hops).trans hpoint

section
variable {s : State} {rest : List HostOp} (hhandle : s.ctx.regHandle ≠ none) (hopen : windowOpen s = true)
include hhandle hopen

/-- R810, R812: HOST reads the word at 0x60, and what follows is made from it. -/
theorem hostTurns_readFilter {p : HostPoint} {next : Word → List HostOp}
    (hpoint : ∀ t, runPoint p t = .next (pushOps (next t.hostT) t)) (hops : s.ops = .rd32 .rxMacControl :: .point p :: rest) :
    hostTurns 2 s = .next { s with hostT := s.regs.rxMac, ops := next s.regs.rxMac ++ rest } :=
  (hostTurns_succ (hostTurn_rd32_open hopen hhandle rfl hops)).trans (hostTurns_one (hostTurn_point rfl (hpoint _)))

/-- R811. -/
theorem hostTurns_filterWrites {v : Word} (hops : s.ops = (filterWrites v).map writeOp ++ rest) :
    hostTurns 3 s = .next { s with
      regs.rxMac := v, regs.hash0 := 0xFFFFFFFF, regs.hash1 := 0xFFFFFFFF, ops := rest } := by
  refine (hostTurns_writes (ws := filterWrites v) rfl hopen hhandle hops).trans ?_
  simp only [filterWrites, afterWrites, writeEffect]

/-- R810, R811: SET_FILTER's six turns. -/
theorem hostTurns_setFilter {bits : Word} (hops : s.ops = [.rd32 .rxMacControl, .point (.filterWrite bits)]) :
    hostTurns 6 s = .next { s with
      regs.rxMac := (s.regs.rxMac &&& ~~~rxfMask) ||| bits, regs.hash0 := 0xFFFFFFFF, regs.hash1 := 0xFFFFFFFF
      hostT := s.regs.rxMac, ops := [], ret := some .done } := by
  have hread := hostTurns_readFilter hhandle hopen (p := .filterWrite bits)
    (next := fun v => (filterWrites ((v &&& ~~~rxfMask) ||| bits)).map writeOp ++ [.point (.finish .done)])
    (fun _ => rfl) hops
  rw [hostTurns_add (n := 4) hread]
  refine (hostTurns_add (n := 1) (hostTurns_filterWrites (v := (s.regs.rxMac &&& ~~~rxfMask) ||| bits)
    (rest := [.point (.finish .done)]) ?_ ?_ rfl)).trans (hostTurns_one (hostTurn_point rfl rfl))
  · exact hhandle
  · exact hopen

end

/-- Settles O45: the word that the six turns write has the flags' bits for the four accept bits, and the old ones besides. -/
theorem setFilterResult : Obligations.SetFilterResult := by
  intro s promisc multi broad hops
  refine ⟨fun hhandle => (whenIdle_idle hops _).trans (withHandle_unset hhandle _), fun hhandle hopen => ?_⟩
  obtain ⟨hout, h8, h9, h10, h11⟩ := getLsbD_filterBits promisc multi broad
  have hbit (k : Nat) (hk : k < 32) := getLsbD_replaceFilter s.regs.rxMac (filterBits promisc multi broad) hk
  refine ⟨_, _, (whenIdle_idle hops _).trans (withHandle_set hhandle _),
    hostTurns_setFilter (bits := filterBits promisc multi broad) ?_ ?_ rfl, ?_, fun k hk hkept => ?_, ?_, ?_, ?_, ?_⟩
  · exact hhandle
  · exact hopen
  · rw [hops]
  · rw [hbit k hk, hout k hk hkept, decide_eq_false (by omega), Bool.not_false, Bool.and_true, Bool.or_false]
  · rw [hbit 8 (by decide), h8, decide_eq_true (by decide), Bool.not_true, Bool.and_false, Bool.false_or]
  · rw [hbit 9 (by decide), h9, Bool.or_true]
  · rw [hbit 10 (by decide), h10, decide_eq_true (by decide), Bool.not_true, Bool.and_false, Bool.false_or]
  · rw [hbit 11 (by decide), h11, decide_eq_true (by decide), Bool.not_true, Bool.and_false, Bool.false_or]

/-! ### The bytes of the station address -/

/-- R114, R115: a byte of the station address in its place in the reference layout. -/
def writeStationByte (i : Nat) (b : Byte) (s : State) : State :=
  { s with
    regs.rxMac := if i < 2 then setLane s.regs.rxMac (2 + i) b else s.regs.rxMac
    regs.rxMacAddr25 := if i < 2 then s.regs.rxMacAddr25 else setLane s.regs.rxMacAddr25 (i - 2) b }

/-- R402: in an open window, and for a REGMAP of the spec, a byte write is a write of that byte. -/
theorem regWrite8_open_of_ok {s : State} (hopen : windowOpen s = true) (hok : s.cfg.regMap.ok = true) {i : Nat}
    (hi : i < 6) (b : Byte) : regWrite8 i b s = writeStationByte i b s := by
  by_cases hlow : i < 2
  · have hlane := writeLane_sa01 hok (BitVec.ofNat 1 i) b s.regs.rxMac
    rw [BitVec.toNat_ofNat, Nat.mod_eq_of_lt hlow] at hlane
    rw [regWrite8_open_of_lt_two hopen hlow, hlane, writeStationByte, if_pos hlow, if_pos hlow]
  · have hlane := writeLane_sa25 hok (BitVec.ofNat 2 (i - 2)) b s.regs.rxMacAddr25
    rw [BitVec.toNat_ofNat, Nat.mod_eq_of_lt (by omega), Nat.add_sub_cancel' (by omega)] at hlane
    rw [regWrite8_open_of_two_le hopen (by omega) hi, hlane, writeStationByte, if_neg hlow, if_neg hlow]

/-- R812: the writes of station-address bytes from byte i on. -/
def byteOps : Nat → List Byte → List HostOp
  | _, [] => []
  | i, b :: bs => .wr8 i b :: byteOps (i + 1) bs

/-- The state when HOST has made them and `rest` is left of its sequence. -/
def afterBytes (rest : List HostOp) : Nat → List Byte → State → State
  | _, [], s => { s with ops := rest }
  | i, b :: bs, s => afterBytes rest (i + 1) bs (writeStationByte i b { s with ops := byteOps (i + 1) bs ++ rest })

theorem hostTurns_bytes {rest : List HostOp} {i : Nat} {bs : List Byte} {s : State} (hhandle : s.ctx.regHandle ≠ none)
    (hopen : windowOpen s = true) (hok : s.cfg.regMap.ok = true) (hlen : i + bs.length ≤ 6)
    (hops : s.ops = byteOps i bs ++ rest) : hostTurns bs.length s = .next (afterBytes rest i bs s) := by
  induction bs generalizing i s with
  | nil => rw [List.length_nil, hostTurns_zero, afterBytes, ← show s.ops = rest from hops]
  | cons b bs ih =>
    rw [List.length_cons] at hlen
    have hturn : hostTurn s = .next (writeStationByte i b { s with ops := byteOps (i + 1) bs ++ rest }) := by
      rw [hostTurn_of_ops hops]
      refine (runOp_wr8 (s := { s with ops := byteOps (i + 1) bs ++ rest }) hhandle i b).trans (congrArg _ ?_)
      exact regWrite8_open_of_ok (s := { s with ops := byteOps (i + 1) bs ++ rest }) hopen hok (by omega) b
    rw [List.length_cons, hostTurns_succ hturn]
    refine ih ?_ ?_ ?_ (by omega) rfl
    · exact hhandle
    · exact hopen
    · exact hok

/-- R114: bytes 0 and 1 stand above the filter bits. -/
theorem setLane_low_bytes (v : Word) (b0 b1 : Byte) :
    setLane (setLane v 2 b0) 3 b1 = b1 ++ b0 ++ v.extractLsb' 0 16 := by
  refine BitVec.eq_of_getLsbD_eq fun k hk => ?_
  rw [getLsbD_setLane _ _ (by decide), getLsbD_setLane _ _ (by decide), BitVec.getLsbD_append, BitVec.getLsbD_append,
    BitVec.getLsbD_extractLsb', Nat.zero_add]
  by_cases h16 : k < 16
  · rw [if_neg (by omega), if_neg (by omega), if_pos h16, decide_eq_true h16, Bool.true_and]
  · by_cases h24 : k < 24
    · rw [if_neg (by omega), if_pos (by omega), if_neg h16, if_pos (by omega)]
    · rw [if_pos (by omega), if_neg h16, if_neg (by omega), Nat.sub_sub]

/-- R115: bytes 2 to 5 fill their word. -/
theorem setLane_high_bytes (v : Word) (b2 b3 b4 b5 : Byte) :
    setLane (setLane (setLane (setLane v 0 b2) 1 b3) 2 b4) 3 b5 = b5 ++ b4 ++ b3 ++ b2 := by
  rw [← wordOfBytes_byteOfWord (setLane _ 3 b5)]
  simp (disch := decide) only [byteOfWord_setLane, if_pos, if_neg]
  rfl

/-! ### ProgramSA -/

/-- R812: the first read of the word at 0x60, and its write with the four accept bits 0. -/
def saFilterOff (s : State) : State := { s with hostT := s.regs.rxMac, regs.rxMac := s.regs.rxMac &&& ~~~rxfMask }

/-- R812: the six byte writes. -/
def saBytesWritten (a : StationAddr) (s : State) : State :=
  { s with
    regs.rxMac := setLane (setLane s.regs.rxMac 2 a.b0) 3 a.b1
    regs.rxMacAddr25 := setLane (setLane (setLane (setLane s.regs.rxMacAddr25 0 a.b2) 1 a.b3) 2 a.b4) 3 a.b5 }

/-- R811, R812: the second read, the write with own-address and broadcast filtering on, the hash tables and the record. -/
def saFilterOn (a : StationAddr) (s : State) : State :=
  { s with
    hostT := s.regs.rxMac, regs.rxMac := (s.regs.rxMac &&& ~~~rxfMask) ||| 0x00000A00#32
    regs.hash0 := 0xFFFFFFFF, regs.hash1 := 0xFFFFFFFF, ctx.stationAddress := some a }

/-- R812: what ProgramSA leaves. -/
def saProgrammed (a : StationAddr) (s : State) : State := saFilterOn a (saBytesWritten a (saFilterOff s))

section
variable {s : State} {rest : List HostOp} (hhandle : s.ctx.regHandle ≠ none) (hopen : windowOpen s = true)
include hhandle hopen

theorem hostTurns_saFilterOff {a : StationAddr} (hops : s.ops = programSaOps a ++ rest) :
    hostTurns 3 s = .next { saFilterOff s with
      ops := byteOps 0 a.bytes ++ ([.rd32 .rxMacControl, .point (.saEnable a)] ++ rest) } := by
  have hread := hostTurns_readFilter hhandle hopen (p := .saDisable a)
    (next := fun v => .wr32 .rxMacControl (v &&& ~~~rxfMask) :: byteOps 0 a.bytes ++
      [.rd32 .rxMacControl, .point (.saEnable a)]) (fun _ => rfl) hops
  rw [hostTurns_add (n := 1) hread]
  refine hostTurns_one (hostTurn_wr32_open (r := .rxMacControl) (v := s.regs.rxMac &&& ~~~rxfMask)
    (rest := byteOps 0 a.bytes ++ ([.rd32 .rxMacControl, .point (.saEnable a)] ++ rest)) ?_ ?_ rfl)
  · exact hopen
  · exact hhandle

theorem hostTurns_saBytesWritten (hok : s.cfg.regMap.ok = true) {a : StationAddr} (hops : s.ops = byteOps 0 a.bytes ++ rest) :
    hostTurns 6 s = .next { saBytesWritten a s with ops := rest } := by
  refine (hostTurns_bytes (bs := a.bytes) hhandle hopen hok (Nat.le_refl 6) hops).trans ?_
  simp only [StationAddr.bytes, afterBytes, writeStationByte, saBytesWritten, Nat.reduceLT, Nat.reduceAdd, Nat.reduceSub,
    if_true, if_false]

theorem hostTurns_saFilterOn {a : StationAddr} (hops : s.ops = [.rd32 .rxMacControl, .point (.saEnable a)] ++ rest) :
    hostTurns 6 s = .next { saFilterOn a s with ops := rest } := by
  have hread := hostTurns_readFilter hhandle hopen (p := .saEnable a)
    (next := fun v => (filterWrites ((v &&& ~~~rxfMask) ||| 0x00000A00#32)).map writeOp ++ [.point (.saRecord a)])
    (fun _ => rfl) hops
  rw [hostTurns_add (n := 4) hread]
  refine (hostTurns_add (n := 1) (hostTurns_filterWrites (v := (s.regs.rxMac &&& ~~~rxfMask) ||| 0x00000A00#32)
    (rest := .point (.saRecord a) :: rest) ?_ ?_ rfl)).trans (hostTurns_one (hostTurn_point rfl rfl))
  · exact hhandle
  · exact hopen

/-- R812: ProgramSA's fifteen turns. -/
theorem hostTurns_programSa (hok : s.cfg.regMap.ok = true) {a : StationAddr} (hops : s.ops = programSaOps a ++ rest) :
    hostTurns 15 s = .next { saProgrammed a s with ops := rest } := by
  rw [hostTurns_add (n := 12) (hostTurns_saFilterOff hhandle hopen hops), hostTurns_add (n := 6)
    (hostTurns_saBytesWritten (a := a) (rest := [.rd32 .rxMacControl, .point (.saEnable a)] ++ rest) ?_ ?_ ?_ rfl)]
  · refine hostTurns_saFilterOn (rest := rest) ?_ ?_ rfl
    · exact hhandle
    · exact hopen
  · exact hhandle
  · exact hopen
  · exact hok

end

/-- R812: own-address and broadcast filtering on, the other filter bits kept, the address in its place. -/
theorem saProgrammed_regs (a : StationAddr) (s : State) :
    (saProgrammed a s).regs = { s.regs with
      rxMac := a.b1 ++ a.b0 ++ ((s.regs.rxMac.extractLsb' 0 16 &&& 0xF0FF) ||| 0x0A00)
      rxMacAddr25 := a.b5 ++ a.b4 ++ a.b3 ++ a.b2
      hash0 := 0xFFFFFFFF
      hash1 := 0xFFFFFFFF } := by
  have hlow : (~~~rxfMask).extractLsb' 0 16 = 0xF0FF#16 := by decide
  have hmask : ~~~rxfMask = BitVec.allOnes 8 ++ BitVec.allOnes 8 ++ 0xF0FF#16 := by decide
  have hbits : (0x00000A00#32 : Word) = 0#8 ++ 0#8 ++ 0x0A00#16 := by decide
  have hword : ((setLane (setLane (s.regs.rxMac &&& ~~~rxfMask) 2 a.b0) 3 a.b1) &&& ~~~rxfMask) ||| 0x00000A00#32 =
      a.b1 ++ a.b0 ++ ((s.regs.rxMac.extractLsb' 0 16 &&& 0xF0FF) ||| 0x0A00) := by
    rw [setLane_low_bytes, BitVec.extractLsb'_and, hlow, hmask, hbits, BitVec.and_append, BitVec.and_append, BitVec.or_append,
      BitVec.or_append, BitVec.and_allOnes, BitVec.and_allOnes, BitVec.or_zero, BitVec.or_zero, BitVec.and_assoc,
      BitVec.and_self]
    rfl
  rw [← hword, ← setLane_high_bytes s.regs.rxMacAddr25]
  rfl

/-- Settles O46: SET_SA is ProgramSA and its return, and INIT's point starts the same ProgramSA. -/
theorem setStationAddressResult : Obligations.SetStationAddressResult := by
  intro s a hops
  refine ⟨fun hnone => withField_unset hnone _ _, fun haddr => withField_set haddr _ _,
    fun hhandle => (whenIdle_idle hops _).trans (withHandle_unset hhandle _), fun hhandle hopen hok => ?_⟩
  have hrun := hostTurns_programSa (rest := [.point (.finish .done)])
    (s := { s with ops := programSaOps a ++ [.point (.finish .done)], ret := none }) hhandle hopen hok rfl
  refine ⟨_, _, (whenIdle_idle hops _).trans (withHandle_set hhandle _),
    (hostTurns_add hrun).trans (hostTurns_one (hostTurn_point rfl rfl)), rfl, rfl, saProgrammed_regs a _, rfl, rfl, rfl, rfl,
    rfl, rfl, rfl, fun haddr rest => ?_⟩
  have hstart : hostTurn { s with ops := .point .programStationAddress :: rest } =
      .next { s with ops := programSaOps a ++ rest } := hostTurn_point rfl (withField_set haddr _ _)
  rw [hostTurns_succ (n := 15) hstart]
  refine hostTurns_programSa (rest := rest) ?_ ?_ ?_ rfl
  · exact hhandle
  · exact hopen
  · exact hok

end Sys2Proof.Machine
end

section
/-!
PROOFS of the family 45_mac_register_engine, INIT: its guard and platform checks (R805, R806, R809), ResolveSA with its reads
of the EEPROM (R807, R470, R472), and its last accesses (R813, R814).
-/
namespace Sys2Proof.Machine

/-! ### The guard and the platform checks -/

/-- R805, R806: an idle HOST's INIT is its tests in their order, and its body behind them. -/
theorem exec_entryInit_idle {s : State} (hops : s.ops = []) :
    exec .entryInit s =
      if s.ctx.enabled = true then
        withField s.ctx.stationAddress .stationAddress (fun a => .next (finish (.okAddress a) s))
      else if s.cfg.devicePresent = false then .next (finish .errorNoDevice s)
      else if s.cfg.mapOk = false then .fault .mapFailed
      else .next { s with
        ctx.regHandle := some s.cfg.regBase, ctx.irqHandle := some s.cfg.irqLine, ops := initOps s.cfg, ret := none } := by
  refine (whenIdle_idle hops _).trans ?_
  simp only [Bool.not_eq_true', startOps]

/-- Settles O36: INIT's tests one after the other; `initOps` is the list. -/
theorem initGuardAndPlatformChecks : Obligations.InitGuardAndPlatformChecks := by
  intro s hops
  have hfinish (r : HostReturn) : finish r s = { s with ret := some r } := by rw [finish, ← hops]
  rw [exec_entryInit_idle hops]
  refine ⟨fun a henabled haddr => ?_, fun henabled habsent => ?_, fun henabled hpresent hmap => ?_,
    fun henabled hpresent hmap => ⟨_, (if_neg (ne_true_of_eq_false henabled)).trans
      ((if_neg (ne_false_of_eq_true hpresent)).trans (if_neg (ne_false_of_eq_true hmap))), rfl, rfl⟩⟩
  · rw [if_pos henabled, withField_set haddr, hfinish]
  · rw [if_neg (ne_true_of_eq_false henabled), if_pos habsent, hfinish]
  · rw [if_neg (ne_true_of_eq_false henabled), if_neg (ne_false_of_eq_true hpresent), if_pos hmap]

/-! ### INIT's last accesses -/

/-- R813, R814: the writes of EnableInterrupts and of EnableEngines. -/
def enableWrites (cfg : Config.Params) : List (Reg × Word) :=
  [(.intrStatus, 0xFFFFFFFF), (.intrMask, recognized), (.txControl, cfg.txCfg ||| 0x00000001),
    (.rxControl, cfg.rxCfg ||| 0x00000011)]

/-- R813, R814: what they leave, with both engines off before. -/
theorem afterWrites_enableWrites {s : State} (hparams : paramsOk s.cfg = true) (htx : s.tx.en = false)
    (hrx : s.rx.en = false) (rest : List HostOp) :
    afterWrites rest (enableWrites s.cfg) s =
      { s with
        regs.intrStatus := 0, regs.intrMask := recognized, regs.txCfg := s.cfg.txCfg, regs.rxCfg := s.cfg.rxCfg
        tx := { en := true, base := s.regs.txDescBase, ptr := 0, kick := false, idle := false }
        rx := { en := true, base := s.regs.rxDescBase, ptr := 0, kick := true, idle := false }
        ops := rest } := by
  obtain ⟨htxCfg, hrxCfg⟩ := paramsOk_cfg hparams
  have htxRise := engineControl_rise htxCfg htx s.regs.txDescBase (low := 0x00000001) (by decide)
  have hrxRise := engineControl_rise hrxCfg hrx s.regs.rxDescBase (low := 0x00000011) (by decide)
  have htxStored := or_and_cfgMask htxCfg (low := 0x00000001) (by decide)
  have hrxStored := or_and_cfgMask hrxCfg (low := 0x00000011) (by decide)
  simp only [enableWrites, afterWrites, writeEffect, ctlWrite, htxRise, hrxRise, htxStored, hrxStored, and_not_ones]
  rfl

/-- Settles O39: the four writes with both engines off, then the point that returns the address. -/
theorem initEnablesAndReturns : Obligations.InitEnablesAndReturns := by
  intro s a hops hhandle hopen hparams htx hrx haddr
  have hwrites := hostTurns_writes (ws := enableWrites s.cfg) (rest := [.point .initDone]) rfl hopen hhandle hops
  rw [afterWrites_enableWrites hparams htx hrx] at hwrites
  exact (hostTurns_add (n := 1) hwrites).trans (hostTurns_one (hostTurn_point rfl (withField_set haddr _ _)))

/-! ### The EEPROM reads of ResolveSA -/

/-- The turns of an EEPROM read and of the point behind it. -/
def eeReadTurns : List Config.Turn := [.host, .eec, .host, .host]

/-- What the turns after an operation of HOST's make of its outcome. -/
def thenTurns (turns : List Config.Turn) : Result → Result
  | .next t => runTurns turns t
  | .fault f => .fault f
  | .refused r => .refused r

theorem runTurns_cons (turn : Config.Turn) (turns : List Config.Turn) (s : State) :
    runTurns (turn :: turns) s = thenTurns turns (takeTurn turn s) := by
  rw [runTurns]
  cases takeTurn turn s <;> rfl

/-- HOST is at a place of ResolveSA, begun in s: the EEPROM controller is idle, `ops` is next, and of the state nothing else
than the Device Context matters, which is `c`. -/
structure Resolving (s : State) (c : Context) (ops : List HostOp) (t : State) : Prop where
  isOpen : windowOpen t = true
  handle : c.regHandle ≠ none
  idle   : t.eec.busy = false
  ops    : t.ops = ops
  ctx    : t.ctx = c
  cfg    : t.cfg = s.cfg
  mem    : t.mem = s.mem
  marks  : t.marks = s.marks

section
variable {s t : State} {c : Context} {rest : List HostOp}

theorem Resolving.setRgmii (h : Resolving s c rest t) (b : Bool) :
    Resolving s { c with rgmii := b } rest { t with ctx.rgmii := b } :=
  { h with ctx := congrArg (fun c : Context => { c with rgmii := b }) h.ctx }

theorem Resolving.setStationAddress (h : Resolving s c rest t) (a : StationAddr) :
    Resolving s { c with stationAddress := some a } rest { t with ctx.stationAddress := some a } :=
  { h with ctx := congrArg (fun c : Context => { c with stationAddress := some a }) h.ctx }

theorem Resolving.pushOps (h : Resolving s c rest t) (l : List HostOp) : Resolving s c (l ++ rest) (pushOps l t) :=
  { h with ops := congrArg (l ++ ·) h.ops }

/-- R468 to R470: HOST's command, the controller's completion and HOST's poll bring the EEPROM's word. -/
theorem Resolving.exists_read {w : BitVec 6} (h : Resolving s c (eeReadOps w.toNat ++ rest) t) :
    ∃ u, runTurns [.host, .eec, .host] t = .next u ∧ Resolving s c rest u ∧ u.hostD = eepromWord s.cfg w := by
  obtain ⟨hopen, hhandle, hidle, hops, rfl, hcfg, hmem, hmarks⟩ := h
  have hcommand := hostTurn_eeCmd_open hopen hhandle hidle w.isLt hops
  rw [runTurns_cons_next (t := .host) hcommand, runTurns_cons_next (takeTurn_eec_of_busy rfl),
    runTurns_cons_next (t := .host) (hostTurn_pollEe_open ?_ ?_ rfl rfl rfl)]
  · refine ⟨_, rfl, ⟨hopen, hhandle, rfl, rfl, rfl, hcfg, hmem, hmarks⟩, ?_⟩
    rw [BitVec.ofNat_toNat, BitVec.setWidth_eq, hcfg]
  · exact hopen
  · exact hhandle

/-- R807: a read, and the point that takes its word and decides what is next. -/
theorem Resolving.exists_read_point {w : BitVec 6} {p : HostPoint}
    (h : Resolving s c (eeReadOps w.toNat ++ .point p :: rest) t) :
    ∃ u, Resolving s c rest u ∧ u.hostD = eepromWord s.cfg w ∧
      ∀ turns, runTurns (eeReadTurns ++ turns) t = thenTurns turns (runPoint p u) := by
  obtain ⟨u, hrun, hu, hdata⟩ := h.exists_read
  refine ⟨{ u with ops := rest }, { hu with ops := rfl }, hdata, fun turns => ?_⟩
  have hpoint : takeTurn .host u = runPoint p { u with ops := rest } := hostTurn_of_ops hu.ops
  exact (runTurns_append_next (l' := .host :: turns) hrun).trans ((runTurns_cons ..).trans (hpoint ▸ rfl))

/-- R807: a read whose point goes on to the next read. -/
theorem Resolving.exists_read_pushOps {w : BitVec 6} {p : HostPoint} {l : List HostOp}
    (h : Resolving s c (eeReadOps w.toNat ++ .point p :: rest) t)
    (hpoint : ∀ u : State, u.cfg = s.cfg → u.hostD = eepromWord s.cfg w → runPoint p u = .next (Machine.pushOps l u)) :
    ∃ u, Resolving s c (l ++ rest) u ∧ ∀ turns, runTurns (eeReadTurns ++ turns) t = runTurns turns u := by
  obtain ⟨u, hu, hdata, hrun⟩ := h.exists_read_point
  refine ⟨_, hu.pushOps l, fun turns => ?_⟩
  rw [hrun, hpoint u hu.cfg hdata, thenTurns]

end

/-! ### ResolveSA -/

section
variable {s : State}

/-- R807: the override comes before any other address. -/
theorem saChoose_override {x : StationAddr} (henv : s.cfg.envSa = some x) (found : Option StationAddr) :
    saChoose found s = .next { s with ctx.stationAddress := some x } := by
  simp only [saChoose, henv]

theorem saChoose_found (henv : s.cfg.envSa = none) (a : StationAddr) :
    saChoose (some a) s = .next { s with ctx.stationAddress := some a } := by
  simp only [saChoose, henv]

theorem saChoose_apc (henv : s.cfg.envSa = none) : saChoose none s = .fault .unsupportedApc := by
  simp only [saChoose, henv]

/-- R807: ResolveSA's first turn, with the EEPROM for its source. -/
theorem hostTurn_resolveSa_eeprom {rest : List HostOp} (hops : s.ops = .point .resolveSa :: rest)
    (hsource : s.cfg.saSource = .eeprom) :
    hostTurn s = .next { s with
      ctx.rgmii := false, ops := eeReadOps s.cfg.eepromMap.signature.toNat ++ .point .saSignature :: rest } := by
  refine hostTurn_point hops ?_
  simp only [runPoint, hsource, pushOps, List.append_assoc, List.singleton_append]

/-- R807: ResolveSA's first turn on the APC path. -/
theorem hostTurn_resolveSa_apc {rest : List HostOp} (hops : s.ops = .point .resolveSa :: rest)
    (hsource : s.cfg.saSource = .apc) : hostTurn s = saChoose none { s with ctx.rgmii := false, ops := rest } := by
  rw [hostTurn_of_ops hops]
  simp only [runOp, runPoint, hsource]

/-- R807: the point behind the signature, for a valid one and for an invalid one. -/
theorem runPoint_saSignature_valid (hzero : s.hostD ≠ 0x0000) (hones : s.hostD ≠ 0xFFFF) :
    runPoint .saSignature s = .next (pushOps (eeReadOps s.cfg.eepromMap.board.toNat ++ [.point .saBoard]) s) :=
  if_neg (not_or.2 ⟨hzero, hones⟩)

theorem runPoint_saSignature_invalid (h : s.hostD = 0x0000 ∨ s.hostD = 0xFFFF) :
    runPoint .saSignature s = saChoose none s :=
  if_pos h

/-- R807: the point behind the board word, without an override and with one. -/
theorem runPoint_saBoard_eeprom {m : Config.EepromMap} {b : Bool} (hmap : s.cfg.eepromMap = m)
    (hflag : s.hostD.getLsbD m.rgmii = b) (henv : s.cfg.envSa = none) :
    runPoint .saBoard s =
      .next (pushOps (eeReadOps m.sa01.toNat ++ [.point (.saWord 0 [])]) { s with ctx.rgmii := b }) := by
  subst hmap hflag
  simp only [runPoint, henv, saWordAt]

theorem runPoint_saBoard_override {m : Config.EepromMap} {b : Bool} {x : StationAddr} (hmap : s.cfg.eepromMap = m)
    (hflag : s.hostD.getLsbD m.rgmii = b) (henv : s.cfg.envSa = some x) :
    runPoint .saBoard s = .next { s with ctx.rgmii := b, ctx.stationAddress := some x } := by
  subst hmap hflag
  simp only [runPoint, henv, saChoose]

end

/-- R472: the station address that three words of the EEPROM hold. -/
def eepromAddress (cfg : Config.Params) : StationAddr :=
  let m := cfg.eepromMap
  ⟨(eepromWord cfg m.sa01).extractLsb' m.evenByte 8, (eepromWord cfg m.sa01).extractLsb' m.oddByte 8,
    (eepromWord cfg m.sa23).extractLsb' m.evenByte 8, (eepromWord cfg m.sa23).extractLsb' m.oddByte 8,
    (eepromWord cfg m.sa45).extractLsb' m.evenByte 8, (eepromWord cfg m.sa45).extractLsb' m.oddByte 8⟩

section
variable {s : State} {rest : List HostOp}

/-- R807, R472: the reads of the three address words. -/
theorem Resolving.exists_address {c : Context} {t : State} (henv : s.cfg.envSa = none)
    (h : Resolving s c (eeReadOps s.cfg.eepromMap.sa01.toNat ++ .point (.saWord 0 []) :: rest) t) :
    ∃ u, runTurns (eeReadTurns ++ (eeReadTurns ++ (eeReadTurns ++ []))) t = .next u ∧
      Resolving s { c with stationAddress := some (eepromAddress s.cfg) } rest u := by
  let m := s.cfg.eepromMap
  let bytes01 := saBytes m (eepromWord s.cfg m.sa01)
  let bytes23 := saBytes m (eepromWord s.cfg m.sa23)
  obtain ⟨t1, h1, hrun1⟩ := h.exists_read_pushOps (l := eeReadOps m.sa23.toNat ++ [.point (.saWord 1 bytes01)])
    fun u hcfg hdata => by rw [runPoint, hdata, hcfg]; rfl
  rw [List.append_assoc] at h1
  obtain ⟨t2, h2, hrun2⟩ := h1.exists_read_pushOps
    (l := eeReadOps m.sa45.toNat ++ [.point (.saWord 2 (bytes01 ++ bytes23))])
    fun u hcfg hdata => by rw [runPoint, hdata, hcfg]; rfl
  rw [List.append_assoc] at h2
  obtain ⟨t3, h3, hdata, hrun3⟩ := h2.exists_read_point
  have hpoint : runPoint (.saWord 2 (bytes01 ++ bytes23)) t3 = saChoose (some (eepromAddress s.cfg)) t3 := by
    rw [runPoint, hdata, h3.cfg]
    rfl
  refine ⟨_, ?_, h3.setStationAddress (eepromAddress s.cfg)⟩
  rw [hrun1, hrun2, hrun3, hpoint, saChoose_found (h3.cfg.symm ▸ henv), thenTurns, runTurns]

section
variable (hops : s.ops = .point .resolveSa :: rest) (hhandle : s.ctx.regHandle ≠ none) (hopen : windowOpen s = true)
  (hidle : s.eec.busy = false) (hsource : s.cfg.saSource = .eeprom)
include hops hhandle hopen hidle hsource

/-- R807: ResolveSA has read the signature. -/
theorem exists_signature :
    ∃ t, Resolving s { s.ctx with rgmii := false } rest t ∧ t.hostD = eepromWord s.cfg s.cfg.eepromMap.signature ∧
      ∀ turns, runTurns (.host :: (eeReadTurns ++ turns)) s = thenTurns turns (runPoint .saSignature t) := by
  have hbegun : Resolving s { s.ctx with rgmii := false }
      (eeReadOps s.cfg.eepromMap.signature.toNat ++ .point .saSignature :: rest)
      { s with
        ctx.rgmii := false, ops := eeReadOps s.cfg.eepromMap.signature.toNat ++ .point .saSignature :: rest } :=
    ⟨hopen, hhandle, hidle, rfl, rfl, rfl, rfl, rfl⟩
  obtain ⟨t, ht, hdata, hrun⟩ := hbegun.exists_read_point
  exact ⟨t, ht, hdata, fun turns =>
    (runTurns_cons_next (t := .host) (hostTurn_resolveSa_eeprom hops hsource)).trans (hrun turns)⟩

/-- R807: behind a valid signature ResolveSA has read the board word. -/
theorem exists_board (hzero : eepromWord s.cfg s.cfg.eepromMap.signature ≠ 0x0000)
    (hones : eepromWord s.cfg s.cfg.eepromMap.signature ≠ 0xFFFF) :
    ∃ t, Resolving s { s.ctx with rgmii := false } rest t ∧ t.hostD = eepromWord s.cfg s.cfg.eepromMap.board ∧
      ∀ turns, runTurns (.host :: (eeReadTurns ++ (eeReadTurns ++ turns))) s = thenTurns turns (runPoint .saBoard t) := by
  obtain ⟨t, ht, hsignature, hrun⟩ := exists_signature hops hhandle hopen hidle hsource
  rw [← hsignature] at hzero hones
  have hnext := ht.pushOps (eeReadOps s.cfg.eepromMap.board.toNat ++ [.point .saBoard])
  rw [List.append_assoc] at hnext
  obtain ⟨u, hu, hboard, hrun'⟩ := hnext.exists_read_point
  refine ⟨u, hu, hboard, fun turns => ?_⟩
  rw [hrun, runPoint_saSignature_valid hzero hones, thenTurns, ht.cfg, hrun']

end

end

/-- Settles O38: the source, the signature and the override decide ResolveSA's way. -/
theorem stationAddressResolved : Obligations.StationAddressResolved := by
  rintro s rest m rfl hops hhandle hopen hidle
  refine ⟨fun hsource hzero hones => ?_, fun hsource hinvalid => ?_, fun hsource => ?_⟩
  · obtain ⟨t, ht, hboard, hrun⟩ := exists_board hops hhandle hopen hidle hsource hzero hones
    have hmap : t.cfg.eepromMap = s.cfg.eepromMap := congrArg _ ht.cfg
    have hflag := congrArg (·.getLsbD s.cfg.eepromMap.rgmii) hboard
    have hrgmii := ht.setRgmii ((eepromWord s.cfg s.cfg.eepromMap.board).getLsbD s.cfg.eepromMap.rgmii)
    refine ⟨fun henv => ?_, fun x henv => ?_⟩
    · have hnext := hrgmii.pushOps (eeReadOps s.cfg.eepromMap.sa01.toNat ++ [.point (.saWord 0 [])])
      rw [List.append_assoc] at hnext
      obtain ⟨u, hread, hend⟩ := hnext.exists_address henv
      refine ⟨u, (hrun _).trans ?_, hend.ops, hend.ctx, hend.mem, hend.marks⟩
      rw [runPoint_saBoard_eeprom hmap hflag (ht.cfg.symm ▸ henv)]
      exact hread
    · have hend := hrgmii.setStationAddress x
      refine ⟨_, (hrun []).trans ?_, hend.ops, hend.ctx, hend.mem, hend.marks⟩
      rw [runPoint_saBoard_override hmap hflag (ht.cfg.symm ▸ henv)]
      rfl
  · obtain ⟨t, ht, hsignature, hrun⟩ := exists_signature hops hhandle hopen hidle hsource
    rw [← hsignature] at hinvalid
    have hall := (hrun []).trans (congrArg (thenTurns []) (runPoint_saSignature_invalid hinvalid))
    refine ⟨fun henv => ?_, fun x henv => ?_⟩
    · rw [saChoose_apc (ht.cfg.symm ▸ henv)] at hall
      exact hall
    · rw [saChoose_override (ht.cfg.symm ▸ henv)] at hall
      have hend := ht.setStationAddress x
      exact ⟨_, hall, hend.ops, hend.ctx, hend.mem, hend.marks⟩
  · have hturn := hostTurn_resolveSa_apc hops hsource
    exact ⟨fun x henv => hturn.trans (saChoose_override (s := { s with ctx.rgmii := false, ops := rest }) henv _),
      fun henv => hturn.trans (saChoose_apc (s := { s with ctx.rgmii := false, ops := rest }) henv)⟩

end Sys2Proof.Machine
end

section
/-!
PROOFS of the family 60_exceptions: over every step the marks only grow, a removed device stays removed and the run's
parameters are fixed (R901, R124, R3).
-/
namespace Sys2Proof.Machine

/-- The marks grow, a removal stays and the parameters are fixed (R901, R124, R3). -/
structure PermanentKept (s t : State) : Prop where
  marks   : ∃ more, t.marks = s.marks ++ more
  removed : s.removed = true → t.removed = true
  cfg     : t.cfg = s.cfg

theorem PermanentKept.of_eq {s t : State} (hmarks : t.marks = s.marks) (hremoved : t.removed = s.removed)
    (hcfg : t.cfg = s.cfg) : PermanentKept s t :=
  ⟨⟨[], by rw [hmarks, List.append_nil]⟩, fun h => hremoved.trans h, hcfg⟩

theorem PermanentKept.refl (s : State) : PermanentKept s s := .of_eq rfl rfl rfl

theorem PermanentKept.trans {s t u : State} (h : PermanentKept s t) (h' : PermanentKept t u) : PermanentKept s u := by
  obtain ⟨first, hfirst⟩ := h.marks
  obtain ⟨later, hlater⟩ := h'.marks
  exact ⟨⟨first ++ later, by rw [hlater, hfirst, List.append_assoc]⟩, fun hs => h'.removed (h.removed hs),
    h'.cfg.trans h.cfg⟩

/-! ### What each frame says of them -/

theorem WindowFrame.permanentKept {s t : State} (h : WindowFrame s t) : PermanentKept s t :=
  ⟨h.marks, fun hs => h.removed.trans hs, h.cfg⟩

theorem TxVisitFrame.permanentKept {s t : State} (h : TxVisitFrame s t) : PermanentKept s t := by
  rw [h.fields]
  exact .of_eq rfl rfl rfl

theorem RxVisitFrame.permanentKept {s t : State} (h : RxVisitFrame s t) : PermanentKept s t := by
  rw [h.fields]
  exact .of_eq rfl rfl rfl

theorem PointFrame.permanentKept {s t : State} (h : PointFrame s t) : PermanentKept s t := by
  have hmarks := h.marks
  rw [h.fields]
  exact ⟨hmarks, id, rfl⟩

theorem HostMemFrame.permanentKept {s t : State} (h : HostMemFrame s t) : PermanentKept s t := by
  have hmarks := h.marks
  rw [h.fields]
  exact ⟨hmarks, id, rfl⟩

theorem PollFrame.permanentKept {s t : State} (h : PollFrame s t) : PermanentKept s t := by
  have hmarks := h.marks
  rw [h.fields]
  exact ⟨hmarks, id, rfl⟩

/-! ### HOST's turn -/

theorem exec_permanentKept {i : Instr} {s t : State} (h : exec i s = .next t) : PermanentKept s t := by
  obtain haccess | htx | hrx | ⟨-, hpoint⟩ := exec_cases h
  · exact haccess.frame.permanentKept
  · exact htx.permanentKept
  · exact hrx.permanentKept
  · exact hpoint.permanentKept

theorem runOp_permanentKept {op : HostOp} {s t : State} (h : runOp op s = .next t) : PermanentKept s t := by
  obtain haccess | hmem | hpoll | hpoint := runOp_cases h
  · exact haccess.permanentKept
  · exact hmem.permanentKept
  · exact hpoll.permanentKept
  · exact hpoint.permanentKept

/-- R317: an operation is run, or refused with a mark, with the program moved past it. -/
theorem fetchHost_permanentKept {s t : State} (h : fetchHost s = .next t) : PermanentKept s t := by
  have hmoved : ∀ rest, PermanentKept s { s with prog := rest } := fun _ => .of_eq rfl rfl rfl
  unfold fetchHost at h
  split at h
  · split at h
    · exact (hmoved _).trans (exec_permanentKept h)
    · cases h
  · split at h
    · cases h; exact (hmoved _).trans (WindowFrame.of_refuse _ _).permanentKept
    · cases h; exact (hmoved _).trans (rejectAccess_frame _ _).permanentKept
    · cases h

/-- R11, R912: HOST goes on with its entry point, takes a delivered interrupt, or turns to its program. -/
theorem hostTurn_permanentKept {s t : State} (h : hostTurn s = .next t) : PermanentKept s t := by
  cases hops : s.ops with
  | cons op rest =>
    have htaken : PermanentKept s { s with ops := rest } := .of_eq rfl rfl rfl
    exact htaken.trans (runOp_permanentKept (hostTurn_of_ops hops ▸ h))
  | nil =>
    cases hirq : s.irqPending with
    | true => exact exec_permanentKept (hostTurn_of_pending hops hirq ▸ h)
    | false =>
      rw [hostTurn_of_prog hops hirq] at h
      split at h
      · cases h; exact .refl s
      · exact fetchHost_permanentKept h

/-! ### The turns of the device and of the environment -/

theorem miiComplete_permanentKept (s : State) : PermanentKept s (miiComplete s) := by
  obtain ⟨-, heq⟩ | ⟨-, _, _, heq⟩ := miiComplete_cases s <;> rw [heq]
  · exact .refl s
  · exact .of_eq rfl rfl rfl

theorem eeComplete_permanentKept (s : State) : PermanentKept s (eeComplete s) := by
  obtain ⟨-, heq⟩ | ⟨-, heq⟩ := eeComplete_cases s <;> rw [heq]
  · exact .refl s
  · exact .of_eq rfl rfl rfl

theorem frameArrives_permanentKept (f : Config.Frame) (s : State) : PermanentKept s (frameArrives f s) := by
  unfold frameArrives
  split
  · exact .of_eq rfl rfl rfl
  · exact .refl s

theorem takeInterrupt_permanentKept (s : State) : PermanentKept s (takeInterrupt s) := .of_eq rfl rfl rfl

theorem setStatus_permanentKept (bits : Word) (s : State) : PermanentKept s (setStatus bits s) := .of_eq rfl rfl rfl

theorem deliverTurn_permanentKept (s : State) : PermanentKept s (deliverTurn s) := by
  unfold deliverTurn
  split
  · exact takeInterrupt_permanentKept s
  · exact .refl s

theorem spuriousTurn_permanentKept (s : State) : PermanentKept s (spuriousTurn s) := by
  rw [spuriousTurn_eq]
  split
  · exact takeInterrupt_permanentKept s
  · exact .refl s

/-- R124: the event of the bus sets removed, also where it is set already. -/
theorem remove_permanentKept (s : State) : PermanentKept s { s with removed := true } :=
  ⟨⟨[], (List.append_nil _).symm⟩, fun _ => rfl, rfl⟩

/-! ### Every turn -/

/-- R10: a turn that does something is one that an agent takes itself: a fair agent's turn is its own. -/
theorem takeTurn_cases_not_fair {turn : Config.Turn} {s t : State} (h : takeTurn turn s = .next t) :
    t = s ∨ ∃ own : Config.Turn, (∀ a, own ≠ .fair a) ∧ takeTurn own s = .next t := by
  by_cases hagent : ∃ a, turn = .fair a
  · obtain ⟨a, rfl⟩ := hagent
    obtain hstill | ⟨own, -, hown, hfair⟩ := fairTurn_cases a s
    · cases hstill.symm.trans h; exact .inl rfl
    · exact .inr ⟨own, hfair, hown.symm.trans h⟩
  · exact .inr ⟨turn, not_exists.mp hagent, h⟩

theorem takeTurn_permanentKept_of_not_fair {turn : Config.Turn} {s t : State} (hfair : ∀ a, turn ≠ .fair a)
    (h : takeTurn turn s = .next t) : PermanentKept s t := by
  cases turn
  case host => exact hostTurn_permanentKept h
  case txdma => exact (txTurn_frame h).permanentKept
  case rxdma => exact (rxTurn_frame h).permanentKept
  case miic => cases h; exact miiComplete_permanentKept s
  case eec => cases h; exact eeComplete_permanentKept s
  case frame f => cases h; exact frameArrives_permanentKept f s
  case link | irqBits => cases h; exact setStatus_permanentKept _ s
  case remove => cases h; exact remove_permanentKept s
  case deliver => cases h; exact deliverTurn_permanentKept s
  case spurious => cases h; exact spuriousTurn_permanentKept s
  case fair a => exact absurd rfl (hfair a)

theorem takeTurn_permanentKept {turn : Config.Turn} {s t : State} (h : takeTurn turn s = .next t) :
    PermanentKept s t := by
  obtain rfl | ⟨_, hfair, hown⟩ := takeTurn_cases_not_fair h
  · exact .refl _
  · exact takeTurn_permanentKept_of_not_fair hfair hown

/-- The choice of the next turn moves the schedule and the count of its batches alone. -/
theorem nextTurn_permanentKept (s : State) : PermanentKept s (nextTurn s).2 := by
  unfold nextTurn
  split
  · exact .of_eq rfl rfl rfl
  · split <;> exact .of_eq rfl rfl rfl

/-- Settles O60: the schedule is moved, and then one agent takes a turn, which keeps all three. -/
theorem marksAndRemovalArePermanent : Obligations.MarksAndRemovalArePermanent := by
  intro s t h
  have hkept : PermanentKept s t := (nextTurn_permanentKept s).trans (takeTurn_permanentKept h)
  exact ⟨hkept.marks, hkept.removed, hkept.cfg⟩

end Sys2Proof.Machine
end

section
/-!
PROOFS of the family 70_reset_and_hazards: the power-on state meets the invariant and has the values the spec gives (R1000,
R1002, R140, R145), and the entry points that need nothing of INIT are told from those that do (R720, R1001).
-/
namespace Sys2Proof.Machine

/-! ### The power-on state -/

/-- R122, R1000: an engine is off at power-on; the model's zeros (log entry 7) align its base and name slot 0. -/
theorem engineOk_reset {n : Nat} (hn : 0 < n) : EngineOk n Engine.reset where
  base := by decide
  kick := nofun
  ptr  := hn

/-- R140: at creation no field of the Device Context that the relations speak of is set. -/
theorem contextOk_reset (n : Nat) : ContextOk n Context.reset where
  txCursor := nofun
  rxCursor := nofun
  current  := nofun
  enabled  := nofun

/-- Parameters that name the reference power-on values change nothing else of the power-on state. -/
theorem powerOn_of_reference {c : Config.Params} (hvalues : c.powerOn = Config.referencePowerOn) :
    powerOn c = { State.reset with cfg := c } := by
  rw [powerOn, hvalues]
  rfl

/-- R1000: with the reference power-on values the invariant holds at power-on whatever the other parameters, as long as the
rings have a slot. -/
theorem inv_powerOn {c : Config.Params} (hvalues : c.powerOn = Config.referencePowerOn) (hring : 0 < c.ringLen) :
    Inv (powerOn c) := by
  have hengine := engineOk_reset hring
  have hctx := contextOk_reset c.ringLen
  rw [powerOn_of_reference hvalues]
  exact {
    memory        := memWf_reset
    statusBits    := BitVec.zero_and
    txCfgBits     := BitVec.zero_and
    rxCfgBits     := BitVec.zero_and
    txDescAligned := BitVec.extractLsb'_zero
    rxDescAligned := BitVec.extractLsb'_zero
    txBaseAligned := hengine.base
    rxBaseAligned := hengine.base
    softQuiet     := fun _ => ⟨rfl, rfl, rfl, rfl, rfl⟩
    miiPending    := fun _ => rfl
    eePending     := fun _ => rfl
    txKicked      := hengine.kick
    rxKicked      := hengine.kick
    ringLen       := hring
    txPtr         := hengine.ptr
    rxPtr         := hengine.ptr
    txCursor      := hctx.txCursor
    rxCursor      := hctx.rxCursor
    current       := hctx.current
    enabled       := hctx.enabled
    frames        := nofun }

/-- Settles O7: the reference parameters name the reference power-on values, and their rings have 32 slots. -/
theorem resetMeetsInv : Obligations.ResetMeetsInv := inv_powerOn rfl (by decide)

/-- R1000, R108: SOFT is 0 at power-on. -/
theorem softPhase_reset : softPhase State.reset = false := by decide

/-- Settles O58: the SOFT phase and the line follow from the words of IntrControl and IntrMask; every other value stands in
the power-on record, the device's under the parameters' names. -/
theorem powerOnValues : Obligations.PowerOnValues := by
  have hmask : State.reset.regs.intrMask = 0 := rfl
  refine ⟨hmask, softPhase_reset, irqLine_of_mask_zero hmask, ?_⟩
  repeat refine ⟨rfl, ?_⟩
  exact fun _ => ⟨rfl, rfl, rfl, rfl, rfl, rfl, rfl⟩

/-! ### Calls of an idle HOST -/

section
variable {s : State} (hops : s.ops = [])
include hops

/-- Between two entry points the end of one sets the return value alone. -/
theorem finish_idle (r : HostReturn) : finish r s = { s with ret := some r } := by
  rw [finish, ← hops]

/-- R720: TICK makes no access. -/
theorem exec_entryTick_idle :
    exec .entryTick s = .next { s with statRxErrors := s.ctx.rxErrors, ret := some .done } :=
  (whenIdle_idle hops _).trans (congrArg _ (finish_idle (s := { s with statRxErrors := s.ctx.rxErrors }) hops _))

/-- R506, R908: without a negotiated link SEND is Busy, before its length and its cursor are looked at. -/
theorem exec_entrySend_busy (hlink : s.ctx.autonegDone = false) {p : List Byte} (hp : p ≠ []) :
    exec (.entrySend p) s = .next { s with ret := some .busy } := by
  have hbusy : (!s.ctx.autonegDone) = true := by rw [hlink, Bool.not_false]
  refine (whenIdle_idle hops _).trans ((if_neg hp).trans ((if_pos hbusy).trans ?_))
  rw [finish_idle hops]

/-- R140, R625: without a current PHY GET_LINK faults. -/
theorem exec_entryGetLink_unset (hcur : s.ctx.cur = none) :
    exec .entryGetLink s = .fault (.unsetContextField .current) := by
  have hphy : currentPhy? s.ctx = none := by rw [currentPhy?, hcur]
  exact (whenIdle_idle hops _).trans (withField_unset hphy _ _)

end

/-- Settles O59: of the Device Context at creation the calls read an unset handle, an unset cursor, an unset PHY, an
autonegotiation not done, and an error counter of 0. -/
theorem tickAndCallsBeforeInit : Obligations.TickAndCallsBeforeInit := by
  intro s hops
  have htick := exec_entryTick_idle hops
  refine ⟨htick, fun hctx => ?_⟩
  have hhandle : s.ctx.regHandle = none := congrArg Context.regHandle hctx
  have hcursor : s.ctx.rxCursor = none := congrArg Context.rxCursor hctx
  have hcur : s.ctx.cur = none := congrArg Context.cur hctx
  have hlink : s.ctx.autonegDone = false := congrArg Context.autonegDone hctx
  have herrors : s.ctx.rxErrors = 0 := congrArg Context.rxErrors hctx
  have hfault {i : Instr} {k : Result} (hexec : exec i s = whenIdle s (withHandle s k)) :
      exec i s = .fault (.unsetContextField .regHandle) :=
    hexec.trans ((whenIdle_idle hops _).trans (withHandle_unset hhandle k))
  rw [herrors] at htick
  exact ⟨fun _ _ _ => hfault rfl, fun _ => hfault rfl, hfault rfl, hfault rfl,
    fun _ => (whenIdle_idle hops _).trans (withField_unset hcursor _ _), exec_entryGetLink_unset hops hcur,
    fun _ => exec_entrySend_busy hops hlink, htick⟩

end Sys2Proof.Machine
end

section
/-!
PROOFS of the family 42_descriptor_rings, the engines' control registers: ENB's rise starts an engine, POLL kicks it, ENB = 0
stops it, and a stopped engine takes no step (R102, R315, R520, R521, R523).
-/
namespace Sys2Proof.Machine

/-! ### What a control word does to an engine -/

/-- R520: an engine after a write with ENB = 1: one that was off starts at descriptor 0 of the latched base. -/
def enabledEngine (e : Engine) (base : Word) : Engine :=
  if e.en = true then e else { en := true, base := base, ptr := 0, kick := false, idle := false }

/-- R520, R521: an engine after a write with ENB = 1 and POLL = 1. -/
def kickedEngine (e : Engine) (base : Word) : Engine :=
  if e.en = true then { e with kick := true }
  else { en := true, base := base, ptr := 0, kick := true, idle := false }

/-- R521: the kick goes to the engine that the same write has enabled. -/
theorem kickedEngine_eq (e : Engine) (base : Word) : kickedEngine e base = { enabledEngine e base with kick := true } := by
  unfold kickedEngine enabledEngine
  split <;> rfl

/-- R520, R521, R523: what a written word does, by its bits ENB and POLL. -/
theorem engineControl_eq (e : Engine) (base v : Word) :
    engineControl e base v =
      if v.getLsbD 0 = true then if v.getLsbD 4 = true then kickedEngine e base else enabledEngine e base
      else { e with en := false, kick := false } := by
  rw [kickedEngine_eq]
  rfl

theorem engineControl_ctlWord (e : Engine) (base : Word) (hi : BitVec 27) (poll : BitVec 1) (lo : BitVec 3)
    (enb : BitVec 1) :
    engineControl e base (ctlWord hi poll lo enb) =
      if enb = 1#1 then if poll = 1#1 then kickedEngine e base else enabledEngine e base
      else { e with en := false, kick := false } := by
  simp only [engineControl_eq, ctlWord_fields hi poll lo enb, decide_eq_true_eq]

/-- R102: all of the word but ENB and POLL is stored. -/
theorem ctlWord_and_cfgMask (hi : BitVec 27) (poll : BitVec 1) (lo : BitVec 3) (enb : BitVec 1) :
    ctlWord hi poll lo enb &&& cfgMask = hi ++ 0#1 ++ lo ++ 0#1 := by
  have hmask : cfgMask = BitVec.allOnes 27 ++ 0#1 ++ BitVec.allOnes 3 ++ 0#1 := by decide
  rw [hmask, ctlWord, BitVec.and_append, BitVec.and_append, BitVec.and_append, BitVec.and_allOnes, BitVec.and_allOnes,
    BitVec.and_zero, BitVec.and_zero]

section
variable {s : State} (hopen : windowOpen s = true) (hi : BitVec 27) (poll : BitVec 1) (lo : BitVec 3) (enb : BitVec 1)
include hopen

theorem exec_wr32TxControl_open :
    exec (.wr32TxControl (ctlWord hi poll lo enb)) s = .next { s with
      regs.txCfg := hi ++ 0#1 ++ lo ++ 0#1, tx := engineControl s.tx s.regs.txDescBase (ctlWord hi poll lo enb) } := by
  rw [← ctlWord_and_cfgMask hi poll lo enb]
  exact congrArg _ (regWrite32_open hopen .txControl _)

theorem exec_wr32RxControl_open :
    exec (.wr32RxControl (ctlWord hi poll lo enb)) s = .next { s with
      regs.rxCfg := hi ++ 0#1 ++ lo ++ 0#1, rx := engineControl s.rx s.regs.rxDescBase (ctlWord hi poll lo enb) } := by
  rw [← ctlWord_and_cfgMask hi poll lo enb]
  exact congrArg _ (regWrite32_open hopen .rxControl _)

end

/-! ### The rows -/

/-- Settles O20: the command row and the plain row carry one word, whose bits decide what the engine does. -/
theorem engineEnableAndKick : Obligations.EngineEnableAndKick := by
  intro s hi lo hopen
  have htx (poll : BitVec 1) := exec_wr32TxControl_open hopen hi poll lo 1#1
  have hrx (poll : BitVec 1) := exec_wr32RxControl_open hopen hi poll lo 1#1
  simp only [engineControl_ctlWord] at htx hrx
  exact ⟨⟨_, htx 0#1, htx 0#1, rfl⟩, ⟨_, htx 1#1, htx 1#1, rfl⟩, ⟨_, hrx 0#1, hrx 0#1, rfl⟩, ⟨_, hrx 1#1, hrx 1#1, rfl⟩⟩

/-! ### An engine that is off -/

theorem txTurn_of_disabled {s : State} (hoff : s.tx.en = false) : txTurn s = .next s :=
  if_neg (ne_true_of_eq_false hoff)

theorem rxTurn_of_disabled {s : State} (hoff : s.rx.en = false) : rxTurn s = .next s := by
  simp only [rxTurn, hoff]

/-- R523: an engine that is off has no fair visit either. -/
theorem visitFair_of_disabled {e : Engine} (hoff : e.en = false) : ¬ visitFair e = true := by
  rw [visitFair, hoff, Bool.false_and]
  exact Bool.false_ne_true

/-- Settles O21: ENB = 0 is looked at before POLL, and the turn of an engine looks at `en` first. -/
theorem disabledEngineIsStill : Obligations.DisabledEngineIsStill := by
  intro s
  refine ⟨fun hi poll lo hopen => ?_, fun hoff => ⟨txTurn_of_disabled hoff, if_neg (visitFair_of_disabled hoff)⟩,
    fun hoff => ⟨rxTurn_of_disabled hoff, if_neg (visitFair_of_disabled hoff)⟩⟩
  have htx := exec_wr32TxControl_open hopen hi poll lo 0#1
  have hrx := exec_wr32RxControl_open hopen hi poll lo 0#1
  rw [engineControl_ctlWord] at htx hrx
  exact ⟨⟨_, htx, htx, rfl⟩, ⟨_, hrx, hrx, rfl⟩⟩

end Sys2Proof.Machine
end

section
/-!
PROOFS of the family 42_descriptor_rings, the visits of TXDMA: a hardware-owned slot is completed or is a fault (R202, R222,
R522, R524, R525), a software-owned one makes the engine idle (R526).
-/
namespace Sys2Proof.Machine

/-! ### The checks of a visit -/

/-- R202: the address that the fault records is outside the regions. -/
theorem dmaFault?_eq_some {s : State} {a : Word} {n x : Nat} (h : dmaFault? s a n = some x) : inRegions s x = false := by
  obtain ⟨j, hj, rfl⟩ := Option.map_eq_some_iff.1 h
  simpa using List.find?_some hj

/-- R522: the place after a completed descriptor, but past the end of the ring. -/
theorem nextPtr?_of_moves {s : State} {p : Nat} {fl : Word} (h : fl.getLsbD 31 = true ∨ p + 1 ≠ s.cfg.ringLen) :
    nextPtr? s p fl = some (if fl.getLsbD 31 = true then 0 else p + 1) := by
  unfold nextPtr? ringEnd
  split
  · rfl
  · rename_i hend
    exact if_neg (h.resolve_left hend)

theorem nextPtr?_of_overrun {s : State} {p : Nat} {fl : Word} (hend : fl.getLsbD 31 = false)
    (hlast : p + 1 = s.cfg.ringLen) : nextPtr? s p fl = none :=
  (if_neg (ne_true_of_eq_false hend)).trans (if_pos hlast)

/-! ### The fields of CMDSTS that a visit looks at -/

theorem intrBit_cmdstsWord (own intr : BitVec 1) (rsvd : BitVec 6) (cmd : BitVec 8) (status : Half) :
    intrBit (cmdstsWord own intr rsvd cmd status) = decide (intr = 1#1) := by
  simp (disch := decide) only [intrBit, cmdstsWord, BitVec.getLsbD_append, if_neg, if_pos, Nat.reduceSub, getLsbD_zero_eq]

/-- R524: the command bits that go to WIRE. -/
theorem cmdstsWord_command (own intr : BitVec 1) (rsvd : BitVec 6) (cmd : BitVec 8) (status : Half) :
    (cmdstsWord own intr rsvd cmd status).extractLsb' 16 14 = rsvd ++ cmd := by
  have hsplit : own ++ intr ++ rsvd ++ cmd = own ++ intr ++ (rsvd ++ cmd) := by
    simp only [BitVec.append_assoc, BitVec.cast_eq]
  simp (disch := decide) only [cmdstsWord, BitVec.extractLsb'_append_eq_of_le, Nat.reduceSub, hsplit,
    BitVec.extractLsb'_append_eq_of_add_le, BitVec.extractLsb'_eq_self]

/-- R525: the word written back is software-owned. -/
theorem getLsbD_writeBack_own (d : Word) : (d &&& 0x7FFFFFFF#32).getLsbD 31 = false := by
  rw [BitVec.getLsbD_and, show (0x7FFFFFFF#32 : Word).getLsbD 31 = false by decide, Bool.and_false]

/-- R700: a status bit set or not is one update of IntrStatus. -/
theorem setStatus_if (p : Prop) [Decidable p] (bits : Word) (s : State) :
    (if p then setStatus bits s else s) =
      { s with regs.intrStatus := s.regs.intrStatus ||| (if p then bits else 0) } := by
  split
  · rfl
  · rw [BitVec.ofNat_eq_ofNat, BitVec.or_zero]

/-! ### The end of a TX visit -/

/-- R522, R524, R525: a TX visit that has sent `frame` with the command bits `cmd`, written `w` back and asked for an
interrupt by `intr`, with n draws. -/
def txSent (frame : List Byte) (cmd : BitVec 14) (intr : BitVec 1) (fl w : Word) (n : Nat) (s : State) : State :=
  { s with
    wireOut := s.wireOut ++ [⟨frame, cmd⟩]
    mem := descPut s.cfg.regMap s.mem s.tx.base s.tx.ptr .cmdsts w
    tx := { s.tx with kick := false, idle := false, ptr := if fl.getLsbD 31 = true then 0 else s.tx.ptr + 1 }
    regs.intrStatus := s.regs.intrStatus ||| (if intr = 1#1 then 0x00000004 else 0)
    draws := s.draws + n
    pins := s.pins.drop n }

section
variable {s : State} {intr : BitVec 1} {rsvd : BitVec 6} {cmd : BitVec 8} {status : Half} {fl : Word}
  (frame : List Byte) (n : Nat)

theorem txComplete_of_moves (hrace : race? s .txdma (descAddr s.tx.base s.tx.ptr .cmdsts) 4 = none)
    (hmoves : fl.getLsbD 31 = true ∨ s.tx.ptr + 1 ≠ s.cfg.ringLen) :
    txComplete (cmdstsWord 1#1 intr rsvd cmd status) fl frame n s =
      .next (txSent frame (rsvd ++ cmd) intr fl (drawAt s n &&& 0x7FFFFFFF#32) (n + 1) s) := by
  simp only [txComplete, hrace, txFinish, nextPtr?_of_moves hmoves, setStatus_if, intrBit_cmdstsWord, cmdstsWord_command,
    decide_eq_true_eq]
  rfl

theorem txComplete_of_overrun (cmdsts : Word) (hrace : race? s .txdma (descAddr s.tx.base s.tx.ptr .cmdsts) 4 = none)
    (hend : fl.getLsbD 31 = false) (hlast : s.tx.ptr + 1 = s.cfg.ringLen) :
    txComplete cmdsts fl frame n s = .fault (.ringOverrun .tx) := by
  simp only [txComplete, hrace, txFinish, nextPtr?_of_overrun hend hlast]

theorem txComplete_of_race (cmdsts : Word) {r : Ring} {j : Nat}
    (hrace : race? s .txdma (descAddr s.tx.base s.tx.ptr .cmdsts) 4 = some (r, j)) :
    txComplete cmdsts fl frame n s = .fault (.ownershipRace r j .txdma) := by
  simp only [txComplete, hrace]

end

/-! ### The visit of a hardware-owned slot -/

theorem exec_txdHwown_of_enabled {s : State} (hen : s.tx.en = true) (intr : BitVec 1) (rsvd : BitVec 6) (cmd : BitVec 8)
    (status : Half) : exec (.txdHwown intr rsvd cmd status) s = txOwnedVisit (cmdstsWord 1#1 intr rsvd cmd status) s :=
  if_pos hen

section
variable {s : State} (cmdsts : Word)

theorem txOwnedVisit_of_outside {a : Nat} (hdesc : dmaFault? s (descAddr s.tx.base s.tx.ptr .psize) 16 = some a) :
    txOwnedVisit cmdsts s = .fault (.dmaOutOfRegion a) := by
  simp only [txOwnedVisit, visitAddr, hdesc]

variable (hdesc : dmaFault? s (descAddr s.tx.base s.tx.ptr .psize) 16 = none)
include hdesc

/-- R524: a byte count that HOST never writes (log entry 24). -/
theorem txOwnedVisit_of_malformed (hlen : byteCount (visitWord s s.tx .psize) = 0 ∨
      bufLen (visitWord s s.tx .flags) < byteCount (visitWord s s.tx .psize)) :
    txOwnedVisit cmdsts s = txComplete cmdsts (visitWord s s.tx .flags) (Config.freeFrame s.draws) 1 s := by
  simp only [txOwnedVisit, visitAddr, hdesc, if_pos hlen]

section
variable (hpos : 0 < byteCount (visitWord s s.tx .psize))
  (hlen : byteCount (visitWord s s.tx .psize) ≤ bufLen (visitWord s s.tx .flags))
include hpos hlen

/-- R524: a byte count of 1 to BUFLEN: the frame is read. -/
theorem txOwnedVisit_of_wellFormed
    (hframe : dmaFault? s (visitWord s s.tx .bufptr) (byteCount (visitWord s s.tx .psize)) = none) :
    txOwnedVisit cmdsts s = txComplete cmdsts (visitWord s s.tx .flags)
      (memReadBytes s.mem (visitWord s s.tx .bufptr) (byteCount (visitWord s s.tx .psize))) 0 s := by
  have hformed : ¬ (byteCount (visitWord s s.tx .psize) = 0 ∨
      bufLen (visitWord s s.tx .flags) < byteCount (visitWord s s.tx .psize)) := by omega
  simp only [txOwnedVisit, visitAddr, hdesc, if_neg hformed, hframe]

/-- R202, R524: a byte of such a frame outside the regions. -/
theorem txOwnedVisit_of_frameOutside {a : Nat}
    (hframe : dmaFault? s (visitWord s s.tx .bufptr) (byteCount (visitWord s s.tx .psize)) = some a) :
    txOwnedVisit cmdsts s = .fault (.dmaOutOfRegion a) := by
  have hformed : ¬ (byteCount (visitWord s s.tx .psize) = 0 ∨
      bufLen (visitWord s s.tx .flags) < byteCount (visitWord s s.tx .psize)) := by omega
  simp only [txOwnedVisit, visitAddr, hdesc, if_neg hformed, hframe]

end

/-- R524: with no byte of a frame outside the regions the visit completes, well-formed or not. -/
theorem exists_txComplete (hframe : byteCount (visitWord s s.tx .psize) = 0 ∨
      bufLen (visitWord s s.tx .flags) < byteCount (visitWord s s.tx .psize) ∨
      dmaFault? s (visitWord s s.tx .bufptr) (byteCount (visitWord s s.tx .psize)) = none) :
    ∃ frame n, txOwnedVisit cmdsts s = txComplete cmdsts (visitWord s s.tx .flags) frame n s := by
  by_cases hlen : byteCount (visitWord s s.tx .psize) = 0 ∨
      bufLen (visitWord s s.tx .flags) < byteCount (visitWord s s.tx .psize)
  · exact ⟨_, _, txOwnedVisit_of_malformed cmdsts hdesc hlen⟩
  · have hinside : dmaFault? s (visitWord s s.tx .bufptr) (byteCount (visitWord s s.tx .psize)) = none := by tauto
    exact ⟨_, _, txOwnedVisit_of_wellFormed cmdsts hdesc (by omega) (by omega) hinside⟩

end

/-- Settles O26: the visit passes its checks, and what it leaves is `txSent`. -/
theorem transmitVisit : Obligations.TransmitVisit := by
  rintro s intr rsvd cmd status _ _ _ hen hdesc rfl rfl rfl hpos hlen hinside hrace hmoves
  have hvisit := (exec_txdHwown_of_enabled hen intr rsvd cmd status).trans
    ((txOwnedVisit_of_wellFormed _ hdesc hpos hlen hinside).trans (txComplete_of_moves _ _ hrace hmoves))
  exact ⟨_, _, hvisit, rfl, descGet_descPut_same .., getLsbD_writeBack_own _,
    fun a hapart => memRead_descPut_other _ _ _ _ _ _ a hapart⟩

/-- Settles O27: the region checks come first, then the race of the write-back, then the pointer. -/
theorem transmitVisitOtherCases : Obligations.TransmitVisitOtherCases := by
  rintro s intr rsvd cmd status _ _ _ hen rfl rfl rfl
  rw [exec_txdHwown_of_enabled hen]
  refine ⟨fun a hdesc => ⟨txOwnedVisit_of_outside _ hdesc, dmaFault?_eq_some hdesc⟩, fun hdesc => ⟨?_, ?_, ?_⟩⟩
  · intro hlen hrace hmoves
    exact ⟨_, _, _, (txOwnedVisit_of_malformed _ hdesc hlen).trans (txComplete_of_moves _ _ hrace hmoves), rfl,
      getLsbD_writeBack_own _⟩
  · intro a hpos hlen houtside
    exact ⟨txOwnedVisit_of_frameOutside _ hdesc hpos hlen houtside, dmaFault?_eq_some houtside⟩
  · intro hframe
    obtain ⟨frame, n, hvisit⟩ := exists_txComplete (cmdstsWord 1#1 intr rsvd cmd status) hdesc hframe
    rw [hvisit]
    refine ⟨fun hrace hend hlast => txComplete_of_overrun _ _ _ hrace hend hlast, fun r j hrace => ?_⟩
    obtain ⟨hj, htouch, hmay⟩ := race?_eq_some hrace
    exact ⟨txComplete_of_race _ _ _ hrace, hj, hmay, htouch⟩

/-! ### The visit of a software-owned slot -/

/-- R526: the first idle visit alone sets TX_IDLE. -/
theorem txIdleVisit_eq (s : State) :
    txIdleVisit s = { s with
      tx := { s.tx with kick := false, idle := true }
      regs.intrStatus := s.regs.intrStatus ||| (if s.tx.idle = true then 0 else 0x00000008) } := by
  have h := setStatus_if (¬ s.tx.idle = true) txIdleBit { s with tx := { s.tx with kick := false, idle := true } }
  simp only [ite_not] at h
  exact h

/-- Settles O28: the engine runs, so the visit is `txIdleVisit`. -/
theorem transmitIdleVisit : Obligations.TransmitIdleVisit := by
  intro s intr rsvd cmd status hen
  exact (if_pos hen).trans (congrArg _ (txIdleVisit_eq s))

end Sys2Proof.Machine
end

section
/-!
PROOFS of the family 42_descriptor_rings, the receive side: the acceptance filter and the arrival of frames (R116, R540, R545,
R546), the visits of RXDMA at a hardware-owned slot and their faults (R202, R221, R222, R512, R522, R541, R542), and at a
software-owned one (R543, R544).
-/
namespace Sys2Proof.Machine

/-! ### The acceptance filter -/

/-- R545: the filter on a frame with a whole destination. -/
theorem accept_eq (s : State) (d : StationAddr) (rest : List Byte) :
    accept s (d.bytes ++ rest) =
      if s.regs.rxMac.getLsbD 8 && !d.b0.getLsbD 0 then true
      else if d = broadcastAddr then s.regs.rxMac.getLsbD 11
      else if d.b0.getLsbD 0 then s.regs.rxMac.getLsbD 10 && hashBit s (Config.hashFn d)
      else s.regs.rxMac.getLsbD 9 && decide (d = stationAddrOf s.regs) := rfl

theorem eq_broadcastAddr_iff (d : StationAddr) : d = broadcastAddr ↔ d.bytes = List.replicate 6 0xFF := by
  obtain ⟨b0, b1, b2, b3, b4, b5⟩ := d
  simp [broadcastAddr, StationAddr.bytes, List.replicate]

/-- R545: the broadcast address is a multicast one. -/
theorem multicast_of_broadcast {d : StationAddr} (h : d = broadcastAddr) : d.b0.getLsbD 0 = true := by
  rw [h]
  decide

/-- R116: with the tables at accept-all every bit that HASH_FN can pick is 1. -/
theorem hashBit_of_acceptAll {s : State} (h0 : s.regs.hash0 = 0xFFFFFFFF) (h1 : s.regs.hash1 = 0xFFFFFFFF) (k : BitVec 6) :
    hashBit s k = true := by
  have htables : s.regs.hash1 ++ s.regs.hash0 = BitVec.allOnes 64 := by rw [h0, h1]; decide
  rw [hashBit, htables, BitVec.getLsbD_allOnes]
  exact decide_eq_true k.isLt

/-- R203: two bytes of a word, as one half of it. -/
theorem extractLsb'_high_eq_iff (v : Word) (b0 b1 : Byte) :
    v.extractLsb' 16 16 = b1 ++ b0 ↔ b0 = byteOfWord v 2 ∧ b1 = byteOfWord v 3 := by
  have hhalf : byteOfWord v 3 ++ byteOfWord v 2 = v.extractLsb' 16 16 := by
    unfold byteOfWord
    rw [BitVec.extractLsb'_append_extractLsb'_eq_extractLsb' (by rfl)]
  rw [← hhalf]
  constructor
  · intro h
    have hbytes := congrArg halfBytes h
    rw [halfBytes_append, halfBytes_append, List.cons.injEq, List.cons.injEq] at hbytes
    exact ⟨hbytes.1.symm, hbytes.2.1.symm⟩
  · rintro ⟨rfl, rfl⟩
    rfl

theorem eq_bytes_iff (v : Word) (b0 b1 b2 b3 : Byte) :
    v = b3 ++ b2 ++ b1 ++ b0 ↔
      b0 = byteOfWord v 0 ∧ b1 = byteOfWord v 1 ∧ b2 = byteOfWord v 2 ∧ b3 = byteOfWord v 3 := by
  constructor
  · intro h
    have hbytes := congrArg wordBytes h
    rw [show b3 ++ b2 ++ b1 ++ b0 = wordOfBytes b0 b1 b2 b3 from rfl, wordBytes_wordOfBytes] at hbytes
    simpa [wordBytes, eq_comm] using hbytes
  · rintro ⟨rfl, rfl, rfl, rfl⟩
    exact (wordOfBytes_byteOfWord v).symm

/-- R114, R115: the destination is the station address that the two words hold. -/
theorem eq_stationAddrOf_iff (r : Regs) (b0 b1 b2 b3 b4 b5 : Byte) :
    (⟨b0, b1, b2, b3, b4, b5⟩ : StationAddr) = stationAddrOf r ↔
      r.rxMac.extractLsb' 16 16 = b1 ++ b0 ∧ r.rxMacAddr25 = b5 ++ b4 ++ b3 ++ b2 := by
  rw [extractLsb'_high_eq_iff, eq_bytes_iff, stationAddrOf, StationAddr.mk.injEq, and_assoc]

/-- R545: a multicast destination, but the broadcast one, is a matter of MCAST and the hash tables. -/
theorem accept_multicast {s : State} {d : StationAddr} (hmulticast : d.b0.getLsbD 0 = true) (hother : d ≠ broadcastAddr)
    (rest : List Byte) : accept s (d.bytes ++ rest) = (s.regs.rxMac.getLsbD 10 && hashBit s (Config.hashFn d)) := by
  rw [accept_eq, hmulticast, Bool.not_true, Bool.and_false, if_neg Bool.false_ne_true, if_neg hother, if_pos rfl]

/-- R545: with the tables at accept-all the four accept bits decide, each for its kind of destination. -/
theorem accept_iff_of_acceptAll {s : State} (h0 : s.regs.hash0 = 0xFFFFFFFF) (h1 : s.regs.hash1 = 0xFFFFFFFF)
    (d : StationAddr) (rest : List Byte) :
    accept s (d.bytes ++ rest) = true ↔
      (s.regs.rxMac.getLsbD 8 = true ∧ d.b0.getLsbD 0 = false) ∨
      (s.regs.rxMac.getLsbD 11 = true ∧ d = broadcastAddr) ∨
      (s.regs.rxMac.getLsbD 10 = true ∧ d.b0.getLsbD 0 = true ∧ d ≠ broadcastAddr) ∨
      (s.regs.rxMac.getLsbD 9 = true ∧ d.b0.getLsbD 0 = false ∧ d = stationAddrOf s.regs) := by
  by_cases hbroadcast : d = broadcastAddr
  · simp [accept_eq, -BitVec.getLsbD_eq_getElem, hbroadcast, multicast_of_broadcast rfl]
  · cases hgroup : d.b0.getLsbD 0
    · cases hall : s.regs.rxMac.getLsbD 8 <;>
        simp [accept_eq, -BitVec.getLsbD_eq_getElem, hbroadcast, hgroup, hall]
    · simp [accept_multicast hgroup hbroadcast, hashBit_of_acceptAll h0 h1, hbroadcast]

/-- Settles O32: a frame of allowed length waits if the engine runs; the filter goes by the kind of destination. -/
theorem frameArrivalAndFilter : Obligations.FrameArrivalAndFilter := by
  intro s
  refine ⟨fun f hsome hlong => ?_, fun b0 b1 b2 b3 b4 b5 rest h0 h1 => ?_, fun d rest hmulticast hother => ?_⟩
  · simp only [takeTurn, frameArrives, hsome, hlong, ne_eq, not_false_eq_true, true_and]
  · have hfilter := accept_iff_of_acceptAll h0 h1 ⟨b0, b1, b2, b3, b4, b5⟩ rest
    rw [eq_stationAddrOf_iff, ne_eq, eq_broadcastAddr_iff] at hfilter
    exact hfilter
  · rw [accept_multicast hmulticast (mt (eq_broadcastAddr_iff d).1 hother), Bool.and_eq_true]
    rfl

/-! ### The words of one descriptor -/

/-- R130: the words of a descriptor follow each other. -/
theorem descAddr_eq (base : Word) (i : Nat) (w : DescWord) :
    descAddr base i w = descAddr base i .psize + BitVec.ofNat 32 (4 * wordIndex w) := by
  simp only [descAddr, wordIndex, Nat.mul_zero, Nat.add_zero, BitVec.ofNat_add, BitVec.add_assoc]

theorem descAddr_add (base : Word) (i : Nat) (w : DescWord) (k : Nat) :
    descAddr base i w + BitVec.ofNat 32 k = descAddr base i .psize + BitVec.ofNat 32 (4 * wordIndex w + k) := by
  rw [descAddr_eq, BitVec.add_assoc, ← BitVec.ofNat_add]

theorem wordIndex_injective {w w' : DescWord} (h : wordIndex w = wordIndex w') : w = w' := by
  revert h
  cases w <;> cases w' <;> decide

/-- R130: a write of a descriptor's word leaves its other words. -/
theorem descGet_descPut_other (m : Config.RegMap) (mem : Memory) (base : Word) (i : Nat) {w w' : DescWord} (v : Word)
    (h : w' ≠ w) : descGet m (descPut m mem base i w v) base i w' = descGet m mem base i w' := by
  refine congrArg (m.ofBus (.desc w')) (memReadWord_memWriteWord_other _ _ _ _ fun j k hj hk he => h ?_)
  have hw := wordIndex_lt w
  have hw' := wordIndex_lt w'
  rw [descAddr_add base i w' j, descAddr_add base i w k] at he
  have hoffsets := addr_inj (j := 4 * wordIndex w' + j) (k := 4 * wordIndex w + k) (by omega) (by omega) he
  exact wordIndex_injective (by omega)

/-! ### The words that an RX visit writes back -/

/-- R512: the words that RX_BAD is sure to call good and bad. -/
theorem rxBadBits_rxBadWitness {p : Config.RxBad} (hp : rxBadOk p = true) (bad : Bool) :
    rxBadBits p (rxBadWitness p bad) = bad := by
  cases p with
  | unknown =>
    have hdelta : (if Config.rxBadDelta = 0 then 1#31 else Config.rxBadDelta) ≠ 0 := by
      split
      · decide
      · assumption
    have hdistinct : rxBadWitness .unknown true ≠ rxBadWitness .unknown false := by
      intro h
      exact hdelta (BitVec.xor_right_inj Config.rxGoodWord |>.1 (h.trans BitVec.xor_zero.symm))
    cases bad
    · exact if_pos rfl
    · exact (if_neg hdistinct).trans (if_pos rfl)
  | errorBits mask good =>
    have hmask : mask ≠ 0 := of_decide_eq_true hp
    cases bad
    · simp [rxBadBits, rxBadWitness]
    · have hflip : (good ^^^ mask) ^^^ good = mask := by
        rw [BitVec.xor_comm good mask, BitVec.xor_assoc, BitVec.xor_self, BitVec.xor_zero]
      simpa [rxBadBits, rxBadWitness, hflip] using hmask

/-- R542: OWN = 0, and the other bits are bad or good as asked. -/
theorem rxWriteBackWord_fields {p : Config.RxBad} (hp : rxBadOk p = true) (bad : Bool) (d : Word) :
    (rxWriteBackWord p bad d).getLsbD 31 = false ∧ rxBad p (rxWriteBackWord p bad d) = bad := by
  have hword (b : BitVec 31) : (0#1 ++ b).getLsbD 31 = false ∧ (0#1 ++ b).extractLsb' 0 31 = b :=
    ⟨by rw [BitVec.getLsbD_append]; rfl,
      by rw [BitVec.extractLsb'_append_eq_of_add_le (by decide), BitVec.extractLsb'_eq_self]⟩
  refine ⟨(hword _).1, ?_⟩
  rw [rxBad, rxWriteBackWord, (hword _).2]
  split
  · assumption
  · exact rxBadBits_rxBadWitness hp bad

/-- R542: the byte count of a good frame. -/
theorem byteCount_rxPsizeWord {n : Nat} (hn : n ≤ 65535) (d : Word) : byteCount (rxPsizeWord false n d) = n := by
  have hlow : (d.extractLsb' 16 16 ++ BitVec.ofNat 16 n).extractLsb' 0 16 = BitVec.ofNat 16 n := by
    simp (disch := decide) only [BitVec.extractLsb'_append_eq_of_add_le, BitVec.extractLsb'_eq_self]
  rw [rxPsizeWord, if_neg Bool.false_ne_true, byteCount, hlow, BitVec.toNat_ofNat]
  omega

/-! ### The visit of a hardware-owned slot -/

/-- R522, R541, R542: an RX visit that has filled its slot from the head frame f, with `fs` behind it. -/
def rxFilled (bp : Word) (f : Config.Frame) (fs : List Config.Frame) (intr : BitVec 1) (fl : Word) (s : State) : State :=
  { s with
    mem := rxWriteBack bp (bufLen fl) (acceptDraws f.bytes) f s
    wireIn := fs
    rx := { s.rx with kick := false, idle := false, ptr := if fl.getLsbD 31 = true then 0 else s.rx.ptr + 1 }
    regs.intrStatus := s.regs.intrStatus ||| (if intr = 1#1 then 0x00000040 else 0)
    draws := s.draws + (acceptDraws f.bytes + 2)
    pins := s.pins.drop (acceptDraws f.bytes + 2) }

section
variable {s : State} {intr : BitVec 1} {rsvd : BitVec 6} {cmd : BitVec 8} {status : Half} {fl : Word} (bp : Word)
  {f : Config.Frame} {fs : List Config.Frame}

theorem rxComplete_of_moves (hwire : s.wireIn = f :: fs)
    (hmoves : fl.getLsbD 31 = true ∨ s.rx.ptr + 1 ≠ s.cfg.ringLen) :
    rxComplete (cmdstsWord 1#1 intr rsvd cmd status) bp fl f s = .next (rxFilled bp f fs intr fl s) := by
  simp only [rxComplete, nextPtr?_of_moves hmoves, setStatus_if, intrBit_cmdstsWord, decide_eq_true_eq, hwire,
    List.tail_cons]
  rfl

theorem rxComplete_of_overrun (cmdsts : Word) (hend : fl.getLsbD 31 = false) (hlast : s.rx.ptr + 1 = s.cfg.ringLen) :
    rxComplete cmdsts bp fl f s = .fault (.ringOverrun .rx) := by
  simp only [rxComplete, nextPtr?_of_overrun hend hlast]

end

section
variable {s : State} {f : Config.Frame} {fs : List Config.Frame} (hen : s.rx.en = true) (hwire : s.wireIn = f :: fs)
  (intr : BitVec 1) (rsvd : BitVec 6) (cmd : BitVec 8) (status : Half)
include hen hwire

theorem exec_rxdHwown_of_accepted (hacc : accept s f.bytes = true) :
    exec (.rxdHwown intr rsvd cmd status) s = rxOwnedVisit (cmdstsWord 1#1 intr rsvd cmd status) f s := by
  simp only [exec, execRxdHwown, hen, hwire, hacc, if_true]

theorem exec_rxdSwown_of_accepted (hacc : accept s f.bytes = true) :
    exec (.rxdSwown intr rsvd cmd status) s = .next (rxFullVisit f.bytes s) := by
  simp only [exec, execRxdSwown, hen, hwire, hacc, if_true]

/-- R541: the filter is asked before the slot's owner. -/
theorem exec_rxd_of_refused (hacc : accept s f.bytes = false) :
    exec (.rxdSwown intr rsvd cmd status) s = .next (rxUnaccepted f.bytes s) ∧
      exec (.rxdHwown intr rsvd cmd status) s = .next (rxUnaccepted f.bytes s) := by
  simp only [exec, execRxdSwown, execRxdHwown, hen, hwire, hacc, Bool.false_eq_true, if_false, and_self]

end

section
variable {s : State} (cmdsts : Word) (f : Config.Frame)

theorem rxOwnedVisit_of_outside {a : Nat} (hdesc : dmaFault? s (descAddr s.rx.base s.rx.ptr .psize) 16 = some a) :
    rxOwnedVisit cmdsts f s = .fault (.dmaOutOfRegion a) := by
  simp only [rxOwnedVisit, visitAddr, hdesc]

variable (hdesc : dmaFault? s (descAddr s.rx.base s.rx.ptr .psize) 16 = none)
include hdesc

theorem rxOwnedVisit_of_bufferOutside {a : Nat} (hbuf : dmaFault? s (visitWord s s.rx .bufptr)
      (min f.bytes.length (bufLen (visitWord s s.rx .flags))) = some a) :
    rxOwnedVisit cmdsts f s = .fault (.dmaOutOfRegion a) := by
  simp only [rxOwnedVisit, visitAddr, hdesc, hbuf]

variable (hbuf : dmaFault? s (visitWord s s.rx .bufptr)
  (min f.bytes.length (bufLen (visitWord s s.rx .flags))) = none)
include hbuf

theorem rxOwnedVisit_of_race {r : Ring} {j : Nat} (hrace : rxRace? (visitWord s s.rx .bufptr)
      (min f.bytes.length (bufLen (visitWord s s.rx .flags))) s = some (r, j)) :
    rxOwnedVisit cmdsts f s = .fault (.ownershipRace r j .rxdma) := by
  simp only [rxOwnedVisit, visitAddr, hdesc, hbuf, hrace]

theorem rxOwnedVisit_of_noRace (hrace : rxRace? (visitWord s s.rx .bufptr)
      (min f.bytes.length (bufLen (visitWord s s.rx .flags))) s = none) :
    rxOwnedVisit cmdsts f s = rxComplete cmdsts (visitWord s s.rx .bufptr) (visitWord s s.rx .flags) f s := by
  simp only [rxOwnedVisit, visitAddr, hdesc, hbuf, hrace]

end

/-- R222, R501: the race of a visit is one of its buffer's bytes or of its write of PSIZE and CMDSTS. -/
theorem rxRace?_eq_some {bp : Word} {k : Nat} {s : State} {r : Ring} {j : Nat} (h : rxRace? bp k s = some (r, j)) :
    j < s.cfg.ringLen ∧ mayWrite s .rxdma r j = false ∧
      (touchesSlot s bp k r j = true ∨ touchesSlot s (descAddr s.rx.base s.rx.ptr .psize) 8 r j = true) := by
  unfold rxRace? at h
  split at h
  · rename_i hbuf
    cases h
    obtain ⟨hj, htouch, hmay⟩ := race?_eq_some hbuf
    exact ⟨hj, hmay, .inl htouch⟩
  · obtain ⟨hj, htouch, hmay⟩ := race?_eq_some h
    exact ⟨hj, hmay, .inr htouch⟩

section
variable (bp fl : Word) (f : Config.Frame) (fs : List Config.Frame) (intr : BitVec 1) (s : State)

/-- R221, R542: CMDSTS is written last. -/
theorem visitWord_rxFilled_cmdsts :
    visitWord (rxFilled bp f fs intr fl s) s.rx .cmdsts =
      rxWriteBackWord s.cfg.rxBad (f.bad || decide (bufLen fl < f.bytes.length)) (drawAt s (acceptDraws f.bytes + 1)) :=
  descGet_descPut_same ..

/-- R221, R542: PSIZE is written before it, in another word. -/
theorem visitWord_rxFilled_psize :
    visitWord (rxFilled bp f fs intr fl s) s.rx .psize =
      rxPsizeWord (f.bad || decide (bufLen fl < f.bytes.length)) f.bytes.length (drawAt s (acceptDraws f.bytes)) :=
  (descGet_descPut_other _ _ _ _ _ (by decide)).trans (descGet_descPut_same ..)

/-- R542: PSIZE and CMDSTS are the first eight bytes of the descriptor; the rest is as the buffer's write leaves it. -/
theorem memRead_rxFilled {a : Word}
    (hapart : ∀ k, k < 8 → a ≠ descAddr s.rx.base s.rx.ptr .psize + BitVec.ofNat 32 k) :
    memRead (rxFilled bp f fs intr fl s).mem a = memRead (memWriteBytes s.mem bp (f.bytes.take (bufLen fl))) a := by
  refine (memRead_descPut_other _ _ _ _ _ _ _ fun k hk => ?_).trans
    (memRead_descPut_other _ _ _ _ _ _ _ fun k hk => hapart k (by omega))
  rw [descAddr_add]
  exact hapart _ (by simp only [wordIndex]; omega)

end

/-- Settles O29: the visit passes its checks; what it leaves is `rxFilled`, whose memory is read back word by word. -/
theorem receiveVisit : Obligations.ReceiveVisit := by
  rintro s intr rsvd cmd status f fs bp fl _ bad hen hwire hacc hlong hdesc rfl rfl rfl hbad hbuf hrace hmoves hp
  have hvisit := (exec_rxdHwown_of_accepted hen hwire intr rsvd cmd status hacc).trans
    ((rxOwnedVisit_of_noRace _ f hdesc hbuf hrace).trans (rxComplete_of_moves _ hwire hmoves))
  have hverdict : (f.bad || decide (bufLen (visitWord s s.rx .flags) < f.bytes.length)) = bad := hbad
  have hcap : (f.bytes.take (bufLen (visitWord s s.rx .flags))).length =
      min f.bytes.length (bufLen (visitWord s s.rx .flags)) := by
    rw [List.length_take, Nat.min_comm]
  refine ⟨_, hvisit, rfl, ?_, ?_, fun hgood => ?_, fun j hj hapart => ?_, fun a hbuffer hapart => ?_⟩
  · rw [visitWord_rxFilled_cmdsts]
    exact (rxWriteBackWord_fields hp _ _).1
  · rw [visitWord_rxFilled_cmdsts, hverdict]
    exact (rxWriteBackWord_fields hp _ _).2
  · rw [visitWord_rxFilled_psize, hverdict, hgood]
    exact byteCount_rxPsizeWord hlong _
  · have hlt : j < f.bytes.length := Nat.lt_of_lt_of_le hj (Nat.min_le_left _ _)
    have hread := memRead_memWriteBytes_at (f.bytes.take (bufLen (visitWord s s.rx .flags))) s.mem
      (visitWord s s.rx .bufptr) j (by omega) (hcap ▸ hj)
    rw [memRead_rxFilled _ _ _ _ _ _ hapart, hread, List.getElem_take]
    exact List.getElem?_eq_getElem hlt
  · rw [memRead_rxFilled _ _ _ _ _ _ hapart]
    exact memRead_memWriteBytes_other _ _ _ _ fun j hj => hbuffer j (hcap ▸ hj)

/-- Settles O30: the descriptor, the buffer, the race and the pointer are looked at in this order. -/
theorem receiveVisitFaults : Obligations.ReceiveVisitFaults := by
  rintro s intr rsvd cmd status f fs _ _ _ hen hwire hacc rfl rfl rfl
  rw [exec_rxdHwown_of_accepted hen hwire intr rsvd cmd status hacc]
  refine ⟨fun a hdesc => ⟨rxOwnedVisit_of_outside _ f hdesc, dmaFault?_eq_some hdesc⟩, fun hdesc =>
    ⟨fun a hbuf => ⟨rxOwnedVisit_of_bufferOutside _ f hdesc hbuf, dmaFault?_eq_some hbuf⟩, fun hbuf =>
      ⟨fun r j hrace => ⟨rxOwnedVisit_of_race _ f hdesc hbuf hrace, rxRace?_eq_some hrace⟩, fun hrace hend hlast => ?_⟩⟩⟩
  exact (rxOwnedVisit_of_noRace _ f hdesc hbuf hrace).trans (rxComplete_of_overrun _ _ hend hlast)

/-! ### The visit of a software-owned slot -/

/-- R543, R544: the first idle visit alone sets RX_IDLE, and RX_FULL_POLICY has the frame dropped or kept. -/
theorem rxFullVisit_eq (b : List Byte) (s : State) :
    rxFullVisit b s = { s with
      wireIn := if rxFullDrops (acceptDraws b) s = true then s.wireIn.tail else s.wireIn
      rx := { s.rx with kick := false, idle := true }
      regs.intrStatus := s.regs.intrStatus ||| (if s.rx.idle = true then 0 else 0x00000080)
      draws := s.draws + (acceptDraws b + rxFullDraws s)
      pins := s.pins.drop (acceptDraws b + rxFullDraws s) } := by
  have h := setStatus_if (¬ s.rx.idle = true) rxIdleBit (drawn (acceptDraws b + rxFullDraws s) { s with
    wireIn := if rxFullDrops (acceptDraws b) s = true then s.wireIn.tail else s.wireIn
    rx := { s.rx with kick := false, idle := true } })
  simp only [ite_not] at h
  exact h

/-- Settles O31: an accepted frame meets RX_FULL_POLICY; one the filter refuses is gone before the slot is looked at. -/
theorem receiveFullAndRefusedVisits : Obligations.ReceiveFullAndRefusedVisits := by
  intro s intr rsvd cmd status f fs hen hwire
  refine ⟨fun hacc => ?_, fun hacc => ?_⟩
  · have hvisit := exec_rxdSwown_of_accepted hen hwire intr rsvd cmd status hacc
    rw [rxFullVisit_eq, hwire, List.tail_cons] at hvisit
    refine ⟨_, hvisit, rfl, fun hdrop => ?_, fun hhold => ?_, fun _ => ?_⟩
    · simp only [rxFullDrops, hdrop, if_true]
    · simp only [rxFullDrops, hhold, Bool.false_eq_true, if_false]
    · exact (ite_eq_or_eq _ _ _)
  · obtain ⟨hswown, hhwown⟩ := exec_rxd_of_refused hen hwire intr rsvd cmd status hacc
    refine ⟨_, hswown, hhwown, ?_⟩
    rw [rxUnaccepted, hwire, List.tail_cons]
    rfl

end Sys2Proof.Machine
end

section
/-!
PROOFS of the family 42_descriptor_rings, HOST's writes of a slot and of its buffer, and RingInit: where the bytes of slots and
buffers stand (R130, R209, R309), what a run of writes of one slot's words leaves (R222, R501), the zeroed rings, the
initialised slot and the ring bases (R504).
-/
namespace Sys2Proof.Machine

/-! ### What the premises say -/

/-- R209: the regions are aligned. -/
theorem regionsOk_aligned {c : Config.Params} (h : regionsOk c = true) (r : Ring) :
    (ringPa c r).toNat % 16 = 0 ∧ (poolPa c r).toNat % 16 = 0 := by
  simp only [regionsOk, Bool.and_eq_true, decide_eq_true_iff] at h
  obtain ⟨⟨⟨⟨⟨⟨⟨⟨⟨⟨⟨⟨⟨htx, hrx⟩, htxPool⟩, hrxPool⟩, -⟩, -⟩, -⟩, -⟩, -⟩, -⟩, -⟩, -⟩, -⟩, -⟩ := h
  cases r
  · exact ⟨htx, htxPool⟩
  · exact ⟨hrx, hrxPool⟩

/-- R12, R13: the sizes of the rings and of the buffers. -/
theorem paramsOk_sizes {c : Config.Params} (h : paramsOk c = true) :
    c.ringLen ≤ 4096 ∧ c.bufSize % 16 = 0 ∧ c.ethMinLen ≤ c.bufSize ∧ c.bufSize ≤ 0xFFFF := by
  simp only [paramsOk, Bool.and_eq_true, decide_eq_true_iff] at h
  obtain ⟨⟨⟨⟨⟨⟨⟨⟨⟨⟨⟨-, hring⟩, hbuf⟩, hmin⟩, hmax⟩, -⟩, -⟩, -⟩, -⟩, -⟩, -⟩, -⟩ := h
  exact ⟨hring, hbuf, hmin, hmax⟩

/-! ### The bytes of slots and buffers -/

section
variable {c : Config.Params} (hregions : regionsOk c = true) {r q : Ring} {i j : Nat} (hi : i < c.ringLen)
include hregions hi

theorem descByte_toNat {k : Nat} (hk : k < 16) :
    (descAddr (ringPa c r) i .psize + BitVec.ofNat 32 k).toNat = (ringPa c r).toNat + 16 * i + k := by
  have htop := (regionFacts hregions).ringTop r
  rw [BitVec.toNat_add, BitVec.toNat_ofNat, descAddr_toNat (regionFacts hregions) hi]
  simp only [ringSpan, wordIndex] at htop ⊢
  omega

theorem bufByte_toNat {k : Nat} (hk : k < c.bufSize) :
    (bufAddr c r i + BitVec.ofNat 32 k).toNat = (poolPa c r).toNat + i * c.bufSize + k := by
  have htop := (regionFacts hregions).poolTop r
  have hend := buf_le hi
  rw [BitVec.toNat_add, BitVec.toNat_ofNat, bufAddr_toNat (regionFacts hregions) hi]
  omega

/-- R209: a ring and a pool share no byte. -/
theorem descByte_ne_bufByte (hj : j < c.ringLen) {k l : Nat} (hk : k < 16) (hl : l < c.bufSize) :
    descAddr (ringPa c r) i .psize + BitVec.ofNat 32 k ≠ bufAddr c q j + BitVec.ofNat 32 l := by
  intro h
  have haddr := congrArg BitVec.toNat h
  rw [descByte_toNat hregions hi hk, bufByte_toNat hregions hj hl] at haddr
  have hapart := (regionFacts hregions).ringPool r q
  have hend := buf_le hj
  simp only [ringSpan] at hapart
  omega

/-- R209: the two rings share no byte. -/
theorem descByte_ne_descByte (hj : j < c.ringLen) (hrings : r ≠ q) {k l : Nat} (hk : k < 16) (hl : l < 16) :
    descAddr (ringPa c r) i .psize + BitVec.ofNat 32 k ≠ descAddr (ringPa c q) j .psize + BitVec.ofNat 32 l := by
  intro h
  have haddr := congrArg BitVec.toNat h
  rw [descByte_toNat hregions hi hk, descByte_toNat hregions hj hl] at haddr
  have hapart := (regionFacts hregions).rings r q hrings
  simp only [ringSpan] at hapart
  omega

end

/-- A descriptor's words are those of its sixteen bytes. -/
theorem descGet_congr {m : Config.RegMap} {mem mem' : Memory} {base : Word} {i : Nat}
    (h : ∀ k, k < 16 → memRead mem' (descAddr base i .psize + BitVec.ofNat 32 k) =
      memRead mem (descAddr base i .psize + BitVec.ofNat 32 k)) (w : DescWord) :
    descGet m mem' base i w = descGet m mem base i w := by
  refine congrArg (m.ofBus (.desc w)) (memReadWord_congr _ _ _ fun k hk => ?_)
  have hw := wordIndex_lt w
  rw [descAddr_add]
  exact h _ (by omega)

/-! ### A run of writes of one slot's words -/

/-- A word of a slot, other than CMDSTS, that HOST may write (R209, R317). -/
def HostWord (p : DescWord × Word) : Prop := p.1 ≠ .cmdsts ∧ descRefusal? p.1 p.2 = none

/-- A write of a word of slot i as a micro-operation of HOST's. -/
def wordOp (ring : Ring) (i : Nat) (p : DescWord × Word) : HostOp := .memWrite ring i p.1 p.2

/-- The writes of words of slot i and then of its CMDSTS (R501). -/
def slotOps (ring : Ring) (i : Nat) (ws : List (DescWord × Word)) (v : Word) : List HostOp :=
  ws.map (wordOp ring i) ++ [.memWrite ring i .cmdsts v]

/-- The memory when words of descriptor i of the ring at `base` are written one after the other. It is
irreducible, so that a comparison of two states does not unfold it down to the bytes. -/
@[irreducible] def putWords (m : Config.RegMap) (base : Word) (i : Nat) (mem : Memory) (ws : List (DescWord × Word)) : Memory :=
  ws.foldl (fun x p => descPut m x base i p.1 p.2) mem

theorem putWords_nil (m : Config.RegMap) (base : Word) (i : Nat) (mem : Memory) : putWords m base i mem [] = mem := by
  rw [putWords, List.foldl_nil]

theorem putWords_cons (m : Config.RegMap) (base : Word) (i : Nat) (mem : Memory) (p : DescWord × Word)
    (ws : List (DescWord × Word)) :
    putWords m base i mem (p :: ws) = putWords m base i (descPut m mem base i p.1 p.2) ws := by
  rw [putWords, putWords, List.foldl_cons]

theorem putWords_append (m : Config.RegMap) (base : Word) (i : Nat) (mem : Memory) (ws vs : List (DescWord × Word)) :
    putWords m base i mem (ws ++ vs) = putWords m base i (putWords m base i mem ws) vs := by
  rw [putWords, putWords, putWords, List.foldl_append]

/-- What word w of a descriptor is when a list of its words is written: the last value written to it, or `old`. -/
def wordAfter (w : DescWord) (old : Word) (ws : List (DescWord × Word)) : Word :=
  ws.foldl (fun x p => if p.1 = w then p.2 else x) old

section
variable {m : Config.RegMap} {base : Word} {i : Nat}

theorem descGet_putWords (mem : Memory) (ws : List (DescWord × Word)) (w : DescWord) :
    descGet m (putWords m base i mem ws) base i w = wordAfter w (descGet m mem base i w) ws := by
  induction ws generalizing mem with
  | nil => rw [putWords_nil, wordAfter, List.foldl_nil]
  | cons p ws ih =>
    rw [putWords_cons]
    have hfirst : descGet m (descPut m mem base i p.1 p.2) base i w =
        if p.1 = w then p.2 else descGet m mem base i w := by
      split
      · rename_i hw
        rw [hw, descGet_descPut_same]
      · rename_i hw
        exact descGet_descPut_other _ _ _ _ _ (Ne.symm hw)
    exact (ih _).trans (congrArg (fun x => wordAfter w x ws) hfirst)

theorem memRead_putWords (mem : Memory) (ws : List (DescWord × Word)) {a : Word}
    (hapart : ∀ k, k < 16 → a ≠ descAddr base i .psize + BitVec.ofNat 32 k) :
    memRead (putWords m base i mem ws) a = memRead mem a := by
  induction ws generalizing mem with
  | nil => rw [putWords_nil]
  | cons p ws ih =>
    rw [putWords_cons]
    refine (ih _).trans (memRead_descPut_other _ _ _ _ _ _ _ fun k hk => ?_)
    have hw := wordIndex_lt p.1
    rw [descAddr_add]
    exact hapart _ (by omega)

end

/-- R209: the words of a slot of one ring leave those of the other ring. -/
theorem descGet_putWords_otherRing {c : Config.Params} (hregions : regionsOk c = true) {r q : Ring} (hrings : q ≠ r)
    {i j : Nat} (hi : i < c.ringLen) (hj : j < c.ringLen) (mem : Memory) (ws : List (DescWord × Word)) (w : DescWord) :
    descGet c.regMap (putWords c.regMap (ringPa c r) i mem ws) (ringPa c q) j w =
      descGet c.regMap mem (ringPa c q) j w :=
  descGet_congr (fun _ hk => memRead_putWords _ _ fun _ hl => descByte_ne_descByte hregions hj hi hrings hk hl) w

section
variable {s : State} {ring : Ring} {i : Nat} {rest : List HostOp} (hregions : regionsOk s.cfg = true)
  (hi : i < s.cfg.ringLen)
include hregions hi

/-- R222, R501: HOST's turn at a word of a slot it owns, or at a CMDSTS. -/
theorem hostTurn_memWrite {w : DescWord} {v : Word} (hok : descRefusal? w v = none)
    (hallowed : w = .cmdsts ∨ slotOwned s ring i = false) (hops : s.ops = .memWrite ring i w v :: rest) :
    hostTurn s = .next { s with
      mem := descPut s.cfg.regMap s.mem (ringPa s.cfg ring) i w v, ops := rest } :=
  (hostTurn_of_ops hops).trans (hostDescWrite_of_noRace (s := { s with ops := rest }) hok
    (race?_desc_of_allowed (s := { s with ops := rest }) hregions hi hallowed))

/-- R222, R501: a run of such turns: the slot stays HOST's, for CMDSTS is not among the words. -/
theorem hostTurns_words {ws : List (DescWord × Word)} (hfree : slotOwned s ring i = false)
    (hws : ws.Forall HostWord) (hops : s.ops = ws.map (wordOp ring i) ++ rest) :
    hostTurns ws.length s = .next { s with
      mem := putWords s.cfg.regMap (ringPa s.cfg ring) i s.mem ws, ops := rest } := by
  induction ws generalizing s with
  | nil => rw [List.length_nil, hostTurns_zero, putWords_nil, ← show s.ops = rest from hops]
  | cons p ws ih =>
    obtain ⟨⟨hword, hok⟩, hrest⟩ := (List.forall_cons HostWord p ws).1 hws
    rw [List.length_cons, putWords_cons, hostTurns_succ (hostTurn_memWrite hregions hi hok (.inr hfree) hops)]
    refine ih hregions hi ?_ hrest rfl
    exact (congrArg ownBit (descGet_descPut_other _ _ _ _ _ (Ne.symm hword))).trans hfree

/-- R501, R502: and CMDSTS last. -/
theorem hostTurns_slot {ws : List (DescWord × Word)} {v : Word} (hfree : slotOwned s ring i = false)
    (hws : ws.Forall HostWord) (hv : descRefusal? .cmdsts v = none)
    (hops : s.ops = slotOps ring i ws v ++ rest) :
    hostTurns (ws.length + 1) s = .next { s with
      mem := putWords s.cfg.regMap (ringPa s.cfg ring) i s.mem (ws ++ [(.cmdsts, v)]), ops := rest } := by
  rw [slotOps, List.append_assoc] at hops
  rw [hostTurns_add (hostTurns_words hregions hi hfree hws hops), putWords_append, putWords_cons, putWords_nil]
  exact hostTurns_one (hostTurn_memWrite (s := { s with
    mem := putWords s.cfg.regMap (ringPa s.cfg ring) i s.mem ws, ops := .memWrite ring i .cmdsts v :: rest })
    hregions hi hv (.inl rfl) rfl)

/-- R222: HOST's turn at the buffer of a slot it owns. -/
theorem hostTurn_bufWrite {off : Nat} {bytes : List Byte} (hfree : slotOwned s ring i = false)
    (hlen : off + bytes.length ≤ s.cfg.bufSize) (hops : s.ops = .bufWrite ring i off bytes :: rest) :
    hostTurn s = .next { s with
      mem := memWriteBytes s.mem (bufAddr s.cfg ring i + BitVec.ofNat 32 off) bytes, ops := rest } := by
  have hrace := race?_buf (s := { s with ops := rest }) (regionFacts hregions) hi hlen hfree
  rw [hostTurn_of_ops hops, runOp, hostBufWrite]
  simp only [hrace]

end

/-! ### The words HOST writes -/

/-- R309: FLAGS of a slot. -/
theorem flagsWord_eq (c : Config.Params) (i : Nat) {len : Nat} (hlen : len ≤ 0xFFFF) :
    flagsWord c i len = BitVec.ofNat 32 len ||| (if i + 1 = c.ringLen then 0x80000000 else 0) := by
  have hext : (BitVec.ofNat 16 len).zeroExtend 32 = BitVec.ofNat 32 len := by
    apply BitVec.eq_of_toNat_eq
    rw [BitVec.zeroExtend, BitVec.toNat_setWidth, BitVec.toNat_ofNat, BitVec.toNat_ofNat]
    omega
  rw [flagsWord, hext, BitVec.or_comm]
  rfl

/-- R309: FLAGS of a TX slot at initialisation have BUFLEN 0. -/
theorem endFlag_eq_flagsWord (c : Config.Params) (i : Nat) : endFlag c i = flagsWord c i 0 := BitVec.or_zero.symm

theorem hostWord_psize (v : Word) : HostWord (.psize, v) := ⟨nofun, rfl⟩

/-- R132: no reserved bit of FLAGS is set. -/
theorem hostWord_flags (c : Config.Params) (i len : Nat) : HostWord (.flags, flagsWord c i len) := by
  have hend : (endFlag c i).extractLsb' 16 15 = 0 := by
    unfold endFlag
    split <;> decide
  have hlen : ((BitVec.ofNat 16 len).zeroExtend 32).extractLsb' 16 15 = 0 := by
    apply BitVec.eq_of_getLsbD_eq
    intro k _
    rw [BitVec.getLsbD_extractLsb', BitVec.zeroExtend, BitVec.getLsbD_setWidth, BitVec.getLsbD_of_ge _ _ (by omega)]
    simp
  have hword : (flagsWord c i len).extractLsb' 16 15 = 0 := by
    rw [flagsWord, BitVec.extractLsb'_or, hend, hlen, BitVec.or_self]
  exact ⟨nofun, if_neg (not_not_intro hword)⟩

/-- R209: the buffers are aligned. -/
theorem hostWord_bufptr {c : Config.Params} (hparams : paramsOk c = true) (hregions : regionsOk c = true) (r : Ring)
    {i : Nat} (hi : i < c.ringLen) : HostWord (.bufptr, bufAddr c r i) := by
  obtain ⟨-, hbuf, -, -⟩ := paramsOk_sizes hparams
  obtain ⟨-, hpool⟩ := regionsOk_aligned hregions r
  have hlow : (bufAddr c r i).extractLsb' 0 4 = 0 := by
    rw [extractLsb'_low_eq_zero_iff, bufAddr_toNat (regionFacts hregions) hi, Nat.add_mod, hpool, Nat.mul_mod, hbuf,
      Nat.mul_zero]
  exact ⟨nofun, if_neg (not_not_intro hlow)⟩

/-! ### The zeroed rings -/

/-- A layout moves bits, so that 0 is 0 in each (R130). -/
theorem ofBus_zero (m : Config.RegMap) (w : DescWord) : m.ofBus (.desc w) 0 = 0 := by
  have hbus : m.toBus (.desc w) 0 = 0 := by
    obtain ⟨f, hf⟩ := getLsbD_toBus m (w := .desc w) Config.LaidOut.noConfusion
    exact BitVec.eq_of_getLsbD_eq fun k _ => by rw [hf, BitVec.ofNat_eq_ofNat, BitVec.getLsbD_zero, BitVec.getLsbD_zero]
  exact (congrArg (m.ofBus _) hbus.symm).trans (ofBus_toBus m _ 0)

theorem descGet_of_zeros {m : Config.RegMap} {mem : Memory} {base : Word} {i n : Nat} (hi : i < n)
    (h : ∀ k, k < 16 * n → memRead mem (base + BitVec.ofNat 32 k) = 0) (w : DescWord) : descGet m mem base i w = 0 := by
  have hw := wordIndex_lt w
  have hbyte (k : Nat) (hk : k < 4) : memRead mem (descAddr base i w + BitVec.ofNat 32 k) = 0 := by
    rw [descAddr, BitVec.add_assoc, ← BitVec.ofNat_add]
    exact h _ (by omega)
  have hword : memReadWord mem (descAddr base i w) = 0 := by
    have h0 := hbyte 0 (by omega)
    rw [BitVec.add_zero] at h0
    exact (congr (congr (congr (congrArg wordOfBytes h0) (hbyte 1 (by omega))) (hbyte 2 (by omega)))
      (hbyte 3 (by omega))).trans (by decide)
  rw [descGet, hword, ofBus_zero]

/-- Zeros written over a zero, or beside it, leave it 0. -/
theorem memRead_zeros {mem : Memory} {n : Nat} (hn : n ≤ 2 ^ 32) (base : Word) {a : Word}
    (h : memRead mem a = 0 ∨ ∃ k, k < n ∧ a = base + BitVec.ofNat 32 k) :
    memRead (memWriteBytes mem base (List.replicate n 0)) a = 0 := by
  by_cases hin : ∃ k, k < n ∧ a = base + BitVec.ofNat 32 k
  · obtain ⟨k, hk, rfl⟩ := hin
    rw [memRead_memWriteBytes_at _ _ _ k (by rwa [List.length_replicate]) (by rwa [List.length_replicate]),
      List.getElem_replicate]
  · rw [memRead_memWriteBytes_other]
    · exact h.resolve_right hin
    · intro k hk he
      exact hin ⟨k, by rwa [List.length_replicate] at hk, he⟩

/-- R504: every byte of both rings is 0, whether or not they lie apart. -/
theorem memRead_zeroRings {s : State} (hlen : s.cfg.ringLen ≤ 4096) (ring : Ring) {k : Nat} (hk : k < 16 * s.cfg.ringLen) :
    memRead (zeroRings s).mem (ringPa s.cfg ring + BitVec.ofNat 32 k) = 0 := by
  refine memRead_zeros (by omega) _ ?_
  cases ring with
  | tx => exact .inl (memRead_zeros (by omega) _ (.inr ⟨k, hk, rfl⟩))
  | rx => exact .inr ⟨k, hk, rfl⟩

theorem descGet_zeroRings {s : State} (hlen : s.cfg.ringLen ≤ 4096) (ring : Ring) {j : Nat} (hj : j < s.cfg.ringLen)
    (w : DescWord) : descGet s.cfg.regMap (zeroRings s).mem (ringPa s.cfg ring) j w = 0 :=
  descGet_of_zeros hj (fun _ hk => memRead_zeroRings hlen ring hk) w

theorem memRead_zeroRings_other {s : State} {a : Word}
    (hapart : ∀ ring k, k < 16 * s.cfg.ringLen → a ≠ ringPa s.cfg ring + BitVec.ofNat 32 k) :
    memRead (zeroRings s).mem a = memRead s.mem a := by
  refine (memRead_memWriteBytes_other _ _ _ _ fun k hk => hapart .rx k ?_).trans
    (memRead_memWriteBytes_other _ _ _ _ fun k hk => hapart .tx k ?_)
  · rwa [List.length_replicate] at hk
  · rwa [List.length_replicate] at hk

/-! ### RingInit -/

/-- R504: HOST's two turns at RingInit, with an allocation that succeeds. -/
theorem hostTurns_ringInit {s : State} {rest : List HostOp} (halloc : s.cfg.allocOk = true)
    (hops : s.ops = .point .ringInit :: rest) :
    hostTurns 2 s = .next { s with
      ctx.allocated := true, ops := .point (.initSlot 0) :: rest, mem := (zeroRings s).mem } := by
  have hpoint : hostTurn s = .next { s with
      ctx.allocated := true, ops := .zeroRings :: .point (.initSlot 0) :: rest } := hostTurn_point hops (if_pos halloc)
  exact (hostTurns_succ hpoint).trans (hostTurns_one rfl)

/-- R504: the words of RX slot i before its release. -/
def rxInitWords (c : Config.Params) (i : Nat) : List (DescWord × Word) :=
  [(.psize, 0), (.bufptr, bufAddr c .rx i), (.flags, flagsWord c i c.bufSize)]

/-- R504: the words of TX slot i before its CMDSTS. -/
def txInitWords (c : Config.Params) (i : Nat) : List (DescWord × Word) :=
  [(.psize, 0), (.bufptr, bufAddr c .tx i), (.flags, flagsWord c i 0)]

/-- R504: the memory when RX slot i is initialised. -/
def rxSlotInitialised (s : State) (i : Nat) : Memory :=
  putWords s.cfg.regMap (ringPa s.cfg .rx) i s.mem (rxInitWords s.cfg i ++ [(.cmdsts, releaseWord 0)])

/-- R504: the memory when slot i of both rings is initialised. -/
def slotsInitialised (s : State) (i : Nat) : Memory :=
  putWords s.cfg.regMap (ringPa s.cfg .tx) i (rxSlotInitialised s i) (txInitWords s.cfg i ++ [(.cmdsts, 0)])

section
variable {s : State} {i : Nat} {rest : List HostOp} (hparams : paramsOk s.cfg = true) (hregions : regionsOk s.cfg = true)
  (hi : i < s.cfg.ringLen)
include hparams hregions hi

/-- R504: HOST's four turns at the words of RX slot i. -/
theorem hostTurns_rxSlotInitialised (hfree : slotOwned s .rx i = false)
    (hops : s.ops = slotOps .rx i (rxInitWords s.cfg i) (releaseWord 0) ++ rest) :
    hostTurns 4 s = .next { s with mem := rxSlotInitialised s i, ops := rest } :=
  hostTurns_slot (ws := rxInitWords s.cfg i) hregions hi hfree
    ⟨hostWord_psize 0, hostWord_bufptr hparams hregions .rx hi, hostWord_flags s.cfg i s.cfg.bufSize⟩ (by decide) hops

/-- R504: and at those of TX slot i. -/
theorem hostTurns_txSlotInitialised (hfree : slotOwned s .tx i = false)
    (hops : s.ops = slotOps .tx i (txInitWords s.cfg i) 0 ++ rest) :
    hostTurns 4 s = .next { s with
      mem := putWords s.cfg.regMap (ringPa s.cfg .tx) i s.mem (txInitWords s.cfg i ++ [(.cmdsts, 0)]), ops := rest } :=
  hostTurns_slot (ws := txInitWords s.cfg i) hregions hi hfree
    ⟨hostWord_psize 0, hostWord_bufptr hparams hregions .tx hi, hostWord_flags s.cfg i 0⟩ (by decide) hops

/-- R501, R504: HOST's nine turns at slot i: the point, then the words of the RX slot, then those of the TX slot, which the
release of the RX slot leaves HOST's. -/
theorem hostTurns_initSlot (hrx : slotOwned s .rx i = false) (htx : slotOwned s .tx i = false)
    (hops : s.ops = .point (.initSlot i) :: rest) :
    hostTurns 9 s = .next { s with mem := slotsInitialised s i, ops := .point (.initSlot (i + 1)) :: rest } := by
  have hslot : slotInitOps s.cfg i =
      slotOps .rx i (rxInitWords s.cfg i) (releaseWord 0) ++ slotOps .tx i (txInitWords s.cfg i) 0 := by
    rw [slotInitOps, endFlag_eq_flagsWord]
    rfl
  have hpoint : hostTurn s = .next { s with ops := slotInitOps s.cfg i ++ [.point (.initSlot (i + 1))] ++ rest } :=
    hostTurn_point hops (if_pos hi)
  rw [hslot, List.append_assoc, List.append_assoc] at hpoint
  have hword : descGet s.cfg.regMap (rxSlotInitialised s i) (ringPa s.cfg .tx) i .cmdsts = slotWord s .tx i .cmdsts :=
    descGet_putWords_otherRing hregions (by decide) hi hi _ _ _
  have hfree : ownBit (descGet s.cfg.regMap (rxSlotInitialised s i) (ringPa s.cfg .tx) i .cmdsts) = false := by
    rw [hword]
    exact htx
  have hrxTurns := hostTurns_rxSlotInitialised (s := { s with
    ops := slotOps .rx i (rxInitWords s.cfg i) (releaseWord 0) ++
      (slotOps .tx i (txInitWords s.cfg i) 0 ++ (.point (.initSlot (i + 1)) :: rest)) }) hparams hregions hi hrx rfl
  have htxTurns := hostTurns_txSlotInitialised (s := { s with
    mem := rxSlotInitialised s i
    ops := slotOps .tx i (txInitWords s.cfg i) 0 ++ (.point (.initSlot (i + 1)) :: rest) }) hparams hregions hi hfree rfl
  exact (hostTurns_succ hpoint).trans ((hostTurns_add hrxTurns).trans htxTurns)

end

/-- R309, R504: the words of RX slot i are those written to it, which the writes of the TX slot leave. -/
theorem descGet_slotsInitialised_rx {s : State} (hregions : regionsOk s.cfg = true) {i : Nat} (hi : i < s.cfg.ringLen)
    {w : DescWord} {v : Word}
    (hv : ∀ old, wordAfter w old (rxInitWords s.cfg i ++ [(.cmdsts, releaseWord 0)]) = v) :
    descGet s.cfg.regMap (slotsInitialised s i) (ringPa s.cfg .rx) i w = v :=
  (descGet_putWords_otherRing hregions (by decide) hi hi ..).trans ((descGet_putWords ..).trans (hv _))

/-- R309, R504: TX slot i is written last. -/
theorem descGet_slotsInitialised_tx (s : State) (i : Nat) {w : DescWord} {v : Word}
    (hv : ∀ old, wordAfter w old (txInitWords s.cfg i ++ [(.cmdsts, 0)]) = v) :
    descGet s.cfg.regMap (slotsInitialised s i) (ringPa s.cfg .tx) i w = v :=
  (descGet_putWords ..).trans (hv _)

/-- R309, R504: no byte but those of the two descriptors is written. -/
theorem memRead_slotsInitialised {s : State} {i : Nat} {a : Word}
    (hapart : ∀ ring k, k < 16 → a ≠ slotAddr s ring i .psize + BitVec.ofNat 32 k) :
    memRead (slotsInitialised s i) a = memRead s.mem a :=
  (memRead_putWords _ _ fun k hk => hapart .tx k hk).trans (memRead_putWords _ _ fun k hk => hapart .rx k hk)

/-- R209, R504: HOST's two writes of the ring bases. -/
theorem hostTurns_ringBases {s : State} {rest : List HostOp} (hregions : regionsOk s.cfg = true)
    (hopen : windowOpen s = true) (hhandle : s.ctx.regHandle ≠ none)
    (hops : s.ops = [.wr32 .txDescBase s.cfg.txRingPa, .wr32 .rxDescBase s.cfg.rxRingPa] ++ rest) :
    hostTurns 2 s = .next { s with
      regs.txDescBase := s.cfg.txRingPa, regs.rxDescBase := s.cfg.rxRingPa, ops := rest } := by
  obtain ⟨htx, -⟩ := regionsOk_aligned hregions .tx
  obtain ⟨hrx, -⟩ := regionsOk_aligned hregions .rx
  have hfirst : hostTurn s = .next { s with
      regs.txDescBase := s.cfg.txRingPa, ops := .wr32 .rxDescBase s.cfg.rxRingPa :: rest } :=
    (hostTurn_wr32_open hopen hhandle hops).trans (congrArg _ (writeEffect_ringBase _ htx).1)
  rw [hostTurns_succ hfirst]
  refine hostTurns_one ((hostTurn_wr32_open ?_ ?_ rfl).trans (congrArg _ (writeEffect_ringBase _ hrx).2))
  · exact hopen
  · exact hhandle

/-- R504: HOST's four turns after the last slot. -/
theorem hostTurns_initLast {s : State} {rest : List HostOp} (hregions : regionsOk s.cfg = true)
    (hopen : windowOpen s = true) (hhandle : s.ctx.regHandle ≠ none)
    (hops : s.ops = .point (.initSlot s.cfg.ringLen) :: rest) :
    hostTurns 4 s = .next { s with
      ctx.txCursor := some 0, ctx.rxCursor := some 0
      regs.txDescBase := s.cfg.txRingPa, regs.rxDescBase := s.cfg.rxRingPa, ops := rest } := by
  have hlast : hostTurn s = .next { s with
      ops := [.point .zeroCursors, .wr32 .txDescBase s.cfg.txRingPa, .wr32 .rxDescBase s.cfg.rxRingPa] ++ rest } :=
    hostTurn_point hops (if_neg (Nat.lt_irrefl _))
  have hcursors : hostTurns 2 s = .next { s with
      ctx.txCursor := some 0, ctx.rxCursor := some 0
      ops := [.wr32 .txDescBase s.cfg.txRingPa, .wr32 .rxDescBase s.cfg.rxRingPa] ++ rest } :=
    (hostTurns_succ hlast).trans (hostTurns_one rfl)
  refine (hostTurns_add hcursors).trans (hostTurns_ringBases ?_ ?_ ?_ rfl)
  · exact hregions
  · exact hopen
  · exact hhandle

/-- Settles O35: the allocation test, `zeroRings`, the words of slot i of both rings, and the writes after the last slot. -/
theorem ringInitialisation : Obligations.RingInitialisation := by
  intro s i rest hparams
  obtain ⟨hlen, -, -, hbuf⟩ := paramsOk_sizes hparams
  refine ⟨fun hops => ⟨fun halloc => ?_, fun halloc => ?_⟩, fun hregions hi hops hrx htx => ?_,
    fun hregions hopen hhandle hi hops => hostTurns_initLast hregions hopen hhandle (hi ▸ hops)⟩
  · exact (hostTurn_of_ops hops).trans (if_neg (ne_true_of_eq_false halloc))
  · exact ⟨_, hostTurns_ringInit halloc hops, rfl,
      fun ring j w hj => descGet_zeroRings hlen ring hj w,
      fun a hapart => memRead_zeroRings_other hapart⟩
  · refine ⟨{ s with mem := slotsInitialised s i, ops := .point (.initSlot (i + 1)) :: rest },
      hostTurns_initSlot hparams hregions hi hrx htx hops, rfl, ?_, ?_, ?_, ?_, ?_, ?_, ?_, ?_,
      fun a hapart => memRead_slotsInitialised hapart⟩
    · exact descGet_slotsInitialised_rx hregions hi fun _ => rfl
    · exact descGet_slotsInitialised_rx hregions hi fun _ => rfl
    · exact descGet_slotsInitialised_rx hregions hi fun _ => rfl
    · exact descGet_slotsInitialised_rx hregions hi fun _ => flagsWord_eq _ _ hbuf
    · exact descGet_slotsInitialised_tx s i fun _ => rfl
    · exact descGet_slotsInitialised_tx s i fun _ => rfl
    · exact descGet_slotsInitialised_tx s i fun _ => rfl
    · exact descGet_slotsInitialised_tx s i fun _ => (endFlag_eq_flagsWord _ _).symm

end Sys2Proof.Machine
end

section
/-!
PROOFS of the family 42_descriptor_rings, HOST's SEND and RECV: the tests, the frame in the slot's buffer, the release of the
slot, the recycling of a received slot, and the kick (R506 to R508, R530 to R533, R906, R908).
-/
namespace Sys2Proof.Machine

/-! ### Reads of a slot -/

section
variable {s : State} {ring : Ring} {i : Nat} {rest : List HostOp}

/-- R222: HOST reads CMDSTS whoever owns the slot. -/
theorem hostTurn_memRead_cmdsts (hops : s.ops = .memRead ring i .cmdsts :: rest) :
    hostTurn s = .next { s with hostT := slotWord s ring i .cmdsts, ops := rest } :=
  (hostTurn_of_ops hops).trans (congrArg _ (if_neg fun hword => hword.1 rfl))

/-- R222: and every word of a slot that HOST owns. -/
theorem hostTurn_memRead_free (hfree : slotOwned s ring i = false) {w : DescWord} (hops : s.ops = .memRead ring i w :: rest) :
    hostTurn s = .next { s with hostT := slotWord s ring i w, ops := rest } :=
  (hostTurn_of_ops hops).trans (congrArg _ (if_neg fun hword => absurd hword.2 (ne_true_of_eq_false hfree)))

/-- R222, R530: and the buffer of such a slot. -/
theorem hostTurn_bufRead {k : Nat} (hfree : slotOwned s .rx i = false) (hops : s.ops = .bufRead i k :: rest) :
    hostTurn s = .next { s with dst := memReadBytes s.mem (bufAddr s.cfg .rx i) k, ops := rest } :=
  (hostTurn_of_ops hops).trans (congrArg _ (if_neg (ne_true_of_eq_false hfree)))

end

/-! ### The tests of SEND and RECV -/

/-- R506, R908: with a payload that fits and a negotiated link SEND begins with the read of CMDSTS at its cursor. -/
theorem exec_entrySend_starts {s : State} (hops : s.ops = []) {p : List Byte} (hp : p ≠ [])
    (hlink : s.ctx.autonegDone = true) (hfits : p.length ≤ s.cfg.bufSize) {c : Nat} (hc : s.ctx.txCursor = some c) :
    exec (.entrySend p) s =
      .next { s with ops := [.memRead .tx c .cmdsts, .point (.sendOwn p c)], ret := none } := by
  have hready : ¬ (!s.ctx.autonegDone) = true := by rw [hlink]; decide
  calc exec (.entrySend p) s
    _ = _ := whenIdle_idle hops _
    _ = _ := if_neg hp
    _ = _ := if_neg hready
    _ = _ := if_neg (Nat.not_lt.2 hfits)
    _ = _ := withField_set hc _ _

/-- R530: RECV begins with the read of CMDSTS at its cursor. -/
theorem exec_entryRecv_starts {s : State} (hops : s.ops = []) (maxLen : Nat) {c : Nat} (hc : s.ctx.rxCursor = some c) :
    exec (.entryRecv maxLen) s =
      .next { s with ops := [.memRead .rx c .cmdsts, .point (.recvOwn c maxLen)], ret := none } :=
  (whenIdle_idle hops _).trans (withField_set hc _ _)

/-- R506: the entry point gives up at a hardware-owned slot, after its read of CMDSTS. -/
theorem hostTurns_giveUp {s : State} (hops : s.ops = []) {ring : Ring} {c : Nat} {p : HostPoint} {r : HostReturn}
    (hpoint : ∀ t : State, ownBit t.hostT = true → runPoint p t = .next (finish r t))
    (howned : slotOwned s ring c = true) :
    hostTurns 2 { s with ops := [.memRead ring c .cmdsts, .point p], ret := none } =
      .next { s with hostT := slotWord s ring c .cmdsts, ret := some r } := by
  have hread : hostTurn { s with ops := [.memRead ring c .cmdsts, .point p], ret := none } =
      .next { s with hostT := slotWord s ring c .cmdsts, ops := [.point p], ret := none } :=
    hostTurn_memRead_cmdsts rfl
  have hdone : hostTurn { s with hostT := slotWord s ring c .cmdsts, ops := [.point p], ret := none } =
      .next { s with hostT := slotWord s ring c .cmdsts, ops := [], ret := some r } :=
    hostTurn_point rfl (hpoint { s with hostT := slotWord s ring c .cmdsts, ops := [], ret := none } howned)
  rw [hops]
  exact (hostTurns_succ hread).trans (hostTurns_one hdone)

/-- Settles O40: the tests in their order, and the two turns at a hardware-owned slot. -/
theorem sendTests : Obligations.SendTests := by
  intro s p hops
  refine ⟨fun hp => (whenIdle_idle hops _).trans (if_pos hp), fun hp hlink => exec_entrySend_busy hops hlink hp,
    fun hp hlink hlong => ?_, fun hp hlink hfits c hc => ?_⟩
  · have hready : ¬ (!s.ctx.autonegDone) = true := by rw [hlink]; decide
    exact (whenIdle_idle hops _).trans ((if_neg hp).trans ((if_neg hready).trans (if_pos hlong)))
  · exact ⟨_, exec_entrySend_starts hops hp hlink hfits hc, rfl,
      hostTurns_giveUp hops fun _ howned => if_pos howned⟩

/-- Settles O42: the cursor, the read of CMDSTS, and the two turns at a hardware-owned slot. -/
theorem receiveEmpty : Obligations.ReceiveEmpty := by
  intro s maxLen hops
  exact ⟨fun hc => (whenIdle_idle hops _).trans (withField_unset hc _ _), fun c hc =>
    ⟨_, exec_entryRecv_starts hops maxLen hc, rfl, hostTurns_giveUp hops fun _ howned => if_pos howned⟩⟩

/-! ### The kick -/

/-- R320, R521: the word of a kick turns an engine on and kicks it. -/
theorem engineControl_kick {cfg : Word} (hcfg : cfg &&& ~~~cfgMask = 0) (e : Engine) (base : Word) :
    engineControl e base (cfg ||| 0x00000011#32) = kickedEngine e base := by
  obtain ⟨henb, hpoll⟩ := cfg_enb_poll hcfg
  rw [engineControl_eq, if_pos (by rw [BitVec.getLsbD_or, henb]; decide),
    if_pos (by rw [BitVec.getLsbD_or, hpoll]; decide)]

section
variable {s : State} (hparams : paramsOk s.cfg = true) (hopen : windowOpen s = true) (hhandle : s.ctx.regHandle ≠ none)
include hparams hopen hhandle

/-- R520, R521: HOST's turn at the kick of the TX engine. -/
theorem hostTurn_txKick {rest : List HostOp} (hops : s.ops = kickOp s.cfg .tx :: rest) :
    hostTurn s = .next { s with
      regs.txCfg := s.cfg.txCfg, tx := kickedEngine s.tx s.regs.txDescBase, ops := rest } := by
  obtain ⟨hcfg, -⟩ := paramsOk_cfg hparams
  have hkick : writeEffect .txControl (s.cfg.txCfg ||| 0x00000011#32) { s with ops := rest } = { s with
      regs.txCfg := (s.cfg.txCfg ||| 0x00000011#32) &&& cfgMask
      tx := engineControl s.tx s.regs.txDescBase (s.cfg.txCfg ||| 0x00000011#32), ops := rest } := rfl
  rw [hostTurn_wr32_open hopen hhandle hops, hkick, or_and_cfgMask hcfg (by decide), engineControl_kick hcfg]

/-- R506, R520, R521: SEND's last three turns. -/
theorem hostTurns_txHandOver {c : Nat} {r : HostReturn}
    (hops : s.ops = [.point (.advanceCursor .tx c), kickOp s.cfg .tx, .point (.finish r)]) :
    hostTurns 3 s = .next { s with
      regs.txCfg := s.cfg.txCfg, tx := kickedEngine s.tx s.regs.txDescBase
      ctx.txCursor := some ((c + 1) % s.cfg.ringLen), ops := [], ret := some r } := by
  have hcursor : hostTurn s = .next { s with
      ctx.txCursor := some ((c + 1) % s.cfg.ringLen), ops := [kickOp s.cfg .tx, .point (.finish r)] } :=
    hostTurn_point hops rfl
  have hkick := hostTurn_txKick (s := { s with
    ctx.txCursor := some ((c + 1) % s.cfg.ringLen), ops := [kickOp s.cfg .tx, .point (.finish r)] })
    hparams hopen hhandle rfl
  exact (hostTurns_succ hcursor).trans ((hostTurns_succ hkick).trans (hostTurns_one rfl))

/-- R520, R521: HOST's turn at the kick of the RX engine. -/
theorem hostTurn_rxKick {rest : List HostOp} (hops : s.ops = kickOp s.cfg .rx :: rest) :
    hostTurn s = .next { s with
      regs.rxCfg := s.cfg.rxCfg, rx := kickedEngine s.rx s.regs.rxDescBase, ops := rest } := by
  obtain ⟨-, hcfg⟩ := paramsOk_cfg hparams
  have hkick : writeEffect .rxControl (s.cfg.rxCfg ||| 0x00000011#32) { s with ops := rest } = { s with
      regs.rxCfg := (s.cfg.rxCfg ||| 0x00000011#32) &&& cfgMask
      rx := engineControl s.rx s.regs.rxDescBase (s.cfg.rxCfg ||| 0x00000011#32), ops := rest } := rfl
  rw [hostTurn_wr32_open hopen hhandle hops, hkick, or_and_cfgMask hcfg (by decide), engineControl_kick hcfg]

/-- R530, R520, R521: RECV's last three turns. -/
theorem hostTurns_rxHandOver {c : Nat} {r : HostReturn}
    (hops : s.ops = [.point (.advanceCursor .rx c), kickOp s.cfg .rx, .point (.finish r)]) :
    hostTurns 3 s = .next { s with
      regs.rxCfg := s.cfg.rxCfg, rx := kickedEngine s.rx s.regs.rxDescBase
      ctx.rxCursor := some ((c + 1) % s.cfg.ringLen), ops := [], ret := some r } := by
  have hcursor : hostTurn s = .next { s with
      ctx.rxCursor := some ((c + 1) % s.cfg.ringLen), ops := [kickOp s.cfg .rx, .point (.finish r)] } :=
    hostTurn_point hops rfl
  have hkick := hostTurn_rxKick (s := { s with
    ctx.rxCursor := some ((c + 1) % s.cfg.ringLen), ops := [kickOp s.cfg .rx, .point (.finish r)] })
    hparams hopen hhandle rfl
  exact (hostTurns_succ hcursor).trans ((hostTurns_succ hkick).trans (hostTurns_one rfl))

end

/-! ### Recycle -/

/-- R532: the words of a recycled slot before its release. -/
def recycleWords (c : Config.Params) (i : Nat) : List (DescWord × Word) :=
  [(.psize, 0), (.flags, flagsWord c i c.bufSize), (.bufptr, bufAddr c .rx i)]

/-- R532: the memory when RX slot i is recycled. -/
def recycled (s : State) (i : Nat) : Memory :=
  putWords s.cfg.regMap (ringPa s.cfg .rx) i s.mem (recycleWords s.cfg i ++ [(.cmdsts, releaseWord 0)])

/-- R532: HOST's four turns at a slot that it recycles. -/
theorem hostTurns_recycle {s : State} {i : Nat} {rest : List HostOp} (hparams : paramsOk s.cfg = true)
    (hregions : regionsOk s.cfg = true) (hi : i < s.cfg.ringLen) (hfree : slotOwned s .rx i = false)
    (hops : s.ops = recycleOps s.cfg i ++ rest) :
    hostTurns 4 s = .next { s with mem := recycled s i, ops := rest } :=
  hostTurns_slot (ws := recycleWords s.cfg i) hregions hi hfree
    ⟨hostWord_psize 0, hostWord_flags s.cfg i s.cfg.bufSize, hostWord_bufptr hparams hregions .rx hi⟩ (by decide) hops

/-- R309, R502, R532: the words of a recycled slot, and the bytes outside it. -/
theorem recycled_slot {s : State} (hparams : paramsOk s.cfg = true) (i : Nat) :
    descGet s.cfg.regMap (recycled s i) (ringPa s.cfg .rx) i .psize = 0 ∧
    descGet s.cfg.regMap (recycled s i) (ringPa s.cfg .rx) i .cmdsts = 0xC0000000 ∧
    descGet s.cfg.regMap (recycled s i) (ringPa s.cfg .rx) i .bufptr =
      s.cfg.rxPoolPa + BitVec.ofNat 32 (i * s.cfg.bufSize) ∧
    descGet s.cfg.regMap (recycled s i) (ringPa s.cfg .rx) i .flags =
      BitVec.ofNat 32 s.cfg.bufSize ||| (if i + 1 = s.cfg.ringLen then 0x80000000 else 0) ∧
    ∀ a : Word, (∀ j, j < 16 → a ≠ slotAddr s .rx i .psize + BitVec.ofNat 32 j) →
      memRead (recycled s i) a = memRead s.mem a := by
  obtain ⟨-, -, -, hbuf⟩ := paramsOk_sizes hparams
  have hword {w : DescWord} {v : Word}
      (hv : ∀ old, wordAfter w old (recycleWords s.cfg i ++ [(.cmdsts, releaseWord 0)]) = v) :
      descGet s.cfg.regMap (recycled s i) (ringPa s.cfg .rx) i w = v := (descGet_putWords ..).trans (hv _)
  exact ⟨hword fun _ => rfl, hword fun _ => rfl, hword fun _ => rfl, hword fun _ => flagsWord_eq _ _ hbuf,
    fun a hapart => memRead_putWords _ _ hapart⟩

/-! ### RECV -/

/-- R530: RECV's first two turns at a slot that HOST owns: it reads CMDSTS and looks at the frame. -/
theorem hostTurns_recvFrame {s t : State} {c maxLen : Nat} (hfree : slotOwned s .rx c = false)
    (hframe : recvFrame c maxLen { s with hostT := slotWord s .rx c .cmdsts, ops := [], ret := none } = .next t) :
    hostTurns 2 { s with ops := [.memRead .rx c .cmdsts, .point (.recvOwn c maxLen)], ret := none } = .next t := by
  have hread : hostTurn { s with ops := [.memRead .rx c .cmdsts, .point (.recvOwn c maxLen)], ret := none } =
      .next { s with hostT := slotWord s .rx c .cmdsts, ops := [.point (.recvOwn c maxLen)], ret := none } :=
    hostTurn_memRead_cmdsts rfl
  have hpoint : hostTurn { s with
      hostT := slotWord s .rx c .cmdsts, ops := [.point (.recvOwn c maxLen)], ret := none } = .next t :=
    hostTurn_point rfl ((if_neg (ne_true_of_eq_false hfree)).trans hframe)
  exact (hostTurns_succ hread).trans (hostTurns_one hpoint)

section
variable {s : State} {c maxLen k : Nat} {rest : List HostOp} (hfree : slotOwned s .rx c = false)
include hfree

/-- R530: the next three turns at a good frame: its byte count, and the copy of its bytes to the caller. -/
theorem hostTurns_recvCopy (hlen : min (byteCount (slotWord s .rx c .psize)) maxLen = k)
    (hops : s.ops = [.memRead .rx c .psize, .point (.recvLength c maxLen)]) :
    hostTurns 3 s = .next { s with
      hostT := slotWord s .rx c .psize, dst := memReadBytes s.mem (bufAddr s.cfg .rx c) k
      ops := recycleOps s.cfg c ++
        [.point (.advanceCursor .rx c), kickOp s.cfg .rx, .point (.finish (.received k))] } := by
  subst hlen
  have hread := hostTurn_memRead_free hfree hops
  have hlength : hostTurn { s with hostT := slotWord s .rx c .psize, ops := [.point (.recvLength c maxLen)] } = .next { s with
      hostT := slotWord s .rx c .psize
      ops := .bufRead c (min (byteCount (slotWord s .rx c .psize)) maxLen) :: (recycleOps s.cfg c ++
        [.point (.advanceCursor .rx c), kickOp s.cfg .rx,
          .point (.finish (.received (min (byteCount (slotWord s .rx c .psize)) maxLen)))]) } :=
    hostTurn_point rfl rfl
  have hcopy := hostTurn_bufRead (s := { s with
      hostT := slotWord s .rx c .psize
      ops := .bufRead c (min (byteCount (slotWord s .rx c .psize)) maxLen) :: (recycleOps s.cfg c ++
        [.point (.advanceCursor .rx c), kickOp s.cfg .rx,
          .point (.finish (.received (min (byteCount (slotWord s .rx c .psize)) maxLen)))]) }) hfree rfl
  exact (hostTurns_succ hread).trans ((hostTurns_succ hlength).trans (hostTurns_one hcopy))

end

/-- Settles O43: twelve turns: the tests, the copy, the recycling of the slot, and the kick. -/
theorem receiveDeliversFrame : Obligations.ReceiveDeliversFrame := by
  intro s maxLen c k hops hparams hregions hopen hhandle hc hi hfree hgood hlen
  have hframe : recvFrame c maxLen { s with hostT := slotWord s .rx c .cmdsts, ops := [], ret := none } = .next { s with
      hostT := slotWord s .rx c .cmdsts
      ops := [.memRead .rx c .psize, .point (.recvLength c maxLen)], ret := none } :=
    if_neg (ne_true_of_eq_false hgood)
  have hcopy := hostTurns_recvCopy (s := { s with
    hostT := slotWord s .rx c .cmdsts
    ops := [.memRead .rx c .psize, .point (.recvLength c maxLen)], ret := none }) hfree hlen rfl
  have hrecycle := hostTurns_recycle (s := { s with
    hostT := slotWord s .rx c .psize, dst := memReadBytes s.mem (bufAddr s.cfg .rx c) k
    ops := recycleOps s.cfg c ++ [.point (.advanceCursor .rx c), kickOp s.cfg .rx, .point (.finish (.received k))]
    ret := none }) hparams hregions hi hfree rfl
  have hdone := hostTurns_rxHandOver (s := { s with
    mem := recycled s c, hostT := slotWord s .rx c .psize, dst := memReadBytes s.mem (bufAddr s.cfg .rx c) k
    ops := [.point (.advanceCursor .rx c), kickOp s.cfg .rx, .point (.finish (.received k))], ret := none })
    hparams hopen hhandle rfl
  refine ⟨_, _, exec_entryRecv_starts hops maxLen hc, (hostTurns_add (hostTurns_recvFrame hfree hframe)).trans
    ((hostTurns_add hcopy).trans ((hostTurns_add hrecycle).trans hdone)), ?_, rfl, recycled_slot hparams c⟩
  rw [← hops]
  rfl

/-- R531, R533: what RECV's error path does to the receive side after the recycling, by RX_ERR_ADVANCE. -/
def errorPathDone (s : State) (c : Nat) : State :=
  { s with
    regs.rxCfg := if s.cfg.rxErrAdvance = true then s.cfg.rxCfg else s.regs.rxCfg
    rx := if s.cfg.rxErrAdvance = false then s.rx else kickedEngine s.rx s.regs.rxDescBase
    ctx.rxCursor := some (if s.cfg.rxErrAdvance = true then (c + 1) % s.cfg.ringLen else c)
    ops := [], ret := some .empty }

/-- R531, R533: the turns after the recycling: the cursor and the kick only with RX_ERR_ADVANCE. -/
theorem exists_hostTurns_errorPath {s : State} {c : Nat} (hparams : paramsOk s.cfg = true) (hopen : windowOpen s = true)
    (hhandle : s.ctx.regHandle ≠ none) (hc : s.ctx.rxCursor = some c)
    (hops : s.ops = (if s.cfg.rxErrAdvance then [.point (.advanceCursor .rx c), kickOp s.cfg .rx] else []) ++
      [.point (.finish .empty)]) :
    ∃ n, hostTurns n s = .next (errorPathDone s c) := by
  unfold errorPathDone
  cases hadv : s.cfg.rxErrAdvance with
  | true =>
    rw [hadv] at hops
    exact ⟨3, hostTurns_rxHandOver hparams hopen hhandle hops⟩
  | false =>
    rw [hadv] at hops
    refine ⟨1, hostTurns_one ((hostTurn_point hops rfl).trans ?_)⟩
    simp only [if_true, Bool.false_eq_true, if_false, ← hc]
    rfl

/-- Settles O44: the tests, the recycling of the slot, and the turns that RX_ERR_ADVANCE asks for. -/
theorem receiveCountsBadFrame : Obligations.ReceiveCountsBadFrame := by
  intro s maxLen c hops hparams hregions hopen hhandle hc hi hfree hbad
  have hframe : recvFrame c maxLen { s with hostT := slotWord s .rx c .cmdsts, ops := [], ret := none } = .next { s with
      hostT := slotWord s .rx c .cmdsts, ctx.rxErrors := s.ctx.rxErrors + 1
      ops := recycleOps s.cfg c ++
        ((if s.cfg.rxErrAdvance then [.point (.advanceCursor .rx c), kickOp s.cfg .rx] else []) ++
          [.point (.finish .empty)])
      ret := none } := by
    refine (if_pos hbad).trans ?_
    rw [pushOps, List.append_nil, List.append_assoc]
  have hrecycle := hostTurns_recycle (s := { s with
    hostT := slotWord s .rx c .cmdsts, ctx.rxErrors := s.ctx.rxErrors + 1
    ops := recycleOps s.cfg c ++
      ((if s.cfg.rxErrAdvance then [.point (.advanceCursor .rx c), kickOp s.cfg .rx] else []) ++
        [.point (.finish .empty)])
    ret := none }) hparams hregions hi hfree rfl
  obtain ⟨n, hdone⟩ := exists_hostTurns_errorPath (s := { s with
    mem := recycled s c, hostT := slotWord s .rx c .cmdsts, ctx.rxErrors := s.ctx.rxErrors + 1
    ops := (if s.cfg.rxErrAdvance then [.point (.advanceCursor .rx c), kickOp s.cfg .rx] else []) ++
      [.point (.finish .empty)]
    ret := none }) hparams hopen hhandle hc rfl
  refine ⟨_, _, _, exec_entryRecv_starts hops maxLen hc, (hostTurns_add (hostTurns_recvFrame hfree hframe)).trans
    ((hostTurns_add hrecycle).trans hdone), ?_, rfl, recycled_slot hparams c⟩
  rw [errorPathDone, ← hops]
  rfl

end Sys2Proof.Machine
end

section
/-!
PROOFS of the family 42_descriptor_rings, SEND to a free slot: the padded payload in the slot's buffer, the released
descriptor, the cursor and the kick (R502, R506 to R508, R520, R521).
-/
namespace Sys2Proof.Machine

/-! ### The frame in the buffer -/

/-- R508: the payload and zeros up to the Ethernet minimum. -/
def padded (c : Config.Params) (p : List Byte) : List Byte :=
  p ++ List.replicate (max p.length c.ethMinLen - p.length) 0

theorem padded_length (c : Config.Params) (p : List Byte) : (padded c p).length = max p.length c.ethMinLen := by
  rw [padded, List.length_append, List.length_replicate]
  omega

theorem padded_of_not_short {c : Config.Params} {p : List Byte} (h : ¬ p.length < max p.length c.ethMinLen) :
    padded c p = p := by
  rw [padded, Nat.sub_eq_zero_of_le (Nat.not_lt.1 h), List.replicate_zero, List.append_nil]

/-- R506, R508: SEND's writes of the buffer. -/
def bufferOps (cfg : Config.Params) (p : List Byte) (c : Nat) : List HostOp :=
  [.bufWrite .tx c 0 p] ++
    (if p.length < max p.length cfg.ethMinLen then
      [.bufWrite .tx c p.length (List.replicate (max p.length cfg.ethMinLen - p.length) 0)] else [])

/-- R507: the words of a TX slot before its release. -/
def sendWords (cfg : Config.Params) (p : List Byte) (c : Nat) : List (DescWord × Word) :=
  [(.psize, BitVec.ofNat 32 (max p.length cfg.ethMinLen)), (.flags, flagsWord cfg c (max p.length cfg.ethMinLen))]

theorem sendOps_eq (cfg : Config.Params) (p : List Byte) (c : Nat) :
    sendOps cfg p c = bufferOps cfg p c ++ ((sendWords cfg p c).map (wordOp .tx c) ++ [.point (.sendRelease c)]) := rfl

/-- R506: the memory with the frame in the buffer of TX slot c. -/
def frameStored (s : State) (p : List Byte) (c : Nat) : Memory :=
  memWriteBytes s.mem (bufAddr s.cfg .tx c) (padded s.cfg p)

/-- R209: a frame in a buffer changes no descriptor. -/
theorem descGet_memWriteBytes_buffer {c : Config.Params} (hregions : regionsOk c = true) {r q : Ring} {i j : Nat}
    (hi : i < c.ringLen) (hj : j < c.ringLen) (mem : Memory) {bytes : List Byte} (hlen : bytes.length ≤ c.bufSize)
    (w : DescWord) :
    descGet c.regMap (memWriteBytes mem (bufAddr c q j) bytes) (ringPa c r) i w = descGet c.regMap mem (ringPa c r) i w :=
  descGet_congr (fun _ hk => memRead_memWriteBytes_other _ _ _ _ fun _ hl =>
    descByte_ne_bufByte hregions hi hj hk (Nat.lt_of_lt_of_le hl hlen)) w

section
variable {s : State} {p : List Byte} {c : Nat} {rest : List HostOp} (hregions : regionsOk s.cfg = true)
  (hi : c < s.cfg.ringLen) (hfree : slotOwned s .tx c = false) (hfits : (padded s.cfg p).length ≤ s.cfg.bufSize)
include hregions hi hfits

/-- R222, R506: so that the slot's words are those before. -/
theorem descGet_frameStored (w : DescWord) :
    descGet s.cfg.regMap (frameStored s p c) (ringPa s.cfg .tx) c w = slotWord s .tx c w :=
  descGet_memWriteBytes_buffer hregions hi hi _ hfits w

include hfree

/-- R506, R508: HOST's turns at the buffer. -/
theorem exists_hostTurns_bufferOps (hops : s.ops = bufferOps s.cfg p c ++ rest) :
    ∃ n, hostTurns n s = .next { s with mem := frameStored s p c, ops := rest } := by
  unfold frameStored
  by_cases hshort : p.length < max p.length s.cfg.ethMinLen
  · rw [bufferOps, if_pos hshort] at hops
    have hpayload : p.length ≤ s.cfg.bufSize := by
      rw [padded_length] at hfits
      omega
    have hfirst := hostTurn_bufWrite hregions hi hfree (by omega) hops
    rw [BitVec.add_zero] at hfirst
    have hfree' : ownBit (descGet s.cfg.regMap (memWriteBytes s.mem (bufAddr s.cfg .tx c) p) (ringPa s.cfg .tx) c .cmdsts) =
        false := by
      rw [descGet_memWriteBytes_buffer hregions hi hi _ hpayload]
      exact hfree
    have hsecond := hostTurn_bufWrite (s := { s with
        mem := memWriteBytes s.mem (bufAddr s.cfg .tx c) p
        ops := .bufWrite .tx c p.length (List.replicate (max p.length s.cfg.ethMinLen - p.length) 0) :: rest })
      hregions hi hfree' (by rwa [padded, List.length_append] at hfits) rfl
    rw [padded, memWriteBytes_append]
    exact ⟨2, (hostTurns_succ hfirst).trans (hostTurns_one hsecond)⟩
  · rw [bufferOps, if_neg hshort] at hops
    rw [padded_of_not_short hshort] at hfits ⊢
    have hturn := hostTurn_bufWrite hregions hi hfree (by omega) hops
    rw [BitVec.add_zero] at hturn
    exact ⟨1, hostTurns_one hturn⟩

end

/-! ### The release and the kick -/

/-- R501, R506: the memory with the frame and the released descriptor. -/
def frameSent (s : State) (p : List Byte) (c : Nat) (d : Duplex) (v : Speed) : Memory :=
  putWords s.cfg.regMap (ringPa s.cfg .tx) c (frameStored s p c)
    (sendWords s.cfg p c ++ [(.cmdsts, releaseWord (cflags d v))])

theorem descRefusal?_releaseWord_cflags (d : Duplex) (v : Speed) :
    descRefusal? .cmdsts (releaseWord (cflags d v)) = none := by
  cases d <;> cases v <;> decide

/-- R506, R507: from the words of the descriptor on: the release, the cursor and the kick. -/
theorem exists_hostTurns_release {s : State} {p : List Byte} {c : Nat} {d : Duplex} {v : Speed}
    (hparams : paramsOk s.cfg = true) (hregions : regionsOk s.cfg = true) (hopen : windowOpen s = true)
    (hhandle : s.ctx.regHandle ≠ none) (hi : c < s.cfg.ringLen) (hd : s.ctx.duplex = some d) (hv : s.ctx.speed = some v)
    (hfree : slotOwned s .tx c = false)
    (hops : s.ops = (sendWords s.cfg p c).map (wordOp .tx c) ++ [.point (.sendRelease c)]) :
    ∃ n, hostTurns n s = .next { s with
      mem := putWords s.cfg.regMap (ringPa s.cfg .tx) c s.mem
        (sendWords s.cfg p c ++ [(.cmdsts, releaseWord (cflags d v))])
      regs.txCfg := s.cfg.txCfg, tx := kickedEngine s.tx s.regs.txDescBase
      ctx.txCursor := some ((c + 1) % s.cfg.ringLen), ops := [], ret := some .ok } := by
  have hwords := hostTurns_words (ws := sendWords s.cfg p c) hregions hi hfree
    ⟨hostWord_psize _, hostWord_flags s.cfg c (max p.length s.cfg.ethMinLen)⟩ hops
  have hpoint : hostTurn { s with
      mem := putWords s.cfg.regMap (ringPa s.cfg .tx) c s.mem (sendWords s.cfg p c)
      ops := [.point (.sendRelease c)] } = .next { s with
      mem := putWords s.cfg.regMap (ringPa s.cfg .tx) c s.mem (sendWords s.cfg p c)
      ops := releaseOps s.cfg c d v } :=
    hostTurn_point rfl ((withField_set hd _ _).trans (withField_set hv _ _))
  have hrelease := hostTurn_memWrite (s := { s with
      mem := putWords s.cfg.regMap (ringPa s.cfg .tx) c s.mem (sendWords s.cfg p c)
      ops := releaseOps s.cfg c d v }) hregions hi (descRefusal?_releaseWord_cflags d v) (.inl rfl) rfl
  have hdone := hostTurns_txHandOver (s := { s with
      mem := descPut s.cfg.regMap (putWords s.cfg.regMap (ringPa s.cfg .tx) c s.mem (sendWords s.cfg p c))
        (ringPa s.cfg .tx) c .cmdsts (releaseWord (cflags d v))
      ops := [.point (.advanceCursor .tx c), kickOp s.cfg .tx, .point (.finish .ok)] }) hparams hopen hhandle rfl
  rw [putWords_append, putWords_cons, putWords_nil]
  exact ⟨_, (hostTurns_add hwords).trans ((hostTurns_succ hpoint).trans ((hostTurns_succ hrelease).trans hdone))⟩

/-- R506: SEND's first two turns at a slot that HOST owns. -/
theorem hostTurns_sendOwn {s : State} {p : List Byte} {c : Nat} (hfree : slotOwned s .tx c = false) :
    hostTurns 2 { s with ops := [.memRead .tx c .cmdsts, .point (.sendOwn p c)], ret := none } = .next { s with
      hostT := slotWord s .tx c .cmdsts
      ops := bufferOps s.cfg p c ++ ((sendWords s.cfg p c).map (wordOp .tx c) ++ [.point (.sendRelease c)])
      ret := none } := by
  have hread : hostTurn { s with ops := [.memRead .tx c .cmdsts, .point (.sendOwn p c)], ret := none } =
      .next { s with hostT := slotWord s .tx c .cmdsts, ops := [.point (.sendOwn p c)], ret := none } :=
    hostTurn_memRead_cmdsts rfl
  have hpoint : hostTurn { s with
      hostT := slotWord s .tx c .cmdsts, ops := [.point (.sendOwn p c)], ret := none } = .next { s with
      hostT := slotWord s .tx c .cmdsts, ops := sendOps s.cfg p c ++ [], ret := none } :=
    hostTurn_point rfl (if_neg (ne_true_of_eq_false hfree))
  rw [List.append_nil, sendOps_eq] at hpoint
  exact (hostTurns_succ hread).trans (hostTurns_one hpoint)

section
variable {s : State} {p : List Byte} {c : Nat} (hregions : regionsOk s.cfg = true) (hi : c < s.cfg.ringLen)
  (hfits : (padded s.cfg p).length ≤ s.cfg.bufSize) (d : Duplex) (v : Speed)
include hregions hi hfits

/-- R507, R508: the words of the released slot. -/
theorem descGet_frameSent {w : DescWord} {x : Word}
    (hx : wordAfter w (slotWord s .tx c w) (sendWords s.cfg p c ++ [(.cmdsts, releaseWord (cflags d v))]) = x) :
    descGet s.cfg.regMap (frameSent s p c d v) (ringPa s.cfg .tx) c w = x := by
  rw [frameSent, descGet_putWords, descGet_frameStored hregions hi hfits]
  exact hx

/-- R209, R508: the writes of the descriptor leave the frame in the buffer. -/
theorem memReadBytes_frameSent :
    memReadBytes (frameSent s p c d v) (bufAddr s.cfg .tx c) (max p.length s.cfg.ethMinLen) = padded s.cfg p := by
  have hlen : (padded s.cfg p).length ≤ 2 ^ 32 := by
    have htop := (regionFacts hregions).poolTop .tx
    have hend := buf_le hi
    omega
  have hbuffer : memReadBytes (frameSent s p c d v) (bufAddr s.cfg .tx c) (padded s.cfg p).length =
      memReadBytes (frameStored s p c) (bufAddr s.cfg .tx c) (padded s.cfg p).length :=
    memReadBytes_congr _ _ _ _ fun _ hk => memRead_putWords _ _ fun _ hl =>
      (descByte_ne_bufByte hregions hi hi hl (Nat.lt_of_lt_of_le hk hfits)).symm
  rw [← padded_length]
  exact hbuffer.trans (memReadBytes_memWriteBytes _ _ _ hlen)

end

/-- R202: no byte but those of the descriptor and of the frame is written. -/
theorem memRead_frameSent {s : State} {p : List Byte} {c : Nat} (d : Duplex) (v : Speed) {a : Word}
    (hslot : ∀ k, k < 16 → a ≠ slotAddr s .tx c .psize + BitVec.ofNat 32 k)
    (hframe : ∀ k, k < (padded s.cfg p).length → a ≠ bufAddr s.cfg .tx c + BitVec.ofNat 32 k) :
    memRead (frameSent s p c d v) a = memRead s.mem a :=
  (memRead_putWords _ _ hslot).trans (memRead_memWriteBytes_other _ _ _ _ hframe)

/-- Settles O41: the entry, the buffer, the released descriptor, the cursor and the kick. -/
theorem sendQueuesFrame : Obligations.SendQueuesFrame := by
  intro s p c d v hops hp hlink hlong hparams hregions hopen hhandle hc hi hd hv hfree
  obtain ⟨-, -, hmin, hmax⟩ := paramsOk_sizes hparams
  have hn : max p.length s.cfg.ethMinLen ≤ s.cfg.bufSize := Nat.max_le.2 ⟨hlong, hmin⟩
  have hfits : (padded s.cfg p).length ≤ s.cfg.bufSize := by rwa [padded_length]
  obtain ⟨m, hbuffer⟩ := exists_hostTurns_bufferOps (s := { s with
    hostT := slotWord s .tx c .cmdsts
    ops := bufferOps s.cfg p c ++ ((sendWords s.cfg p c).map (wordOp .tx c) ++ [.point (.sendRelease c)])
    ret := none }) hregions hi hfree hfits rfl
  have hfree' : ownBit (descGet s.cfg.regMap (frameStored s p c) (ringPa s.cfg .tx) c .cmdsts) = false := by
    rw [descGet_frameStored hregions hi hfits]
    exact hfree
  obtain ⟨n, hrelease⟩ := exists_hostTurns_release (s := { s with
    mem := frameStored s p c, hostT := slotWord s .tx c .cmdsts
    ops := (sendWords s.cfg p c).map (wordOp .tx c) ++ [.point (.sendRelease c)], ret := none })
    hparams hregions hopen hhandle hi hd hv hfree' rfl
  refine ⟨_, _, _, exec_entrySend_starts hops hp hlink hlong hc,
    (hostTurns_add (hostTurns_sendOwn hfree)).trans ((hostTurns_add hbuffer).trans hrelease), ?_, rfl, ?_, ?_, ?_, ?_, ?_,
    fun a hslot hframe => memRead_frameSent d v hslot (by rwa [padded_length])⟩
  · rw [← hops]
    rfl
  · exact descGet_frameSent hregions hi hfits d v rfl
  · exact descGet_frameSent hregions hi hfits d v (flagsWord_eq _ _ (hn.trans hmax))
  · refine descGet_frameSent hregions hi hfits d v ?_
    cases d <;> cases v <;> rfl
  · exact memReadBytes_frameSent hregions hi hfits d v
  · exact descGet_frameSent hregions hi hfits d v rfl

end Sys2Proof.Machine
end
